-- ==== Sys2Proof/Word.lean ====
section
/-! DEFINITION. The word types of the KN412 and the plainest arithmetic on them. -/

namespace Sys2Proof

/-- One byte of a frame, of a record or of a field line. -/
abbrev Byte := BitVec 8

/-- A 16-bit value: a Tag, a PollSeq, a digest, a counter. -/
abbrev Half := BitVec 16

/-- A trunk sequence number, counted modulo 64 (00_scope, "Sequence arithmetic"). -/
abbrev Seq := BitVec 6

/-- `ceil (n / k)`. -/
def ceilDiv (n k : Nat) : Nat := (n + k - 1) / k

/-- Apply `f` to every element of a vector, in a form the kernel evaluates. -/
def mapVec {α β : Type} {n : Nat} (f : α → β) (v : Vector α n) : Vector β n :=
  ⟨⟨v.toArray.toList.map f⟩, by simp⟩

/-- One flag as a byte: 0 off, 1 on. -/
def boolByte (b : Bool) : Byte := if b then 1 else 0

end Sys2Proof
end

