-- ==== Sys2Proof/Syntax.lean ====
section
/-! DEFINITION. The commands of the KN412: one constructor for each row of spec/opcode_table.json. A line
operand is a `Fin 12` (`i` stands for line `i + 1`), a poll operand a `Fin 128` (the PollId). A trunk frame is
carried as its bytes on the line, header to CRC (R138). A record command (LINE_REQUEST to ECHO) has no operand:
it is the dispatch of the record that stands at the dispatch offset of the head intake frame (R124). -/

namespace Sys2Proof

/-- The commands, in the table's order. -/
inductive Instr where
  /-- COLD_START (R188). -/
  | coldStart
  /-- DATA_FRAME (R148): the received bytes of a DATA frame. -/
  | dataFrame (bytes : List Byte)
  /-- CTRL_FRAME (R147): the received bytes of a CTRL frame. -/
  | ctrlFrame (bytes : List Byte)
  /-- SYNC (R144): the received bytes of a SYNC frame. -/
  | sync (bytes : List Byte)
  /-- SYNC_ACK (R143): the received bytes of a SYNC_ACK frame. -/
  | syncAck (bytes : List Byte)
  /-- BAD_FRAME (R140): the received bytes of a frame that fails a check. -/
  | badFrame (bytes : List Byte)
  /-- FRAME_TRANSMITTED (R160). -/
  | frameTransmitted
  /-- SYNC_TIMER_EXPIRY (R142). -/
  | syncTimerExpiry
  /-- SILENCE_TIMER_EXPIRY (R158). -/
  | silenceTimerExpiry
  /-- RETRANSMIT_TIMER_EXPIRY (R153). -/
  | retransmitTimerExpiry
  /-- KEEPALIVE_TIMER_EXPIRY (R159). -/
  | keepaliveTimerExpiry
  /-- ACKDELAY_TIMER_EXPIRY (R150). -/
  | ackDelayTimerExpiry
  /-- HOLD_TIMER_EXPIRY (R133). -/
  | holdTimerExpiry
  /-- DELAY_DEADLINE_REACHED (R110). -/
  | delayDeadlineReached
  /-- NEXTDUE_REACHED (R72): the entry that reaches its NextDue. -/
  | nextDueReached (poll : Fin 128)
  /-- WAIT_LIST_GRANT (R97). -/
  | waitListGrant
  /-- DELEAD_END (R36). -/
  | deleadEnd (line : Fin 12)
  /-- CHARACTER_SENT (R37). -/
  | characterSent (line : Fin 12)
  /-- DEHOLD_END (R8). -/
  | deholdEnd (line : Fin 12)
  /-- ECHO_DEADLINE (R44). -/
  | echoDeadline (line : Fin 12)
  /-- START_BIT (R39). -/
  | startBit (line : Fin 12)
  /-- CHARACTER_COMPLETE (R40): the bits sampled: the data bits (bit 0 the first after the start bit), the parity
  bit (of no account when Parity is NONE) and the first stop bit. -/
  | characterComplete (line : Fin 12) (data : Byte) (parity stop : Bool)
  /-- BREAK_START (R41). -/
  | breakStart (line : Fin 12)
  /-- BREAK_END (R41). -/
  | breakEnd (line : Fin 12)
  /-- POST_BREAK_IDLE_END (R42). -/
  | postBreakIdleEnd (line : Fin 12)
  /-- GAP_COUNT_END (R46). -/
  | gapCountEnd (line : Fin 12)
  /-- REPLY_WINDOW_EXPIRY (R10). -/
  | replyWindowExpiry (line : Fin 12)
  /-- GUARD_END (R20). -/
  | guardEnd (line : Fin 12)
  /-- LINE_REQUEST (R126). -/
  | lineRequest
  /-- MALFORMED_RECORD (R125). -/
  | malformedRecord
  /-- BAD_COMMAND (R167). -/
  | badCommand
  /-- IDENTIFY (R170). -/
  | identify
  /-- LINK_CONFIG (R172). -/
  | linkConfig
  /-- LINK_READ (R173). -/
  | linkRead
  /-- LINE_CONFIG (R175). -/
  | lineConfig
  /-- LINE_READ (R177). -/
  | lineRead
  /-- LINE_ABORT (R26). -/
  | lineAbort
  /-- KNOWN_SET (R179). -/
  | knownSet
  /-- POLL_SET (R85). -/
  | pollSet
  /-- POLL_CLEAR (R86). -/
  | pollClear
  /-- POLL_READ (R88). -/
  | pollRead
  /-- POLL_RUN (R182). -/
  | pollRun
  /-- COUNTER_READ (R183). -/
  | counterRead
  /-- RESTART (R185). -/
  | restart
  /-- ECHO (R184). -/
  | echo
  /-- RETURN_TO_MARK (R46). -/
  | returnToMark (line : Fin 12)
  deriving DecidableEq, Repr

end Sys2Proof
end

