-- ==== Sys2Proof/Config.lean ====
section
/-! DEFINITION. The dimensions the spec fixes for the part (R90, R94, R95, R122, R138, R170). The spec
leaves no result of a command unstated, so there is no free value here. -/

namespace Sys2Proof.Config

/-- Blocks in the pool (R90). -/
def poolBlocks : Nat := 1024
/-- Bytes in a block (R90). -/
def blockSize : Nat := 32
/-- Slots of the record table (R94). -/
def recordSlots : Nat := 256
/-- Slots of the event store (R95). -/
def eventSlots : Nat := 16
/-- Intake slots (R122). -/
def intakeSlots : Nat := 8
/-- Frames outstanding at most (R109). -/
def window : Nat := 8
/-- Payload bytes of a frame at most (R138). -/
def maxPayload : Nat := 480
/-- Blocks of the management reserve (R92). -/
def reserveBlocks : Nat := 16
/-- Record slots of the management reserve (R92). -/
def reserveSlots : Nat := 8
/-- Lines of the part. -/
def lineCount : Nat := 12
/-- Entries of the poll table (R66). -/
def pollCount : Nat := 128
/-- Vendor code (R170). -/
def vendorCode : Half := 0x41D3
/-- Part code (R170). -/
def partCode : Half := 0x0412
/-- Revision (R170). -/
def revision : Byte := 1
/-- A wait longer than this many ms is counted as this many (R208). -/
def longestWait : Nat := 2 ^ 31

/-- Blocks that `n` bytes occupy (R90). -/
def blocksFor (n : Nat) : Nat := ceilDiv n blockSize

end Sys2Proof.Config
end

