-- ==== Sys2Proof/Machine/Frames.lean ====
section
/-! DEFINITION. Trunk frames as bytes: the two check values (R77, R139), the byte order (R204), the frame checks
(R140) and the frame header (section 11.2). -/

namespace Sys2Proof.Machine

/-- Byte `i` of a block of bytes, 0 past its end. -/
def byteAt (b : List Byte) (i : Nat) : Byte := b.getD i 0

/-- The two-byte field at `i`, most significant byte first (R204). -/
def halfAt (b : List Byte) (i : Nat) : Half := byteAt b i ++ byteAt b (i + 1)

/-- A 16-bit value as bytes, most significant first (R204). -/
def halfBytes (w : Half) : List Byte := [w.extractLsb' 8 8, w.extractLsb' 0 8]

/-- A number as a 16-bit field. -/
def natHalf (n : Nat) : List Byte := halfBytes (BitVec.ofNat 16 n)

/-- A 32-bit value as bytes, most significant first (R204). -/
def wordBytes (w : BitVec 32) : List Byte :=
  [w.extractLsb' 24 8, w.extractLsb' 16 8, w.extractLsb' 8 8, w.extractLsb' 0 8]

/-- The bits of a byte, most significant first. -/
def bitsOf (x : Byte) : List Bool := [7, 6, 5, 4, 3, 2, 1, 0].map x.getLsbD

/-- One bit of the frame check value (R139). -/
def crcBit (reg : BitVec 32) (b : Bool) : BitVec 32 :=
  if b != reg.msb then (reg <<< 1) ^^^ 0x04C11DB7#32 else reg <<< 1

/-- One byte of the frame check value (R139). -/
def crcByte (reg : BitVec 32) (x : Byte) : BitVec 32 := (bitsOf x).foldl crcBit reg

/-- The CRC of a frame over its header and payload (R139). -/
def frameCrc (b : List Byte) : BitVec 32 := ~~~ (b.foldl crcByte 0xFFFFFFFF#32)

/-- One bit of the poll digest (R77). -/
def digestBit (reg : Half) (b : Bool) : Half :=
  if b != reg.msb then (reg <<< 1) ^^^ 0x1021#16 else reg <<< 1

/-- One byte of the poll digest (R77). -/
def digestByte (reg : Half) (x : Byte) : Half := (bitsOf x).foldl digestBit reg

/-- The digest of an OK reply: over the count of kept bytes, then the bytes (R77). -/
def digest (data : List Byte) : Half :=
  (BitVec.ofNat 8 data.length :: data).foldl digestByte 0xFFFF#16

/-- The four kinds of trunk frame (R138). -/
inductive FrameKind where
  | data | ctrl | sync | syncAck
  deriving DecidableEq, Repr

/-- The Kind byte (section 11.2). -/
def FrameKind.code : FrameKind → Byte
  | .data => 0x01 | .ctrl => 0x02 | .sync => 0x03 | .syncAck => 0x04

/-- The kind a Kind byte stands for (R205). -/
def FrameKind.ofCode (c : Byte) : Option FrameKind :=
  if c = 0x01 then some .data else if c = 0x02 then some .ctrl
  else if c = 0x03 then some .sync else if c = 0x04 then some .syncAck else none

/-- A received frame that has passed the checks: its header fields and its payload. -/
structure RxFrame where
  kind : FrameKind
  reject : Bool
  seq : Seq
  ackSeq : Seq
  allow : Nat
  payload : List Byte
  deriving DecidableEq, Repr

/-- What the frame checks find (R140). -/
inductive FrameCheck where
  /-- Fails its size, kind or sync payload check: counted in MalformedFrames. -/
  | malformed
  /-- Fails its CRC check: counted in CrcErrors. -/
  | crcError
  /-- Passes every check. -/
  | good (f : RxFrame)
  deriving DecidableEq, Repr

/-- Size check: 10 to 490 bytes, and 10 + Length of them (R140). -/
def sizeOk (b : List Byte) : Bool :=
  10 ≤ b.length && b.length ≤ 490 && b.length == 10 + (halfAt b 4).toNat

/-- CRC check: the last four bytes are the CRC of the rest (R139, R140). -/
def crcOk (b : List Byte) : Bool :=
  b.drop (b.length - 4) == wordBytes (frameCrc (b.take (b.length - 4)))

/-- Read the header of a frame whose kind is known (R205); reserved bits are ignored (R204). -/
def readHeader (k : FrameKind) (b : List Byte) : RxFrame :=
  { kind := k
    reject := (byteAt b 1).getLsbD 7
    seq := (byteAt b 1).extractLsb' 0 6
    ackSeq := (byteAt b 2).extractLsb' 0 6
    allow := ((byteAt b 3).extractLsb' 0 4).toNat
    payload := (b.drop 6).take (halfAt b 4).toNat }

/-- A SYNC or SYNC_ACK carries a sync payload of at least 4 bytes (R140, R206). -/
def syncPayloadOk (k : FrameKind) (b : List Byte) : Bool :=
  match k with
  | .data => true
  | .ctrl => true
  | .sync => 4 ≤ (halfAt b 4).toNat
  | .syncAck => 4 ≤ (halfAt b 4).toNat

/-- The checks of R140, in their order. -/
def checkFrame (b : List Byte) : FrameCheck :=
  if !sizeOk b then .malformed
  else if !crcOk b then .crcError
  else match FrameKind.ofCode (byteAt b 0) with
    | none => .malformed
    | some k => if syncPayloadOk k b then .good (readHeader k b) else .malformed

/-- The frame these bytes are when they pass the checks and are of kind `k`. -/
def frameOf (k : FrameKind) (b : List Byte) : Option RxFrame :=
  match checkFrame b with
  | .good f => if f.kind = k then some f else none
  | .malformed => none
  | .crcError => none

/-- A credit as it counts: 9 to 15 count as 8 (R138). -/
def countedAllow (a : Nat) : Nat := min 8 a

/-- Header and payload of a sent frame (section 11.2). -/
def frameHead (k : FrameKind) (reject : Bool) (seq ackSeq : Seq) (allow : Nat) (payload : List Byte) :
    List Byte :=
  [k.code, (if reject then 1#1 else 0#1) ++ 0#1 ++ seq, 0#2 ++ ackSeq, 0#4 ++ BitVec.ofNat 4 allow]
    ++ natHalf payload.length ++ payload

/-- The bytes of a frame on the line: header, payload, CRC (R138, R139). -/
def frameBytes (k : FrameKind) (reject : Bool) (seq ackSeq : Seq) (allow : Nat) (payload : List Byte) :
    List Byte :=
  frameHead k reject seq ackSeq allow payload
    ++ wordBytes (frameCrc (frameHead k reject seq ackSeq allow payload))

end Sys2Proof.Machine
end

