-- ==== Sys2Proof/Machine/State.lean ====
section
/-! DEFINITION. The state of the part, as plain data, and its cold-start contents (R188, section 9.6). -/

namespace Sys2Proof.Machine

/-- Why a step may stop with a fault: the spec names no such condition, so there is no constructor. -/
inductive Fault where
  deriving DecidableEq, Repr

/-- Why a step may be refused. -/
inductive Refusal where
  /-- Raised by an arm of `exec` whose command has no meaning yet (safe: nothing is said of it). -/
  | notModelled (mnemonic : String)
  deriving DecidableEq, Repr

/-- Transaction states of a line (section 1.1). -/
inductive TxnState where
  | offline | idle | waitSpace | ready | sending | turnaround | awaiting | receiving | guard
  deriving DecidableEq, Repr

/-- Listen states of a line (R2). -/
inductive Listen where
  | quiet | listening | brk
  deriving DecidableEq, Repr

/-- Parity setting (R35). -/
inductive Parity where
  | none | even | odd
  deriving DecidableEq, Repr

/-- Which outcomes are retried (R15). -/
inductive RetryOn where
  | noReplyOnly | noReplyAndCharError
  deriving DecidableEq, Repr

/-- UnsolicitedPolicy (R21). -/
inductive Policy where
  | drop | forward | forwardKnown
  deriving DecidableEq, Repr

/-- ReportMode of a poll entry (R78). -/
inductive ReportMode where
  | every | change | changeQuietErrors
  deriving DecidableEq, Repr

/-- Outcomes (section 11.6); the last six are refusals. -/
inductive TxnOutcome where
  | ok | noReply | charError | overlength | brk | collision | aborted
  | queueFull | badLine | lineOffline | badParam | noSpace | flushed
  deriving DecidableEq, Repr

/-- Statuses of a management response (R167). -/
inductive Status where
  | done | staged | busy | badParam | badCommand | noEntry | badFormat
  deriving DecidableEq, Repr

/-- Causes carried in the sync payload (section 8.2). -/
inductive SyncCause where
  | coldStart | warmRestart | silence | retryFail | peerSync
  deriving DecidableEq, Repr

/-- Event kinds (R196). -/
inductive EventKind where
  | coldStart | warmRestart | linkRestored | profileApplied | poolLow | poolRecovered
  | mgmtDropped | lineBreak | counterHalf | badRecord
  deriving DecidableEq, Repr

/-- A line profile (section 2.1). -/
structure Profile where
  enabled : Bool
  rateCode : Nat
  divisor : Nat
  dataBits : Nat
  parity : Parity
  stopBits : Nat
  deLead : Nat
  deHold : Nat
  echoCheck : Bool
  gapTime : Nat
  termChar : Bool
  termValue : Byte
  maxReply : Nat
  replyTimeout : Nat
  guardTime : Nat
  retries : Nat
  retryOn : RetryOn
  matchFirst : Bool
  policy : Policy
  queueDepth : Nat
  ageLimit : Nat
  deriving DecidableEq, Repr

/-- The cold-start profile (section 2.1). -/
def Profile.default : Profile :=
  { enabled := false, rateCode := 3, divisor := 192, dataBits := 8, parity := .none, stopBits := 1,
    deLead := 1, deHold := 1, echoCheck := false, gapTime := 40, termChar := false, termValue := 0x0D,
    maxReply := 255, replyTimeout := 200, guardTime := 5, retries := 2, retryOn := .noReplyOnly,
    matchFirst := false, policy := .drop, queueDepth := 8, ageLimit := 1000 }

/-- A controller request as the line queue holds it (R53). -/
structure Request where
  tag : Half
  urgent : Bool
  noReply : Bool
  suppressRetry : Bool
  expectLen : Option Nat
  payload : List Byte
  arrival : Nat
  deriving DecidableEq, Repr

/-- The kind of work of a transaction (R3). -/
inductive Work where
  | request (r : Request)
  /-- A poll with the Missed value frozen at selection (R75). -/
  | poll (id : Fin 128) (missed : Nat)
  deriving DecidableEq, Repr

/-- A frame being assembled from received characters (R12, R21). -/
structure Assembly where
  /-- The characters kept, in order. -/
  kept : List Byte
  /-- The characters completed, kept or not (R48). -/
  count : Nat
  /-- A character came after MaxReply were kept. -/
  overlong : Bool
  /-- Position of the first kept character with an error (R12). -/
  errorAt : Option Nat
  deriving DecidableEq, Repr

/-- Nothing received yet. -/
def Assembly.empty : Assembly := { kept := [], count := 0, overlong := false, errorAt := none }

/-- The transaction in hand (R3). -/
structure Txn where
  work : Work
  attempts : Nat
  /-- The reservation in blocks; absent in WAIT_SPACE. -/
  reservation : Option Nat
  /-- The reply window remaining, recorded at suspension (R11). -/
  windowLeft : Nat
  abortPending : Bool
  noReplyLast : Bool
  /-- An echo failure was found and the character in progress is being finished (R44). -/
  echoFailed : Bool
  reply : Assembly
  deriving DecidableEq, Repr

/-- How an unsolicited frame in progress is treated (R21, R23, R26). -/
inductive UnsolMode where
  /-- Its first character is not complete yet. -/
  | undecided
  /-- Kept in a reservation of so many blocks and a record slot. -/
  | keep (blocks : Nat)
  /-- Received in discard mode under DROP. -/
  | drop
  /-- Received in discard mode, its reservation refused (R23). -/
  | lost
  /-- Received in discard mode after a LINE_ABORT (R26). -/
  | aborted
  deriving DecidableEq, Repr

/-- An unsolicited frame in progress (R21). -/
structure Unsolicited where
  mode : UnsolMode
  frame : Assembly
  /-- The LateTag when the frame is Late (R24). -/
  late : Option Half
  deriving DecidableEq, Repr

/-- An item of a due list (R55). -/
structure DueItem where
  poll : Fin 128
  time : Nat
  deriving DecidableEq, Repr

/-- One line: its engine, its scheduler's two collections, its character engine and its known-address list. -/
structure Line where
  txn : TxnState
  listen : Listen
  /-- The LDEn pin (R36). -/
  lde : Bool
  /-- LTXn: the character going out (its levels are `Profile.charLevels`), or mark (R36). -/
  charOut : Option Byte
  applied : Profile
  staged : Option Profile
  hand : Option Txn
  unsolicited : Option Unsolicited
  /-- The Late mark with its LateTag (R24). -/
  lateMark : Option Half
  guardEnd : Option Nat
  window : Option Nat
  deLead : Option Nat
  deHold : Option Nat
  gap : Option Nat
  /-- A character completed with LRXn at space; its gap count waits for mark (R46). -/
  awaitMark : Bool
  postBreak : Option Nat
  /-- A break is in progress on LRXn (R41). -/
  brk : Bool
  /-- The receiver is busy with a character (R39). -/
  rxBusy : Bool
  /-- The listen state that stood before the edge of the character in progress (R25). -/
  edgeListen : Listen
  /-- Characters of the attempt sent to the end of their stop bits. -/
  sent : Nat
  /-- Characters of the attempt echoed good (R43). -/
  echoed : Nat
  queue : List Request
  due : List DueItem
  known : List Byte
  deriving DecidableEq, Repr

/-- A line after cold start (R1, R51, R53, R55). -/
def Line.reset : Line :=
  { txn := .offline, listen := .quiet, lde := false, charOut := none, applied := Profile.default,
    staged := none, hand := none, unsolicited := none, lateMark := none, guardEnd := none, window := none,
    deLead := none, deHold := none, gap := none, awaitMark := false, postBreak := none, brk := false,
    rxBusy := false, edgeListen := .quiet, sent := 0, echoed := 0, queue := [], due := [], known := [] }

/-- States of a poll entry that holds a poll (R67); an EMPTY entry is absent from the table's place. -/
inductive PollState where
  | waiting | due | inFlight | retiring
  deriving DecidableEq, Repr

/-- The definition of a poll entry (R66). -/
structure PollDef where
  line : Fin 12
  period : Nat
  phase : Nat
  mode : ReportMode
  forceEvery : Nat
  expectLen : Option Nat
  request : List Byte
  deriving DecidableEq, Repr

/-- A poll entry that is not EMPTY (R66). -/
structure Poll where
  state : PollState
  defn : PollDef
  nextDue : Option Nat
  pollSeq : Half
  lastDigest : Option Half
  lastOutcome : Option TxnOutcome
  missed : Nat
  suppressed : Nat
  deriving DecidableEq, Repr

/-- Contents of an uplink record (section 11.4), the Resent flag apart. -/
inductive Body where
  | reply (tag : Half) (line : Byte) (outcome : TxnOutcome) (attempts : Nat) (errorAt : Option Nat)
      (data : List Byte)
  | pollResult (id : Fin 128) (line : Fin 12) (pollSeq : Half) (outcome : TxnOutcome) (missed : Nat)
      (forced : Bool) (errorAt : Option Nat) (data : List Byte)
  | unsolicited (line : Fin 12) (outcome : TxnOutcome) (late : Option Half) (stray : Bool)
      (known : Option Nat) (errorAt : Option Nat) (data : List Byte)
  | event (kind : EventKind) (line : Byte) (missed : Nat) (detail : BitVec 32)
  | response (tag : Half) (command : Byte) (status : Status) (data : List Byte)
  deriving DecidableEq, Repr

/-- A record in the uplink queue or in a frame of the retransmit list (R105, R106). -/
structure Record where
  body : Body
  urgent : Bool
  resent : Bool
  /-- Blocks it holds; an EVENT holds none (R95). -/
  blocks : Nat
  joinTime : Nat
  deadline : Nat
  deriving DecidableEq, Repr

/-- A frame of the retransmit list (R151). -/
structure SentFrame where
  seq : Seq
  records : List Record
  /-- Still to be resent in the go-back in progress (R156). -/
  toResend : Bool
  deriving DecidableEq, Repr

/-- A frame on the trunk transmitter (R160, R162): its header as placed when transmission began. -/
structure TxFrame where
  kind : FrameKind
  reject : Bool
  seq : Seq
  ackSeq : Seq
  allow : Nat
  payload : List Byte
  /-- It is a frame resent in a go-back (R156). -/
  goBack : Bool
  deriving DecidableEq, Repr

/-- The trunk interface (section 8.2). -/
structure Trunk where
  up : Bool
  /-- The LINK_UP pin (R141). -/
  linkUpPin : Bool
  epoch : Byte
  cause : SyncCause
  lastAccepted : Option Seq
  anyAccepted : Bool
  upBefore : Bool
  downSince : Nat
  nextSeq : Seq
  peerAck : Seq
  peerAllow : Nat
  expiries : Nat
  goBack : Bool
  retransmits : List SentFrame
  expectSeq : Seq
  rejectSent : Bool
  rejectPending : Bool
  ackPending : Bool
  syncTimer : Option Nat
  ackDelayTimer : Option Nat
  retransmitTimer : Option Nat
  silenceTimer : Option Nat
  keepaliveTimer : Option Nat
  syncPending : Bool
  /-- A SYNC_ACK is pending, with the controller's epoch it echoes (R144). -/
  syncAckPending : Option Byte
  /-- CTRL reasons of choice 2 (R160): acknowledgement of a duplicate, Allow risen from 0, opening CTRL. -/
  ackNow : Bool
  allowRose : Bool
  opening : Bool
  /-- CTRL reasons of choices 5 and 6 (R160). -/
  ackOnly : Bool
  keepaliveDue : Bool
  tx : Option TxFrame
  deriving DecidableEq, Repr

/-- The trunk interface after cold start (section 8.2, R188). -/
def Trunk.reset : Trunk :=
  { up := false, linkUpPin := false, epoch := 1, cause := .coldStart, lastAccepted := none,
    anyAccepted := false, upBefore := false, downSince := 0, nextSeq := 0, peerAck := 0, peerAllow := 0,
    expiries := 0, goBack := false, retransmits := [], expectSeq := 0, rejectSent := false,
    rejectPending := false, ackPending := false, syncTimer := some 100, ackDelayTimer := none,
    retransmitTimer := none, silenceTimer := none, keepaliveTimer := none, syncPending := true,
    syncAckPending := none, ackNow := false, allowRose := false, opening := false, ackOnly := false,
    keepaliveDue := false, tx := none }

/-- The link configuration (R163). -/
structure LinkConfig where
  ackDelay : Nat
  retransmitTimeout : Nat
  maxRetransmits : Nat
  silenceLimit : Nat
  syncInterval : Nat
  batchCount : Nat
  batchDelay : Nat
  holdLimit : Nat
  lowMark : Nat
  highMark : Nat
  deriving DecidableEq, Repr

/-- The default link configuration (R163). -/
def LinkConfig.default : LinkConfig :=
  { ackDelay := 2, retransmitTimeout := 50, maxRetransmits := 6, silenceLimit := 500, syncInterval := 100,
    batchCount := 4, batchDelay := 5, holdLimit := 1000, lowMark := 64, highMark := 128 }

/-- Allocation classes (R92). -/
inductive AllocClass where
  | line | response
  deriving DecidableEq, Repr

/-- What an allocation asks for (section 5.2). -/
structure Need where
  blocks : Nat
  slot : Bool
  cls : AllocClass
  deriving DecidableEq, Repr

/-- Who waits on the wait list (R93). -/
inductive WaiterId where
  | line (i : Fin 12)
  | intake
  deriving DecidableEq, Repr

/-- A waiter with the allocation it waits for (R97). -/
structure Waiter where
  who : WaiterId
  need : Need
  deriving DecidableEq, Repr

/-- The block pool, the record table and the event store (chapter 5). -/
structure Pool where
  free : Nat
  reserved : Nat
  held : Nat
  slotsUsed : Nat
  eventsUsed : Nat
  waitList : List Waiter
  hold : Bool
  minFree : Nat
  /-- The pending count of missed events (R199). -/
  missedEvents : Nat
  deriving DecidableEq, Repr

/-- The pool after cold start: the COLD_START event holds one event slot (R90). -/
def Pool.reset : Pool :=
  { free := 1024, reserved := 0, held := 0, slotsUsed := 0, eventsUsed := 1, waitList := [], hold := false,
    minFree := 1024, missedEvents := 0 }

/-- A LINE_REQUEST record as dispatched (R126). -/
structure LineRequest where
  tag : Half
  line : Byte
  urgent : Bool
  noReply : Bool
  suppressRetry : Bool
  expectLen : Option Nat
  payload : List Byte
  deriving DecidableEq, Repr

/-- A MGMT_REQUEST record as dispatched (R129). -/
structure MgmtRequest where
  tag : Half
  code : Byte
  params : List Byte
  deriving DecidableEq, Repr

/-- The stalled record of the intake unit and what its allocation is for (R131). -/
inductive Stall where
  | payload (r : LineRequest)
  | refusal (r : LineRequest) (o : TxnOutcome)
  | command (m : MgmtRequest)
  deriving DecidableEq, Repr

/-- An occupied intake slot (R122). -/
structure IntakeFrame where
  seq : Seq
  payload : List Byte
  offset : Nat
  deriving DecidableEq, Repr

/-- The intake unit (R122): the intake list holds the occupied slots. -/
structure Intake where
  frames : List IntakeFrame
  stall : Option Stall
  holdTimer : Option Nat
  deriving DecidableEq, Repr

/-- The intake unit after cold start (R122). -/
def Intake.reset : Intake := { frames := [], stall := none, holdTimer := none }

/-- A counter with its half-range flag (R190): `half` is the flag set, its absence armed. -/
structure Counter where
  value : Half
  half : Bool
  deriving DecidableEq, Repr

/-- A counter at 0 with its flag armed. -/
def Counter.zero : Counter := { value := 0, half := false }

/-- The counter bank (R190). -/
structure Counters where
  link : Vector Counter 14
  pool : Vector Counter 4
  line : Vector (Vector Counter 15) 12
  deriving DecidableEq, Repr

/-- Every counter 0 and every flag armed (R190). -/
def Counters.reset : Counters :=
  { link := .replicate 14 .zero, pool := .replicate 4 .zero, line := .replicate 12 (.replicate 15 .zero) }

/-- The part, and the queue of commands that wait for it. -/
structure State where
  /-- Milliseconds since RESET_N returned high (R208). -/
  clock : Nat
  trunk : Trunk
  cfg : LinkConfig
  pool : Pool
  uplink : List Record
  /-- COUNTER_HALF records of the arrival being taken, which join behind its other records (R197). -/
  late : List Record
  /-- Requesters granted by the arrival being taken that have still to act, in the order of their grants (R97). -/
  granted : List WaiterId
  intake : Intake
  lines : Vector Line 12
  polls : Vector (Option Poll) 128
  pollRun : Bool
  ctrs : Counters
  pending : List Instr
  deriving DecidableEq, Repr

/-- The timebase reading: 32 bits, wrapping (R208). -/
def State.reading (s : State) : BitVec 32 := BitVec.ofNat 32 s.clock

/-- The COLD_START EVENT record (R203), stamped at reading 0 under the default BatchDelay (R106). -/
def coldStartRecord : Record :=
  { body := .event .coldStart 0 0 0, urgent := true, resent := false, blocks := 0, joinTime := 0,
    deadline := 5 }

/-- The part right after RESET_N has returned high (R188, section 9.6). -/
def State.reset : State :=
  { clock := 0, trunk := Trunk.reset, cfg := LinkConfig.default, pool := Pool.reset,
    uplink := [coldStartRecord], late := [], granted := [], intake := Intake.reset, lines := .replicate 12 Line.reset,
    polls := .replicate 128 none, pollRun := false, ctrs := Counters.reset, pending := [] }

/-- Line `i` (line number `i + 1`). -/
def State.line (s : State) (i : Fin 12) : Line := s.lines.get i
/-- Put line `i`. -/
def State.setLine (s : State) (i : Fin 12) (l : Line) : State := { s with lines := s.lines.set i.val l i.isLt }
/-- Poll entry `p`; absent when EMPTY. -/
def State.poll (s : State) (p : Fin 128) : Option Poll := s.polls.get p
/-- Put poll entry `p`. -/
def State.setPoll (s : State) (p : Fin 128) (e : Option Poll) : State :=
  { s with polls := s.polls.set p.val e p.isLt }
/-- Put the trunk interface. -/
def State.setTrunk (s : State) (t : Trunk) : State := { s with trunk := t }
/-- Put the pool. -/
def State.setPool (s : State) (p : Pool) : State := { s with pool := p }
/-- Put the intake unit. -/
def State.setIntake (s : State) (k : Intake) : State := { s with intake := k }
/-- Put the counter bank. -/
def State.setCtrs (s : State) (c : Counters) : State := { s with ctrs := c }
/-- Put the uplink queue. -/
def State.setUplink (s : State) (u : List Record) : State := { s with uplink := u }
/-- Put the records that still have to join. -/
def State.setLate (s : State) (u : List Record) : State := { s with late := u }
/-- Put the requesters that have still to act. -/
def State.setGranted (s : State) (g : List WaiterId) : State := { s with granted := g }
/-- Put the link configuration. -/
def State.setCfg (s : State) (c : LinkConfig) : State := { s with cfg := c }
/-- Put PollRun. -/
def State.setPollRun (s : State) (b : Bool) : State := { s with pollRun := b }
/-- Put the command queue. -/
def State.setPending (s : State) (q : List Instr) : State := { s with pending := q }

end Sys2Proof.Machine
end

