-- ==== Sys2Proof/Machine/Flags.lean ====
section
/-! DEFINITION. The marks and decisions computed from data: character error marks (R40), rates and character lengths
(R34, R35), frame keeping and outcomes (R12), retries (R15), selection (R58, R59) and poll reports (R78, R79). -/

namespace Sys2Proof.Machine

/-- The divisor of a line's rate (R34). -/
def Profile.rateDivisor (p : Profile) : Nat :=
  match p.rateCode with
  | 0 => 1536 | 1 => 768 | 2 => 384 | 3 => 192 | 4 => 96 | 5 => 48 | 6 => 32 | 7 => 16
  | _ => p.divisor

/-- The length of a character in bits (R35). -/
def Profile.charBits (p : Profile) : Nat :=
  1 + p.dataBits + (if p.parity = .none then 0 else 1) + p.stopBits

/-- A count of bit times in units of 1/1,843,200 s (R34). -/
def Profile.bitTicks (p : Profile) (bits : Nat) : Nat := bits * p.rateDivisor

/-- A byte as it goes on the line: its seven low bits with DataBits 7 (R35). -/
def Profile.onLine (p : Profile) (b : Byte) : Byte := if p.dataBits = 7 then b &&& 0x7F else b

/-- Whether a byte holds an odd number of ones. -/
def oddOnes (b : Byte) : Bool := (bitsOf b).foldl (fun a x => a != x) false

/-- The parity bit sent with a byte (R35). -/
def Profile.parityBit (p : Profile) (b : Byte) : Bool :=
  match p.parity with
  | .none => true
  | .even => oddOnes (p.onLine b)
  | .odd => !oddOnes (p.onLine b)

/-- The levels LTXn takes for a byte, one a bit time, mark being true: the start bit, the data bits with the least
significant first, the parity bit where there is one, the stop bits (R35, R36). -/
def Profile.charLevels (p : Profile) (b : Byte) : List Bool :=
  [false] ++ (List.range p.dataBits).map b.getLsbD ++ (if p.parity = .none then [] else [p.parityBit b])
    ++ List.replicate p.stopBits true

/-- A received character (R40). -/
structure RxChar where
  value : Byte
  parityError : Bool
  framingError : Bool
  /-- LRXn is at mark at the completion (R46). -/
  atMark : Bool
  deriving DecidableEq, Repr

/-- Every sample of the character was at space (R40). -/
def allSpace (p : Profile) (data : Byte) (parity stop : Bool) : Bool :=
  p.onLine data == 0 && (p.parity == .none || !parity) && !stop

/-- The character from its samples (R39, R40). A character all at space completes at the return to mark. -/
def rxChar (p : Profile) (data : Byte) (parity stop : Bool) : RxChar :=
  { value := p.onLine data
    parityError := p.parity != .none && parity != p.parityBit data
    framingError := !stop
    atMark := stop || allSpace p data parity stop }

/-- An error character has either mark set (R40). -/
def RxChar.bad (c : RxChar) : Bool := c.parityError || c.framingError

/-- Keep a character if fewer than MaxReply are kept, else mark the frame overlength (R12, R21). -/
def Assembly.take (a : Assembly) (maxReply : Nat) (c : RxChar) : Assembly :=
  if a.kept.length < maxReply then
    { kept := a.kept ++ [c.value], count := a.count + 1, overlong := a.overlong,
      errorAt := if a.errorAt.isNone && c.bad then some a.kept.length else a.errorAt }
  else { kept := a.kept, count := a.count + 1, overlong := true, errorAt := a.errorAt }

/-- The outcome of a frame that ended, by a break start or not (R12). -/
def Assembly.outcome (a : Assembly) (byBreak : Bool) : TxnOutcome :=
  if byBreak then .brk
  else if a.overlong then .overlength
  else if a.errorAt.isSome then .charError
  else .ok

/-- A character that ends a reply as the terminator (R49). -/
def isTerminator (p : Profile) (c : RxChar) : Bool :=
  p.termChar && !c.bad && c.value == p.onLine p.termValue

/-- A reply frame has reached its ExpectLen (R48). -/
def expectReached (e : Option Nat) (count : Nat) : Bool :=
  match e with
  | none => false
  | some n => n ≤ count

/-- Blocks of a reservation that hold data: from the first byte placed, header space included (R91). -/
def filledBlocks (header : Nat) (kept : Nat) : Nat :=
  if kept = 0 then 0 else Config.blocksFor (header + kept)

/-- Record header of the result of a kind of work (R4). -/
def Work.header : Work → Nat
  | .request _ => 10
  | .poll _ _ => 11

/-- Whether a transaction expects no reply (R8). -/
def Work.noReply : Work → Bool
  | .request r => r.noReply
  | .poll _ _ => false

/-- The reservation a transaction asks for (R4). -/
def Work.need (w : Work) (p : Profile) : Need :=
  match w with
  | .request r =>
    { blocks := if r.noReply then 1 else Config.blocksFor (10 + p.maxReply), slot := false, cls := .line }
  | .poll _ _ => { blocks := Config.blocksFor (11 + p.maxReply), slot := true, cls := .line }

/-- The reservation of an unsolicited or stray frame (R14, R21). -/
def unsolicitedNeed (p : Profile) : Need :=
  { blocks := Config.blocksFor (10 + p.maxReply), slot := true, cls := .line }

/-- The LateTag of a transaction: its Tag, or 0xFF00 plus the PollId (R24). -/
def Work.lateTag : Work → Half
  | .request r => r.tag
  | .poll id _ => 0xFF00 + BitVec.ofNat 16 id.val

/-- The Late mark set on entry into GUARD (R24). -/
def Txn.lateMark (t : Txn) : Option Half := if t.noReplyLast then some t.work.lateTag else none

/-- SuppressRetry of the work; polls carry none (R15). -/
def Work.suppressRetry : Work → Bool
  | .request r => r.suppressRetry
  | .poll _ _ => false

/-- Whether an attempt that ended with `o` is retried (R15). -/
def Txn.retried (t : Txn) (p : Profile) (o : TxnOutcome) : Bool :=
  !t.work.suppressRetry && t.attempts < p.retries + 1
    && (o == .noReply || (o == .charError && p.retryOn == .noReplyAndCharError))

/-- Whether a record of this outcome carries the kept data (R18, R80). -/
def TxnOutcome.hasData : TxnOutcome → Bool
  | .ok => true | .charError => true | .overlength => true | .brk => true
  | .noReply => false | .collision => false | .aborted => false | .queueFull => false | .badLine => false
  | .lineOffline => false | .badParam => false | .noSpace => false | .flushed => false

/-- The data and ErrorOffset of a result (R18, R80): none for an outcome without data. -/
def resultData (o : TxnOutcome) (a : Assembly) : List Byte × Option Nat :=
  if o.hasData then (a.kept, a.errorAt) else ([], none)

/-- Remove the first element that satisfies `p`. -/
def takeFirst {α : Type} (p : α → Bool) : List α → Option (α × List α)
  | [] => none
  | a :: as =>
    if p a then some (a, as)
    else match takeFirst p as with
      | some (b, bs) => some (b, a :: bs)
      | none => none

/-- Time from `t` to `now`; a longer wait counts as 2^31 ms (R208). -/
def elapsed (now t : Nat) : Nat := min (now - t) Config.longestWait

/-- A NORMAL request is aged (R59). -/
def Request.aged (r : Request) (now limit : Nat) : Bool := limit ≤ elapsed now r.arrival

/-- What selection takes (R58), with the queue and the due list it leaves. -/
inductive Choice where
  | request (r : Request) (queue : List Request)
  | poll (d : DueItem) (due : List DueItem)
  | nothing
  deriving DecidableEq, Repr

/-- Step 4 of R58. -/
def chooseNormal (l : Line) : Choice :=
  match takeFirst (fun r => !r.urgent) l.queue with
  | some (r, q) => .request r q
  | none => .nothing

/-- Steps 3 and 4 of R58. -/
def chooseDue (l : Line) : Choice :=
  match l.due with
  | d :: ds => .poll d ds
  | [] => chooseNormal l

/-- Steps 2 to 4 of R58: only the oldest NORMAL request is tested for age (R59). -/
def chooseAged (l : Line) (now : Nat) : Choice :=
  match takeFirst (fun r => !r.urgent) l.queue with
  | some (r, q) => if r.aged now l.applied.ageLimit then .request r q else chooseDue l
  | none => chooseDue l

/-- The choice of the next transaction (R58). -/
def choose (l : Line) (now : Nat) : Choice :=
  match takeFirst (fun r => r.urgent) l.queue with
  | some (r, q) => .request r q
  | none => chooseAged l now

/-- Place of an item in a due list: by due time, then by PollId (R55). -/
def dueInsert (d : DueItem) : List DueItem → List DueItem
  | [] => [d]
  | e :: es =>
    if d.time < e.time ∨ (d.time = e.time ∧ d.poll.val < e.poll.val) then d :: e :: es else e :: dueInsert d es

/-- The conditions of R78 other than Forced. -/
def Poll.mustReport (p : Poll) (o : TxnOutcome) (data : List Byte) : Bool :=
  p.defn.mode == .every
    || (o == .ok && p.lastDigest != some (digest data))
    || (o != .ok && p.defn.mode == .change)
    || (o != .ok && p.defn.mode == .changeQuietErrors && p.lastOutcome != some o)
    || 0 < p.missed
    || o == .aborted

/-- The Forced condition of R78. -/
def Poll.forceDue (p : Poll) : Bool := p.defn.forceEvery != 0 && p.defn.forceEvery ≤ p.suppressed + 1

/-- A result is reported when a condition of R78 holds. -/
def Poll.reports (p : Poll) (o : TxnOutcome) (data : List Byte) : Bool := p.mustReport o data || p.forceDue

/-- The Forced flag of a report (R79). -/
def Poll.forcedFlag (p : Poll) (o : TxnOutcome) (data : List Byte) : Bool :=
  p.forceDue && !p.mustReport o data

/-- The index of the first known address that equals the byte, on the low DataBits bits (R52). -/
def knownIndex (p : Profile) (known : List Byte) (b : Byte) : Option Nat :=
  known.findIdx? (fun a => p.onLine a == p.onLine b)

end Sys2Proof.Machine
end

