-- ==== Sys2Proof/Machine/Formats.lean ====
section
/-! DEFINITION. The codes and byte layouts of chapter 11 (R204 to R207): what the part sends. -/

namespace Sys2Proof.Machine

/-- The number of line `i`, as a byte. -/
def lineByte (i : Fin 12) : Byte := BitVec.ofNat 8 (i.val + 1)

/-- The line a Line byte names (1..12). -/
def lineOf (b : Byte) : Option (Fin 12) :=
  if h : 1 ≤ b.toNat ∧ b.toNat ≤ 12 then some ⟨b.toNat - 1, by omega⟩ else none

/-- The entry a PollId byte names (0..127). -/
def pollOf (b : Byte) : Option (Fin 128) :=
  if h : b.toNat < 128 then some ⟨b.toNat, h⟩ else none

/-- Outcome codes (section 11.6). -/
def TxnOutcome.code : TxnOutcome → Byte
  | .ok => 0x00 | .noReply => 0x01 | .charError => 0x02 | .overlength => 0x03 | .brk => 0x04
  | .collision => 0x05 | .aborted => 0x06 | .queueFull => 0x10 | .badLine => 0x11 | .lineOffline => 0x12
  | .badParam => 0x13 | .noSpace => 0x14 | .flushed => 0x15

/-- Status codes (section 11.6). -/
def Status.code : Status → Byte
  | .done => 0 | .staged => 1 | .busy => 2 | .badParam => 3 | .badCommand => 4 | .noEntry => 5 | .badFormat => 6

/-- Sync cause codes (section 11.6). -/
def SyncCause.code : SyncCause → Byte
  | .coldStart => 1 | .warmRestart => 2 | .silence => 3 | .retryFail => 4 | .peerSync => 5

/-- Event codes (section 11.6). -/
def EventKind.code : EventKind → Byte
  | .coldStart => 1 | .warmRestart => 2 | .linkRestored => 3 | .profileApplied => 4 | .poolLow => 5
  | .poolRecovered => 6 | .mgmtDropped => 7 | .lineBreak => 8 | .counterHalf => 9 | .badRecord => 10

/-- Transaction state codes (LINE_READ, section 11.5). -/
def TxnState.code : TxnState → Byte
  | .offline => 0 | .idle => 1 | .waitSpace => 2 | .ready => 3 | .sending => 4 | .turnaround => 5
  | .awaiting => 6 | .receiving => 7 | .guard => 8

/-- Listen state codes (LINE_READ, section 11.5). -/
def Listen.code : Listen → Byte
  | .quiet => 0 | .listening => 1 | .brk => 2

/-- Parity codes (the line profile, section 11.5). -/
def Parity.code : Parity → Byte
  | .none => 0 | .even => 1 | .odd => 2

/-- RetryOn codes. -/
def RetryOn.code : RetryOn → Byte
  | .noReplyOnly => 0 | .noReplyAndCharError => 1

/-- UnsolicitedPolicy codes. -/
def Policy.code : Policy → Byte
  | .drop => 0 | .forward => 1 | .forwardKnown => 2

/-- ReportMode codes (POLL_SET, section 11.5). -/
def ReportMode.code : ReportMode → Byte
  | .every => 0 | .change => 1 | .changeQuietErrors => 2

/-- Poll state codes (POLL_READ, section 11.5); EMPTY is 0. -/
def PollState.code : PollState → Byte
  | .waiting => 1 | .due => 2 | .inFlight => 3 | .retiring => 4

/-- A number as a one-byte field. -/
def natByte (n : Nat) : Byte := BitVec.ofNat 8 n

/-- ErrorOffset: 255 stands for none (R207). -/
def errorByte (e : Option Nat) : Byte := natByte (e.getD 255)

/-- The Flags byte of an uplink record: Resent is bit 7. -/
def flagByte (resent : Bool) (low : Byte) : Byte := (if resent then 0x80 else 0) ||| low

/-- Header bytes of a record (R107). -/
def Body.headerLen : Body → Nat
  | .reply .. => 10 | .pollResult .. => 11 | .unsolicited .. => 10 | .event .. => 11 | .response .. => 8

/-- Data bytes of a record. -/
def Body.data : Body → List Byte
  | .reply _ _ _ _ _ d => d
  | .pollResult _ _ _ _ _ _ _ d => d
  | .unsolicited _ _ _ _ _ _ d => d
  | .event .. => []
  | .response _ _ _ d => d

/-- Length of a record (R107). -/
def Body.len (b : Body) : Nat := b.headerLen + b.data.length

/-- Length of a record (R107). -/
def Record.len (r : Record) : Nat := r.body.len

/-- Whether the record is an EVENT, which holds an event-store slot and no record slot (R95). -/
def Record.isEvent (r : Record) : Bool :=
  match r.body with
  | .reply .. => false
  | .pollResult .. => false
  | .unsolicited .. => false
  | .event .. => true
  | .response .. => false

/-- The bytes of a record (section 11.4). -/
def Record.bytes (r : Record) : List Byte :=
  match r.body with
  | .reply tag line o att e d =>
    ([0x90] : List Byte) ++ natHalf r.len ++ halfBytes tag ++
      [line, o.code, natByte att, flagByte r.resent 0, errorByte e] ++ d
  | .pollResult id line sq o m f e d =>
    ([0x91] : List Byte) ++ natHalf r.len ++ [natByte id.val, lineByte line] ++ halfBytes sq ++
      [o.code, natByte m, flagByte r.resent (boolByte f), errorByte e] ++ d
  | .unsolicited line o late stray known e d =>
    ([0x92] : List Byte) ++ natHalf r.len ++
      [lineByte line, o.code,
       flagByte r.resent (boolByte late.isSome ||| (boolByte stray <<< 1) ||| (boolByte known.isSome <<< 2)),
       natByte (known.getD 0)] ++ halfBytes (late.getD 0) ++ [errorByte e] ++ d
  | .event k line m detail =>
    ([0x93] : List Byte) ++ natHalf r.len ++ [k.code, line, natByte m, flagByte r.resent 0] ++ wordBytes detail
  | .response tag cmd st d =>
    ([0xA0] : List Byte) ++ natHalf r.len ++ halfBytes tag ++ [cmd, st.code, flagByte r.resent 0] ++ d

/-- The payload of a DATA frame: its records one after another (R114). -/
def payloadOf (rs : List Record) : List Byte := (rs.map Record.bytes).flatten

/-- The bytes of the frame on the transmitter (R138, R139). -/
def TxFrame.bytes (f : TxFrame) : List Byte :=
  frameBytes f.kind f.reject f.seq f.ackSeq f.allow f.payload

/-- The sync payload (section 11.3, R206). -/
def syncPayload (epoch : Byte) (cause : SyncCause) (last : Option Seq) : List Byte :=
  [epoch, cause.code, (if last.isSome then 1#1 else 0#1) ++ 0#1 ++ last.getD 0, 0]

/-- The 24 bytes of a line profile (section 11.5). -/
def Profile.bytes (p : Profile) : List Byte :=
  [boolByte p.enabled, natByte p.rateCode] ++ natHalf p.divisor ++
  [natByte p.dataBits, p.parity.code, natByte p.stopBits, natByte p.deLead, natByte p.deHold,
   boolByte p.echoCheck, natByte p.gapTime, boolByte p.termChar, p.termValue, natByte p.maxReply] ++
  natHalf p.replyTimeout ++
  [natByte p.guardTime, natByte p.retries, p.retryOn.code, boolByte p.matchFirst, p.policy.code,
   natByte p.queueDepth] ++ natHalf p.ageLimit

/-- The 16 bytes of the link configuration (section 11.5). -/
def LinkConfig.bytes (c : LinkConfig) : List Byte :=
  [natByte c.ackDelay] ++ natHalf c.retransmitTimeout ++ [natByte c.maxRetransmits] ++
  natHalf c.silenceLimit ++ natHalf c.syncInterval ++ [natByte c.batchCount, natByte c.batchDelay] ++
  natHalf c.holdLimit ++ natHalf c.lowMark ++ natHalf c.highMark

end Sys2Proof.Machine
end

