-- ==== Sys2Proof/Machine/Ops.lean ====
section
/-! DEFINITION. The operations every block shares: counters (chapter 10), events (R197 to R201), the uplink queue
(R106), and the pool's blocks, slots and wait list (chapter 5). A block has no exception entry. -/

namespace Sys2Proof.Machine

/-- The LINK counters (R190). -/
inductive LinkCtr where
  | framesReceived | crcErrors | malformedFrames | duplicates | outOfWindow | overAllow | framesSent
  | retransmissions | goBacks | resyncs | silenceDowns | retryFailDowns | holdTimeouts | badRecords
  deriving DecidableEq, Repr

/-- The POOL counters (R190); MinFree is not a counter. -/
inductive PoolCtr where
  | waitSpaceEntries | poolLowEpisodes | unsolicitedLost | eventsMissed
  deriving DecidableEq, Repr

/-- The LINE counters (R190). -/
inductive LineCtr where
  | requestsAccepted | requestsRefused | txnOk | noReplies | charErrors | overlength | breaks | collisions
  | aborted | retriedAttempts | unsolicitedForwarded | unsolicitedDropped | strayFrames | lateFrames
  | pollSuppressed
  deriving DecidableEq, Repr

/-- Counter id in the LINK set (R190). -/
def LinkCtr.id : LinkCtr → Fin 14
  | .framesReceived => 0 | .crcErrors => 1 | .malformedFrames => 2 | .duplicates => 3 | .outOfWindow => 4
  | .overAllow => 5 | .framesSent => 6 | .retransmissions => 7 | .goBacks => 8 | .resyncs => 9
  | .silenceDowns => 10 | .retryFailDowns => 11 | .holdTimeouts => 12 | .badRecords => 13

/-- Counter id in the POOL set (R190). -/
def PoolCtr.id : PoolCtr → Fin 4
  | .waitSpaceEntries => 0 | .poolLowEpisodes => 1 | .unsolicitedLost => 2 | .eventsMissed => 3

/-- Counter id in a LINE set (R190). -/
def LineCtr.id : LineCtr → Fin 15
  | .requestsAccepted => 0 | .requestsRefused => 1 | .txnOk => 2 | .noReplies => 3 | .charErrors => 4
  | .overlength => 5 | .breaks => 6 | .collisions => 7 | .aborted => 8 | .retriedAttempts => 9
  | .unsolicitedForwarded => 10 | .unsolicitedDropped => 11 | .strayFrames => 12 | .lateFrames => 13
  | .pollSuppressed => 14

/-- A counter of the bank. -/
inductive CtrId where
  | link (c : LinkCtr)
  | pool (c : PoolCtr)
  | line (i : Fin 12) (c : LineCtr)
  deriving DecidableEq, Repr

/-- The counter `c` of the bank. -/
def Counters.read (b : Counters) : CtrId → Counter
  | .link c => b.link.get c.id
  | .pool c => b.pool.get c.id
  | .line i c => (b.line.get i).get c.id

/-- The bank with counter `c` put to `v`. -/
def Counters.write (b : Counters) (c : CtrId) (v : Counter) : Counters :=
  match c with
  | .link c => { b with link := b.link.set c.id.val v c.id.isLt }
  | .pool c => { b with pool := b.pool.set c.id.val v c.id.isLt }
  | .line i c =>
    { b with line := b.line.set i.val ((b.line.get i).set c.id.val v c.id.isLt) i.isLt }

/-- The increase brings the counter from 32767 to 32768 with its flag armed (R193). -/
def Counter.crosses (c : Counter) : Bool := c.value == 32767 && !c.half

/-- A counter increased by one: it stops at 65535 (R191) and sets its flag at 32768 (R193). -/
def Counter.inc (c : Counter) : Counter :=
  { value := if c.value = 65535 then c.value else c.value + 1, half := c.half || c.crosses }

/-- A record as it joins the uplink queue: stamped with its join time and delay deadline (R106). -/
def State.stamp (s : State) (b : Body) (urgent : Bool) (blocks : Nat) : Record :=
  { body := b, urgent := urgent, resent := false, blocks := blocks, joinTime := s.clock,
    deadline := s.clock + s.cfg.batchDelay }

/-- A record joins the tail of the uplink queue (R106). -/
def State.join (s : State) (b : Body) (urgent : Bool) (blocks : Nat) : State :=
  s.setUplink (s.uplink ++ [s.stamp b urgent blocks])

/-- Whether an event-store slot is free (R95). -/
def State.eventSlotFree (s : State) : Bool := s.pool.eventsUsed < Config.eventSlots

/-- An event takes a slot: the pending count becomes its Missed value and returns to 0 (R200). -/
def State.takeEventSlot (s : State) : State :=
  s.setPool { s.pool with eventsUsed := s.pool.eventsUsed + 1, missedEvents := 0 }

/-- An EVENT record with the pending count as its Missed value (R197, R200). -/
def State.eventBody (s : State) (k : EventKind) (line : Byte) (detail : BitVec 32) : Body :=
  .event k line s.pool.missedEvents detail

/-- EventsMissed and the pending count rise by one (R199). -/
def State.countMissed (s : State) : State :=
  (s.setCtrs (s.ctrs.write (.pool .eventsMissed) (s.ctrs.read (.pool .eventsMissed)).inc)).setPool
    { s.pool with missedEvents := min 255 (s.pool.missedEvents + 1) }

/-- An event is lost (R199). When EventsMissed reaches 32768 its COUNTER_HALF is lost in turn (R201). -/
def State.loseEvent (s : State) : State :=
  if (s.ctrs.read (.pool .eventsMissed)).crosses then s.countMissed.countMissed else s.countMissed

/-- An event is raised: it takes a slot and joins the queue at once, or is lost (R197, R199). -/
def State.raiseEvent (s : State) (k : EventKind) (line : Byte) (detail : BitVec 32) : State :=
  if s.eventSlotFree then s.takeEventSlot.join (s.eventBody k line detail) true 0 else s.loseEvent

/-- The detail of a COUNTER_HALF: set id, counter id (section 11.6). -/
def CtrId.detail : CtrId → BitVec 32
  | .link c => (0x00#8 ++ natByte c.id.val) ++ 0#16
  | .pool c => (0x01#8 ++ natByte c.id.val) ++ 0#16
  | .line i c => ((0x10#8 + lineByte i) ++ natByte c.id.val) ++ 0#16

/-- The line number of a COUNTER_HALF (R196). -/
def CtrId.line0 : CtrId → Byte
  | .link _ => 0
  | .pool _ => 0
  | .line i _ => lineByte i

/-- A COUNTER_HALF takes its slot now; its record joins behind the arrival's other records (R193, R197). Its delay
deadline comes from the BatchDelay at its raising, also where a LINK_CONFIG of the same step changes it: the model's choice
(log 26). -/
def State.raiseHalf (s : State) (c : CtrId) : State :=
  if s.eventSlotFree then
    s.takeEventSlot.setLate
      (s.late ++ [s.stamp (s.eventBody .counterHalf c.line0 c.detail) true 0])
  else s.loseEvent

/-- A counter is increased by one (R190, R191, R193). -/
def State.bump (s : State) (c : CtrId) : State :=
  let s1 := s.setCtrs (s.ctrs.write c (s.ctrs.read c).inc)
  if (s.ctrs.read c).crosses then s1.raiseHalf c else s1

/-- The records kept back join the uplink queue, behind the arrival's other records (R197). -/
def State.flushLate (s : State) : State := (s.setUplink (s.uplink ++ s.late)).setLate []

/-- Free intake slots (R122). -/
def State.freeSlots (s : State) : Nat := Config.intakeSlots - s.intake.frames.length

/-- The advertised Allow (R136). -/
def State.allow (s : State) : Nat := if s.pool.hold then 0 else s.freeSlots

/-- A CTRL reason becomes pending when Allow has risen from 0 in UP (R161). -/
def State.allowRises (s : State) : State :=
  if s.trunk.up then s.setTrunk { s.trunk with allowRose := true } else s

/-- PoolHold turns on (R100). That POOL_LOW is raised before PoolLowEpisodes rises is the model's choice (log 23). -/
def State.holdOn (s : State) : State :=
  ((s.setPool { s.pool with hold := true }).raiseEvent .poolLow 0
    (BitVec.ofNat 16 s.pool.free ++ BitVec.ofNat 16 s.cfg.lowMark)).bump (.pool .poolLowEpisodes)

/-- PoolHold turns off (R100); with a slot free, Allow rises from 0 (R136). -/
def State.holdOff (s : State) : State :=
  let s1 := (s.setPool { s.pool with hold := false }).raiseEvent .poolRecovered 0
    (BitVec.ofNat 16 s.pool.free ++ BitVec.ofNat 16 s.cfg.highMark)
  if 0 < s.freeSlots then s1.allowRises else s1

/-- PoolHold is tested against the marks (R100, R101). -/
def State.testHold (s : State) : State :=
  if s.pool.hold then (if s.cfg.highMark ≤ s.pool.free then s.holdOff else s)
  else (if s.pool.free < s.cfg.lowMark then s.holdOn else s)

/-- After a change of FreeCount: MinFree (R102), then PoolHold (R100). -/
def State.freeChanged (s : State) : State :=
  (s.setPool { s.pool with minFree := min s.pool.minFree s.pool.free }).testHold

/-- Whether an allocation passes its class test (R92). -/
def Pool.passes (p : Pool) (n : Need) : Bool :=
  match n.cls with
  | .line =>
    n.blocks + Config.reserveBlocks ≤ p.free
      && (!n.slot || p.slotsUsed + 1 + Config.reserveSlots ≤ Config.recordSlots)
  | .response => n.blocks ≤ p.free && (!n.slot || p.slotsUsed + 1 ≤ Config.recordSlots)

/-- Where the blocks of an allocation go (R91): a reservation, or held at once. -/
inductive Into where
  | reserved | held
  deriving DecidableEq, Repr

/-- The pool with `n` blocks moved out of free (never more than are free). -/
def Pool.taken (p : Pool) (n : Nat) (into : Into) : Pool :=
  match into with
  | .reserved => { p with free := p.free - min n p.free, reserved := p.reserved + min n p.free }
  | .held => { p with free := p.free - min n p.free, held := p.held + min n p.free }

/-- An allocation takes its blocks and its slot together (R91, R92). -/
def State.take (s : State) (n : Need) (into : Into) : State :=
  (s.setPool { s.pool.taken n.blocks into with
    slotsUsed := s.pool.slotsUsed + (if n.slot then 1 else 0) }).freeChanged

/-- Reserved to held: the next blocks of a reservation take data (R91). -/
def State.fill (s : State) (n : Nat) : State :=
  s.setPool { s.pool with
    reserved := s.pool.reserved - min n s.pool.reserved, held := s.pool.held + min n s.pool.reserved }

/-- Held to reserved: data is discarded back into its reservation (R91). -/
def State.unfill (s : State) (n : Nat) : State :=
  s.setPool { s.pool with
    held := s.pool.held - min n s.pool.held, reserved := s.pool.reserved + min n s.pool.held }

/-- Reserved and held to free, as one change of FreeCount (R91, R100). -/
def State.release (s : State) (fromReserved fromHeld : Nat) : State :=
  if fromReserved + fromHeld = 0 then s
  else
    (s.setPool { s.pool with
      reserved := s.pool.reserved - min fromReserved s.pool.reserved
      held := s.pool.held - min fromHeld s.pool.held
      free := s.pool.free + min fromReserved s.pool.reserved + min fromHeld s.pool.held }).freeChanged

/-- Record slots become free (R94). -/
def State.freeRecordSlots (s : State) (n : Nat) : State :=
  s.setPool { s.pool with slotsUsed := s.pool.slotsUsed - n }

/-- Event-store slots become free (R95). -/
def State.freeEventSlots (s : State) (n : Nat) : State :=
  s.setPool { s.pool with eventsUsed := s.pool.eventsUsed - n }

/-- A reservation of `n` blocks, `h` of them held, becomes a record of `b` blocks; the rest is freed, with `extra`
held blocks (a request payload) in the same change (R17, R91). -/
def State.settle (s : State) (n h b extra : Nat) : State :=
  (s.fill (b - h)).release (n - max b h) ((h - b) + extra)

/-- An allocation that does not wait: tested against the counts alone (R93). -/
def State.mayTake (s : State) (n : Need) : Bool := s.pool.passes n

/-- An allocation whose requester waits is granted at once only with an empty wait list (R93). -/
def State.grantsNow (s : State) (n : Need) : Bool := s.pool.waitList.isEmpty && s.pool.passes n

/-- A waiter joins the tail of the wait list (R93, R97). -/
def State.joinWait (s : State) (w : Waiter) : State :=
  (s.setPool { s.pool with waitList := s.pool.waitList ++ [w] }).bump (.pool .waitSpaceEntries)

/-- A waiter leaves the wait list other than by a grant (R98). -/
def State.leaveWait (s : State) (who : WaiterId) : State :=
  s.setPool { s.pool with waitList := s.pool.waitList.filter (fun w => w.who != who) }

/-- Change line `i` by `f`. -/
def State.modLine (s : State) (i : Fin 12) (f : Line → Line) : State := s.setLine i (f (s.line i))

/-- Record the reservation granted to the transaction in hand of line `i`. -/
def State.giveReservation (s : State) (i : Fin 12) (n : Nat) : State :=
  s.modLine i (fun l => { l with hand := l.hand.map (fun t => { t with reservation := some n }) })

/-- The waiter at the head is granted: it leaves the wait list, its allocation is made, a line's for the transaction in
hand, the intake unit's held, and it has still to act (R97). `ws` are the waiters behind it. -/
def State.grantOne (s : State) (w : Waiter) (ws : List Waiter) : State :=
  let s1 := (s.setPool { s.pool with waitList := ws }).setGranted (s.granted ++ [w.who])
  match w.who with
  | .line i => (s1.take w.need .reserved).giveReservation i w.need.blocks
  | .intake => s1.take w.need .held

/-- The granting over the wait list: the head is tested, granted if it passes, and so on to the first that fails
(R97). -/
def State.grantRun : List Waiter → State → State
  | [], s => s
  | w :: ws, s => if s.pool.passes w.need then State.grantRun ws (s.grantOne w ws) else s

/-- The granting, made when blocks or slots have become free and when a waiter has left the list (R97, R98). At any
other moment the head fails its test, so a granting changes nothing. The granted act at the end of the step (log 7). -/
def State.grantAll (s : State) : State := State.grantRun s.pool.waitList s

/-- A step that answers the state `s`. -/
def go (s : State) : Host.Outcome State Fault Refusal := .next s

end Sys2Proof.Machine
end

