-- ==== Sys2Proof/Machine/Polls.lean ====
section
/-! DEFINITION. What the poll table does with a completed run (R76 to R83, R87). -/

namespace Sys2Proof.Machine

/-- A poll reservation of `n` blocks, `h` of them held, is freed whole with its slot (R81, R87). -/
def State.dropReservation (s : State) (resv : Option (Nat × Nat)) : State :=
  match resv with
  | some (n, h) => ((s.settle n h 0 0).freeRecordSlots 1).grantAll
  | none => s

/-- The entry after a run: WAITING, with LastOutcome and, for OK, LastDigest updated (R82). -/
def Poll.ran (p : Poll) (o : TxnOutcome) (data : List Byte) : Poll :=
  { p with
    state := .waiting
    lastOutcome := some o
    lastDigest := if o = .ok then some (digest data) else p.lastDigest }

/-- A result is reported: the POLL_RESULT is built in the reservation (R80). -/
def State.pollReported (s : State) (id : Fin 128) (p : Poll) (o : TxnOutcome) (a : Assembly) (n h : Nat) :
    State :=
  let d := resultData o a
  let b := Config.blocksFor (11 + d.1.length)
  ((s.join (.pollResult id p.defn.line p.pollSeq o p.missed (p.forcedFlag o d.1) d.2 d.1) false b).settle
    n h b 0).grantAll.setPoll id (some { p.ran o d.1 with missed := 0, suppressed := 0 })

/-- A result is suppressed: the whole reservation is freed (R81). That it is freed, and a POOL_RECOVERED of that raised, before
PollSuppressed rises is the model's choice (log 23). -/
def State.pollSuppressed (s : State) (id : Fin 128) (p : Poll) (o : TxnOutcome) (a : Assembly) (n h : Nat) :
    State :=
  ((s.dropReservation (some (n, h))).setPoll id
    (some { p.ran o (resultData o a).1 with suppressed := min 255 (p.suppressed + 1) })).bump
      (.line p.defn.line .pollSuppressed)

/-- An aborted run handed back with no reservation: the entry counts it as missed (R27, R83). -/
def Poll.lostRun (p : Poll) : Poll :=
  { p with state := .waiting, missed := min 255 (p.missed + 1), lastOutcome := some .aborted }

/-- The result of an IN_FLIGHT entry (R76, R78). -/
def State.pollRunDone (s : State) (id : Fin 128) (p : Poll) (o : TxnOutcome) (a : Assembly)
    (resv : Option (Nat × Nat)) : State :=
  match resv with
  | some (n, h) =>
    if p.reports o (resultData o a).1 then s.pollReported id p o a n h else s.pollSuppressed id p o a n h
  | none => s.setPoll id (some p.lostRun)

/-- The line engine hands a completed poll back (R76): a RETIRING entry discards it and becomes EMPTY (R87). -/
def State.pollDone (s : State) (id : Fin 128) (o : TxnOutcome) (a : Assembly) (resv : Option (Nat × Nat)) :
    State :=
  match s.poll id with
  | none => s.dropReservation resv
  | some p =>
    if p.state = .retiring then (s.dropReservation resv).setPoll id none else s.pollRunDone id p o a resv

/-- An entry put back from DUE to WAITING (R63). -/
def State.pollUndue (s : State) (id : Fin 128) : State :=
  s.setPoll id ((s.poll id).map (fun p => { p with state := .waiting }))

end Sys2Proof.Machine
end

