-- ==== Sys2Proof/Machine/Lines.lean ====
section
/-! DEFINITION. The line engine and its scheduler: moves between transaction states, selection, reservations,
completion, retries, unsolicited frames, profiles and aborts (chapters 1 to 3). -/

namespace Sys2Proof.Machine

/-- States in which LDEn is asserted (R36). -/
def TxnState.drives : TxnState → Bool
  | .sending => true | .turnaround => true
  | .offline => false | .idle => false | .waitSpace => false | .ready => false | .awaiting => false
  | .receiving => false | .guard => false

/-- A line moves to a transaction state; LDEn follows it (R36). -/
def Line.goto (l : Line) (t : TxnState) : Line := { l with txn := t, lde := t.drives }

/-- The bytes a transaction sends: the payload, or the entry's Request as it stands (R3, R7, R75). -/
def State.workBytes (s : State) (w : Work) : List Byte :=
  match w with
  | .request r => r.payload
  | .poll id _ => ((s.poll id).map (fun p => p.defn.request)).getD []

/-- The ExpectLen a transaction carries (R3, R48). -/
def State.workExpect (s : State) (w : Work) : Option Nat :=
  match w with
  | .request r => r.expectLen
  | .poll id _ => (s.poll id).bind (fun p => p.defn.expectLen)

/-- A number of bit times to count, absent when there is none to count (R8, R36). -/
def countOf (n : Nat) : Option Nat := if n = 0 then none else some n

/-- The start bit of the next character goes out (R36, R37). -/
def State.startChar (s : State) (i : Fin 12) : State :=
  match (s.line i).hand with
  | none => s
  | some t =>
    s.modLine i (fun l =>
      { l with deLead := none, charOut := ((s.workBytes t.work)[l.sent]?).map l.applied.onLine })

/-- A transaction at the start of an attempt's sending (R7). -/
def Txn.fresh (t : Txn) : Txn :=
  { t with windowLeft := 0, abortPending := false, noReplyLast := false, echoFailed := false,
           reply := Assembly.empty }

/-- The line enters SENDING: LDEn is asserted and DeLead begins (R7, R36). -/
def State.enterSending (s : State) (i : Fin 12) : State :=
  let s1 := s.modLine i (fun l =>
    { l.goto .sending with
      hand := l.hand.map Txn.fresh, sent := 0, echoed := 0, charOut := none, deHold := none,
      deLead := countOf l.applied.deLead })
  if (s.line i).applied.deLead = 0 then s1.startChar i else s1

/-- The line enters READY, and SENDING at once when listen is QUIET (R6). -/
def State.enterReady (s : State) (i : Fin 12) : State :=
  let s1 := s.modLine i (fun l => l.goto .ready)
  if (s.line i).listen = .quiet then s1.enterSending i else s1

/-- A transaction as it is taken into hand (R4). -/
def Txn.start (w : Work) : Txn :=
  { work := w, attempts := 1, reservation := none, windowLeft := 0, abortPending := false,
    noReplyLast := false, echoFailed := false, reply := Assembly.empty }

/-- The line takes work into hand and asks for its reservation: READY or WAIT_SPACE (R4, R93). -/
def State.takeInHand (s : State) (i : Fin 12) (w : Work) : State :=
  let n := w.need (s.line i).applied
  let s1 := s.modLine i (fun l => { l.goto .waitSpace with hand := some (Txn.start w) })
  if s.grantsNow n then ((s1.take n .reserved).giveReservation i n.blocks).enterReady i
  else s1.joinWait { who := .line i, need := n }

/-- The entry goes from DUE to IN_FLIGHT with its PollSeq increased (R75). -/
def Poll.selected (p : Poll) : Poll := { p with state := .inFlight, pollSeq := p.pollSeq + 1 }

/-- Selection on an IDLE line (R57, R58). -/
def State.select (s : State) (i : Fin 12) : State :=
  match choose (s.line i) s.clock with
  | .request r q => (s.modLine i (fun l => { l with queue := q })).takeInHand i (.request r)
  | .poll d ds =>
    ((s.modLine i (fun l => { l with due := ds })).setPoll d.poll
      ((s.poll d.poll).map Poll.selected)).takeInHand i
        (.poll d.poll (((s.poll d.poll).map (fun p => p.missed)).getD 0))
  | .nothing => s

/-- Selection is evaluated when the line is IDLE (R57). -/
def State.selectIfIdle (s : State) (i : Fin 12) : State :=
  if (s.line i).txn = .idle then s.select i else s

/-- Blocks of a payload (R53). -/
def payloadBlocks (p : List Byte) : Nat := Config.blocksFor p.length

/-- A REPLY built in the first block of the request's own payload, with its own slot; the other blocks are freed (R27). That
they are freed, and a POOL_RECOVERED of that joins, before the REPLY joins is the model's choice (log 25). -/
def State.replyInPayload (s : State) (line : Byte) (tag : Half) (urgent : Bool) (payload : List Byte)
    (o : TxnOutcome) : State :=
  (s.release 0 (payloadBlocks payload - 1)).join (.reply tag line o 0 none []) urgent 1

/-- A request refused after its payload was placed, counted in RequestsRefused (R54, R62). That the other blocks of its
payload are freed before its REPLY joins is the model's choice (log 25). -/
def State.refuseOwn (s : State) (i : Fin 12) (o : TxnOutcome) (r : Request) : State :=
  ((s.release 0 (payloadBlocks r.payload - 1)).grantAll.bump (.line i .requestsRefused)).join
    (.reply r.tag (lineByte i) o 0 none []) r.urgent 1

/-- Requests refused in turn, oldest first (R62). -/
def State.refuseAll (s : State) (i : Fin 12) (o : TxnOutcome) (rs : List Request) : State :=
  rs.foldl (fun s r => s.refuseOwn i o r) s

/-- The receive side of a line at rest (R31, R41). -/
def Line.rxQuiet (l : Line) : Line :=
  { l with listen := .quiet, unsolicited := none, gap := none, awaitMark := false, postBreak := none,
           brk := false, rxBusy := false, edgeListen := .quiet }

/-- The line is taken OFFLINE: its queue completes LINE_OFFLINE, its due polls return to WAITING (R31). -/
def State.goOffline (s : State) (i : Fin 12) : State :=
  let l := s.line i
  let s1 := s.modLine i (fun l => { (l.goto .offline).rxQuiet with queue := [], due := [] })
  (l.due.foldl (fun s d => s.pollUndue d.poll) s1).refuseAll i .lineOffline l.queue

/-- The newest requests beyond QueueDepth leave the queue QUEUE_FULL, in arrival order (R32). -/
def State.shrinkQueue (s : State) (i : Fin 12) : State :=
  let l := s.line i
  (s.modLine i (fun l => { l with queue := l.queue.take l.applied.queueDepth })).refuseAll i .queueFull
    (l.queue.drop l.applied.queueDepth)

/-- A profile is put in place (R31, R32). -/
def State.putProfile (s : State) (i : Fin 12) (p : Profile) : State :=
  let s1 := s.modLine i (fun l => { l with applied := p })
  if p.enabled then
    if (s.line i).txn = .offline then (s1.modLine i (fun l => (l.goto .idle).rxQuiet)).shrinkQueue i
    else s1.shrinkQueue i
  else if (s.line i).txn = .offline then s1
  else s1.goOffline i

/-- A staged profile is applied, with its PROFILE_APPLIED event first (R30, R197). -/
def State.applyStaged (s : State) (i : Fin 12) : State :=
  match (s.line i).staged with
  | none => s
  | some p =>
    ((s.modLine i (fun l => { l with staged := none })).raiseEvent .profileApplied (lineByte i)
      (boolByte p.enabled ++ 0#24)).putProfile i p

/-- The line enters IDLE: a staged profile first when listen is QUIET, then selection (R20, R30, R57). -/
def State.enterIdle (s : State) (i : Fin 12) : State :=
  let s1 := s.modLine i (fun l => l.goto .idle)
  if (s.line i).listen = .quiet then (s1.applyStaged i).selectIfIdle i else s1.selectIfIdle i

/-- GUARD ends: a retry enters READY with Attempts increased, any other line enters IDLE (R16, R20, R24). -/
def State.guardOver (s : State) (i : Fin 12) : State :=
  let s1 := s.modLine i (fun l => { l with guardEnd := none, lateMark := none })
  if (s.line i).hand.isSome then
    (s1.modLine i (fun l =>
      { l with hand := l.hand.map (fun t => { t with attempts := t.attempts + 1 }) })).enterReady i
  else s1.enterIdle i

/-- An unsolicited frame begins (R21). -/
def Line.beginUnsolicited (l : Line) (edge : Listen) (late : Option Half) : Line :=
  { l with listen := .listening, rxBusy := true, edgeListen := edge, gap := none, awaitMark := false,
           postBreak := none,
           unsolicited := some { mode := .undecided, frame := Assembly.empty, late := late } }

/-- States in which the receive line belongs to the transaction (R2). -/
def TxnState.ownsReceiver : TxnState → Bool
  | .sending => true | .turnaround => true | .awaiting => true | .receiving => true
  | .offline => false | .idle => false | .waitSpace => false | .ready => false | .guard => false

/-- The listen state on entry into GUARD from a sending or receiving state (R2). -/
def Line.fixListen (l : Line) : Line :=
  if l.txn.ownsReceiver then
    if l.brk then
      { l with listen := .brk, unsolicited := none, gap := none, awaitMark := false, postBreak := none }
    else if l.rxBusy then l.beginUnsolicited .quiet none
    else { l with listen := .quiet, unsolicited := none, gap := none, awaitMark := false, postBreak := none }
  else l

/-- The line enters GUARD, with its Late mark; a GuardTime of 0 ends it as soon as it is entered (R20, R24). -/
def State.enterGuard (s : State) (i : Fin 12) (late : Option Half) : State :=
  let s1 := s.modLine i (fun l =>
    { l.fixListen.goto .guard with
      guardEnd := some (s.clock + l.applied.guardTime), lateMark := late, window := none, deLead := none,
      deHold := none, charOut := none })
  if (s.line i).applied.guardTime = 0 then s1.guardOver i else s1

/-- The counter of a transaction's outcome (R17). A BREAK was counted at its break start (R192). -/
def TxnOutcome.counter : TxnOutcome → Option LineCtr
  | .ok => some .txnOk | .noReply => some .noReplies | .charError => some .charErrors
  | .overlength => some .overlength | .brk => none | .collision => some .collisions
  | .aborted => some .aborted
  | .queueFull => none | .badLine => none | .lineOffline => none | .badParam => none | .noSpace => none
  | .flushed => none

/-- Count the outcome of a completed transaction of line `i` (R17). -/
def State.countOutcome (s : State) (i : Fin 12) (o : TxnOutcome) : State :=
  match o.counter with
  | some c => s.bump (.line i c)
  | none => s

/-- The REPLY of a completed request is built in its reservation; the rest and the payload are freed (R17, R18). -/
def State.replyDone (s : State) (i : Fin 12) (r : Request) (t : Txn) (o : TxnOutcome) : State :=
  let d := resultData o t.reply
  let b := Config.blocksFor (10 + d.1.length)
  ((s.join (.reply r.tag (lineByte i) o t.attempts d.2 d.1) r.urgent b).settle (t.reservation.getD 0)
    (filledBlocks 10 t.reply.kept.length) b (payloadBlocks r.payload)).grantAll

/-- A transaction completes: its result, its blocks, its counter; nothing is in hand any more (R17). A poll's outcome is
counted before the poll table acts (R81, R87). -/
def State.complete (s : State) (i : Fin 12) (t : Txn) (o : TxnOutcome) : State :=
  let s1 := s.modLine i (fun l => { l with hand := none })
  match t.work with
  | .request r => (s1.replyDone i r t o).countOutcome i o
  | .poll id _ =>
    (s1.countOutcome i o).pollDone id o t.reply
      (some (t.reservation.getD 0, filledBlocks 11 t.reply.kept.length))

/-- A transaction completes and the line enters GUARD (R17). -/
def State.completeToGuard (s : State) (i : Fin 12) (t : Txn) (o : TxnOutcome) : State :=
  (s.complete i t o).enterGuard i t.lateMark

/-- The data of an attempt is discarded back into the reservation (R16, R91). -/
def State.discardReply (s : State) (i : Fin 12) (t : Txn) : State :=
  (s.modLine i (fun l => { l with hand := some { t with reply := Assembly.empty } })).unfill
    (filledBlocks t.work.header t.reply.kept.length)

/-- An attempt ends with an outcome: it is retried or the transaction completes (R15, R16). -/
def State.attemptEnds (s : State) (i : Fin 12) (t : Txn) (o : TxnOutcome) : State :=
  if t.retried (s.line i).applied o then
    ((s.discardReply i t).bump (.line i .retriedAttempts)).enterGuard i t.lateMark
  else s.completeToGuard i t o

/-- An attempt ends NO_REPLY: its data is discarded and NoReplyLast is set (R10). -/
def State.noReplyEnds (s : State) (i : Fin 12) (t : Txn) : State :=
  (s.discardReply i t).attemptEnds i { t with noReplyLast := true, reply := Assembly.empty } .noReply

/-- TURNAROUND ends: LDEn is released; NoReply completes OK, any other transaction awaits its reply (R8). -/
def State.turnaroundOver (s : State) (i : Fin 12) : State :=
  match (s.line i).hand with
  | none => s
  | some t =>
    if t.work.noReply then s.completeToGuard i { t with attempts := 1 } .ok
    else s.modLine i (fun l =>
      { l.goto .awaiting with deHold := none, window := some (s.clock + l.applied.replyTimeout) })

/-- A start bit in TURNAROUND: LDEn is released and the answer is received with the whole window left (R9). -/
def State.earlyAnswer (s : State) (i : Fin 12) : State :=
  match (s.line i).hand with
  | none => s
  | some t =>
    if t.work.noReply then s.completeToGuard i { t with attempts := 1 } .ok
    else s.modLine i (fun l =>
      { l.goto .receiving with
        deHold := none, hand := some { t with windowLeft := l.applied.replyTimeout, reply := Assembly.empty } })

/-- The line enters TURNAROUND with whatever is left of the DeHold count (R8, R37). A start bit already taken is an
early answer (R38). -/
def State.enterTurnaround (s : State) (i : Fin 12) : State :=
  let s1 := s.modLine i (fun l => l.goto .turnaround)
  if (s.line i).rxBusy then s1.earlyAnswer i
  else if (s.line i).deHold.isNone then s1.turnaroundOver i
  else s1

/-- An UNSOLICITED record is built from kept characters in a reservation of `n` blocks, `h` of them held
(R14, R22). -/
def State.forwardFrame (s : State) (i : Fin 12) (a : Assembly) (o : TxnOutcome) (late : Option Half)
    (stray : Bool) (known : Option Nat) (n h : Nat) : State :=
  let b := Config.blocksFor (10 + a.kept.length)
  ((s.join (.unsolicited i o late stray known a.errorAt a.kept) false b).settle n h b 0).grantAll.bump
    (.line i .unsolicitedForwarded)

/-- The reservation of an unsolicited or stray frame is freed and the frame counted as dropped (R14, R22). -/
def State.dropKept (s : State) (i : Fin 12) (n h : Nat) : State :=
  ((s.settle n h 0 0).freeRecordSlots 1).grantAll.bump (.line i .unsolicitedDropped)

/-- The policy finishes with a frame kept in a reservation: forwarded, or dropped at a known-address miss
(R14, R22, R52). -/
def State.finishKept (s : State) (i : Fin 12) (a : Assembly) (o : TxnOutcome) (late : Option Half)
    (stray : Bool) (n h : Nat) : State :=
  match (s.line i).applied.policy with
  | .forwardKnown =>
    match a.kept with
    | [] => s.dropKept i n h
    | b :: _ =>
      match knownIndex (s.line i).applied (s.line i).known b with
      | some k => s.forwardFrame i a o late stray (some k) n h
      | none => s.dropKept i n h
  | .forward => s.forwardFrame i a o late stray none n h
  | .drop => s.dropKept i n h

/-- A stray frame is disposed of under the policy (R14). -/
def State.disposeStray (s : State) (i : Fin 12) (a : Assembly) : State :=
  let need := unsolicitedNeed (s.line i).applied
  if (s.line i).applied.policy = .drop then s.bump (.line i .unsolicitedDropped)
  else if s.mayTake need then
    (s.take need .reserved).finishKept i a (a.outcome false) none true need.blocks 0
  else s.bump (.pool .unsolicitedLost)

/-- A stray is found: the line returns to AWAITING with the window remaining, or the attempt ends NO_REPLY
(R13). -/
def State.strayFound (s : State) (i : Fin 12) (t : Txn) : State :=
  let s1 := (s.bump (.line i .strayFrames)).disposeStray i t.reply
  if t.windowLeft = 0 then s1.noReplyEnds i t
  else
    (s1.discardReply i t).modLine i (fun l =>
      { l.goto .awaiting with
        window := some (s.clock + t.windowLeft), gap := none, awaitMark := false })

/-- A reply that does not answer the request: its first byte differs (R13). -/
def isStray (p : Profile) (sent : List Byte) (a : Assembly) : Bool :=
  p.matchFirst && (a.kept.head?.map p.onLine != sent.head?.map p.onLine)

/-- A reply frame ended other than by break (R12, R13). -/
def State.endReply (s : State) (i : Fin 12) (t : Txn) : State :=
  if isStray (s.line i).applied (s.workBytes t.work) t.reply then s.strayFound i t
  else s.attemptEnds i t (t.reply.outcome false)

/-- The gap count begins, or waits for LRXn to return to mark (R46). -/
def Line.startGap (l : Line) (atMark : Bool) : Line :=
  if atMark then { l with gap := some l.applied.gapTime, awaitMark := false }
  else { l with gap := none, awaitMark := true }

/-- A reply character completes (R12, R48, R49). -/
def State.replyChar (s : State) (i : Fin 12) (t : Txn) (c : RxChar) : State :=
  let p := (s.line i).applied
  let a := t.reply.take p.maxReply c
  let t1 := { t with reply := a }
  let s1 := (s.modLine i (fun l => { l with hand := some t1 })).fill
    (filledBlocks t.work.header a.kept.length - filledBlocks t.work.header t.reply.kept.length)
  if expectReached (s.workExpect t.work) a.count || isTerminator p c then s1.endReply i t1
  else s1.modLine i (fun l => l.startGap c.atMark)

/-- Keep a character of an unsolicited frame in its reservation (R21). -/
def State.keepUnsolicited (s : State) (i : Fin 12) (u : Unsolicited) (n : Nat) (c : RxChar) : State :=
  let a := u.frame.take (s.line i).applied.maxReply c
  (s.modLine i (fun l =>
    { l with unsolicited := some { u with mode := .keep n, frame := a } }.startGap c.atMark)).fill
    (filledBlocks 10 a.kept.length - filledBlocks 10 u.frame.kept.length)

/-- A character of an unsolicited frame received in discard mode. -/
def State.discardUnsolicited (s : State) (i : Fin 12) (u : Unsolicited) (m : UnsolMode) (c : RxChar) : State :=
  s.modLine i (fun l => { l with unsolicited := some { u with mode := m } }.startGap c.atMark)

/-- A Late frame is counted: at its first character, or at the abort that comes before it (R24, R26). -/
def State.countLate (s : State) (i : Fin 12) (u : Unsolicited) : State :=
  if u.late.isSome then s.bump (.line i .lateFrames) else s

/-- The first character of an unsolicited frame: its policy acts (R21, R23). That LateFrames rises before the reservation is
asked for, and a POOL_LOW of it raised, is the model's choice (log 23). -/
def State.firstUnsolicited (s : State) (i : Fin 12) (u : Unsolicited) (c : RxChar) : State :=
  let need := unsolicitedNeed (s.line i).applied
  let s1 := s.countLate i u
  if (s.line i).applied.policy = .drop then s1.discardUnsolicited i u .drop c
  else if s1.mayTake need then (s1.take need .reserved).keepUnsolicited i u need.blocks c
  else (s1.bump (.pool .unsolicitedLost)).discardUnsolicited i u .lost c

/-- A character of an unsolicited frame completes (R21, R23, R26). -/
def State.unsolicitedChar (s : State) (i : Fin 12) (u : Unsolicited) (c : RxChar) : State :=
  match u.mode with
  | .undecided => s.firstUnsolicited i u c
  | .keep n => s.keepUnsolicited i u n c
  | .drop => s.discardUnsolicited i u .drop c
  | .lost => s.discardUnsolicited i u .lost c
  | .aborted => s.discardUnsolicited i u .aborted c

/-- An unsolicited frame ends: its policy finishes with it (R22, R23, R26). -/
def State.finishUnsolicited (s : State) (i : Fin 12) (u : Unsolicited) (byBreak : Bool) : State :=
  match u.mode with
  | .undecided => s
  | .keep n =>
    s.finishKept i u.frame (u.frame.outcome byBreak) u.late false n (filledBlocks 10 u.frame.kept.length)
  | .drop => s.bump (.line i .unsolicitedDropped)
  | .lost => s
  | .aborted => s

/-- The unsolicited frame in progress, if any, ends. -/
def State.endUnsolicited (s : State) (i : Fin 12) (byBreak : Bool) : State :=
  match (s.line i).unsolicited with
  | some u => s.finishUnsolicited i u byBreak
  | none => s

/-- The listen state becomes QUIET: READY sends (R6), an IDLE line applies a staged profile (R30). -/
def State.becomeQuiet (s : State) (i : Fin 12) : State :=
  let s1 := s.modLine i (fun l =>
    { l with listen := .quiet, unsolicited := none, gap := none, awaitMark := false, postBreak := none })
  match (s.line i).txn with
  | .ready => s1.enterSending i
  | .idle => s1.applyStaged i
  | .offline => s1
  | .waitSpace => s1
  | .sending => s1
  | .turnaround => s1
  | .awaiting => s1
  | .receiving => s1
  | .guard => s1

/-- The listen state becomes BREAK at a break start (R2, R25). -/
def State.becomeBreak (s : State) (i : Fin 12) : State :=
  s.modLine i (fun l =>
    { l with listen := .brk, unsolicited := none, gap := none, awaitMark := false, postBreak := none })

/-- An echo failure: sending stops after the character in progress, or at once (R44); an abort already pending keeps
its outcome (R45). -/
def State.echoFails (s : State) (i : Fin 12) (t : Txn) : State :=
  if t.abortPending || t.echoFailed then s
  else if (s.line i).charOut.isSome then
    s.modLine i (fun l => { l with hand := some { t with echoFailed := true } })
  else s.completeToGuard i t .collision

/-- Characters of the attempt whose sending has begun. -/
def Line.started (l : Line) : Nat := l.sent + (if l.charOut.isSome then 1 else 0)

/-- A received character is compared with the oldest one sent and not yet matched (R43). That a character whose start bit
was taken during DeLead, and which completes once the first character is being sent, is compared like any other is the
model's choice (log 24). -/
def State.echoChar (s : State) (i : Fin 12) (t : Txn) (c : RxChar) : State :=
  let l := s.line i
  let bytes := s.workBytes t.work
  if t.abortPending || t.echoFailed then s
  else if l.echoed < l.started && !c.bad && (bytes[l.echoed]?).map l.applied.onLine == some c.value then
    let s1 := s.modLine i (fun l => { l with echoed := l.echoed + 1 })
    if l.echoed + 1 = bytes.length && l.charOut.isNone then s1.enterTurnaround i else s1
  else s.echoFails i t

/-- The last character has been sent: the DeHold count begins, and TURNAROUND is entered unless an echo is still
missing (R37, R43). -/
def State.allSent (s : State) (i : Fin 12) : State :=
  let s1 := s.modLine i (fun l => { l with deHold := countOf l.applied.deHold })
  if (s.line i).applied.echoCheck && (s.line i).echoed < (s.line i).sent then s1 else s1.enterTurnaround i

/-- The stop bits of a character end (R37): the next character, the end of sending, or the completion of an aborted
(R26) or collided (R44) transaction. -/
def State.charSent (s : State) (i : Fin 12) (t : Txn) : State :=
  let s1 := s.modLine i (fun l => { l with charOut := none, sent := l.sent + 1 })
  if t.abortPending then s1.completeToGuard i t .aborted
  else if t.echoFailed then s1.completeToGuard i t .collision
  else if (s.line i).sent + 1 < (s.workBytes t.work).length then s1.startChar i
  else s1.allSent i

/-- The receiver examines LRXn (R38). -/
def Line.examines (l : Line) : Bool :=
  match l.txn with
  | .offline => false
  | .sending => l.applied.echoCheck
  | .idle => true | .waitSpace => true | .ready => true | .turnaround => true | .awaiting => true
  | .receiving => true | .guard => true

/-- A start bit on a line whose receive side belongs to no transaction (R2, R21, R24, R42). -/
def Line.quietStart (l : Line) : Line :=
  match l.listen with
  | .quiet => l.beginUnsolicited .quiet (if l.txn = .guard then l.lateMark else none)
  | .brk => l.beginUnsolicited .brk (if l.txn = .guard then l.lateMark else none)
  | .listening => { l with rxBusy := true, edgeListen := .listening, gap := none, awaitMark := false }

/-- The first start bit in AWAITING suspends the reply window (R11, R208). -/
def Line.suspend (l : Line) (now : Nat) : Line :=
  { l.goto .receiving with
    rxBusy := true, window := none,
    hand := l.hand.map (fun t =>
      { t with windowLeft := (l.window.getD now) - now, reply := Assembly.empty }) }

/-- A confirmed start bit (R39). -/
def State.takeStart (s : State) (i : Fin 12) : State :=
  match (s.line i).txn with
  | .offline => s
  | .idle => s.modLine i Line.quietStart
  | .waitSpace => s.modLine i Line.quietStart
  | .ready => s.modLine i Line.quietStart
  | .guard => s.modLine i Line.quietStart
  | .sending => s.modLine i (fun l => { l with rxBusy := true })
  | .turnaround => (s.modLine i (fun l => { l with rxBusy := true })).earlyAnswer i
  | .awaiting => s.modLine i (fun l => l.suspend s.clock)
  | .receiving => s.modLine i (fun l => { l with rxBusy := true, gap := none, awaitMark := false })

/-- A completed character of a line in a listening state. -/
def State.quietChar (s : State) (i : Fin 12) (c : RxChar) : State :=
  match (s.line i).unsolicited with
  | some u => s.unsolicitedChar i u c
  | none => s

/-- A completed character (R40). -/
def State.takeChar (s : State) (i : Fin 12) (c : RxChar) : State :=
  let s1 := s.modLine i (fun l => { l with rxBusy := false })
  match (s.line i).txn, (s.line i).hand with
  | .idle, _ => s1.quietChar i c
  | .waitSpace, _ => s1.quietChar i c
  | .ready, _ => s1.quietChar i c
  | .guard, _ => s1.quietChar i c
  | .sending, some t => s1.echoChar i t c
  | .receiving, some t => s1.replyChar i t c
  | .sending, none => s1
  | .receiving, none => s1
  | .offline, _ => s1
  | .turnaround, _ => s1
  | .awaiting, _ => s1

/-- A break start on a line whose receive side belongs to no transaction: the listen state that stood before its
edge decides (R25). -/
def State.quietBreak (s : State) (i : Fin 12) : State :=
  match (s.line i).edgeListen with
  | .quiet => (s.raiseEvent .lineBreak (lineByte i) 0).becomeBreak i
  | .listening => (s.endUnsolicited i true).becomeBreak i
  | .brk => s.becomeBreak i

/-- A break start (R25, R41): counted once in Breaks (R192). That Breaks rises first, so that a COUNTER_HALF it raises takes
the event slot and the pending Missed count before the LINE_BREAK of a quiet line, and before the POOL_RECOVERED of the blocks
freed where the break ends a reply or an unsolicited frame, is the model's choice (log 23). -/
def State.takeBreak (s : State) (i : Fin 12) : State :=
  let s1 := (s.modLine i (fun l => { l with rxBusy := false, brk := true })).bump (.line i .breaks)
  match (s.line i).txn, (s.line i).hand with
  | .idle, _ => s1.quietBreak i
  | .waitSpace, _ => s1.quietBreak i
  | .ready, _ => s1.quietBreak i
  | .guard, _ => s1.quietBreak i
  | .sending, some t => s1.echoFails i t
  | .receiving, some t => s1.completeToGuard i t .brk
  | .sending, none => s1
  | .receiving, none => s1
  | .offline, _ => s1
  | .turnaround, _ => s1
  | .awaiting, _ => s1

/-- A break ends; with listen BREAK the post-break idle count begins (R41, R42). -/
def Line.breakOver (l : Line) : Line :=
  { l with brk := false, postBreak := if l.listen = .brk then some l.applied.gapTime else none }

/-- The gap count of a frame ends (R46). -/
def State.takeGapEnd (s : State) (i : Fin 12) : State :=
  match (s.line i).txn, (s.line i).hand with
  | .receiving, some t => s.endReply i t
  | .receiving, none => s
  | .idle, _ => (s.endUnsolicited i false).becomeQuiet i
  | .waitSpace, _ => (s.endUnsolicited i false).becomeQuiet i
  | .ready, _ => (s.endUnsolicited i false).becomeQuiet i
  | .guard, _ => (s.endUnsolicited i false).becomeQuiet i
  | .offline, _ => s
  | .sending, _ => s
  | .turnaround, _ => s
  | .awaiting, _ => s

/-- LINE_ABORT on the unsolicited frame in progress (R26). -/
def State.abortUnsolicited (s : State) (i : Fin 12) : State :=
  match (s.line i).listen, (s.line i).unsolicited with
  | .listening, some u =>
    let s1 := s.modLine i (fun l => { l with unsolicited := some { u with mode := .aborted } })
    match u.mode with
    | .undecided => (s1.countLate i u).bump (.line i .unsolicitedDropped)
    | .drop => s1.bump (.line i .unsolicitedDropped)
    | .keep n => s1.dropKept i n (filledBlocks 10 u.frame.kept.length)
    | .lost => s1
    | .aborted => s1
  | .listening, none => s
  | .quiet, _ => s
  | .brk, _ => s

/-- The one block and slot asked for a poll aborted in WAIT_SPACE (R27). -/
def abortNeed : Need := { blocks := 1, slot := true, cls := .response }

/-- A transaction aborted in WAIT_SPACE, without a reservation (R27). -/
def State.abortWaiting (s : State) (i : Fin 12) (t : Txn) : State :=
  let s1 := s.modLine i (fun l => { l with hand := none })
  match t.work with
  | .request r =>
    (s1.replyInPayload (lineByte i) r.tag r.urgent r.payload .aborted).countOutcome i .aborted
  | .poll id _ =>
    let s2 := s1.countOutcome i .aborted
    if s2.mayTake abortNeed then (s2.take abortNeed .held).pollDone id .aborted Assembly.empty (some (1, 1))
    else s2.pollDone id .aborted Assembly.empty none

/-- What LINE_ABORT finds to do with the transaction of a line (R26). -/
inductive AbortCase where
  /-- Nothing is aborted. -/
  | nothing
  /-- WAIT_SPACE: completes without a reservation, then IDLE. -/
  | waiting (t : Txn)
  /-- Completes from its reservation, then GUARD. -/
  | toGuard (t : Txn)
  /-- GUARD with a retry pending: completes, GUARD goes on. -/
  | inGuard (t : Txn)
  /-- SENDING with a character in progress: abort pending. -/
  | pend (t : Txn)
  deriving DecidableEq, Repr

/-- The row of R26 that applies. A waiting line already granted its reservation counts as READY (R98). -/
def Line.abortCase (l : Line) : AbortCase :=
  match l.hand with
  | none => .nothing
  | some t =>
    match l.txn with
    | .offline => .nothing
    | .idle => .nothing
    | .waitSpace => if t.reservation.isSome then .toGuard t else .waiting t
    | .ready => .toGuard t
    | .sending =>
      if t.abortPending || t.echoFailed then .nothing else if l.charOut.isSome then .pend t else .toGuard t
    | .turnaround => .toGuard t
    | .awaiting => .toGuard t
    | .receiving => .toGuard t
    | .guard => .inGuard t

/-- The transaction LINE_ABORT reports as aborted (R28). -/
def AbortCase.txn : AbortCase → Option Txn
  | .nothing => none
  | .waiting t => some t
  | .toGuard t => some t
  | .inGuard t => some t
  | .pend t => some t

/-- The transaction is acted on; the line does not move yet (R26, R27). The completion of one that waited comes before the
head of the wait list is tested (R98). -/
def State.abortTxn (s : State) (i : Fin 12) (c : AbortCase) : State :=
  match c with
  | .nothing => s
  | .waiting t => ((s.leaveWait (.line i)).abortWaiting i t).grantAll
  | .toGuard t => s.complete i t .aborted
  | .inGuard t => s.complete i t .aborted
  | .pend t => s.modLine i (fun l => { l with hand := some { t with abortPending := true } })

/-- The line queue is emptied, each request FLUSHED, oldest first (R28). -/
def State.flushQueue (s : State) (i : Fin 12) : State :=
  let q := (s.line i).queue
  (s.modLine i (fun l => { l with queue := [] })).refuseAll i .flushed q

/-- A granted line engine enters READY with its reservation (R5). -/
def State.lineGranted (s : State) (i : Fin 12) : State :=
  match (s.line i).hand with
  | some t => if (s.line i).txn = .waitSpace && t.reservation.isSome then s.enterReady i else s
  | none => s

/-- The line moves after its transaction was aborted (R26). -/
def State.abortMove (s : State) (i : Fin 12) (c : AbortCase) : State :=
  match c with
  | .nothing => s
  | .waiting _ => s.enterIdle i
  | .toGuard t => s.enterGuard i t.lateMark
  | .inGuard _ => s
  | .pend _ => s

/-- LINE_ABORT on line `i` (R26 to R28), by its state as the command executes (R169): the transaction, the unsolicited
frame, the queue, as R178 names them, then the line's move. A waiting line has left the wait list and its transaction has
completed before its unsolicited frame frees anything (R98). -/
def State.abortLine (s : State) (i : Fin 12) (flush : Bool) : State :=
  let c := (s.line i).abortCase
  let s1 := (s.abortTxn i c).abortUnsolicited i
  (if flush then s1.flushQueue i else s1).abortMove i c

end Sys2Proof.Machine
end

