-- ==== Sys2Proof/Machine/Operands.lean ====
section
/-! DEFINITION. The operands of the record commands, read from bytes: downlink records (R125, section 11.4) and the
parameter blocks of the management commands with their range checks (R167, R171, R174, R179, R180). -/

namespace Sys2Proof.Machine

/-- What stands at the dispatch offset (R124, R125). -/
inductive Parsed where
  | lineRequest (r : LineRequest)
  | command (m : MgmtRequest)
  | malformed
  deriving DecidableEq, Repr

/-- Header bytes of a LINE_REQUEST: 7, or 8 with ExpectLen (section 11.4). -/
def requestHeader (expectLenPresent : Bool) : Nat := if expectLenPresent then 8 else 7

/-- A LINE_REQUEST of Length `len` at the start of `b` (section 11.4). -/
def parseLineRequest (b : List Byte) (len : Nat) : Parsed :=
  if len < 7 then .malformed
  else if len < requestHeader ((byteAt b 6).getLsbD 2) then .malformed
  else .lineRequest
    { tag := halfAt b 3
      line := byteAt b 5
      urgent := (byteAt b 6).getLsbD 0
      noReply := (byteAt b 6).getLsbD 1
      suppressRetry := (byteAt b 6).getLsbD 3
      expectLen := if (byteAt b 6).getLsbD 2 then some (byteAt b 7).toNat else none
      payload := (b.take len).drop (requestHeader ((byteAt b 6).getLsbD 2)) }

/-- A MGMT_REQUEST of Length `len` at the start of `b` (section 11.4). -/
def parseCommand (b : List Byte) (len : Nat) : Parsed :=
  if len < 6 then .malformed
  else .command { tag := halfAt b 3, code := byteAt b 5, params := (b.take len).drop 6 }

/-- The record at the start of `b`, the bytes from the dispatch offset on (R125). -/
def parseRecord (b : List Byte) : Parsed :=
  if b.length < 3 then .malformed
  else if b.length < (halfAt b 1).toNat then .malformed
  else if byteAt b 0 = 0x10 then parseLineRequest b (halfAt b 1).toNat
  else if byteAt b 0 = 0x20 then parseCommand b (halfAt b 1).toNat
  else .malformed

/-- Bytes of a LINE_REQUEST record. -/
def LineRequest.size (r : LineRequest) : Nat := requestHeader r.expectLen.isSome + r.payload.length

/-- Bytes of a MGMT_REQUEST record. -/
def MgmtRequest.size (m : MgmtRequest) : Nat := 6 + m.params.length

/-- An off or on setting: 0 or 1. -/
def boolOf (b : Byte) : Option Bool := if b = 0 then some false else if b = 1 then some true else none

/-- Parity from its code. -/
def parityOf (b : Byte) : Option Parity :=
  if b = 0 then some .none else if b = 1 then some .even else if b = 2 then some .odd else none

/-- RetryOn from its code. -/
def retryOnOf (b : Byte) : Option RetryOn :=
  if b = 0 then some .noReplyOnly else if b = 1 then some .noReplyAndCharError else none

/-- UnsolicitedPolicy from its code. -/
def policyOf (b : Byte) : Option Policy :=
  if b = 0 then some .drop else if b = 1 then some .forward else if b = 2 then some .forwardKnown else none

/-- ReportMode from its code. -/
def modeOf (b : Byte) : Option ReportMode :=
  if b = 0 then some .every else if b = 1 then some .change else if b = 2 then some .changeQuietErrors else none

/-- The number in the byte at `i`. -/
def numAt (b : List Byte) (i : Nat) : Nat := (byteAt b i).toNat

/-- The number in the two bytes at `i`. -/
def num16At (b : List Byte) (i : Nat) : Nat := (halfAt b i).toNat

/-- The ranges of the numeric profile fields (R174). -/
def Profile.inRange (p : Profile) : Bool :=
  p.rateCode ≤ 8 && (1 ≤ p.divisor && p.divisor ≤ 4095) && (p.dataBits == 7 || p.dataBits == 8)
    && (p.stopBits == 1 || p.stopBits == 2) && p.deLead ≤ 15 && p.deHold ≤ 15 && 8 ≤ p.gapTime
    && 1 ≤ p.maxReply && 1 ≤ p.replyTimeout && p.retries ≤ 7 && (1 ≤ p.queueDepth && p.queueDepth ≤ 8)

/-- The 24-byte profile with the coded fields read (section 11.5). -/
def Profile.ofBytes (b : List Byte) : Option Profile := do
  let enabled ← boolOf (byteAt b 0)
  let parity ← parityOf (byteAt b 5)
  let echoCheck ← boolOf (byteAt b 9)
  let termChar ← boolOf (byteAt b 11)
  let retryOn ← retryOnOf (byteAt b 18)
  let matchFirst ← boolOf (byteAt b 19)
  let policy ← policyOf (byteAt b 20)
  some
    { enabled := enabled, rateCode := numAt b 1, divisor := num16At b 2, dataBits := numAt b 4,
      parity := parity, stopBits := numAt b 6, deLead := numAt b 7, deHold := numAt b 8,
      echoCheck := echoCheck, gapTime := numAt b 10, termChar := termChar, termValue := byteAt b 12,
      maxReply := numAt b 13, replyTimeout := num16At b 14, guardTime := numAt b 16, retries := numAt b 17,
      retryOn := retryOn, matchFirst := matchFirst, policy := policy, queueDepth := numAt b 21,
      ageLimit := num16At b 22 }

/-- The profile LINE_CONFIG carries, when every check of R174 passes. -/
def checkedProfile (b : List Byte) : Option Profile :=
  match Profile.ofBytes b with
  | some p => if p.inRange then some p else none
  | none => none

/-- The 16-byte link configuration (section 11.5). -/
def LinkConfig.ofBytes (b : List Byte) : LinkConfig :=
  { ackDelay := numAt b 0, retransmitTimeout := num16At b 1, maxRetransmits := numAt b 3,
    silenceLimit := num16At b 4, syncInterval := num16At b 6, batchCount := numAt b 8,
    batchDelay := numAt b 9, holdLimit := num16At b 10, lowMark := num16At b 12, highMark := num16At b 14 }

/-- The ranges of the link parameters (R163, R171). -/
def LinkConfig.inRange (c : LinkConfig) : Bool :=
  c.ackDelay ≤ 50 && (5 ≤ c.retransmitTimeout && c.retransmitTimeout ≤ 2000)
    && (1 ≤ c.maxRetransmits && c.maxRetransmits ≤ 15) && (20 ≤ c.silenceLimit && c.silenceLimit ≤ 5000)
    && (10 ≤ c.syncInterval && c.syncInterval ≤ 1000) && (1 ≤ c.batchCount && c.batchCount ≤ 15)
    && c.batchDelay ≤ 100 && (c.holdLimit == 0 || (10 ≤ c.holdLimit && c.holdLimit ≤ 10000))
    && (16 ≤ c.lowMark && c.lowMark ≤ 512) && (c.lowMark + 16 ≤ c.highMark && c.highMark ≤ 1008)

/-- The ExpectLen a POLL_SET carries (R180): absent with its flag clear. -/
def pollExpectLen (b : List Byte) : Option Nat :=
  if (byteAt b 8).getLsbD 0 then some (numAt b 9) else none

/-- An ExpectLen, when present, is 1 to `limit` (R84, R126). -/
def expectLenOk (e : Option Nat) (limit : Nat) : Bool :=
  match e with
  | none => true
  | some n => 1 ≤ n && n ≤ limit

/-- The definition a POLL_SET carries, with the checks of R84 that need no line state. -/
def PollDef.ofBytes (b : List Byte) : Option PollDef := do
  let line ← lineOf (byteAt b 1)
  let mode ← modeOf (byteAt b 6)
  if 1 ≤ num16At b 2 ∧ num16At b 4 ≤ num16At b 2 ∧ 11 ≤ b.length ∧ b.length ≤ 74 then
    some
      { line := line, period := num16At b 2, phase := num16At b 4, mode := mode, forceEvery := numAt b 7,
        expectLen := pollExpectLen b, request := b.drop 10 }
  else none

/-- A list that holds no value twice (R51). -/
def distinct : List Byte → Bool
  | [] => true
  | a :: as => !as.contains a && distinct as

/-- Counter sets by their ids (section 11.6). -/
inductive CounterSet where
  | link | pool | line (i : Fin 12)
  deriving DecidableEq, Repr

/-- The set a set id names (R183). -/
def counterSetOf (b : Byte) : Option CounterSet :=
  if b = 0 then some .link else if b = 1 then some .pool
  else if 0x10 ≤ b.toNat then (lineOf (b - 0x10)).map .line else none

end Sys2Proof.Machine
end

