-- ==== Sys2Proof/Machine/Schedule.lean ====
section
/-! DEFINITION. The poll schedule: due times, overruns, and polling becoming active or inactive (R68 to R74). -/

namespace Sys2Proof.Machine

/-- Polling is active while PollRun is on and the link is UP (R68). -/
def State.polling (s : State) : Bool := s.pollRun && s.trunk.up

/-- The period in ms (R66). -/
def PollDef.periodMs (d : PollDef) : Nat := d.period * 10

/-- The phase in ms (R66). -/
def PollDef.phaseMs (d : PollDef) : Nat := d.phase * 10

/-- NextDue moves on by one Period, counted from the NextDue reached (R73). -/
def Poll.moveOn (p : Poll) (t : Nat) : Poll := { p with nextDue := some (t + p.defn.periodMs) }

/-- An overrun is counted, up to 255 (R74). -/
def Poll.overrun (p : Poll) : Poll := { p with missed := min 255 (p.missed + 1) }

/-- A WAITING entry becomes DUE and joins its line's due list; an IDLE line selects at once (R56, R72). -/
def State.becomeDue (s : State) (id : Fin 128) (p : Poll) (t : Nat) : State :=
  ((s.setPoll id (some { p.moveOn t with state := .due })).modLine p.defn.line
    (fun l => { l with due := dueInsert { poll := id, time := t } l.due })).selectIfIdle p.defn.line

/-- An entry reaches its NextDue `t` (R72). -/
def State.reachDue (s : State) (id : Fin 128) (p : Poll) (t : Nat) : State :=
  match p.state with
  | .waiting =>
    if (s.line p.defn.line).txn = .offline then s.setPoll id (some (p.moveOn t)) else s.becomeDue id p t
  | .due => s.setPoll id (some (p.overrun.moveOn t))
  | .inFlight => s.setPoll id (some (p.overrun.moveOn t))
  | .retiring => s.setPoll id (some (p.overrun.moveOn t))

/-- NextDue of an entry counted from a reading (R69). -/
def Poll.anchor (now : Nat) (p : Poll) : Poll :=
  if p.state = .due then p else { p with nextDue := some (now + p.defn.phaseMs) }

/-- An entry with Phase 0 reaches its NextDue at the activation's own reading (R69). -/
def State.phaseZero (s : State) (id : Fin 128) : State :=
  match s.poll id with
  | some p => if p.defn.phase = 0 then s.reachDue id p s.clock else s
  | none => s

/-- Polling becomes active: every entry is re-anchored from the same reading, and those with Phase 0 fall due in
PollId order (R69). -/
def State.activate (s : State) : State :=
  (List.finRange 128).foldl State.phaseZero
    { s with polls := mapVec (fun e => e.map (Poll.anchor s.clock)) s.polls }

/-- An entry when polling becomes inactive: DUE returns to WAITING, NextDue is absent (R70). -/
def Poll.idle (p : Poll) : Poll :=
  { p with state := if p.state = .due then .waiting else p.state, nextDue := none }

/-- Polling becomes inactive (R63, R70). -/
def State.deactivate (s : State) : State :=
  { s with polls := mapVec (fun e => e.map Poll.idle) s.polls,
           lines := mapVec (fun l => { l with due := [] }) s.lines }

end Sys2Proof.Machine
end

