-- ==== Sys2Proof/Machine/Trunk.lean ====
section
/-! DEFINITION. The trunk interface: link states, sequence spaces, headers, acknowledgement and go-back
(R141 to R159). -/

namespace Sys2Proof.Machine

/-- The first five choices of a CTRL are cleared, with the acknowledgement and the Reject (R142, R162). -/
def Trunk.clearReasons (t : Trunk) : Trunk :=
  { t with rejectPending := false, ackPending := false, ackNow := false, allowRose := false,
           opening := false, ackOnly := false, keepaliveDue := false }

/-- The records of a released frame go, blocks and slots as one release, which grants waiters (R96, R97, R117). -/
def State.releaseFrame (s : State) (f : SentFrame) : State :=
  let events := (f.records.filter Record.isEvent).length
  (((s.freeRecordSlots (f.records.length - events)).freeEventSlots events).release 0
    (f.records.map Record.blocks).sum).grantAll

/-- A timer of `n` ms started now (R208). -/
def State.timer (s : State) (n : Nat) : Option Nat := some (s.clock + n)

/-- The deadline of a running timer has been reached (R208). -/
def State.expired (s : State) (t : Option Nat) : Bool :=
  match t with
  | some d => d ≤ s.clock
  | none => false

/-- A go-back finishes when no frame is left to resend and none of it is on the line (R156). -/
def State.goBackEnds (s : State) : State :=
  let onLine := match s.trunk.tx with
    | some f => f.goBack
    | none => false
  if s.trunk.goBack && !(s.trunk.retransmits.any SentFrame.toResend) && !onLine then
    s.setTrunk { s.trunk with
      goBack := false
      retransmitTimer := if s.trunk.retransmits.isEmpty then none else s.timer s.cfg.retransmitTimeout }
  else s

/-- A go-back starts: every outstanding frame is to be resent, the retransmit timer stops (R155, R156). -/
def State.startGoBack (s : State) : State :=
  (s.setTrunk { s.trunk with
    goBack := true, retransmitTimer := none,
    retransmits := s.trunk.retransmits.map (fun f => { f with toResend := true }) }).bump (.link .goBacks)

/-- Frames an acknowledgement releases: those whose Seq lies before AckSeq (R151). -/
def Trunk.ackCount (t : Trunk) (ack : Seq) : Nat := (ack - t.peerAck).toNat

/-- An AckSeq is valid from the oldest outstanding frame to NextSeq (R147). -/
def Trunk.ackValid (t : Trunk) (ack : Seq) : Bool :=
  (ack - t.peerAck).toNat ≤ (t.nextSeq - t.peerAck).toNat

/-- The trunk interface after an acknowledgement that makes progress (R151). -/
def State.acked (s : State) (ack : Seq) : State :=
  let rest := s.trunk.retransmits.drop (s.trunk.ackCount ack)
  s.setTrunk { s.trunk with
    retransmits := rest, peerAck := ack, expiries := 0,
    retransmitTimer :=
      if s.trunk.goBack then none else if rest.isEmpty then none else s.timer s.cfg.retransmitTimeout }

/-- An acknowledgement with progress: the oldest frames are released, one release each (R117, R151). -/
def State.takeAck (s : State) (ack : Seq) : State :=
  ((s.trunk.retransmits.take (s.trunk.ackCount ack)).foldl State.releaseFrame (s.acked ack)).goBackEnds

/-- PeerAllow takes the frame's Allow (R147). -/
def State.takeAllow (s : State) (a : Nat) : State := s.setTrunk { s.trunk with peerAllow := countedAllow a }

/-- A Reject with a valid AckSeq (R155). -/
def State.takeReject (s : State) (r : Bool) : State :=
  if r && !s.trunk.goBack && !s.trunk.retransmits.isEmpty then s.startGoBack else s

/-- The header of a DATA or CTRL frame received in UP, in the order of R147. -/
def State.takeHeader (s : State) (f : RxFrame) : State :=
  if s.trunk.ackValid f.ackSeq then
    let s1 := if f.ackSeq = s.trunk.peerAck then s else s.takeAck f.ackSeq
    (s1.takeAllow f.allow).takeReject f.reject
  else s.bump (.link .outOfWindow)

/-- A frame that passed the checks: counted, and the silence timer starts again in UP (R140, R157). -/
def State.goodFrame (s : State) : State :=
  let s1 := s.bump (.link .framesReceived)
  if s1.trunk.up then s1.setTrunk { s1.trunk with silenceTimer := s1.timer s1.cfg.silenceLimit } else s1

/-- The AckDelay timer is started if it is not running; 0 ms expires at once (R148, R150, R208). -/
def State.startAckDelay (s : State) : State :=
  if s.trunk.ackDelayTimer.isSome then s
  else if s.cfg.ackDelay = 0 then s.setTrunk { s.trunk with ackOnly := true }
  else s.setTrunk { s.trunk with ackDelayTimer := s.timer s.cfg.ackDelay }

/-- The sequence number of the last frame accepted in the space that ends (R142). -/
def Trunk.captured (t : Trunk) : Option Seq := if t.anyAccepted then some (t.expectSeq - 1) else none

/-- The records of the retransmit list as they return to the queue: in order, marked Resent (R118). -/
def requeued (fs : List SentFrame) : List Record :=
  (fs.map (fun f => f.records.map (fun r => { r with resent := true }))).flatten

/-- The sequence space ends (R118, R142). -/
def State.endSpace (s : State) : State :=
  (s.setUplink (requeued s.trunk.retransmits ++ s.uplink)).setTrunk
    { s.trunk.clearReasons with
      retransmits := [], lastAccepted := s.trunk.captured, goBack := false, retransmitTimer := none,
      ackDelayTimer := none, silenceTimer := none, keepaliveTimer := none, syncAckPending := none }

/-- The Epoch after the next entry into DOWN: 1 to 255 (R142). -/
def nextEpoch (e : Byte) : Byte := if e = 255 then 1 else e + 1

/-- The trunk interface as it enters DOWN (R142). -/
def State.enterDown (s : State) (cause : SyncCause) : State :=
  s.setTrunk { s.trunk with
    up := false, linkUpPin := false, epoch := nextEpoch s.trunk.epoch, cause := cause, downSince := s.clock,
    syncPending := true, syncTimer := s.timer s.cfg.syncInterval }

/-- The link leaves UP (R142): the space ends, the link enters DOWN, the drop is counted, polling ends. -/
def State.linkDown (s : State) (cause : SyncCause) (c : LinkCtr) : State :=
  let s1 := (s.endSpace.enterDown cause).bump (.link c)
  if s.pollRun then s1.deactivate else s1

/-- A sequence reset (R145). -/
def State.sequenceReset (s : State) : State :=
  (s.setTrunk { s.trunk with
    nextSeq := 0, peerAck := 0, expectSeq := 0, peerAllow := 0, rejectSent := false, rejectPending := false,
    ackPending := false, anyAccepted := false, expiries := 0, goBack := false }).bump (.link .resyncs)

/-- The keepalive period (R159). -/
def LinkConfig.keepalive (c : LinkConfig) : Nat := c.silenceLimit / 4

/-- The silence and keepalive timers start (R146, R157, R159). -/
def State.startUpTimers (s : State) : State :=
  s.setTrunk { s.trunk with
    silenceTimer := s.timer s.cfg.silenceLimit, keepaliveTimer := s.timer s.cfg.keepalive }

/-- The detail of LINK_RESTORED: cause, 0, time down stopping at 65535 (R146, section 11.6). -/
def State.restoredDetail (s : State) : BitVec 32 :=
  (s.trunk.cause.code ++ 0#8) ++ BitVec.ofNat 16 (min 65535 (elapsed s.clock s.trunk.downSince))

/-- The link enters UP from DOWN (R146): the sync timer stops and no SYNC is pending (R143, R144). -/
def State.enterUp (s : State) : State :=
  let s1 := (s.setTrunk { s.trunk with
    up := true, linkUpPin := true, syncPending := false, syncTimer := none, upBefore := true }).startUpTimers
  let s2 := if s.trunk.upBefore then s1.raiseEvent .linkRestored 0 s1.restoredDetail else s1
  if s.pollRun then s2.activate else s2

/-- A controller SYNC with its epoch (R144). -/
def State.takeSync (s : State) (epoch : Byte) : State :=
  if s.trunk.up then
    let s1 := s.endSpace
    let s2 := (s1.setTrunk { s1.trunk with cause := .peerSync }).sequenceReset.startUpTimers
    s2.setTrunk { s2.trunk with syncAckPending := some epoch }
  else
    let s1 := s.sequenceReset.enterUp
    s1.setTrunk { s1.trunk with syncAckPending := some epoch }

/-- A SYNC_ACK (R143): taken only in DOWN and with the current Epoch. -/
def State.takeSyncAck (s : State) (epoch : Byte) : State :=
  if !s.trunk.up && epoch == s.trunk.epoch then
    let s1 := s.sequenceReset.enterUp
    s1.setTrunk { s1.trunk with opening := true }
  else s

end Sys2Proof.Machine
end

