-- ==== Sys2Proof/Machine/Transmit.lean ====
section
/-! DEFINITION. Uplink assembly and the transmitter: the triggers, the building of a frame, the arbiter and the start
of a transmission (R109 to R116, R160 to R162); and the close of every step. -/

namespace Sys2Proof.Machine

/-- The trunk interface can accept a new frame (R109). -/
def State.canAccept (s : State) : Bool :=
  s.trunk.up && !s.trunk.goBack && s.trunk.retransmits.length < min Config.window s.trunk.peerAllow

/-- The Delay trigger: the head's deadline has been reached (R110). -/
def State.delayReached (s : State) : Bool :=
  match s.uplink with
  | r :: _ => r.deadline ≤ s.clock
  | [] => false

/-- The assembler has a frame to build (R110). -/
def State.trigger (s : State) : Bool :=
  !s.uplink.isEmpty
    && (s.uplink.any Record.urgent || s.cfg.batchCount ≤ s.uplink.length || s.delayReached
      || Config.maxPayload ≤ (s.uplink.map Record.len).sum)

/-- The assembler's offer stands (R112). -/
def State.offers (s : State) : Bool := s.canAccept && s.trigger

/-- Records from the head while their lengths do not exceed the bytes left (R114). -/
def takeFit : Nat → List Record → List Record
  | _, [] => []
  | left, r :: rs => if r.len ≤ left then r :: takeFit (left - r.len) rs else []

/-- The start of a frame's transmission (R162): its header is placed, acknowledgement and CTRL reasons are cleared. -/
def State.startFrame (s : State) (k : FrameKind) (seq : Seq) (payload : List Byte) (goBack : Bool) : State :=
  let sync := k = .sync
  let frame : TxFrame :=
    { kind := k
      reject := s.trunk.rejectPending && (k == .data || k == .ctrl)
      seq := seq
      ackSeq := if sync then 0 else s.trunk.expectSeq
      allow := s.allow
      payload := payload
      goBack := goBack }
  (s.setTrunk { s.trunk.clearReasons with
    tx := some frame
    ackDelayTimer := none
    keepaliveTimer := if s.trunk.up then s.timer s.cfg.keepalive else s.trunk.keepaliveTimer }).bump
      (.link .framesSent)

/-- A pending SYNC is sent (R142, R206). -/
def State.sendSync (s : State) : State :=
  (s.setTrunk { s.trunk with syncPending := false }).startFrame .sync 0
    (syncPayload s.trunk.epoch s.trunk.cause s.trunk.lastAccepted) false

/-- A pending SYNC_ACK is sent, echoing the controller's epoch (R144, R206). -/
def State.sendSyncAck (s : State) (epoch : Byte) : State :=
  (s.setTrunk { s.trunk with syncAckPending := none }).startFrame .syncAck 0
    (syncPayload epoch s.trunk.cause s.trunk.lastAccepted) false

/-- A CTRL frame is sent. -/
def State.sendCtrl (s : State) : State := s.startFrame .ctrl 0 [] false

/-- Mark the first frame still to be resent as resent (R156). -/
def resendNext : List SentFrame → List SentFrame
  | [] => []
  | f :: fs => if f.toResend then { f with toResend := false } :: fs else f :: resendNext fs

/-- The next go-back frame is resent with its own Seq and records (R116, R156). -/
def State.sendGoBack (s : State) (f : SentFrame) : State :=
  ((s.setTrunk { s.trunk with retransmits := resendNext s.trunk.retransmits }).startFrame .data f.seq
    (payloadOf f.records) true).bump (.link .retransmissions)

/-- A new DATA frame is built from the head of the queue and handed over (R114, R115, R151). -/
def State.sendNew (s : State) : State :=
  let rs := takeFit Config.maxPayload s.uplink
  let seq := s.trunk.nextSeq
  ((s.setUplink (s.uplink.drop rs.length)).setTrunk { s.trunk with
    nextSeq := seq + 1
    retransmits := s.trunk.retransmits ++ [{ seq := seq, records := rs, toResend := false }]
    retransmitTimer :=
      if s.trunk.retransmits.isEmpty then s.timer s.cfg.retransmitTimeout else s.trunk.retransmitTimer
    }).startFrame .data seq (payloadOf rs) false

/-- A CTRL reason of choice 2 is pending (R160). -/
def Trunk.ctrlNow (t : Trunk) : Bool := t.rejectPending || t.ackNow || t.allowRose || t.opening

/-- Choices 4 to 6 of the arbiter (R160). -/
def State.sendLater (s : State) : State :=
  if s.offers then s.sendNew
  else if s.trunk.ackOnly || s.trunk.keepaliveDue then s.sendCtrl
  else s

/-- Choices 2 to 6 of the arbiter, in UP (R160). -/
def State.sendUp (s : State) : State :=
  if s.trunk.ctrlNow then s.sendCtrl
  else match s.trunk.goBack, s.trunk.retransmits.find? SentFrame.toResend with
    | true, some f => s.sendGoBack f
    | true, none => s.sendLater
    | false, _ => s.sendLater

/-- The arbiter's choice when the transmitter is free (R160). In DOWN the transmitter sends SYNC frames only. -/
def State.chooseFrame (s : State) : State :=
  if s.trunk.up then
    match s.trunk.syncAckPending with
    | some e => s.sendSyncAck e
    | none => s.sendUp
  else if s.trunk.syncPending then s.sendSync
  else s

/-- The arbiter acts when the transmitter is free (R160). -/
def State.arbitrate (s : State) : State := if s.trunk.tx.isNone then s.chooseFrame else s

/-- The close of a step: a go-back that is over finishes, the records kept back join, and the arbiter acts. -/
def State.close (s : State) : State := s.goBackEnds.flushLate.arbitrate.flushLate

/-- A millisecond passes (R208): what step does when no command waits and no deadline has been reached. -/
def State.tick (s : State) : State := { s.close with clock := s.close.clock + 1 }

end Sys2Proof.Machine
end

