-- ==== Sys2Proof/Machine/Intake.lean ====
section
/-! DEFINITION. The intake unit: its slots, the dispatch of line requests, refusals, malformed records and stalls
(R122 to R134). -/

namespace Sys2Proof.Machine

/-- What stands at the dispatch offset of the head frame, when dispatch is not STALLED (R124). -/
def State.headRecord (s : State) : Option Parsed :=
  match s.intake.stall, s.intake.frames with
  | none, f :: _ =>
    if f.offset < f.payload.length then some (parseRecord (f.payload.drop f.offset)) else none
  | none, [] => none
  | some _, _ => none

/-- The frames that still have records to dispatch: those finished at the head have left (R124). -/
def unfinished : List IntakeFrame → List IntakeFrame
  | [] => []
  | f :: fs => if f.payload.length ≤ f.offset then unfinished fs else f :: fs

/-- Finished frames leave and their slots are freed; Allow may rise from 0 (R124, R136). -/
def State.reap (s : State) : State :=
  let fs := unfinished s.intake.frames
  let s1 := s.setIntake { s.intake with frames := fs }
  if fs.length < s.intake.frames.length && s.freeSlots = 0 && !s.pool.hold then s1.allowRises else s1

/-- Move the dispatch offset of the head frame. -/
def moveOffset (n : Nat) : List IntakeFrame → List IntakeFrame
  | [] => []
  | f :: fs => { f with offset := f.offset + n } :: fs

/-- A record of `n` bytes has been dispatched (R124). -/
def State.dispatched (s : State) (n : Nat) : State :=
  (s.setIntake { s.intake with frames := moveOffset n s.intake.frames }).reap

/-- An accepted DATA frame joins the intake list; an empty one at the head is finished at once (R123, R124). -/
def State.intakeAccept (s : State) (seq : Seq) (payload : List Byte) : State :=
  (s.setIntake { s.intake with
    frames := s.intake.frames ++ [{ seq := seq, payload := payload, offset := 0 }] }).reap

/-- The hold timer as a stall starts it: none with HoldLimit 0 (R132). -/
def State.holdStart (s : State) : Option Nat :=
  if s.cfg.holdLimit = 0 then none else s.timer s.cfg.holdLimit

/-- The intake unit joins the wait list and dispatch is STALLED (R131, R132). -/
def State.stallOn (s : State) (st : Stall) (n : Need) (timer : Option Nat) : State :=
  (s.setIntake { s.intake with stall := some st, holdTimer := timer }).joinWait { who := .intake, need := n }

/-- One block and one slot at response class for a refusal REPLY (R127). -/
def refusalNeed : Need := { blocks := 1, slot := true, cls := .response }

/-- A refusal at a line is counted; a BAD_LINE names no line set (R127). -/
def State.countRefusal (s : State) (line : Byte) : State :=
  match lineOf line with
  | some i => s.bump (.line i .requestsRefused)
  | none => s

/-- The refusal REPLY is built in its allocation and the request is dispatched (R127, R134). -/
def State.refusalBuilt (s : State) (r : LineRequest) (o : TxnOutcome) : State :=
  ((s.join (.reply r.tag r.line o 0 none []) r.urgent 1).countRefusal r.line).dispatched r.size

/-- A refusal REPLY's allocation is asked for (R127): without it dispatch is STALLED with no hold timer. -/
def State.askRefusal (s : State) (r : LineRequest) (o : TxnOutcome) : State :=
  if s.grantsNow refusalNeed then (s.take refusalNeed .held).refusalBuilt r o
  else s.stallOn (.refusal r o) refusalNeed none

/-- The request as it joins a line queue now (R53, R54). -/
def State.asRequest (s : State) (r : LineRequest) : Request :=
  { tag := r.tag, urgent := r.urgent, noReply := r.noReply, suppressRetry := r.suppressRetry,
    expectLen := r.expectLen, payload := r.payload, arrival := s.clock }

/-- The refusal found when a payload has been placed, if any (R54, R128). -/
def Line.joinRefusal (l : Line) (r : LineRequest) : Option TxnOutcome :=
  if !expectLenOk r.expectLen l.applied.maxReply then some .badParam
  else if l.txn = .offline then some .lineOffline
  else if l.applied.queueDepth ≤ l.queue.length then some .queueFull
  else none

/-- An accepted request joins its line queue; an IDLE line selects at once (R54, R57). -/
def State.joinQueue (s : State) (i : Fin 12) (r : Request) : State :=
  ((s.modLine i (fun l => { l with queue := l.queue ++ [r] })).bump (.line i .requestsAccepted)).selectIfIdle i

/-- A payload has its blocks: the request is refused in them or joins its queue (R54, R128). -/
def State.placePayload (s : State) (r : LineRequest) : State :=
  match lineOf r.line with
  | none => s.dispatched r.size
  | some i =>
    match (s.line i).joinRefusal r with
    | some o => (s.refuseOwn i o (s.asRequest r)).dispatched r.size
    | none => (s.joinQueue i (s.asRequest r)).dispatched r.size

/-- The allocation of a request's payload (R128). -/
def payloadNeed (r : LineRequest) : Need :=
  { blocks := payloadBlocks r.payload, slot := true, cls := .line }

/-- A request's payload blocks are asked for (R128). -/
def State.askPayload (s : State) (r : LineRequest) : State :=
  if s.grantsNow (payloadNeed r) then (s.take (payloadNeed r) .held).placePayload r
  else s.stallOn (.payload r) (payloadNeed r) s.holdStart

/-- The checks at dispatch against the state of the line (steps 2 to 4 of R126). -/
def Line.dispatchRefusal (l : Line) (r : LineRequest) : Option TxnOutcome :=
  if l.txn = .offline then some .lineOffline
  else if l.applied.queueDepth ≤ l.queue.length then some .queueFull
  else if r.payload.length = 0 ∨ 255 < r.payload.length ∨ expectLenOk r.expectLen l.applied.maxReply = false
  then some .badParam
  else none

/-- The checks at dispatch, in order (R126). -/
def State.dispatchRefusal (s : State) (r : LineRequest) : Option TxnOutcome :=
  match lineOf r.line with
  | none => some .badLine
  | some i => (s.line i).dispatchRefusal r

/-- A LINE_REQUEST is dispatched (R126 to R128). -/
def State.dispatchRequest (s : State) (r : LineRequest) : State :=
  match s.dispatchRefusal r with
  | some o => s.askRefusal r o
  | none => s.askPayload r

/-- The detail of a BAD_RECORD: the frame's Seq, 0, the offset of the record (section 11.6). -/
def badRecordDetail (f : IntakeFrame) : BitVec 32 :=
  ((0#2 ++ f.seq) ++ 0#8) ++ BitVec.ofNat 16 f.offset

/-- A malformed record: its event, its counter, and the rest of its frame is discarded (R125). That BAD_RECORD is raised
before BadRecords rises is the model's choice (log 23). -/
def State.dropMalformed (s : State) (f : IntakeFrame) : State :=
  ((s.raiseEvent .badRecord 0 (badRecordDetail f)).bump (.link .badRecords)).dispatched f.payload.length

/-- The stall ends: nothing is stalled and the hold timer is stopped (R132). -/
def State.unstall (s : State) : State := s.setIntake { s.intake with stall := none, holdTimer := none }

/-- The hold timer expires: the unit leaves the wait list, HoldTimeouts rises, the new head is tested (R133). That
HoldTimeouts rises before the new head is tested and before a MGMT_DROPPED is raised is the model's choice (log 23). -/
def State.holdExpired (s : State) : State :=
  (((s.leaveWait .intake).unstall).bump (.link .holdTimeouts)).grantAll

/-- The detail of a MGMT_DROPPED: Tag, Command code, 0 (section 11.6). -/
def droppedDetail (m : MgmtRequest) : BitVec 32 := (m.tag ++ m.code) ++ 0#8

/-- A stalled command is dropped unexecuted (R135). -/
def State.dropCommand (s : State) (m : MgmtRequest) : State :=
  (s.raiseEvent .mgmtDropped 0 (droppedDetail m)).dispatched m.size

end Sys2Proof.Machine
end

