-- ==== Sys2Proof/Machine/Restart.lean ====
section
/-! DEFINITION. The two starts: COLD_START (R188) and the warm restart of RESTART (R185, R186, section 9.6). -/

namespace Sys2Proof.Machine

/-- A line kept over a warm restart: its profile (a staged one becomes applied) and its known list (R1, R51). -/
def Line.kept (l : Line) : Line :=
  { Line.reset with
    applied := l.staged.getD l.applied
    known := l.known
    txn := if (l.staged.getD l.applied).enabled then .idle else .offline }

/-- A poll entry kept over a warm restart: RETIRING becomes EMPTY, the others WAITING and fresh (R89). -/
def Poll.kept (p : Poll) : Option Poll :=
  if p.state = .retiring then none
  else some { state := .waiting, defn := p.defn, nextDue := none, pollSeq := 0, lastDigest := none,
              lastOutcome := none, missed := 0, suppressed := 0 }

/-- The WARM_RESTART EVENT record (R186). -/
def State.warmRecord (s : State) (keep : Bool) : Record :=
  { body := .event .warmRestart 0 0 (boolByte keep ++ 0#24), urgent := true, resent := false, blocks := 0,
    joinTime := s.clock, deadline := s.clock + LinkConfig.default.batchDelay }

/-- The trunk interface after a warm restart: a frame on the line finishes its transmission (R164). -/
def State.warmTrunk (s : State) : Trunk :=
  { Trunk.reset with
    epoch := nextEpoch s.trunk.epoch, cause := .warmRestart, downSince := s.clock, tx := s.trunk.tx,
    syncTimer := s.timer LinkConfig.default.syncInterval }

/-- The whole part after a warm restart (R185, R186). -/
def State.warmRestart (s : State) (keep : Bool) : State :=
  { State.reset with
    clock := s.clock
    trunk := s.warmTrunk
    uplink := [s.warmRecord keep]
    lines := if keep then mapVec Line.kept s.lines else State.reset.lines
    polls := if keep then mapVec (fun e => e.bind Poll.kept) s.polls else State.reset.polls
    pending := s.pending }

/-- COLD_START (R188): every block holds its cold-start contents and the first SYNC is pending. -/
def execColdStart (s : State) : Host.Outcome State Fault Refusal := go (State.reset.setPending s.pending)

end Sys2Proof.Machine
end

