-- ==== Sys2Proof/Machine/Mgmt.lean ====
section
/-! DEFINITION. The management commands (chapter 9): their execution, answers and dispatch; and what a granted requester does
(R97, R129). -/

namespace Sys2Proof.Machine

/-- What a command's execution gives: the state, the status, the response data (R166). -/
structure CmdResult where
  state : State
  status : Status
  data : List Byte
  deriving DecidableEq, Repr

/-- A command refused with no data and no effect (R167). -/
def State.refuse (s : State) (st : Status) : CmdResult := { state := s, status := st, data := [] }

/-- The data of IDENTIFY (R170). -/
def identifyData : List Byte :=
  halfBytes Config.vendorCode ++ halfBytes Config.partCode ++ [Config.revision, natByte Config.lineCount] ++
  natHalf Config.poolBlocks ++ [natByte Config.blockSize, natByte Config.pollCount] ++
  natHalf Config.recordSlots ++ [natByte Config.eventSlots, natByte Config.intakeSlots, natByte Config.window]

/-- IDENTIFY (R170). -/
def State.identify (s : State) (p : List Byte) : CmdResult :=
  if p.length = 0 then { state := s, status := .done, data := identifyData } else s.refuse .badFormat

/-- LINK_CONFIG (R171, R172): the marks test PoolHold at once (R101). -/
def State.linkConfig (s : State) (p : List Byte) : CmdResult :=
  if p.length = 16 then
    if (LinkConfig.ofBytes p).inRange then
      { state := (s.setCfg (LinkConfig.ofBytes p)).testHold, status := .done, data := [] }
    else s.refuse .badParam
  else s.refuse .badFormat

/-- The data of LINK_READ (R173). -/
def State.linkReadData (s : State) : List Byte :=
  s.cfg.bytes ++
  [boolByte s.trunk.up, s.trunk.epoch, 0#2 ++ s.trunk.nextSeq, 0#2 ++ s.trunk.peerAck,
   0#2 ++ s.trunk.expectSeq, natByte s.trunk.peerAllow, natByte s.trunk.retransmits.length] ++
  natHalf s.pool.free ++ [boolByte s.pool.hold]

/-- LINK_READ (R173). -/
def State.linkRead (s : State) (p : List Byte) : CmdResult :=
  if p.length = 0 then { state := s, status := .done, data := s.linkReadData } else s.refuse .badFormat

/-- A profile may be put in place at once: OFFLINE, or IDLE with listen QUIET (R29). -/
def Line.takesProfile (l : Line) : Bool := l.txn == .offline || (l.txn == .idle && l.listen == .quiet)

/-- A profile put in place at once; a line that left OFFLINE selects (R29, R31). -/
def State.configNow (s : State) (i : Fin 12) (p : Profile) : State :=
  if (s.line i).txn = .offline then (s.putProfile i p).selectIfIdle i else s.putProfile i p

/-- A profile that has passed its checks acts on the line (R29, R175). -/
def State.configLine (s : State) (i : Fin 12) (p : Profile) : CmdResult :=
  if (s.line i).takesProfile then { state := s.configNow i p, status := .done, data := [] }
  else { state := s.modLine i (fun l => { l with staged := some p }), status := .staged, data := [] }

/-- LINE_CONFIG (R174, R175). -/
def State.lineConfig (s : State) (p : List Byte) : CmdResult :=
  if p.length = 25 then
    match lineOf (byteAt p 0), checkedProfile (p.drop 1) with
    | some i, some q => s.configLine i q
    | some _, none => s.refuse .badParam
    | none, _ => s.refuse .badParam
  else s.refuse .badFormat

/-- In hand as LINE_READ and LINE_ABORT report it: the kind and the Tag or PollId (section 11.5). -/
def workReport : Option Txn → List Byte
  | none => [0, 0, 0]
  | some t =>
    match t.work with
    | .request r => (1 : Byte) :: halfBytes r.tag
    | .poll id _ => [2, 0, natByte id.val]

/-- The data of LINE_READ (R177). -/
def State.lineReadData (s : State) (i : Fin 12) : List Byte :=
  let l := s.line i
  [lineByte i] ++ l.applied.bytes ++ [boolByte l.staged.isSome] ++
  (match l.staged with
    | some p => p.bytes
    | none => List.replicate 24 0) ++
  [l.txn.code, l.listen.code, natByte l.queue.length, natByte l.due.length] ++ workReport l.hand ++
  [natByte ((l.hand.map Txn.attempts).getD 0)]

/-- LINE_READ (R177). -/
def State.lineRead (s : State) (p : List Byte) : CmdResult :=
  if p.length = 1 then
    match lineOf (byteAt p 0) with
    | some i => { state := s, status := .done, data := s.lineReadData i }
    | none => s.refuse .badParam
  else s.refuse .badFormat

/-- The data of LINE_ABORT (R28, R178). -/
def State.lineAbortData (s : State) (i : Fin 12) (flush : Bool) : List Byte :=
  workReport (s.line i).abortCase.txn ++ [natByte (if flush then (s.line i).queue.length else 0)]

/-- LINE_ABORT (R26 to R28, R178). -/
def State.lineAbort (s : State) (p : List Byte) : CmdResult :=
  if p.length = 2 then
    match lineOf (byteAt p 0) with
    | some i =>
      { state := s.abortLine i ((byteAt p 1).getLsbD 0), status := .done,
        data := s.lineAbortData i ((byteAt p 1).getLsbD 0) }
    | none => s.refuse .badParam
  else s.refuse .badFormat

/-- KNOWN_SET (R51, R179). -/
def State.knownSet (s : State) (p : List Byte) : CmdResult :=
  if 2 ≤ p.length ∧ p.length = 2 + numAt p 1 then
    match lineOf (byteAt p 0) with
    | some i =>
      if numAt p 1 ≤ 8 ∧ distinct (p.drop 2) = true then
        { state := s.modLine i (fun l => { l with known := p.drop 2 }), status := .done, data := [] }
      else s.refuse .badParam
    | none => s.refuse .badParam
  else s.refuse .badFormat

/-- A PollId leaves the due list of a line (R63). -/
def State.leaveDue (s : State) (i : Fin 12) (id : Fin 128) : State :=
  s.modLine i (fun l => { l with due := l.due.filter (fun d => d.poll != id) })

/-- A freshly written entry (R85). -/
def State.newPoll (s : State) (d : PollDef) : Poll :=
  { state := .waiting, defn := d, nextDue := if s.polling then some (s.clock + d.phaseMs) else none,
    pollSeq := 0, lastDigest := none, lastOutcome := none, missed := 0, suppressed := 0 }

/-- An entry is rewritten; with Phase 0 and polling active it reaches its NextDue at once (R85). -/
def State.rewritePoll (s : State) (id : Fin 128) (d : PollDef) : State :=
  let p := s.newPoll d
  let s1 := s.setPoll id (some p)
  if s.polling && d.phase == 0 then s1.reachDue id p s.clock else s1

/-- A checked definition acts on the entry's state (R85). -/
def State.writePoll (s : State) (id : Fin 128) (d : PollDef) : CmdResult :=
  match s.poll id with
  | none => { state := s.rewritePoll id d, status := .done, data := [] }
  | some p =>
    match p.state with
    | .waiting => { state := s.rewritePoll id d, status := .done, data := [] }
    | .due => { state := (s.leaveDue p.defn.line id).rewritePoll id d, status := .done, data := [] }
    | .inFlight => s.refuse .busy
    | .retiring => s.refuse .busy

/-- POLL_SET (R84, R85, R180). -/
def State.pollSet (s : State) (p : List Byte) : CmdResult :=
  if 10 ≤ p.length then
    match pollOf (byteAt p 0), PollDef.ofBytes p with
    | some id, some d =>
      if expectLenOk d.expectLen (s.line d.line).applied.maxReply then s.writePoll id d
      else s.refuse .badParam
    | some _, none => s.refuse .badParam
    | none, _ => s.refuse .badParam
  else s.refuse .badFormat

/-- POLL_CLEAR on an entry (R86). -/
def State.clearPoll (s : State) (id : Fin 128) : CmdResult :=
  match s.poll id with
  | none => s.refuse .noEntry
  | some p =>
    match p.state with
    | .waiting => { state := s.setPoll id none, status := .done, data := [] }
    | .due => { state := (s.leaveDue p.defn.line id).setPoll id none, status := .done, data := [] }
    | .inFlight => { state := s.setPoll id (some { p with state := .retiring }), status := .staged, data := [] }
    | .retiring => { state := s, status := .staged, data := [] }

/-- POLL_CLEAR (R86, R181). -/
def State.pollClear (s : State) (p : List Byte) : CmdResult :=
  if p.length = 1 then
    match pollOf (byteAt p 0) with
    | some id => s.clearPoll id
    | none => s.refuse .badParam
  else s.refuse .badFormat

/-- An optional byte with its present mark. -/
def markByte (o : Option Byte) : List Byte := [boolByte o.isSome, o.getD 0]

/-- The time remaining to NextDue with its present mark (R71, section 11.5). -/
def State.nextDueBytes (s : State) (p : Poll) : List Byte :=
  match p.nextDue with
  | some t => (1 : Byte) :: wordBytes (BitVec.ofNat 32 (t - s.clock))
  | none => [0, 0, 0, 0, 0]

/-- The data of POLL_READ (R88, section 11.5). -/
def State.pollReadData (s : State) (id : Fin 128) : List Byte :=
  match s.poll id with
  | none => natByte id.val :: List.replicate 25 0
  | some p =>
    [natByte id.val, p.state.code, lineByte p.defn.line] ++ natHalf p.defn.period ++ natHalf p.defn.phase ++
    [p.defn.mode.code, natByte p.defn.forceEvery] ++ markByte (p.defn.expectLen.map natByte) ++
    halfBytes p.pollSeq ++ [boolByte p.lastDigest.isSome] ++ halfBytes (p.lastDigest.getD 0) ++
    markByte (p.lastOutcome.map TxnOutcome.code) ++ [natByte p.missed, natByte p.suppressed] ++
    s.nextDueBytes p ++ [natByte p.defn.request.length] ++ p.defn.request

/-- POLL_READ (R88, R181). -/
def State.pollRead (s : State) (p : List Byte) : CmdResult :=
  if p.length = 1 then
    match pollOf (byteAt p 0) with
    | some id => { state := s, status := .done, data := s.pollReadData id }
    | none => s.refuse .badParam
  else s.refuse .badFormat

/-- PollRun takes a new setting (R68 to R70, R182). -/
def State.setRun (s : State) (b : Bool) : State :=
  let s1 := s.setPollRun b
  if b = s.pollRun then s
  else if s.trunk.up then (if b then s1.activate else s1.deactivate)
  else s1

/-- POLL_RUN (R182). -/
def State.pollRunCmd (s : State) (p : List Byte) : CmdResult :=
  if p.length = 1 then
    match boolOf (byteAt p 0) with
    | some b => { state := s.setRun b, status := .done, data := [] }
    | none => s.refuse .badParam
  else s.refuse .badFormat

/-- The half-range flags of a set: counter id `k` is bit `k` (section 11.5). -/
def halfFlags : List Counter → Nat
  | [] => 0
  | c :: cs => (if c.half then 1 else 0) + 2 * halfFlags cs

/-- The values of a set, two bytes each. -/
def counterValues (cs : List Counter) : List Byte := (cs.map (fun c => halfBytes c.value)).flatten

/-- The data of COUNTER_READ (R183). -/
def State.counterData (s : State) (id : Byte) (c : CounterSet) : List Byte :=
  match c with
  | .link => [id] ++ counterValues s.ctrs.link.toList ++ natHalf (halfFlags s.ctrs.link.toList)
  | .pool =>
    [id] ++ counterValues s.ctrs.pool.toList ++ natHalf s.pool.minFree ++
      natHalf (halfFlags s.ctrs.pool.toList)
  | .line i =>
    [id] ++ counterValues (s.ctrs.line.get i).toList ++ natHalf (halfFlags (s.ctrs.line.get i).toList)

/-- A set is cleared: counters 0, flags armed, and for POOL MinFree takes FreeCount (R183, R194). -/
def State.clearSet (s : State) (c : CounterSet) : State :=
  match c with
  | .link => s.setCtrs { s.ctrs with link := .replicate 14 .zero }
  | .pool =>
    (s.setCtrs { s.ctrs with pool := .replicate 4 .zero }).setPool { s.pool with minFree := s.pool.free }
  | .line i => s.setCtrs { s.ctrs with line := s.ctrs.line.set i.val (.replicate 15 .zero) i.isLt }

/-- COUNTER_READ (R183, R194). -/
def State.counterRead (s : State) (p : List Byte) : CmdResult :=
  if p.length = 2 then
    match counterSetOf (byteAt p 0) with
    | some c =>
      { state := if (byteAt p 1).getLsbD 0 then s.clearSet c else s, status := .done,
        data := s.counterData (byteAt p 0) c }
    | none => s.refuse .badParam
  else s.refuse .badFormat

/-- A RESTART that is not executed: its length or its flag byte is wrong (R185). -/
def State.badRestart (s : State) (p : List Byte) : CmdResult :=
  if p.length = 1 then s.refuse .badParam else s.refuse .badFormat

/-- ECHO (R184). -/
def State.echoCmd (s : State) (p : List Byte) : CmdResult :=
  if p.length ≤ 200 then { state := s, status := .done, data := p } else s.refuse .badFormat

/-- The fourteen commands (R168, section 11.6). -/
inductive Command where
  | identify | linkConfig | linkRead | lineConfig | lineRead | lineAbort | knownSet | pollSet | pollClear
  | pollRead | pollRun | counterRead | restart | echo
  deriving DecidableEq, Repr

/-- The command a code names (section 11.6). -/
def commandOf (c : Byte) : Option Command :=
  if c = 0x01 then some .identify else if c = 0x02 then some .linkConfig
  else if c = 0x03 then some .linkRead else if c = 0x10 then some .lineConfig
  else if c = 0x11 then some .lineRead else if c = 0x12 then some .lineAbort
  else if c = 0x13 then some .knownSet else if c = 0x20 then some .pollSet
  else if c = 0x21 then some .pollClear else if c = 0x22 then some .pollRead
  else if c = 0x23 then some .pollRun else if c = 0x30 then some .counterRead
  else if c = 0x40 then some .restart else if c = 0x41 then some .echo else none

/-- A command executes against the state as it stands (R167, R169). -/
def State.runCommand (s : State) (m : MgmtRequest) : CmdResult :=
  match commandOf m.code with
  | none => s.refuse .badCommand
  | some .identify => s.identify m.params
  | some .linkConfig => s.linkConfig m.params
  | some .linkRead => s.linkRead m.params
  | some .lineConfig => s.lineConfig m.params
  | some .lineRead => s.lineRead m.params
  | some .lineAbort => s.lineAbort m.params
  | some .knownSet => s.knownSet m.params
  | some .pollSet => s.pollSet m.params
  | some .pollClear => s.pollClear m.params
  | some .pollRead => s.pollRead m.params
  | some .pollRun => s.pollRunCmd m.params
  | some .counterRead => s.counterRead m.params
  | some .restart => s.badRestart m.params
  | some .echo => s.echoCmd m.params

/-- The blocks of a command's response allocation (R129, R168). -/
def MgmtRequest.blocks (m : MgmtRequest) : Nat :=
  match commandOf m.code with
  | some .linkRead => if m.params.length = 0 then 2 else 1
  | some .lineRead => if m.params.length = 1 then 3 else 1
  | some .pollRead => if m.params.length = 1 then 4 else 1
  | some .counterRead => if m.params.length = 2 then 2 else 1
  | some .echo => if m.params.length ≤ 200 then Config.blocksFor (8 + m.params.length) else 1
  | some .identify => 1 | some .linkConfig => 1 | some .lineConfig => 1 | some .lineAbort => 1
  | some .knownSet => 1 | some .pollSet => 1 | some .pollClear => 1 | some .pollRun => 1
  | some .restart => 1 | none => 1

/-- The response allocation (R129). -/
def MgmtRequest.need (m : MgmtRequest) : Need := { blocks := m.blocks, slot := true, cls := .response }

/-- The response is built in its allocation, the blocks it does not use are freed, and it joins the tail
(R129, R166). -/
def CmdResult.respond (r : CmdResult) (m : MgmtRequest) : State :=
  (r.state.release 0 (m.blocks - Config.blocksFor (8 + r.data.length))).grantAll.join
    (.response m.tag m.code r.status r.data) true (Config.blocksFor (8 + r.data.length))

/-- A command whose space has been allocated is executed, answered and dispatched (R129). -/
def State.performCommand (s : State) (m : MgmtRequest) : State :=
  ((s.runCommand m).respond m).dispatched m.size

/-- A management request is dispatched: its response space first (R129, R131, R132). -/
def State.dispatchCommand (s : State) (m : MgmtRequest) : State :=
  if s.grantsNow m.need then (s.take m.need .held).performCommand m
  else s.stallOn (.command m) m.need s.holdStart

/-- The management request at the dispatch offset, when it carries command `c`. -/
def State.headCommand (s : State) (c : Option Command) : Option MgmtRequest :=
  match s.headRecord with
  | some (.command m) => if commandOf m.code = c then some m else none
  | some (.lineRequest _) => none
  | some .malformed => none
  | none => none

/-- The granted intake unit acts on its stalled record (R97, R128, R129). -/
def State.intakeGranted (s : State) : State :=
  match s.intake.stall with
  | some (.payload r) => s.unstall.placePayload r
  | some (.refusal r o) => s.unstall.refusalBuilt r o
  | some (.command m) => s.unstall.performCommand m
  | none => s

/-- A granted requester acts (R97). -/
def State.grantActs (s : State) (w : WaiterId) : State :=
  match w with
  | .line i => s.lineGranted i
  | .intake => s.intakeGranted

end Sys2Proof.Machine
end

