-- ==== Sys2Proof/Machine/Finish.lean ====
section
/-! DEFINITION. The end of every step: the requesters granted in it act (R97), and the step closes. -/

namespace Sys2Proof.Machine

/-- A requester granted while the intake unit acted is a line; it enters READY (R97). -/
def State.lineActs (s : State) (w : WaiterId) : State :=
  match w with
  | .line i => s.lineGranted i
  | .intake => s

/-- Those granted in this step act in the order of their grants; then those whom the acting of the intake unit has
granted in turn (R97). -/
def State.actGranted (s : State) : State :=
  let s1 := s.granted.foldl State.grantActs (s.setGranted [])
  s1.granted.foldl State.lineActs (s1.setGranted [])

/-- The end of every step that has an effect. -/
def State.finish (s : State) : State := s.actGranted.close

/-- The answer of a command that has its effect. -/
def finished (s : State) : Host.Outcome State Fault Refusal := go s.finish

end Sys2Proof.Machine
end

