-- ==== Sys2Proof/Machine/LineEvents.lean ====
section
/-! DEFINITION. The meanings of the field line commands and of NEXTDUE_REACHED (chapters 1, 2 and 4). A command whose
event the line's state rules out changes nothing (log 1). -/

namespace Sys2Proof.Machine

/-- A poll entry's NextDue that has been reached while polling is active (R72). -/
def State.dueNow (s : State) (id : Fin 128) : Option (Poll × Nat) :=
  match s.poll id with
  | none => none
  | some p =>
    match p.nextDue with
    | none => none
    | some t => if s.polling && t ≤ s.clock then some (p, t) else none

/-- NEXTDUE_REACHED (R72). -/
def execNextDueReached (id : Fin 128) (s : State) : Host.Outcome State Fault Refusal :=
  match s.dueNow id with
  | some (p, t) => finished (s.reachDue id p t)
  | none => go s

/-- The transaction in hand of a line in SENDING. -/
def Line.sendingTxn (l : Line) : Option Txn := if l.txn = .sending then l.hand else none

/-- DELEAD_END (R36): the start bit of the first character is sent. -/
def execDeleadEnd (i : Fin 12) (s : State) : Host.Outcome State Fault Refusal :=
  if (s.line i).txn = .sending ∧ (s.line i).deLead.isSome = true then finished (s.startChar i) else go s

/-- CHARACTER_SENT (R37). -/
def execCharacterSent (i : Fin 12) (s : State) : Host.Outcome State Fault Refusal :=
  match (s.line i).sendingTxn, (s.line i).charOut with
  | some t, some _ => finished (s.charSent i t)
  | some _, none => go s
  | none, _ => go s

/-- DEHOLD_END (R8, R37): TURNAROUND ends; in SENDING, waiting for the last echo, only the count is over. -/
def execDeholdEnd (i : Fin 12) (s : State) : Host.Outcome State Fault Refusal :=
  if (s.line i).deHold.isNone then go s
  else if (s.line i).txn = .turnaround then finished (s.turnaroundOver i)
  else if (s.line i).txn = .sending then finished (s.modLine i (fun l => { l with deHold := none }))
  else go s

/-- ECHO_DEADLINE (R44): the echo of a sent character has not been matched. -/
def execEchoDeadline (i : Fin 12) (s : State) : Host.Outcome State Fault Refusal :=
  match (s.line i).sendingTxn with
  | some t =>
    if (s.line i).applied.echoCheck = true ∧ (s.line i).echoed < (s.line i).sent then finished (s.echoFails i t)
    else go s
  | none => go s

/-- A start bit can be taken: the receiver examines the line, is not busy, and no break lasts (R38, R39, R41). -/
def Line.canStart (l : Line) : Bool := l.examines && !l.rxBusy && !l.brk

/-- START_BIT (R39). -/
def execStartBit (i : Fin 12) (s : State) : Host.Outcome State Fault Refusal :=
  if (s.line i).canStart then finished (s.takeStart i) else go s

/-- The receiver is busy with a character of a line it examines (R38, R39). -/
def Line.receives (l : Line) : Bool := l.examines && l.rxBusy

/-- CHARACTER_COMPLETE (R40). -/
def execCharacterComplete (i : Fin 12) (data : Byte) (parity stop : Bool) (s : State) :
    Host.Outcome State Fault Refusal :=
  if (s.line i).receives then finished (s.takeChar i (rxChar (s.line i).applied data parity stop)) else go s

/-- BREAK_START (R41, R25): none is taken on a line the receiver does not examine. -/
def execBreakStart (i : Fin 12) (s : State) : Host.Outcome State Fault Refusal :=
  if (s.line i).receives then finished (s.takeBreak i) else go s

/-- BREAK_END (R41). -/
def execBreakEnd (i : Fin 12) (s : State) : Host.Outcome State Fault Refusal :=
  if (s.line i).brk then finished (s.modLine i Line.breakOver) else go s

/-- POST_BREAK_IDLE_END (R42). -/
def execPostBreakIdleEnd (i : Fin 12) (s : State) : Host.Outcome State Fault Refusal :=
  if (s.line i).postBreak.isSome then finished (s.becomeQuiet i) else go s

/-- GAP_COUNT_END (R46). -/
def execGapCountEnd (i : Fin 12) (s : State) : Host.Outcome State Fault Refusal :=
  if (s.line i).gap.isSome then finished (s.takeGapEnd i) else go s

/-- RETURN_TO_MARK (R46): the gap count of the frame begins. -/
def execReturnToMark (i : Fin 12) (s : State) : Host.Outcome State Fault Refusal :=
  if (s.line i).awaitMark then finished (s.modLine i (fun l => l.startGap true)) else go s

/-- REPLY_WINDOW_EXPIRY (R10). -/
def execReplyWindowExpiry (i : Fin 12) (s : State) : Host.Outcome State Fault Refusal :=
  match (s.line i).hand with
  | some t =>
    if (s.line i).txn = .awaiting ∧ s.expired (s.line i).window = true then finished (s.noReplyEnds i t) else go s
  | none => go s

/-- GUARD_END (R20). -/
def execGuardEnd (i : Fin 12) (s : State) : Host.Outcome State Fault Refusal :=
  if (s.line i).txn = .guard ∧ s.expired (s.line i).guardEnd = true then finished (s.guardOver i) else go s

end Sys2Proof.Machine
end

