-- ==== Sys2Proof/Machine/Records.lean ====
section
/-! DEFINITION. The meanings of the records dispatched by the intake unit, of its hold timer and of WAIT_LIST_GRANT
(R97, R124 to R135, chapter 9). -/

namespace Sys2Proof.Machine

/-- LINE_REQUEST: the record at the dispatch offset is a line request (R126). -/
def execLineRequest (s : State) : Host.Outcome State Fault Refusal :=
  match s.headRecord with
  | some (.lineRequest r) => finished (s.dispatchRequest r)
  | some (.command _) => go s
  | some .malformed => go s
  | none => go s

/-- MALFORMED_RECORD: the record at the dispatch offset is malformed (R125). -/
def execMalformedRecord (s : State) : Host.Outcome State Fault Refusal :=
  match s.headRecord, s.intake.frames with
  | some .malformed, f :: _ => finished (s.dropMalformed f)
  | some .malformed, [] => go s
  | some (.command _), _ => go s
  | some (.lineRequest _), _ => go s
  | none, _ => go s

/-- HOLD_TIMER_EXPIRY (R133): NO_SPACE for a stalled request (R134), a dropped command (R135). -/
def execHoldTimerExpiry (s : State) : Host.Outcome State Fault Refusal :=
  if s.expired s.intake.holdTimer then
    match s.intake.stall with
    | some (.payload r) => finished (s.holdExpired.askRefusal r .noSpace)
    | some (.command m) => finished (s.holdExpired.dropCommand m)
    | some (.refusal _ _) => go s
    | none => go s
  else go s

/-- The dispatch of command `c`, when it is the record at the dispatch offset. -/
def State.dispatchHead (s : State) (c : Option Command) : Host.Outcome State Fault Refusal :=
  match s.headCommand c with
  | some m => finished (s.dispatchCommand m)
  | none => go s

/-- BAD_COMMAND: a MGMT_REQUEST with an unknown code (R167). -/
def execBadCommand (s : State) : Host.Outcome State Fault Refusal := s.dispatchHead none
/-- IDENTIFY (R170). -/
def execIdentify (s : State) : Host.Outcome State Fault Refusal := s.dispatchHead (some .identify)
/-- LINK_CONFIG (R172). -/
def execLinkConfig (s : State) : Host.Outcome State Fault Refusal := s.dispatchHead (some .linkConfig)
/-- LINK_READ (R173). -/
def execLinkRead (s : State) : Host.Outcome State Fault Refusal := s.dispatchHead (some .linkRead)
/-- LINE_CONFIG (R175). -/
def execLineConfig (s : State) : Host.Outcome State Fault Refusal := s.dispatchHead (some .lineConfig)
/-- LINE_READ (R177). -/
def execLineRead (s : State) : Host.Outcome State Fault Refusal := s.dispatchHead (some .lineRead)
/-- LINE_ABORT (R26, R178). -/
def execLineAbort (s : State) : Host.Outcome State Fault Refusal := s.dispatchHead (some .lineAbort)
/-- KNOWN_SET (R179). -/
def execKnownSet (s : State) : Host.Outcome State Fault Refusal := s.dispatchHead (some .knownSet)
/-- POLL_SET (R180). -/
def execPollSet (s : State) : Host.Outcome State Fault Refusal := s.dispatchHead (some .pollSet)
/-- POLL_CLEAR (R181). -/
def execPollClear (s : State) : Host.Outcome State Fault Refusal := s.dispatchHead (some .pollClear)
/-- POLL_READ (R181). -/
def execPollRead (s : State) : Host.Outcome State Fault Refusal := s.dispatchHead (some .pollRead)
/-- POLL_RUN (R182). -/
def execPollRun (s : State) : Host.Outcome State Fault Refusal := s.dispatchHead (some .pollRun)
/-- COUNTER_READ (R183). -/
def execCounterRead (s : State) : Host.Outcome State Fault Refusal := s.dispatchHead (some .counterRead)
/-- ECHO (R184). -/
def execEcho (s : State) : Host.Outcome State Fault Refusal := s.dispatchHead (some .echo)

/-- The KeepTables flag of a RESTART that is executed (R185). -/
def restartFlag (p : List Byte) : Option Bool := if p.length = 1 then boolOf (byteAt p 0) else none

/-- RESTART (R130, R185): executed at once, or answered when its length or flag is wrong. -/
def execRestart (s : State) : Host.Outcome State Fault Refusal :=
  match s.headCommand (some .restart) with
  | none => go s
  | some m =>
    match restartFlag m.params with
    | some keep => finished (s.warmRestart keep)
    | none => finished (s.dispatchCommand m)

/-- WAIT_LIST_GRANT (R97): the granting as a command; it grants nothing while the head fails its test. -/
def execWaitListGrant (s : State) : Host.Outcome State Fault Refusal := finished s.grantAll

end Sys2Proof.Machine
end

