-- ==== Sys2Proof/Machine/TrunkEvents.lean ====
section
/-! DEFINITION. The meanings of the trunk commands: received frames, the transmitter, the trunk timers
(R140 to R162). -/

namespace Sys2Proof.Machine

/-- A DATA frame is accepted (R123, R148). -/
def State.acceptData (s : State) (f : RxFrame) : State :=
  ((s.setTrunk { s.trunk with
    expectSeq := s.trunk.expectSeq + 1, anyAccepted := true, rejectSent := false, ackPending := true
    }).startAckDelay).intakeAccept f.seq f.payload

/-- An out-of-window DATA frame: counted, and a Reject unless one has been asked for (R148). -/
def State.outOfWindow (s : State) : State :=
  let s1 := s.bump (.link .outOfWindow)
  if s1.trunk.rejectSent then s1 else s1.setTrunk { s1.trunk with rejectPending := true, rejectSent := true }

/-- A duplicate DATA frame: counted, and an immediate acknowledgement pending (R148). -/
def State.duplicate (s : State) : State :=
  let s1 := s.bump (.link .duplicates)
  s1.setTrunk { s1.trunk with ackNow := true }

/-- How far a frame's Seq lies behind ExpectSeq (R148). -/
def Trunk.behind (t : Trunk) (seq : Seq) : Nat := (t.expectSeq - seq).toNat

/-- The sequence check of a DATA frame in UP (R148). -/
def State.takeData (s : State) (f : RxFrame) : State :=
  if f.seq = s.trunk.expectSeq then
    if 0 < s.freeSlots then s.acceptData f else s.bump (.link .overAllow)
  else if 1 ≤ s.trunk.behind f.seq ∧ s.trunk.behind f.seq ≤ 8 then s.duplicate
  else s.outOfWindow

/-- A DATA frame: discarded in DOWN; in UP its header is taken, then it is sequence-checked (R142, R147, R148). -/
def State.receiveData (s : State) (f : RxFrame) : State :=
  if s.trunk.up then (s.goodFrame.takeHeader f).takeData f else s.goodFrame

/-- DATA_FRAME (R148). -/
def execDataFrame (b : List Byte) (s : State) : Host.Outcome State Fault Refusal :=
  match frameOf .data b with
  | some f => finished (s.receiveData f)
  | none => go s

/-- CTRL_FRAME (R147): discarded in DOWN. -/
def execCtrlFrame (b : List Byte) (s : State) : Host.Outcome State Fault Refusal :=
  match frameOf .ctrl b with
  | some f => finished (if s.trunk.up then s.goodFrame.takeHeader f else s.goodFrame)
  | none => go s

/-- The Epoch byte of a sync payload (R206). -/
def RxFrame.epoch (f : RxFrame) : Byte := byteAt f.payload 0

/-- SYNC (R144). -/
def execSync (b : List Byte) (s : State) : Host.Outcome State Fault Refusal :=
  match frameOf .sync b with
  | some f => finished (s.goodFrame.takeSync f.epoch)
  | none => go s

/-- SYNC_ACK (R143). -/
def execSyncAck (b : List Byte) (s : State) : Host.Outcome State Fault Refusal :=
  match frameOf .syncAck b with
  | some f => finished (s.goodFrame.takeSyncAck f.epoch)
  | none => go s

/-- BAD_FRAME (R140): discarded, CrcErrors or MalformedFrames rises. -/
def execBadFrame (b : List Byte) (s : State) : Host.Outcome State Fault Refusal :=
  match checkFrame b with
  | .malformed => finished (s.bump (.link .malformedFrames))
  | .crcError => finished (s.bump (.link .crcErrors))
  | .good _ => go s

/-- FRAME_TRANSMITTED (R160): the transmitter becomes free and the arbiter chooses. -/
def execFrameTransmitted (s : State) : Host.Outcome State Fault Refusal :=
  if s.trunk.tx.isSome then finished (s.setTrunk { s.trunk with tx := none }) else go s

/-- SYNC_TIMER_EXPIRY (R142). -/
def execSyncTimerExpiry (s : State) : Host.Outcome State Fault Refusal :=
  if !s.trunk.up && s.expired s.trunk.syncTimer then
    finished (s.setTrunk { s.trunk with syncPending := true, syncTimer := s.timer s.cfg.syncInterval })
  else go s

/-- SILENCE_TIMER_EXPIRY (R158). -/
def execSilenceTimerExpiry (s : State) : Host.Outcome State Fault Refusal :=
  if s.trunk.up && s.expired s.trunk.silenceTimer then finished (s.linkDown .silence .silenceDowns) else go s

/-- The retransmit timer expires (R153). -/
def State.retransmitExpired (s : State) : State :=
  let s1 := s.setTrunk { s.trunk with expiries := s.trunk.expiries + 1, retransmitTimer := none }
  if s1.trunk.expiries ≤ s.cfg.maxRetransmits then s1.startGoBack else s1.linkDown .retryFail .retryFailDowns

/-- RETRANSMIT_TIMER_EXPIRY (R153). -/
def execRetransmitTimerExpiry (s : State) : Host.Outcome State Fault Refusal :=
  if s.trunk.up && s.expired s.trunk.retransmitTimer then finished s.retransmitExpired else go s

/-- KEEPALIVE_TIMER_EXPIRY (R159). -/
def execKeepaliveTimerExpiry (s : State) : Host.Outcome State Fault Refusal :=
  if s.trunk.up && s.expired s.trunk.keepaliveTimer then
    finished (s.setTrunk { s.trunk with keepaliveDue := true, keepaliveTimer := none })
  else go s

/-- ACKDELAY_TIMER_EXPIRY (R150). -/
def execAckDelayTimerExpiry (s : State) : Host.Outcome State Fault Refusal :=
  if s.trunk.up && s.expired s.trunk.ackDelayTimer then
    finished (s.setTrunk { s.trunk with ackOnly := s.trunk.ackOnly || s.trunk.ackPending, ackDelayTimer := none })
  else go s

/-- DELAY_DEADLINE_REACHED (R110, R112): the assembler tests its triggers. -/
def execDelayDeadlineReached (s : State) : Host.Outcome State Fault Refusal :=
  if s.delayReached then finished s else go s

end Sys2Proof.Machine
end

