-- ==== Sys2Proof/Machine/Dispatch.lean ====
section
/-! DEFINITION. What a command does to everything but the queue: one direct call of its meaning for each. -/

namespace Sys2Proof.Machine

/-- The effect of a command. -/
def exec (i : Instr) (s : State) : Host.Outcome State Fault Refusal :=
  match i with
  | .coldStart => Sys2Proof.Machine.execColdStart s
  | .dataFrame bytes => Sys2Proof.Machine.execDataFrame bytes s
  | .ctrlFrame bytes => Sys2Proof.Machine.execCtrlFrame bytes s
  | .sync bytes => Sys2Proof.Machine.execSync bytes s
  | .syncAck bytes => Sys2Proof.Machine.execSyncAck bytes s
  | .badFrame bytes => Sys2Proof.Machine.execBadFrame bytes s
  | .frameTransmitted => Sys2Proof.Machine.execFrameTransmitted s
  | .syncTimerExpiry => Sys2Proof.Machine.execSyncTimerExpiry s
  | .silenceTimerExpiry => Sys2Proof.Machine.execSilenceTimerExpiry s
  | .retransmitTimerExpiry => Sys2Proof.Machine.execRetransmitTimerExpiry s
  | .keepaliveTimerExpiry => Sys2Proof.Machine.execKeepaliveTimerExpiry s
  | .ackDelayTimerExpiry => Sys2Proof.Machine.execAckDelayTimerExpiry s
  | .holdTimerExpiry => Sys2Proof.Machine.execHoldTimerExpiry s
  | .delayDeadlineReached => Sys2Proof.Machine.execDelayDeadlineReached s
  | .nextDueReached poll => Sys2Proof.Machine.execNextDueReached poll s
  | .waitListGrant => Sys2Proof.Machine.execWaitListGrant s
  | .deleadEnd line => Sys2Proof.Machine.execDeleadEnd line s
  | .characterSent line => Sys2Proof.Machine.execCharacterSent line s
  | .deholdEnd line => Sys2Proof.Machine.execDeholdEnd line s
  | .echoDeadline line => Sys2Proof.Machine.execEchoDeadline line s
  | .startBit line => Sys2Proof.Machine.execStartBit line s
  | .characterComplete line data parity stop => Sys2Proof.Machine.execCharacterComplete line data parity stop s
  | .breakStart line => Sys2Proof.Machine.execBreakStart line s
  | .breakEnd line => Sys2Proof.Machine.execBreakEnd line s
  | .postBreakIdleEnd line => Sys2Proof.Machine.execPostBreakIdleEnd line s
  | .gapCountEnd line => Sys2Proof.Machine.execGapCountEnd line s
  | .replyWindowExpiry line => Sys2Proof.Machine.execReplyWindowExpiry line s
  | .guardEnd line => Sys2Proof.Machine.execGuardEnd line s
  | .lineRequest => Sys2Proof.Machine.execLineRequest s
  | .malformedRecord => Sys2Proof.Machine.execMalformedRecord s
  | .badCommand => Sys2Proof.Machine.execBadCommand s
  | .identify => Sys2Proof.Machine.execIdentify s
  | .linkConfig => Sys2Proof.Machine.execLinkConfig s
  | .linkRead => Sys2Proof.Machine.execLinkRead s
  | .lineConfig => Sys2Proof.Machine.execLineConfig s
  | .lineRead => Sys2Proof.Machine.execLineRead s
  | .lineAbort => Sys2Proof.Machine.execLineAbort s
  | .knownSet => Sys2Proof.Machine.execKnownSet s
  | .pollSet => Sys2Proof.Machine.execPollSet s
  | .pollClear => Sys2Proof.Machine.execPollClear s
  | .pollRead => Sys2Proof.Machine.execPollRead s
  | .pollRun => Sys2Proof.Machine.execPollRun s
  | .counterRead => Sys2Proof.Machine.execCounterRead s
  | .restart => Sys2Proof.Machine.execRestart s
  | .echo => Sys2Proof.Machine.execEcho s
  | .returnToMark line => Sys2Proof.Machine.execReturnToMark line s

end Sys2Proof.Machine
end

