-- ==== Sys2Proof/Machine/Expiry.lean ====
section
/-! DEFINITION. The deadlines of the timebase (R208): which command takes each of them, and which is taken when no command
waits. -/

namespace Sys2Proof.Machine

/-- The reading at which the timer, or the NextDue, whose expiry the command `c` takes has its deadline (R208). -/
def State.deadlineOf (s : State) (c : Instr) : Option Nat :=
  match c with
  | .syncTimerExpiry => s.trunk.syncTimer
  | .silenceTimerExpiry => s.trunk.silenceTimer
  | .retransmitTimerExpiry => s.trunk.retransmitTimer
  | .keepaliveTimerExpiry => s.trunk.keepaliveTimer
  | .ackDelayTimerExpiry => s.trunk.ackDelayTimer
  | .holdTimerExpiry => s.intake.holdTimer
  | .guardEnd i => (s.line i).guardEnd
  | .replyWindowExpiry i => (s.line i).window
  | .nextDueReached id => (s.poll id).bind Poll.nextDue
  | _ => none

/-- The commands that take an expiry. -/
def expiries : List Instr :=
  [.syncTimerExpiry, .silenceTimerExpiry, .retransmitTimerExpiry, .keepaliveTimerExpiry, .ackDelayTimerExpiry,
    .holdTimerExpiry] ++ (List.finRange 12).map Instr.guardEnd ++ (List.finRange 12).map Instr.replyWindowExpiry ++
    (List.finRange 128).map Instr.nextDueReached

/-- The expiry taken when no command waits: the first whose deadline has been reached. Which of several that fall on one
reading goes first is the model's choice (log 4). -/
def State.dueExpiry (s : State) : Option Instr := expiries.find? (fun c => s.expired (s.deadlineOf c))

end Sys2Proof.Machine
end

