-- ==== Sys2Proof/Machine/Step.lean ====
section
/-! DEFINITION. One step: the command at the front of the queue; when none waits, an expiry whose deadline has been reached,
or else a millisecond of the timebase (log 2, log 4). -/

namespace Sys2Proof.Machine

/-- What step does when no command waits: the timebase passes no deadline, so a timer of N ms started at reading r expires at
reading r + N (R208). -/
def State.idleStep (s : State) : Host.Outcome State Fault Refusal :=
  match s.dueExpiry with
  | some c => exec c s
  | none => go s.tick

/-- One step of the part. -/
def step (s : State) : Host.Outcome State Fault Refusal :=
  match s.pending with
  | [] => s.idleStep
  | c :: rest => exec c (s.setPending rest)

/-- `s` with the command a word spells at the front of its queue; `s` where the word spells none. -/
def State.withFetchWord (s : State) (nbits w : Nat) : State :=
  match Sys2Proof.decodeTableWord nbits w with
  | some c => s.setPending (c :: s.pending)
  | none => s

end Sys2Proof.Machine
end

