-- ==== Sys2Proof/Safety.lean ====
section
/-! DEFINITION. What statements are made of: what holds of every state a run reaches, and what a command leaves
unchanged. -/

namespace Sys2Proof.Machine

/-- FreeCount + ReservedCount + HeldCount (R90). -/
def Pool.total (p : Pool) : Nat := p.free + p.reserved + p.held

/-- Every block of the pool is in exactly one condition (R90). -/
def Pool.balanced (p : Pool) : Prop := p.total = Config.poolBlocks

/-- At most 256 record slots and 16 event slots are in use (R94, R95). -/
def Pool.slotsOk (p : Pool) : Prop :=
  p.slotsUsed ≤ Config.recordSlots ∧ p.eventsUsed ≤ Config.eventSlots

/-- At most 8 intake slots are occupied (R122). -/
def Intake.slotsOk (k : Intake) : Prop := k.frames.length ≤ Config.intakeSlots

/-- LINK_UP is high exactly in UP (R141). -/
def Trunk.pinOk (t : Trunk) : Prop := t.linkUpPin = t.up

/-- LDEn is asserted exactly in SENDING and TURNAROUND (R36). -/
def Line.pinOk (l : Line) : Prop := l.lde = l.txn.drives

/-- The sequence numbers of `n` frames sent one after another, from `a` on. -/
def seqRun (a : Seq) (n : Nat) : List Seq := (List.range n).map (fun k => a + BitVec.ofNat 6 k)

/-- The retransmit list: in UP (NextSeq − PeerAck) mod 64 frames, at most 8, in ascending order from PeerAck; in DOWN
none (R151). -/
def Trunk.windowOk (t : Trunk) : Prop :=
  (t.up = true →
    t.retransmits.map SentFrame.seq = seqRun t.peerAck (t.nextSeq - t.peerAck).toNat ∧
    t.retransmits.length ≤ Config.window) ∧
  (t.up = false → t.retransmits = [])

/-- The records the part holds for the controller, in the order they go up: those in frames not yet acknowledged, then
the uplink queue. -/
def State.stream (s : State) : List Record := (s.trunk.retransmits.map SentFrame.records).flatten ++ s.uplink

/-- The records of the stream other than EVENT records. -/
def State.results (s : State) : List Record := s.stream.filter (fun r => !r.isEvent)

/-- The records still kept back that are not EVENT records: none in any state a run reaches (R197). -/
def State.lateResults (s : State) : List Record := s.late.filter (fun r => !r.isEvent)

/-- The state between two steps: no COUNTER_HALF record is kept back, and every requester granted has acted. -/
def State.between (s : State) : Prop := s.late = [] ∧ s.granted = []

/-- The waiter at the head of the wait list fails its class test: no waiter that could be served waits there (R97). -/
def State.headWaits (s : State) : Prop := ∀ w ws, s.pool.waitList = w :: ws → s.pool.passes w.need = false

/-- The waiter at the head would fail its class test with `n` more blocks and `k` more record slots free as well: a release
of so much serves no waiter. -/
def State.unserved (n k : Nat) (s : State) : Prop :=
  ∀ w ws, s.pool.waitList = w :: ws →
    Pool.passes { s.pool with free := s.pool.free + n, slotsUsed := s.pool.slotsUsed - k } w.need = false

/-- A deadline does not lie behind the reading `now`. -/
def notPast (now : Nat) (o : Option Nat) : Prop := ∀ d, o = some d → now ≤ d

/-- No running timer and no NextDue lies behind the reading of the timebase: each expires at its own reading (R208). -/
def State.onTime (s : State) : Prop := ∀ c, notPast s.clock (s.deadlineOf c)

/-- The records of the frames an acknowledgement releases (R151). -/
def State.released (f : RxFrame) (s : State) : List Record :=
  ((s.trunk.retransmits.take (f.ackSeq - s.trunk.peerAck).toNat).map SentFrame.records).flatten

/-- What the acknowledgement of `f` frees, where it is valid, serves no waiter. -/
def State.ackServesNone (f : RxFrame) (s : State) : Prop :=
  s.trunk.ackValid f.ackSeq = true →
    s.unserved (((s.released f).map Record.blocks).sum) (((s.released f).filter (fun r => !r.isEvent)).length)

/-- The command answers a next state, of which `p` holds. -/
def Completes (c : Instr) (s : State) (p : State → Prop) : Prop := ∃ t, exec c s = .next t ∧ p t

/-- Lines, poll entries, configuration, PollRun, timebase and command queue stand. -/
def SameTables (s t : State) : Prop :=
  t.lines = s.lines ∧ t.polls = s.polls ∧ t.cfg = s.cfg ∧ t.pollRun = s.pollRun ∧ t.clock = s.clock ∧
  t.pending = s.pending

/-- Every line but `i`, the intake unit, configuration, PollRun, timebase and command queue stand. -/
def SameOutside (i : Fin 12) (s t : State) : Prop :=
  (∀ j, j ≠ i → t.line j = s.line j) ∧ t.intake = s.intake ∧ t.cfg = s.cfg ∧ t.pollRun = s.pollRun ∧
  t.clock = s.clock ∧ t.pending = s.pending

/-- What the trunk interface holds, the transmitter, its pending frames and the send window apart, stands. -/
def SameLink (s t : State) : Prop :=
  t.trunk.up = s.trunk.up ∧ t.trunk.linkUpPin = s.trunk.linkUpPin ∧ t.trunk.epoch = s.trunk.epoch ∧
  t.trunk.cause = s.trunk.cause ∧ t.trunk.lastAccepted = s.trunk.lastAccepted ∧
  t.trunk.anyAccepted = s.trunk.anyAccepted ∧ t.trunk.upBefore = s.trunk.upBefore ∧
  t.trunk.downSince = s.trunk.downSince ∧ t.trunk.peerAck = s.trunk.peerAck ∧
  t.trunk.peerAllow = s.trunk.peerAllow ∧ t.trunk.expiries = s.trunk.expiries ∧
  t.trunk.expectSeq = s.trunk.expectSeq ∧ t.trunk.rejectSent = s.trunk.rejectSent ∧
  t.trunk.syncTimer = s.trunk.syncTimer

/-- The pool's counts, its record slots, its wait list, PoolHold and MinFree stand. -/
def SamePool (s t : State) : Prop :=
  t.pool.free = s.pool.free ∧ t.pool.reserved = s.pool.reserved ∧ t.pool.held = s.pool.held ∧
  t.pool.slotsUsed = s.pool.slotsUsed ∧ t.pool.waitList = s.pool.waitList ∧ t.pool.hold = s.pool.hold ∧
  t.pool.minFree = s.pool.minFree

/-- The counters the end of a step, or a lost event, may move beside those a command names. -/
def CtrId.sideways (d : CtrId) : Prop :=
  d = .pool .eventsMissed ∨ d = .pool .poolLowEpisodes ∨ d = .link .framesSent ∨ d = .link .retransmissions

/-- Of the counters, those in `cs` rise by one; no other moves, those of `sideways` apart. -/
def Counted (cs : List CtrId) (s t : State) : Prop :=
  ∀ d, ¬ d.sideways → t.ctrs.read d = if d ∈ cs then (s.ctrs.read d).inc else s.ctrs.read d

/-- Of the counters, `c` rises `n` times and those in `cs` by one; no other moves, those of `sideways` apart. -/
def CountedTimes (n : Nat) (c : CtrId) (cs : List CtrId) (s t : State) : Prop :=
  ∀ d, ¬ d.sideways → t.ctrs.read d =
    if d = c then Counter.inc^[n] (s.ctrs.read d) else if d ∈ cs then (s.ctrs.read d).inc else s.ctrs.read d

/-- What a command that concerns the trunk alone leaves: tables, pool, intake unit and results stand. -/
def SameRest (s t : State) : Prop :=
  SameTables s t ∧ SamePool s t ∧ t.intake = s.intake ∧ t.results = s.results

/-- The records `rs` stand next in the stream of `t`, behind the stream of `s` (what a step adds besides are
COUNTER_HALF events, behind them). -/
def JoinedBehind (rs : List Record) (s t : State) : Prop := s.stream ++ rs <+: t.stream

/-- The SYNC or SYNC_ACK frame the part sends with this epoch, while `t` stands (R162, R206). -/
def SyncSent (k : FrameKind) (epoch : Byte) (ackSeq : Seq) (t : State) : Prop :=
  t.trunk.tx = some
    { kind := k, reject := false, seq := 0, ackSeq := ackSeq, allow := t.allow,
      payload := syncPayload epoch t.trunk.cause t.trunk.lastAccepted, goBack := false }

/-- From UP the link is DOWN, with its sequence space ended (R142). -/
def WentDown (cause : SyncCause) (s t : State) : Prop :=
  t.trunk.up = false ∧ t.trunk.linkUpPin = false ∧
  t.trunk.epoch = (if s.trunk.epoch = 255 then 1 else s.trunk.epoch + 1) ∧ t.trunk.cause = cause ∧
  t.trunk.lastAccepted = (if s.trunk.anyAccepted then some (s.trunk.expectSeq - 1) else none) ∧
  t.trunk.downSince = s.clock ∧ t.trunk.syncTimer = some (s.clock + s.cfg.syncInterval) ∧
  t.trunk.retransmits = [] ∧ t.trunk.goBack = false ∧ t.trunk.retransmitTimer = none ∧
  t.trunk.ackDelayTimer = none ∧ t.trunk.silenceTimer = none ∧ t.trunk.keepaliveTimer = none ∧
  t.trunk.syncAckPending = none ∧ t.trunk.ackPending = false ∧ t.trunk.ctrlNow = false ∧
  t.trunk.ackOnly = false ∧ t.trunk.keepaliveDue = false ∧
  ((s.trunk.retransmits.map (fun f => f.records.map (fun r => { r with resent := true }))).flatten ++ s.uplink) <+:
    t.uplink ∧
  (if s.trunk.tx.isSome then t.trunk.syncPending = true ∧ t.trunk.tx = s.trunk.tx
   else SyncSent .sync t.trunk.epoch 0 t) ∧
  SamePool s t ∧ t.intake = s.intake ∧ t.cfg = s.cfg ∧ t.pollRun = s.pollRun ∧ t.clock = s.clock ∧
  t.pending = s.pending ∧
  (s.pollRun = false → t.lines = s.lines ∧ t.polls = s.polls) ∧
  (s.pollRun = true →
    (∀ i, t.line i = { s.line i with due := [] }) ∧
    ∀ id, t.poll id = (s.poll id).map (fun p =>
      { p with state := if p.state = .due then .waiting else p.state, nextDue := none }))

/-- A fresh sequence space in UP (R145, R146); LINK_UP goes high, or stays as it was when the link was UP (R144). -/
def FreshSpace (s t : State) : Prop :=
  t.trunk.up = true ∧ t.trunk.linkUpPin = (if s.trunk.up then s.trunk.linkUpPin else true) ∧ t.trunk.epoch = s.trunk.epoch ∧ t.trunk.nextSeq = 0 ∧
  t.trunk.peerAck = 0 ∧ t.trunk.expectSeq = 0 ∧ t.trunk.peerAllow = 0 ∧ t.trunk.rejectSent = false ∧
  t.trunk.anyAccepted = false ∧ t.trunk.expiries = 0 ∧ t.trunk.goBack = false ∧
  t.trunk.silenceTimer = some (s.clock + s.cfg.silenceLimit) ∧
  t.trunk.keepaliveTimer = some (s.clock + s.cfg.silenceLimit / 4) ∧
  t.intake = s.intake ∧ t.cfg = s.cfg ∧ t.pollRun = s.pollRun ∧ t.clock = s.clock ∧ t.pending = s.pending

/-- Configuration, PollRun, timebase and command queue stand. -/
def SameSettings (s t : State) : Prop :=
  t.cfg = s.cfg ∧ t.pollRun = s.pollRun ∧ t.clock = s.clock ∧ t.pending = s.pending

/-- The record of `n` bytes at the dispatch offset has been dispatched: nothing is stalled, the offset has moved past
it, and finished frames have left (R124). -/
def Dispatched (n : Nat) (s t : State) : Prop :=
  t.intake.frames = unfinished (moveOffset n s.intake.frames) ∧ t.intake.stall = none

/-- The record at the start of `b`, the bytes left in its frame, is malformed (R125). -/
def malformedAt (b : List Byte) : Prop :=
  b.length < 3 ∨ b.length < (halfAt b 1).toNat ∨ (byteAt b 0 ≠ 0x10 ∧ byteAt b 0 ≠ 0x20) ∨
  (byteAt b 0 = 0x20 ∧ (halfAt b 1).toNat < 6) ∨ (byteAt b 0 = 0x10 ∧ (halfAt b 1).toNat < 7) ∨
  (byteAt b 0 = 0x10 ∧ (byteAt b 6).getLsbD 2 = true ∧ (halfAt b 1).toNat < 8)

/-- The command of the model that dispatches a request with this command code. -/
def instrOf : Option Command → Instr
  | none => .badCommand
  | some .identify => .identify | some .linkConfig => .linkConfig | some .linkRead => .linkRead
  | some .lineConfig => .lineConfig | some .lineRead => .lineRead | some .lineAbort => .lineAbort
  | some .knownSet => .knownSet | some .pollSet => .pollSet | some .pollClear => .pollClear
  | some .pollRead => .pollRead | some .pollRun => .pollRun | some .counterRead => .counterRead
  | some .restart => .restart | some .echo => .echo

/-- Command codes (section 11.6). -/
def Command.code : Command → Byte
  | .identify => 0x01 | .linkConfig => 0x02 | .linkRead => 0x03 | .lineConfig => 0x10 | .lineRead => 0x11
  | .lineAbort => 0x12 | .knownSet => 0x13 | .pollSet => 0x20 | .pollClear => 0x21 | .pollRead => 0x22
  | .pollRun => 0x23 | .counterRead => 0x30 | .restart => 0x40 | .echo => 0x41

/-- The request `m` stands at the dispatch offset with its response space free, between two steps. -/
def RequestReady (m : MgmtRequest) (s : State) : Prop :=
  s.headRecord = some (.command m) ∧ s.pool.waitList = [] ∧ m.blocks ≤ s.pool.free ∧
  s.pool.slotsUsed + 1 ≤ 256 ∧ s.between

/-- A parameter length the command does not take (R168, R179, R180, R184). -/
def lengthWrong (c : Command) (p : List Byte) : Prop :=
  match c with
  | .identify => p.length ≠ 0 | .linkConfig => p.length ≠ 16 | .linkRead => p.length ≠ 0
  | .lineConfig => p.length ≠ 25 | .lineRead => p.length ≠ 1 | .lineAbort => p.length ≠ 2
  | .knownSet => p.length < 2 ∨ p.length ≠ 2 + (byteAt p 1).toNat
  | .pollSet => p.length < 10 | .pollClear => p.length ≠ 1 | .pollRead => p.length ≠ 1
  | .pollRun => p.length ≠ 1 | .counterRead => p.length ≠ 2 | .restart => p.length ≠ 1 | .echo => 200 < p.length

/-- One response answers the request, built in its own blocks and slot, and the request is dispatched (R129, R166). -/
def Answered (m : MgmtRequest) (st : Status) (d : List Byte) (s t : State) : Prop :=
  t.results = s.results ++ [t.stamp (.response m.tag m.code st d) true ((8 + d.length + 31) / 32)] ∧
  t.pool.free = s.pool.free - (8 + d.length + 31) / 32 ∧ t.pool.held = s.pool.held + (8 + d.length + 31) / 32 ∧
  t.pool.reserved = s.pool.reserved ∧ t.pool.slotsUsed = s.pool.slotsUsed + 1 ∧ t.pool.waitList = [] ∧
  Dispatched m.size s t ∧ t.intake.holdTimer = s.intake.holdTimer

/-- PoolHold as a test against the marks leaves it (R100). -/
def holdAfter (hold : Bool) (free low high : Nat) : Bool := if hold then decide (free < high) else decide (free < low)

/-- The numbers of a profile fit the fields that carry them (section 11.5). -/
def Profile.fits (p : Profile) : Prop :=
  p.gapTime ≤ 255 ∧ p.maxReply ≤ 255 ∧ p.replyTimeout ≤ 65535 ∧ p.guardTime ≤ 255 ∧ p.ageLimit ≤ 65535

/-- The parameters of a POLL_SET (section 11.5). -/
def pollSetParams (id : Fin 128) (d : PollDef) : List Byte :=
  [natByte id.val, lineByte d.line] ++ natHalf d.period ++ natHalf d.phase ++
  [d.mode.code, natByte d.forceEvery, boolByte d.expectLen.isSome, natByte (d.expectLen.getD 0)] ++ d.request

/-- A definition that passes the checks of R84 against MaxReply `limit`. -/
def PollDef.ok (d : PollDef) (limit : Nat) : Prop :=
  1 ≤ d.period ∧ d.period ≤ 65535 ∧ d.phase ≤ d.period ∧ d.forceEvery ≤ 255 ∧
  (∀ n, d.expectLen = some n → 1 ≤ n ∧ n ≤ limit ∧ n ≤ 255) ∧ 1 ≤ d.request.length ∧ d.request.length ≤ 64

/-- An entry as a POLL_SET writes it (R85). -/
def freshPoll (d : PollDef) (st : PollState) (nextDue : Option Nat) : Poll :=
  { state := st, defn := d, nextDue := nextDue, pollSeq := 0, lastDigest := none, lastOutcome := none,
    missed := 0, suppressed := 0 }

/-- Beside line `i` nothing a controller can see moves: the pool, the poll table, the counters and the results stand. -/
def LineMoves (i : Fin 12) (s t : State) : Prop :=
  SameOutside i s t ∧ t.polls = s.polls ∧ SamePool s t ∧ SameLink s t ∧ t.results = s.results ∧ Counted [] s t

/-- The settings of a line, its queue and its due list stand. -/
def SameTableOfLine (l m : Line) : Prop :=
  m.applied = l.applied ∧ m.staged = l.staged ∧ m.known = l.known ∧ m.queue = l.queue ∧ m.due = l.due

/-- The line is in GUARD for its GuardTime, LDEn released (R17, R20, R24). -/
def InGuard (i : Fin 12) (hand : Option Txn) (late : Option Half) (s t : State) : Prop :=
  (t.line i).txn = .guard ∧ (t.line i).lde = false ∧ (t.line i).charOut = none ∧ (t.line i).window = none ∧
  (t.line i).guardEnd = some (s.clock + (s.line i).applied.guardTime) ∧ (t.line i).hand = hand ∧
  (t.line i).lateMark = late ∧ SameTableOfLine (s.line i) (t.line i)

/-- The data of a result: what was kept, for the outcomes that carry it (R18, R80). -/
def TxnOutcome.dataOf (o : TxnOutcome) (a : Assembly) : List Byte :=
  if o = .ok ∨ o = .charError ∨ o = .overlength ∨ o = .brk then a.kept else []

/-- The ErrorOffset of a result (R18, R80). -/
def TxnOutcome.errorOf (o : TxnOutcome) (a : Assembly) : Option Nat :=
  if o = .ok ∨ o = .charError ∨ o = .overlength ∨ o = .brk then a.errorAt else none

/-- The request `r` in hand, `x`, completes with outcome `o` and, of the characters `a` received, those it carries, and the
line passes through GUARD (R17, R18, R20); `cs` are the counters that rise, `rs` the records of strays that joined before. A
GuardTime of 0 ends GUARD as soon as it is entered. What the blocks freed grant to a waiter is stated in WaitListGrant: here
they serve none. -/
def CompletedTo (i : Fin 12) (x : Txn) (a : Assembly) (r : Request) (o : TxnOutcome) (cs : List CtrId)
    (rs : List Record) (s t : State) : Prop :=
  let blocks := Config.blocksFor (10 + (o.dataOf a).length)
  let record := s.stamp (.reply r.tag (lineByte i) o x.attempts (o.errorOf a) (o.dataOf a)) r.urgent blocks
  let filled := filledBlocks 10 x.reply.kept.length
  ((s.line i).applied.guardTime ≠ 0 →
    s.unserved (max (x.reservation.getD 0) filled - blocks + payloadBlocks r.payload) 0 →
    SameOutside i s t ∧ SameLink s t ∧
    InGuard i none (if x.noReplyLast then some r.tag else none) s t ∧ Counted cs s t ∧ t.polls = s.polls ∧
    t.results = s.results ++ rs ++ [record] ∧ t.pool.slotsUsed = s.pool.slotsUsed + rs.length ∧
    t.pool.waitList = s.pool.waitList ∧ t.pool.total = s.pool.total ∧
    ∀ n, x.reservation = some n → blocks ≤ n → filled ≤ n → filledBlocks 10 a.kept.length ≤ n →
      n - filled ≤ s.pool.reserved → filled + payloadBlocks r.payload ≤ s.pool.held →
      t.pool.free + (rs.map Record.blocks).sum = s.pool.free + (n - blocks) + payloadBlocks r.payload) ∧
  ((s.line i).applied.guardTime = 0 → s.pool.waitList = [] →
    SameOutside i s t ∧ SameLink s t ∧
    (t.line i).txn ≠ .guard ∧ (t.line i).guardEnd = none ∧ (t.line i).lateMark = none ∧
    (∀ c, c ∈ cs → t.ctrs.read c = (s.ctrs.read c).inc) ∧ s.results ++ rs ++ [record] <+: t.results)

/-- The attempt of `x`, of which `a` was received, is retried: through GUARD with the transaction in hand, its data
discarded into the reservation (R15, R16); `cs` are the counters that rise beside RetriedAttempts, `rs` the record of a
stray. -/
def Retried (i : Fin 12) (x : Txn) (a : Assembly) (noReply : Bool) (cs : List CtrId) (rs : List Record) (s t : State) :
    Prop :=
  let filled := filledBlocks x.work.header x.reply.kept.length
  SameOutside i s t ∧ SameLink s t ∧ t.polls = s.polls ∧ Counted (.line i .retriedAttempts :: cs) s t ∧
  t.results = s.results ++ rs ∧ t.pool.free + (rs.map Record.blocks).sum = s.pool.free ∧
  t.pool.slotsUsed = s.pool.slotsUsed + rs.length ∧ t.pool.waitList = s.pool.waitList ∧ t.pool.total = s.pool.total ∧
  (filledBlocks x.work.header a.kept.length - filled ≤ s.pool.reserved → filled ≤ s.pool.held →
    t.pool.held + filled = s.pool.held + (rs.map Record.blocks).sum) ∧
  ((s.line i).applied.guardTime ≠ 0 →
    InGuard i (some { x with noReplyLast := noReply, reply := Assembly.empty })
      (if noReply then some x.work.lateTag else none) s t) ∧
  ((s.line i).applied.guardTime = 0 → ∃ y, (t.line i).hand = some y ∧ y.work = x.work ∧
    y.attempts = x.attempts + 1 ∧ y.reservation = x.reservation ∧
    ((t.line i).txn = .sending ∨ (t.line i).txn = .ready) ∧ (t.line i).guardEnd = none ∧
    (t.line i).lateMark = none)

/-- The line as it begins to send the first character of an attempt (R7, R36). -/
def sendingLine (l : Line) (x : Txn) (first : Option Byte) : Line :=
  { l with
    txn := .sending, lde := true, hand := some x.fresh, sent := 0, echoed := 0, deHold := none
    deLead := if l.applied.deLead = 0 then none else some l.applied.deLead
    charOut := if l.applied.deLead = 0 then first.map l.applied.onLine else none }

/-- The receive line is not in use by a transaction (R2). -/
def TxnState.listens (t : TxnState) : Prop := t = .idle ∨ t = .waitSpace ∨ t = .ready ∨ t = .guard

/-- The line when a frame in progress, or the idle after a break, has ended and the listen state is QUIET (R2, R46). -/
def quietLine (l : Line) : Line :=
  { l with listen := .quiet, unsolicited := none, gap := none, awaitMark := false, postBreak := none }

/-- The first byte of the reply differs from the first byte sent, on the bits of the line (R13, R35). -/
def strayReply (x : Txn) (i : Fin 12) (s : State) : Prop :=
  (s.line i).applied.matchFirst = true ∧
  x.reply.kept.head?.map (s.line i).applied.onLine ≠ (s.workBytes x.work).head?.map (s.line i).applied.onLine

/-- Place `k` of the known-address list is the first that holds the byte, on the bits of the line (R22, R52). -/
def Line.knownAt (l : Line) (b : Byte) (k : Nat) : Prop :=
  (l.known.map l.applied.onLine)[k]? = some (l.applied.onLine b) ∧
  ∀ j, j < k → (l.known.map l.applied.onLine)[j]? ≠ some (l.applied.onLine b)

/-- What the policy makes of a frame kept in a reservation: the counters `cs` that rise and the record `rs` it forwards
(R14, R22, R52). -/
def KeptEnds (i : Fin 12) (a : Assembly) (o : TxnOutcome) (late : Option Half) (stray : Bool) (cs : List CtrId)
    (rs : List Record) (s : State) : Prop :=
  let l := s.line i
  let record := fun known => s.stamp (.unsolicited i o late stray known a.errorAt a.kept) false
    (Config.blocksFor (10 + a.kept.length))
  let forwarded := fun known => cs = [.line i .unsolicitedForwarded] ∧ rs = [record known]
  (l.applied.policy = .forward ∧ forwarded none) ∨
  (l.applied.policy = .forwardKnown ∧ ∃ b bs, a.kept = b :: bs ∧
    ((∃ k, l.knownAt b k ∧ forwarded (some k)) ∨
     (l.applied.onLine b ∉ l.known.map l.applied.onLine ∧ cs = [.line i .unsolicitedDropped] ∧ rs = [])))

/-- How a stray `a` is disposed of (R14): `cs` are the counters that rise beside StrayFrames, `rs` the record it leaves. No
more than MaxReply characters are ever kept (R12). -/
def Disposal (i : Fin 12) (a : Assembly) (cs : List CtrId) (rs : List Record) (s : State) : Prop :=
  let l := s.line i
  let fits := Config.blocksFor (10 + l.applied.maxReply) + 16 ≤ s.pool.free ∧ s.pool.slotsUsed + 9 ≤ 256
  (l.applied.policy = .drop ∧ cs = [.line i .unsolicitedDropped] ∧ rs = []) ∨
  (l.applied.policy ≠ .drop ∧ ¬ fits ∧ cs = [.pool .unsolicitedLost] ∧ rs = []) ∨
  (fits ∧ a.kept.length ≤ l.applied.maxReply ∧ KeptEnds i a (a.outcome false) none true cs rs s)

/-- How an unsolicited frame ends, with outcome `o` where it was kept (R22, R23, R26): the counters that rise, the record
forwarded, and the record slots in use afterwards. -/
def UnsolicitedEnds (i : Fin 12) (u : Unsolicited) (o : TxnOutcome) (cs : List CtrId) (rs : List Record) (slots : Nat)
    (s : State) : Prop :=
  (u.mode = .drop ∧ cs = [.line i .unsolicitedDropped] ∧ rs = [] ∧ slots = s.pool.slotsUsed) ∨
  ((u.mode = .lost ∨ u.mode = .aborted) ∧ cs = [] ∧ rs = [] ∧ slots = s.pool.slotsUsed) ∨
  (∃ n, u.mode = .keep n ∧ KeptEnds i u.frame o u.late false cs rs s ∧ slots = s.pool.slotsUsed + rs.length - 1 ∧
    s.unserved (max n (filledBlocks 10 u.frame.kept.length)) 1)

/-- What LINE_ABORT makes of the unsolicited frame of line `i` (R23, R24, R26): the counters `cs` that rise, the blocks `back` of
its reservation with `filled` of them holding data, the record slots `slots` of it, and the frame as it is received on. -/
def FrameDiscarded (i : Fin 12) (cs : List CtrId) (back filled slots : Nat) (frame : Option Unsolicited) (s : State) : Prop :=
  let l := s.line i
  let dropped := CtrId.line i .unsolicitedDropped
  ((l.listen ≠ .listening ∨ l.unsolicited = none) ∧ cs = [] ∧ back = 0 ∧ filled = 0 ∧ slots = 0 ∧ frame = l.unsolicited) ∨
  (∃ u, l.listen = .listening ∧ l.unsolicited = some u ∧ frame = some { u with mode := .aborted } ∧
    ((u.mode = .keep back ∧ cs = [dropped] ∧ filled = filledBlocks 10 u.frame.kept.length ∧ slots = 1) ∨
     ((u.mode = .lost ∨ u.mode = .aborted) ∧ cs = [] ∧ back = 0 ∧ filled = 0 ∧ slots = 0) ∨
     ((u.mode = .drop ∨ (u.mode = .undecided ∧ u.late = none)) ∧ cs = [dropped] ∧ back = 0 ∧ filled = 0 ∧ slots = 0) ∨
     (u.mode = .undecided ∧ u.late.isSome = true ∧ cs = [.line i .lateFrames, dropped] ∧ back = 0 ∧ filled = 0 ∧
       slots = 0)))

/-- The counter of the LINE set that a transaction's outcome moves (R17). -/
def outcomeCounter : TxnOutcome → LineCtr
  | .ok => .txnOk | .noReply => .noReplies | .charError => .charErrors | .overlength => .overlength
  | .brk => .breaks | .collision => .collisions | .aborted => .aborted
  | .queueFull => .requestsRefused | .badLine => .requestsRefused | .lineOffline => .requestsRefused
  | .badParam => .requestsRefused | .noSpace => .requestsRefused | .flushed => .requestsRefused

/-- A character from line `i` matches, good, the oldest one sent of `x` and not yet matched (R43). -/
def goodEcho (i : Fin 12) (x : Txn) (c : RxChar) (s : State) : Prop :=
  let l := s.line i
  l.echoed < l.sent + (if l.charOut.isSome then 1 else 0) ∧ c.bad = false ∧
  ((s.workBytes x.work)[l.echoed]?).map l.applied.onLine = some c.value

/-- The command `c` ends the reply to `x` of line `i` other than by a break, with `a` received of it (R12, R46, R48,
R49). -/
def ReplyEnds (c : Instr) (i : Fin 12) (x : Txn) (a : Assembly) (s : State) : Prop :=
  let l := s.line i
  l.hand = some x ∧ l.txn = .receiving ∧
  ((c = .gapCountEnd i ∧ l.gap.isSome = true ∧ a = x.reply) ∨
   (∃ data parity stop, c = .characterComplete i data parity stop ∧ l.rxBusy = true ∧
      let ch := rxChar l.applied data parity stop
      a = x.reply.take l.applied.maxReply ch ∧
      ((∃ e, s.workExpect x.work = some e ∧ e ≤ x.reply.count + 1) ∨
       (l.applied.termChar = true ∧ ch.bad = false ∧ ch.value = l.applied.onLine l.applied.termValue))))

/-- The command `c` ends the transaction `x` in hand of line `i`, of which `a` was received, with the outcome `o`; `cs` are
the counters that rise, `rs` the record of a stray found (R8, R10, R12 to R15, R25, R26, R44). -/
def Ends (c : Instr) (i : Fin 12) (x : Txn) (a : Assembly) (o : TxnOutcome) (cs : List CtrId) (rs : List Record)
    (s : State) : Prop :=
  let l := s.line i
  let own := CtrId.line i (outcomeCounter o)
  let echoing := l.txn = .sending ∧ l.applied.echoCheck = true ∧ l.charOut = none ∧ x.abortPending = false ∧
    x.echoFailed = false ∧ o = .collision
  l.hand = some x ∧
  ((ReplyEnds c i x a s ∧ ¬ strayReply { x with reply := a } i s ∧ o = a.outcome false ∧
      x.retried l.applied o = false ∧ cs = [own] ∧ rs = []) ∨
   (ReplyEnds c i x a s ∧ strayReply { x with reply := a } i s ∧ x.windowLeft = 0 ∧ o = .noReply ∧
      x.retried l.applied .noReply = false ∧ ∃ ds, Disposal i a ds rs s ∧ cs = .line i .strayFrames :: ds ++ [own]) ∨
   (a = x.reply ∧ rs = [] ∧
     ((c = .breakStart i ∧ l.txn = .receiving ∧ l.rxBusy = true ∧ o = .brk ∧ cs = [own]) ∨
      (c = .replyWindowExpiry i ∧ l.txn = .awaiting ∧ (∃ d, l.window = some d ∧ d ≤ s.clock) ∧ o = .noReply ∧
        x.retried l.applied .noReply = false ∧ cs = [own]) ∨
      (c = .characterSent i ∧ l.txn = .sending ∧ l.charOut.isSome = true ∧ cs = [own] ∧
        ((x.abortPending = true ∧ o = .aborted) ∨
         (x.abortPending = false ∧ x.echoFailed = true ∧ o = .collision))) ∨
      (c = .echoDeadline i ∧ echoing ∧ l.echoed < l.sent ∧ cs = [own]) ∨
      (c = .breakStart i ∧ echoing ∧ l.rxBusy = true ∧ cs = [.line i .breaks, own]) ∨
      (∃ data parity stop, c = .characterComplete i data parity stop ∧ echoing ∧ l.rxBusy = true ∧
        ¬ goodEcho i x (rxChar l.applied data parity stop) s ∧ cs = [own]))))

/-! Profiles put in place, and polling that becomes active. -/

/-- The REPLY records of requests refused in their own payload blocks (R28, R31, R32). -/
def refusals (i : Fin 12) (o : TxnOutcome) (q : List Request) (s : State) : List Record :=
  q.map (fun r => s.stamp (.reply r.tag (lineByte i) o 0 none []) r.urgent 1)

/-- The payload blocks that refused requests free: all but the first of each. -/
def spareBlocks (q : List Request) : Nat := (q.map (fun r => payloadBlocks r.payload - 1)).sum

/-- The payload blocks of requests. -/
def queueBlocks (q : List Request) : Nat := (q.map (fun r => payloadBlocks r.payload)).sum

/-- The requests that leave the queue of an enabled or disabled line as `p` is put in place (R31, R32). -/
def Line.turnedOut (l : Line) (p : Profile) : List Request := if p.enabled then l.queue.drop p.queueDepth else l.queue

/-- An IDLE line with listen QUIET when `p` has been put in place (R31, R32). -/
def Line.under (l : Line) (p : Profile) : Line :=
  if p.enabled then { l with applied := p, queue := l.queue.take p.queueDepth }
  else { quietLine l with
    txn := .offline, lde := false, applied := p, queue := [], due := [], brk := false, rxBusy := false
    edgeListen := .quiet }

/-- What `p`, staged, does when it is put in place on line `i`, which is IDLE or enters IDLE, with listen QUIET: the
PROFILE_APPLIED event, then the requests turned out, oldest first, and the due polls of a line taken out of service
(R30 to R32); `cs` are the counters that rise besides, `rs` the records that joined before. -/
def ProfileApplied (i : Fin 12) (p : Profile) (cs : List CtrId) (rs : List Record) (s t : State) : Prop :=
  let l := s.line i
  let gone := l.turnedOut p
  t.results = s.results ++ rs ++ refusals i (if p.enabled then .queueFull else .lineOffline) gone s ∧
  CountedTimes gone.length (.line i .requestsRefused) cs s t ∧
  ∀ id, t.poll id = if p.enabled = false ∧ id ∈ l.due.map DueItem.poll
    then (s.poll id).map (fun e => { e with state := .waiting }) else s.poll id

/-- The blocks when the unsolicited frame `u` has left the records `rs`, and a profile put in place has turned out the requests
`gone`: what the records use of the frame's reservation stays held, the rest of it is free again (R22); a frame without a
reservation gives none back (R22, R23, R26). -/
def FrameFreed (u : Unsolicited) (rs : List Record) (gone : List Request) (s t : State) : Prop :=
  let used := (rs.map Record.blocks).sum
  ∀ n data, (u.mode = .keep n ∧ data = filledBlocks 10 u.frame.kept.length) ∨
      ((∀ k, u.mode ≠ .keep k) ∧ n = 0 ∧ data = 0) →
    data ≤ n → used ≤ n → n - data ≤ s.pool.reserved → data + queueBlocks gone ≤ s.pool.held →
    t.pool.free + used = s.pool.free + n + spareBlocks gone ∧ t.pool.reserved = s.pool.reserved - (n - data) ∧
    t.pool.held + data + spareBlocks gone = s.pool.held + used

/-- NextDue `ms` ahead of the clock of `s`. -/
def State.ahead (s : State) (n : Nat) : Option Nat := some (s.clock + n * 10)

/-- An entry as polling becomes active (R69, R72): anchored at its Phase; with Phase 0 it is due at once. -/
def State.anchored (s : State) (p : Poll) : Poll :=
  if p.defn.phase ≠ 0 then { p with nextDue := s.ahead p.defn.phase }
  else if p.state ≠ .waiting then { p with missed := min 255 (p.missed + 1), nextDue := s.ahead p.defn.period }
  else if (s.line p.defn.line).txn = .offline then { p with nextDue := s.ahead p.defn.period }
  else { p with state := .due, nextDue := s.ahead p.defn.period }

/-- The PollIds, in order, that join the due list of line `i` as polling becomes active (R69). -/
def State.fallsDue (s : State) (i : Fin 12) (id : Fin 128) : Bool :=
  match s.poll id with
  | some p => p.defn.phase = 0 && p.defn.line = i && p.state = .waiting && (s.line i).txn != .offline
  | none => false

/-- Polling has become active from `s` to `t` (R69): where no line is IDLE that an entry of Phase 0 names, every entry is
anchored and those of Phase 0 join their due lists in PollId order; where one entry alone has Phase 0 and its line is IDLE
with listen QUIET and its blocks free, that poll is selected at once (R56). No entry is DUE before. -/
def Activated (s t : State) : Prop :=
  (∀ id p, s.poll id = some p → p.state ≠ .due) → (∀ i, (s.line i).due = []) →
  ((∀ id p, s.poll id = some p → p.defn.phase = 0 → (s.line p.defn.line).txn ≠ .idle) →
    (∀ id, t.poll id = (s.poll id).map s.anchored) ∧
    ∀ i, t.line i = { s.line i with
      due := ((List.finRange 128).filter (s.fallsDue i)).map (fun id => { poll := id, time := s.clock }) }) ∧
  ∀ id p, s.poll id = some p → p.defn.phase = 0 → p.state = .waiting →
    (∀ k q, s.poll k = some q → q.defn.phase = 0 → k = id) →
    let l := s.line p.defn.line
    let n := Config.blocksFor (11 + l.applied.maxReply)
    l.txn = .idle → l.listen = .quiet → l.queue = [] → s.pool.waitList = [] → n + 17 ≤ s.pool.free →
    s.pool.slotsUsed + 10 ≤ 256 →
    (∀ k, k ≠ id → t.poll k = (s.poll k).map s.anchored) ∧
    t.poll id = some { p with state := .inFlight, pollSeq := p.pollSeq + 1, nextDue := s.ahead p.defn.period } ∧
    t.line p.defn.line = sendingLine l
      { Txn.start (.poll id p.missed) with reservation := some n } p.defn.request[0]? ∧
    (∀ j, j ≠ p.defn.line → t.line j = s.line j) ∧ t.pool.reserved = s.pool.reserved + n

end Sys2Proof.Machine
end

