-- ==== Sys2Proof/Certificates/Slice0/Obligations.lean ====
section
/-! DEFINITION. The statements for the provers. -/

open Sys2Proof Sys2Proof.Machine

/-- Step takes the command at the front of the queue and runs it on the state with the queue's rest. -/
def Obligations.StepRunsFrontCommand : Prop :=
  ∀ (c : Instr) (rest : List Instr) (s : State), step (s.setPending (c :: rest)) = exec c (s.setPending rest)

/-- On an empty queue a step is one millisecond of the timebase while every timer and every NextDue has its deadline ahead;
lines, polls, link and pool stand. With a deadline reached, a step takes an expiry that is due, and the timebase stands. That
no command means time passes, and which of several due expiries goes first, is the model's choice (log 2, log 4). -/
def Obligations.EmptyQueueTakesExpiryOrMillisecond : Prop :=
  ∀ s : State, s.pending = [] →
    ((∀ c d, s.deadlineOf c = some d → s.clock < d) →
      ∃ t, step s = .next t ∧ t.clock = s.clock + 1 ∧ t.reading = s.reading + 1 ∧ t.lines = s.lines ∧
        t.polls = s.polls ∧ t.cfg = s.cfg ∧ t.intake = s.intake ∧ t.pollRun = s.pollRun ∧ t.pending = [] ∧
        SameLink s t ∧ SamePool s t) ∧
    (∀ c d, s.deadlineOf c = some d → d ≤ s.clock →
      ∃ e k t, s.deadlineOf e = some k ∧ k ≤ s.clock ∧ step s = .next t ∧ exec e s = .next t ∧ t.clock = s.clock)

/-- Every command, well formed or not, answers a next state, and leaves the rest of the queue alone. -/
def Obligations.EveryCommandAnswers : Prop :=
  ∀ (c : Instr) (s : State), Completes c s (fun t => t.pending = s.pending)

/-- COLD_START gives every block its cold-start contents (R188, section 9.6). That transmission has not begun yet is the
model's reading (log 14); DownSince 0 is the model's choice, section 8.2 gives no value (log 15). -/
def Obligations.ColdStartContents : Prop :=
  ∀ s : State, Completes .coldStart s (fun t =>
    t.clock = 0 ∧ t.trunk.up = false ∧ t.trunk.linkUpPin = false ∧ t.trunk.epoch = 1 ∧
    t.trunk.cause = .coldStart ∧ t.trunk.lastAccepted = none ∧ t.trunk.anyAccepted = false ∧
    t.trunk.upBefore = false ∧ t.trunk.nextSeq = 0 ∧ t.trunk.peerAck = 0 ∧ t.trunk.expectSeq = 0 ∧
    t.trunk.peerAllow = 0 ∧ t.trunk.expiries = 0 ∧ t.trunk.goBack = false ∧ t.trunk.retransmits = [] ∧
    t.trunk.rejectSent = false ∧ t.trunk.rejectPending = false ∧ t.trunk.ackPending = false ∧
    t.trunk.syncPending = true ∧ t.trunk.syncTimer = some t.cfg.syncInterval ∧
    t.trunk.syncAckPending = none ∧ t.trunk.ackDelayTimer = none ∧ t.trunk.retransmitTimer = none ∧
    t.trunk.silenceTimer = none ∧ t.trunk.keepaliveTimer = none ∧ t.trunk.tx = none ∧ t.trunk.downSince = 0 ∧
    t.trunk.ackNow = false ∧ t.trunk.allowRose = false ∧ t.trunk.opening = false ∧ t.trunk.ackOnly = false ∧
    t.trunk.keepaliveDue = false ∧
    t.cfg = { ackDelay := 2, retransmitTimeout := 50, maxRetransmits := 6, silenceLimit := 500,
              syncInterval := 100, batchCount := 4, batchDelay := 5, holdLimit := 1000, lowMark := 64,
              highMark := 128 } ∧
    t.uplink.map Record.body = [.event .coldStart 0 0 0] ∧ t.late = [] ∧ t.granted = [] ∧
    t.pool.free = 1024 ∧ t.pool.reserved = 0 ∧ t.pool.held = 0 ∧ t.pool.slotsUsed = 0 ∧ t.pool.eventsUsed = 1 ∧
    t.pool.waitList = [] ∧ t.pool.hold = false ∧ t.pool.minFree = 1024 ∧ t.pool.missedEvents = 0 ∧
    t.intake.frames = [] ∧ t.intake.stall = none ∧ t.intake.holdTimer = none ∧
    (∀ i, (t.line i).txn = .offline ∧ (t.line i).listen = .quiet ∧ (t.line i).lde = false ∧
      (t.line i).charOut = none ∧ (t.line i).applied = Profile.default ∧ (t.line i).staged = none ∧
      (t.line i).hand = none ∧ (t.line i).guardEnd = none ∧ (t.line i).window = none ∧
      (t.line i).unsolicited = none ∧ (t.line i).lateMark = none ∧ (t.line i).deLead = none ∧
      (t.line i).deHold = none ∧ (t.line i).gap = none ∧ (t.line i).awaitMark = false ∧ (t.line i).postBreak = none ∧
      (t.line i).brk = false ∧ (t.line i).rxBusy = false ∧ (t.line i).queue = [] ∧ (t.line i).due = [] ∧ (t.line i).known = []) ∧
    (∀ p, t.poll p = none) ∧ t.pollRun = false ∧
    (∀ c, t.ctrs.read c = { value := 0, half := false }) ∧ t.pending = s.pending)

/-- After cold start every block is free, of all slots one event-store slot is taken (R90), and what every step keeps
holds. -/
def Obligations.ResetMeetsInvariant : Prop :=
  State.reset.pool.balanced ∧ State.reset.pool.slotsOk ∧ State.reset.intake.slotsOk ∧ State.reset.trunk.pinOk ∧
  (∀ i, (State.reset.line i).pinOk) ∧ State.reset.trunk.windowOk ∧ State.reset.between ∧ State.reset.headWaits ∧
  State.reset.pool.free = 1024 ∧ State.reset.pool.reserved = 0 ∧ State.reset.pool.held = 0 ∧
  State.reset.pool.slotsUsed = 0 ∧ State.reset.pool.eventsUsed = 1 ∧ State.reset.pool.waitList = [] ∧
  State.reset.pool.hold = false ∧ State.reset.pool.minFree = 1024 ∧ State.reset.cfg.inRange = true ∧ State.reset.onTime

/-! The trunk. -/

/-- A frame the part sends passes the checks of R140, and its fields and payload are read back as they were placed. -/
def Obligations.FrameEncodingRoundTrip : Prop :=
  ∀ (k : FrameKind) (reject : Bool) (seq ackSeq : Seq) (allow : Nat) (payload : List Byte),
    allow ≤ 15 → payload.length ≤ 480 → (k = .sync ∨ k = .syncAck → 4 ≤ payload.length) →
    checkFrame (frameBytes k reject seq ackSeq allow payload) =
      .good { kind := k, reject := reject, seq := seq, ackSeq := ackSeq, allow := allow, payload := payload }

/-- BAD_FRAME: a frame that fails a check of R140 is counted by the first check it fails and has no other effect. -/
def Obligations.BadFrameIsCounted : Prop :=
  ∀ (b : List Byte) (s : State), s.between →
    (b.length < 10 ∨ 490 < b.length ∨ b.length ≠ 10 + (halfAt b 4).toNat →
      Completes (.badFrame b) s (fun t => Counted [.link .malformedFrames] s t ∧ SameLink s t ∧ SameRest s t)) ∧
    (10 ≤ b.length → b.length ≤ 490 → b.length = 10 + (halfAt b 4).toNat →
      (b.drop (b.length - 4) ≠ wordBytes (frameCrc (b.take (b.length - 4))) →
        Completes (.badFrame b) s (fun t => Counted [.link .crcErrors] s t ∧ SameLink s t ∧ SameRest s t)) ∧
      (b.drop (b.length - 4) = wordBytes (frameCrc (b.take (b.length - 4))) →
        (FrameKind.ofCode (byteAt b 0) = none ∨
          ((FrameKind.ofCode (byteAt b 0) = some .sync ∨ FrameKind.ofCode (byteAt b 0) = some .syncAck) ∧
            (halfAt b 4).toNat < 4)) →
        Completes (.badFrame b) s (fun t =>
          Counted [.link .malformedFrames] s t ∧ SameLink s t ∧ SameRest s t)))

/-- A DATA or CTRL frame received in DOWN is counted and discarded: neither its header nor its payload is taken
(R142). -/
def Obligations.FramesInDownDiscarded : Prop :=
  ∀ (b : List Byte) (f : RxFrame) (s : State), s.trunk.up = false → s.between →
    (frameOf .data b = some f →
      Completes (.dataFrame b) s (fun t => Counted [.link .framesReceived] s t ∧ SameLink s t ∧ SameRest s t)) ∧
    (frameOf .ctrl b = some f →
      Completes (.ctrlFrame b) s (fun t => Counted [.link .framesReceived] s t ∧ SameLink s t ∧ SameRest s t))

/-- DATA_FRAME in UP with Seq equal to ExpectSeq and an intake slot free: accepted (R123, R148). What its acknowledgement
frees serves no waiter here; WaitListGrant states what a served waiter does. -/
def Obligations.DataFrameAccepted : Prop :=
  ∀ (b : List Byte) (f : RxFrame) (s : State), frameOf .data b = some f → s.trunk.up = true →
    f.seq = s.trunk.expectSeq → s.intake.frames.length < 8 → s.between → s.ackServesNone f →
    Completes (.dataFrame b) s (fun t =>
      t.intake.frames = unfinished (s.intake.frames ++ [{ seq := f.seq, payload := f.payload, offset := 0 }]) ∧
      t.intake.stall = s.intake.stall ∧ t.intake.holdTimer = s.intake.holdTimer ∧
      t.trunk.expectSeq = s.trunk.expectSeq + 1 ∧ t.trunk.anyAccepted = true ∧ t.trunk.rejectSent = false ∧
      t.trunk.silenceTimer = some (s.clock + s.cfg.silenceLimit) ∧
      t.ctrs.read (.link .framesReceived) = (s.ctrs.read (.link .framesReceived)).inc ∧
      (s.trunk.tx.isSome = true → t.trunk.ackPending = true ∧
        (s.cfg.ackDelay ≠ 0 → t.trunk.ackDelayTimer =
          if s.trunk.ackDelayTimer.isSome then s.trunk.ackDelayTimer else some (s.clock + s.cfg.ackDelay)) ∧
        (s.cfg.ackDelay = 0 → s.trunk.ackDelayTimer = none → t.trunk.ackOnly = true)) ∧
      SameTables s t)

/-- DATA_FRAME in UP that is not accepted (R148): over the credit, a duplicate, or out of window. -/
def Obligations.DataFrameTurnedAway : Prop :=
  ∀ (b : List Byte) (f : RxFrame) (s : State), frameOf .data b = some f → s.trunk.up = true → s.between →
    s.ackServesNone f →
    let stands := fun t => SameTables s t ∧ t.intake = s.intake ∧ t.trunk.expectSeq = s.trunk.expectSeq ∧
      t.trunk.anyAccepted = s.trunk.anyAccepted
    let rises := fun (c : LinkCtr) t => t.ctrs.read (.link c) = (s.ctrs.read (.link c)).inc
    (f.seq = s.trunk.expectSeq → 8 ≤ s.intake.frames.length →
      Completes (.dataFrame b) s (fun t => stands t ∧ rises .overAllow t ∧
        t.trunk.rejectSent = s.trunk.rejectSent)) ∧
    (1 ≤ (s.trunk.expectSeq - f.seq).toNat → (s.trunk.expectSeq - f.seq).toNat ≤ 8 →
      Completes (.dataFrame b) s (fun t => stands t ∧ rises .duplicates t ∧
        t.trunk.rejectSent = s.trunk.rejectSent ∧ (s.trunk.tx.isSome = true → t.trunk.ackNow = true))) ∧
    (8 < (s.trunk.expectSeq - f.seq).toNat →
      Completes (.dataFrame b) s (fun t => stands t ∧
        t.ctrs.read (.link .outOfWindow) = (if s.trunk.ackValid f.ackSeq then
          (s.ctrs.read (.link .outOfWindow)).inc else (s.ctrs.read (.link .outOfWindow)).inc.inc) ∧
        t.trunk.rejectSent = true ∧
        (s.trunk.tx.isSome = true →
          t.trunk.rejectPending = (s.trunk.rejectPending || !s.trunk.rejectSent))))

/-- CTRL_FRAME in UP: its header is taken in the order of R147, releasing the frames before AckSeq with their blocks and
slots (R96, R151) and starting a go-back at a Reject (R155); the retransmit timer starts again at progress and stops with
the list empty and in a go-back (R151, R152, R156). A release that reaches HighMark turns PoolHold off (R100, R136, R161).
What is freed serves no waiter here; WaitListGrant states what a served waiter does. -/
def Obligations.CtrlHeaderTaken : Prop :=
  ∀ (b : List Byte) (f : RxFrame) (s : State), frameOf .ctrl b = some f → s.trunk.up = true → s.between →
    ((s.trunk.nextSeq - s.trunk.peerAck).toNat < (f.ackSeq - s.trunk.peerAck).toNat →
      Completes (.ctrlFrame b) s (fun t => Counted [.link .framesReceived, .link .outOfWindow] s t ∧
        SameLink s t ∧ SameRest s t)) ∧
    ((f.ackSeq - s.trunk.peerAck).toNat ≤ (s.trunk.nextSeq - s.trunk.peerAck).toNat → s.ackServesNone f →
      let acked := (f.ackSeq - s.trunk.peerAck).toNat
      let left := s.trunk.retransmits.drop acked
      let gone := s.released f
      let blocks := (gone.map Record.blocks).sum
      let events := (gone.filter Record.isEvent).length
      let rejects := f.reject = true ∧ left ≠ []
      let restart := if left = [] then none else some (s.clock + s.cfg.retransmitTimeout)
      let goesOn := left.any SentFrame.toResend = true ∨ s.trunk.tx.any TxFrame.goBack = true
      let calm := s.trunk.tx.isSome = true ∧ f.reject = false ∧ (s.ctrs.read (.link .framesReceived)).value ≠ 32767
      Completes (.ctrlFrame b) s (fun t =>
        t.trunk.peerAck = f.ackSeq ∧ t.trunk.peerAllow = min 8 f.allow ∧
        t.trunk.expiries = (if f.ackSeq = s.trunk.peerAck then s.trunk.expiries else 0) ∧
        left.map SentFrame.seq <+: t.trunk.retransmits.map SentFrame.seq ∧
        left.map SentFrame.records <+: t.trunk.retransmits.map SentFrame.records ∧
        t.trunk.expectSeq = s.trunk.expectSeq ∧ t.trunk.silenceTimer = some (s.clock + s.cfg.silenceLimit) ∧
        t.ctrs.read (.link .framesReceived) = (s.ctrs.read (.link .framesReceived)).inc ∧
        (s.trunk.goBack = false → t.ctrs.read (.link .goBacks) =
          if rejects then (s.ctrs.read (.link .goBacks)).inc else s.ctrs.read (.link .goBacks)) ∧
        t.pool.held = s.pool.held - blocks ∧ t.pool.reserved = s.pool.reserved ∧ t.pool.total = s.pool.total ∧
        t.pool.slotsUsed = s.pool.slotsUsed - (gone.filter (fun r => !r.isEvent)).length ∧
        SameTables s t ∧ t.intake = s.intake ∧
        -- the retransmit timer and the go-back
        (s.trunk.tx.isSome = true → s.trunk.goBack = false → t.trunk.goBack = decide rejects ∧
          t.trunk.retransmits = (if rejects then left.map (fun g => { g with toResend := true }) else left) ∧
          t.trunk.retransmitTimer = (if rejects then none
            else if f.ackSeq = s.trunk.peerAck then s.trunk.retransmitTimer else restart)) ∧
        (s.trunk.tx.isSome = true → s.trunk.goBack = true → goesOn → t.trunk.goBack = true ∧
          t.trunk.retransmits = left ∧
          t.trunk.retransmitTimer = if f.ackSeq = s.trunk.peerAck then s.trunk.retransmitTimer else none) ∧
        (s.trunk.tx.isSome = true → s.trunk.goBack = true → ¬ goesOn → f.ackSeq ≠ s.trunk.peerAck → f.reject = false →
          t.trunk.goBack = false ∧ t.trunk.retransmits = left ∧ t.trunk.retransmitTimer = restart) ∧
        -- the event store and PoolHold
        (calm → s.pool.hold = false → s.cfg.lowMark ≤ s.pool.free →
          t.pool.hold = false ∧ t.pool.eventsUsed = s.pool.eventsUsed - events) ∧
        (calm → acked = 1 → s.pool.hold = true → 1 ≤ blocks → blocks ≤ s.pool.held →
          s.cfg.highMark ≤ s.pool.free + blocks → s.pool.eventsUsed - events < 16 →
          t.pool.hold = false ∧ t.pool.eventsUsed = s.pool.eventsUsed - events + 1 ∧
          t.uplink = s.uplink ++ [s.stamp (.event .poolRecovered 0 s.pool.missedEvents
            (BitVec.ofNat 16 (s.pool.free + blocks) ++ BitVec.ofNat 16 s.cfg.highMark)) true 0] ∧
          t.allow = 8 - s.intake.frames.length ∧ (s.intake.frames.length < 8 → t.trunk.allowRose = true))))

/-- SYNC from the controller (R144): in DOWN the link enters UP, with PollRun on polling becomes active (R69, R146); in UP
the space ends and a fresh one begins. The SYNC_ACK echoes the controller's epoch. -/
def Obligations.SyncTaken : Prop :=
  ∀ (b : List Byte) (f : RxFrame) (s : State), frameOf .sync b = some f → s.between →
    Completes (.sync b) s (fun t => FreshSpace s t ∧ t.trunk.syncPending = (s.trunk.up && s.trunk.syncPending) ∧
      t.ctrs.read (.link .resyncs) = (s.ctrs.read (.link .resyncs)).inc ∧
      t.ctrs.read (.link .framesReceived) = (s.ctrs.read (.link .framesReceived)).inc ∧
      (if s.trunk.tx.isSome then t.trunk.syncAckPending = some (byteAt f.payload 0) ∧ t.trunk.tx = s.trunk.tx
       else SyncSent .syncAck (byteAt f.payload 0) 0 t) ∧
      (s.trunk.up = false →
        t.trunk.cause = s.trunk.cause ∧ t.trunk.lastAccepted = s.trunk.lastAccepted ∧ t.trunk.syncTimer = none ∧
        t.trunk.upBefore = true ∧ (s.pollRun = true → Activated s t) ∧
        (s.pollRun = false → t.lines = s.lines ∧ t.polls = s.polls ∧ SamePool s t ∧ t.results = s.results ∧
          (s.trunk.upBefore = true → s.pool.eventsUsed + 3 ≤ 16 → ∃ m : Nat,
            JoinedBehind [s.stamp (.event .linkRestored 0 m ((s.trunk.cause.code ++ 0#8) ++
              BitVec.ofNat 16 (min 65535 (s.clock - s.trunk.downSince)))) true 0] s t))) ∧
      (s.trunk.up = true →
        t.trunk.cause = .peerSync ∧ t.lines = s.lines ∧ t.polls = s.polls ∧ SamePool s t ∧
        t.trunk.lastAccepted = (if s.trunk.anyAccepted then some (s.trunk.expectSeq - 1) else none) ∧
        ((s.trunk.retransmits.map (fun f => f.records.map (fun r => { r with resent := true }))).flatten
          ++ s.uplink) <+: t.stream))

/-- SYNC_ACK (R143): in DOWN, with the part's Epoch, the link enters UP with an opening CTRL, and with PollRun on
polling becomes active (R69, R146); otherwise it is counted and ignored. -/
def Obligations.SyncAckTaken : Prop :=
  ∀ (b : List Byte) (f : RxFrame) (s : State), frameOf .syncAck b = some f → s.between →
    (s.trunk.up = false → byteAt f.payload 0 = s.trunk.epoch → s.trunk.syncAckPending = none →
      Completes (.syncAck b) s (fun t => FreshSpace s t ∧ t.trunk.syncPending = false ∧ t.trunk.syncTimer = none ∧
        t.trunk.upBefore = true ∧ t.ctrs.read (.link .resyncs) = (s.ctrs.read (.link .resyncs)).inc ∧
        t.ctrs.read (.link .framesReceived) = (s.ctrs.read (.link .framesReceived)).inc ∧
        (if s.trunk.tx.isSome then t.trunk.opening = true ∧ t.trunk.tx = s.trunk.tx
         else t.trunk.tx = some
           { kind := .ctrl, reject := false, seq := 0, ackSeq := 0, allow := t.allow, payload := [], goBack := false }) ∧
        (s.pollRun = true → Activated s t) ∧
        (s.pollRun = false → t.lines = s.lines ∧ t.polls = s.polls ∧ SamePool s t ∧ t.results = s.results))) ∧
    (s.trunk.up = true ∨ byteAt f.payload 0 ≠ s.trunk.epoch →
      Completes (.syncAck b) s (fun t => Counted [.link .framesReceived] s t ∧ SameLink s t ∧ SameRest s t))

/-- SILENCE_TIMER_EXPIRY (R158): the link goes DOWN with cause SILENCE. -/
def Obligations.SilenceTakesLinkDown : Prop :=
  ∀ (d : Nat) (s : State), s.trunk.up = true → s.trunk.silenceTimer = some d → d ≤ s.clock →
    s.between →
    Completes .silenceTimerExpiry s (fun t => WentDown .silence s t ∧
      t.ctrs.read (.link .silenceDowns) = (s.ctrs.read (.link .silenceDowns)).inc ∧
      t.ctrs.read (.link .retryFailDowns) = s.ctrs.read (.link .retryFailDowns))

/-- RETRANSMIT_TIMER_EXPIRY (R153): a go-back while the count is at most MaxRetransmits, else the link goes DOWN. -/
def Obligations.RetransmitExpiry : Prop :=
  ∀ (d : Nat) (s : State), s.trunk.up = true → s.trunk.retransmitTimer = some d → d ≤ s.clock → s.between →
    (s.trunk.expiries + 1 ≤ s.cfg.maxRetransmits → s.trunk.retransmits ≠ [] →
      Completes .retransmitTimerExpiry s (fun t =>
        Counted [.link .goBacks] s t ∧ t.trunk.up = true ∧ t.trunk.expiries = s.trunk.expiries + 1 ∧
        (s.trunk.tx.isSome = true → t.trunk.goBack = true ∧ t.trunk.retransmitTimer = none ∧
          t.trunk.retransmits = s.trunk.retransmits.map (fun f => { f with toResend := true })) ∧
        SameRest s t)) ∧
    (s.cfg.maxRetransmits < s.trunk.expiries + 1 →
      Completes .retransmitTimerExpiry s (fun t => WentDown .retryFail s t ∧
        t.ctrs.read (.link .retryFailDowns) = (s.ctrs.read (.link .retryFailDowns)).inc ∧
        t.ctrs.read (.link .silenceDowns) = s.ctrs.read (.link .silenceDowns)))

/-- SYNC_TIMER_EXPIRY in DOWN: a SYNC is sent or pending, and the timer starts again (R142); of the link nothing else
moves, but for what every start of a transmission clears (R162). -/
def Obligations.SyncTimerExpiry : Prop :=
  ∀ (d : Nat) (s : State), s.trunk.up = false → s.trunk.syncTimer = some d → d ≤ s.clock → s.between →
    Completes .syncTimerExpiry s (fun t =>
      let timer := some (s.clock + s.cfg.syncInterval)
      t.trunk.syncTimer = timer ∧ t.trunk.up = false ∧ t.trunk.epoch = s.trunk.epoch ∧ t.trunk.cause = s.trunk.cause ∧
      t.trunk.lastAccepted = s.trunk.lastAccepted ∧
      (if s.trunk.tx.isSome then t.trunk.syncPending = true ∧ t.trunk.tx = s.trunk.tx
       else SyncSent .sync s.trunk.epoch 0 t) ∧
      (s.trunk.goBack = false → t.trunk = if s.trunk.tx.isSome then
          { s.trunk with syncPending := true, syncTimer := timer }
        else { s.trunk with
          syncPending := false, syncTimer := timer, tx := t.trunk.tx, ackDelayTimer := none, rejectPending := false
          ackPending := false, ackNow := false, allowRose := false, opening := false, ackOnly := false
          keepaliveDue := false }) ∧
      Counted [] s t ∧ SameRest s t)

/-- KEEPALIVE_TIMER_EXPIRY (R159): a keepalive CTRL is pending, or goes out at once when the transmitter is free and
nothing of an earlier choice waits. -/
def Obligations.KeepaliveExpiry : Prop :=
  ∀ (d : Nat) (s : State), s.trunk.up = true → s.trunk.keepaliveTimer = some d → d ≤ s.clock → s.between →
    Completes .keepaliveTimerExpiry s (fun t =>
      (s.trunk.tx.isSome = true → t.trunk.keepaliveDue = true ∧ t.trunk.keepaliveTimer = none ∧
        t.trunk.tx = s.trunk.tx) ∧
      (s.trunk.tx = none → t.trunk.tx.isSome = true ∧
        t.trunk.keepaliveTimer = some (s.clock + s.cfg.silenceLimit / 4)) ∧
      Counted [] s t ∧ SameLink s t ∧ SameRest s t)

/-- ACKDELAY_TIMER_EXPIRY (R150): with an acknowledgement still pending an ack-only CTRL is pending, or a frame that
carries the acknowledgement goes out at once when the transmitter is free. -/
def Obligations.AckDelayExpiry : Prop :=
  ∀ (d : Nat) (s : State), s.trunk.up = true → s.trunk.ackDelayTimer = some d → d ≤ s.clock → s.between →
    Completes .ackDelayTimerExpiry s (fun t =>
      t.trunk.ackDelayTimer = none ∧
      (s.trunk.tx.isSome = true → t.trunk.ackOnly = (s.trunk.ackOnly || s.trunk.ackPending) ∧
        t.trunk.ackPending = s.trunk.ackPending ∧ t.trunk.tx = s.trunk.tx) ∧
      (s.trunk.tx = none → s.trunk.ackPending = true → t.trunk.tx.isSome = true ∧ t.trunk.ackPending = false) ∧
      Counted [] s t ∧ SameLink s t ∧ SameRest s t)

/-- FRAME_TRANSMITTED (R160): the transmitter is free and the arbiter chooses, in the order of R160; the frame chosen
starts as R162 lays down. The retransmit timer starts with the first frame of the list (R151, R152) and at the end of a
go-back with frames left (R156). -/
def Obligations.ArbiterOrder : Prop :=
  ∀ (x : TxFrame) (s : State), s.trunk.tx = some x → s.between →
    let head := fun (k : FrameKind) (q : Seq) (p : List Byte) (g : Bool) (t : State) =>
      t.trunk.tx = some
        { kind := k, reject := s.trunk.rejectPending, seq := q, ackSeq := s.trunk.expectSeq, allow := s.allow,
          payload := p, goBack := g } ∧
      t.trunk.ackPending = false ∧ t.trunk.ackDelayTimer = none ∧ t.trunk.rejectPending = false ∧
      t.trunk.ctrlNow = false ∧ t.trunk.ackOnly = false ∧ t.trunk.keepaliveDue = false ∧
      t.trunk.keepaliveTimer = some (s.clock + s.cfg.silenceLimit / 4) ∧
      t.ctrs.read (.link .framesSent) = (s.ctrs.read (.link .framesSent)).inc
    let resend := s.trunk.retransmits.find? SentFrame.toResend
    let batch := takeFit 480 s.uplink
    let offer := s.trunk.retransmits.length < min 8 s.trunk.peerAllow ∧ s.uplink ≠ [] ∧
      (s.uplink.any Record.urgent = true ∨ s.cfg.batchCount ≤ s.uplink.length ∨ s.delayReached = true ∨
        480 ≤ (s.uplink.map Record.len).sum)
    let timeout := some (s.clock + s.cfg.retransmitTimeout)
    Completes .frameTransmitted s (fun t =>
      SameLink s t ∧ SameRest s t ∧
      (s.trunk.goBack = true → resend = none → t.trunk.goBack = false ∧
        (s.trunk.retransmits ≠ [] → t.trunk.retransmitTimer = timeout)) ∧
      (s.trunk.goBack = true → resend.isSome = true → t.trunk.goBack = true ∧
        t.trunk.retransmitTimer = s.trunk.retransmitTimer) ∧
      (s.trunk.goBack = false → t.trunk.goBack = false ∧
        (s.trunk.retransmits ≠ [] ∨ t.trunk.retransmits = [] →
          t.trunk.retransmitTimer = s.trunk.retransmitTimer)) ∧
      (s.trunk.up = false → s.trunk.syncPending = true → SyncSent .sync s.trunk.epoch 0 t) ∧
      (s.trunk.up = false → s.trunk.syncPending = false → t.trunk.tx = none) ∧
      (s.trunk.up = true →
        (∀ e, s.trunk.syncAckPending = some e → SyncSent .syncAck e s.trunk.expectSeq t) ∧
        (s.trunk.syncAckPending = none →
          (s.trunk.ctrlNow = true → head .ctrl 0 [] false t) ∧
          (s.trunk.ctrlNow = false →
            (∀ f, s.trunk.goBack = true → resend = some f →
              head .data f.seq (payloadOf f.records) true t ∧
              t.ctrs.read (.link .retransmissions) = (s.ctrs.read (.link .retransmissions)).inc) ∧
            (s.trunk.goBack = false ∨ resend = none →
              (offer → head .data s.trunk.nextSeq (payloadOf batch) false t ∧
                t.trunk.nextSeq = s.trunk.nextSeq + 1 ∧
                (s.trunk.retransmits = [] → t.trunk.retransmitTimer = timeout) ∧ s.uplink.drop batch.length <+: t.uplink ∧
                t.trunk.retransmits = s.trunk.retransmits ++
                  [{ seq := s.trunk.nextSeq, records := batch, toResend := false }]) ∧
              (¬ offer → s.trunk.ackOnly = true ∨ s.trunk.keepaliveDue = true → head .ctrl 0 [] false t) ∧
              (¬ offer → s.trunk.ackOnly = false → s.trunk.keepaliveDue = false → t.trunk.tx = none))))))

/-- A new DATA frame takes the longest run of records from the head of the queue that its 480 bytes hold (R114). -/
def Obligations.FramePacking : Prop :=
  ∀ (n : Nat) (q : List Record),
    takeFit n q <+: q ∧ ((takeFit n q).map Record.len).sum ≤ n ∧
    ∀ r rest, q = takeFit n q ++ r :: rest → n < ((takeFit n q).map Record.len).sum + r.len

/-- DELAY_DEADLINE_REACHED (R110, R112): with the head's deadline reached, the trunk interface able to accept and
nothing of an earlier choice pending, a frame is built from the head of the queue and sent. -/
def Obligations.DelayDeadlineBuildsFrame : Prop :=
  ∀ (r : Record) (rs : List Record) (s : State), s.uplink = r :: rs → r.deadline ≤ s.clock → s.between →
    Completes .delayDeadlineReached s (fun t => SameLink s t ∧ SameRest s t ∧
      (s.trunk.up = true → s.trunk.tx = none → s.trunk.syncAckPending = none → s.trunk.ctrlNow = false →
        s.trunk.goBack = false → s.trunk.retransmits.length < min 8 s.trunk.peerAllow →
        t.trunk.tx = some
          { kind := .data, reject := false, seq := s.trunk.nextSeq, ackSeq := s.trunk.expectSeq,
            allow := s.allow, payload := payloadOf (takeFit 480 s.uplink), goBack := false } ∧
        t.trunk.nextSeq = s.trunk.nextSeq + 1 ∧
        t.trunk.retransmitTimer = (if s.trunk.retransmits = [] then some (s.clock + s.cfg.retransmitTimeout)
          else s.trunk.retransmitTimer) ∧
        s.uplink.drop (takeFit 480 s.uplink).length <+: t.uplink ∧
        t.trunk.retransmits = s.trunk.retransmits ++
          [{ seq := s.trunk.nextSeq, records := takeFit 480 s.uplink, toResend := false }]))

/-! The pool, counters and events. -/

/-- The class tests of R92, and what a passed allocation takes, its blocks and its slot together; who waits is granted at
once only with an empty wait list, who does not wait on the counts alone (R93). FreeCount's fall moves MinFree (R102) and,
below LowMark, turns PoolHold on with its event and its count (R100). That POOL_LOW takes the event slot and the pending Missed
count before a COUNTER_HALF of PoolLowEpisodes, when that crosses 32768, is the model's choice (log 23). -/
def Obligations.ClassTest : Prop :=
  ∀ (n : Need) (s : State),
    let ok := match n.cls with
      | .line => n.blocks + 16 ≤ s.pool.free ∧ (n.slot = true → s.pool.slotsUsed + 1 + 8 ≤ 256)
      | .response => n.blocks ≤ s.pool.free ∧ (n.slot = true → s.pool.slotsUsed + 1 ≤ 256)
    (s.mayTake n = true ↔ ok) ∧ (s.grantsNow n = true ↔ s.pool.waitList = [] ∧ ok) ∧
    (ok → ∀ into, (s.take n into).pool.free = s.pool.free - n.blocks ∧
      (s.take n into).pool.slotsUsed = s.pool.slotsUsed + (if n.slot then 1 else 0) ∧
      (s.take n into).pool.total = s.pool.total ∧
      (s.take n into).pool.minFree = min s.pool.minFree (s.pool.free - n.blocks) ∧
      (s.take n into).pool.hold = holdAfter s.pool.hold (s.pool.free - n.blocks) s.cfg.lowMark s.cfg.highMark ∧
      (s.pool.hold = false → s.pool.free - n.blocks < s.cfg.lowMark → s.pool.eventsUsed < 16 →
        (s.take n into).uplink = s.uplink ++ [s.stamp (.event .poolLow 0 s.pool.missedEvents
          (BitVec.ofNat 16 (s.pool.free - n.blocks) ++ BitVec.ofNat 16 s.cfg.lowMark)) true 0] ∧
        (s.take n into).allow = 0 ∧
        (s.take n into).ctrs.read (.pool .poolLowEpisodes) = (s.ctrs.read (.pool .poolLowEpisodes)).inc))

/-- The granting (R97), as WAIT_LIST_GRANT and within a step whose acknowledgement or completion frees blocks: a head that
fails its test is granted nothing; a line at the head that passes gets its reservation and is READY, or SENDING when listen
is QUIET (R5, R6); the next that fails stays. -/
def Obligations.WaitListGrant : Prop :=
  ∀ s : State, s.between →
    (s.headWaits → Completes .waitListGrant s (fun t => Counted [] s t ∧ SameLink s t ∧ SameRest s t)) ∧
    ∀ (i : Fin 12) (n : Need) (ws : List Waiter) (x : Txn), s.pool.waitList = { who := .line i, need := n } :: ws →
      (s.line i).txn = .waitSpace → (s.line i).hand = some x →
      -- with `free` blocks free and `slots` record slots used the head passes and the next fails
      let served := fun (free slots : Nat) =>
        Pool.passes { s.pool with free := free, slotsUsed := slots } n = true ∧
        ∀ w rest, ws = w :: rest → Pool.passes
          { s.pool with free := free - n.blocks, slotsUsed := slots + if n.slot then 1 else 0 } w.need = false
      let granted := fun (free slots : Nat) (t : State) =>
        let y := { x with reservation := some n.blocks }
        t.pool.waitList = ws ∧ t.pool.free = free - n.blocks ∧ t.pool.total = s.pool.total ∧
        t.pool.slotsUsed = slots + (if n.slot then 1 else 0) ∧ t.polls = s.polls ∧ t.intake = s.intake ∧
        SameSettings s t ∧
        t.line i = if (s.line i).listen = .quiet then sendingLine (s.line i) y (s.workBytes x.work)[0]?
          else { s.line i with txn := .ready, lde := false, hand := some y }
      (served s.pool.free s.pool.slotsUsed →
        Completes .waitListGrant s (fun t => granted s.pool.free s.pool.slotsUsed t ∧
          t.pool.reserved = s.pool.reserved + n.blocks ∧ t.pool.held = s.pool.held ∧
          t.pool.minFree = min s.pool.minFree (s.pool.free - n.blocks) ∧
          SameOutside i s t ∧ t.results = s.results ∧ SameLink s t)) ∧
      (∀ b f, frameOf .ctrl b = some f → s.trunk.up = true →
        (f.ackSeq - s.trunk.peerAck).toNat ≤ (s.trunk.nextSeq - s.trunk.peerAck).toNat →
        (f.ackSeq - s.trunk.peerAck).toNat = 1 → s.trunk.retransmits ≠ [] →
        let free := s.pool.free + ((s.released f).map Record.blocks).sum
        let slots := s.pool.slotsUsed - ((s.released f).filter (fun r => !r.isEvent)).length
        ((s.released f).map Record.blocks).sum ≤ s.pool.held → served free slots →
        Completes (.ctrlFrame b) s (fun t => granted free slots t ∧ SameOutside i s t)) ∧
      (∀ c j z a o cs r k, j ≠ i → Ends c j z a o cs [] s → z.work = .request r → z.reservation = some k →
        (s.line j).applied.guardTime ≠ 0 → s.headWaits →
        let blocks := Config.blocksFor (10 + (o.dataOf a).length)
        let filled := filledBlocks 10 z.reply.kept.length
        let free := s.pool.free + (k - blocks) + payloadBlocks r.payload
        blocks ≤ k → filled ≤ k → filledBlocks 10 a.kept.length ≤ k → k - filled ≤ s.pool.reserved →
        filled + payloadBlocks r.payload ≤ s.pool.held → served free s.pool.slotsUsed →
        Completes c s (fun t => granted free s.pool.slotsUsed t ∧ (t.line j).txn = .guard ∧
          (∀ d, d ≠ i → d ≠ j → t.line d = s.line d) ∧
          t.results = s.results ++
            [s.stamp (.reply r.tag (lineByte j) o z.attempts (o.errorOf a) (o.dataOf a)) r.urgent blocks]))

/-- A counter rises by one, stops at 65535, and sets its flag as it becomes 32768 with the flag armed, raising
COUNTER_HALF behind the arrival's other records; with the event store full the event is lost and counted. Stated on
CrcErrors, counted at a BAD_FRAME (R191, R193, R197, R199). -/
def Obligations.CounterIncrease : Prop :=
  (∀ c : Counter, c.inc.value.toNat = min 65535 (c.value.toNat + 1) ∧
    c.inc.half = (c.half || decide (c.value.toNat = 32767))) ∧
  ∀ (b : List Byte) (s : State), checkFrame b = .crcError → s.between →
    (s.ctrs.read (.link .crcErrors) = { value := 32767, half := false } →
      (s.pool.eventsUsed < 16 → Completes (.badFrame b) s (fun t =>
        JoinedBehind [s.stamp (.event .counterHalf 0 s.pool.missedEvents 0x00010000) true 0] s t ∧
        t.ctrs.read (.link .crcErrors) = { value := 32768, half := true } ∧ SameRest s t)) ∧
      (16 ≤ s.pool.eventsUsed → s.trunk.tx.isSome = true → Completes (.badFrame b) s (fun t =>
        t.stream = s.stream ∧ t.ctrs.read (.link .crcErrors) = { value := 32768, half := true } ∧
        ((s.ctrs.read (.pool .eventsMissed)).crosses = false →
          t.pool.missedEvents = min 255 (s.pool.missedEvents + 1) ∧
          t.ctrs.read (.pool .eventsMissed) = (s.ctrs.read (.pool .eventsMissed)).inc) ∧
        ((s.ctrs.read (.pool .eventsMissed)).crosses = true →
          t.pool.missedEvents = min 255 (s.pool.missedEvents + 2) ∧
          t.ctrs.read (.pool .eventsMissed) = (s.ctrs.read (.pool .eventsMissed)).inc.inc) ∧ SameRest s t)))

/-! The intake unit. -/

/-- LINE_REQUEST that passes the checks of R126, its blocks granted at once, on a line that is neither OFFLINE nor IDLE:
the request joins the tail of its line queue (R53, R54, R128). -/
def Obligations.LineRequestQueued : Prop :=
  ∀ (i : Fin 12) (r : LineRequest) (s : State), s.headRecord = some (.lineRequest r) → r.line = lineByte i →
    (s.line i).txn ≠ .offline → (s.line i).txn ≠ .idle → (s.line i).queue.length < (s.line i).applied.queueDepth →
    1 ≤ r.payload.length → r.payload.length ≤ 255 →
    (∀ n, r.expectLen = some n → 1 ≤ n ∧ n ≤ (s.line i).applied.maxReply) → s.pool.waitList = [] →
    (r.payload.length + 31) / 32 + 16 ≤ s.pool.free → s.pool.slotsUsed + 9 ≤ 256 → s.between →
    Completes .lineRequest s (fun t =>
      t.line i = { s.line i with queue := (s.line i).queue ++
        [{ tag := r.tag, urgent := r.urgent, noReply := r.noReply, suppressRetry := r.suppressRetry,
           expectLen := r.expectLen, payload := r.payload, arrival := s.clock }] } ∧
      t.pool.free = s.pool.free - (r.payload.length + 31) / 32 ∧
      t.pool.held = s.pool.held + (r.payload.length + 31) / 32 ∧ t.pool.reserved = s.pool.reserved ∧
      t.pool.slotsUsed = s.pool.slotsUsed + 1 ∧ Counted [.line i .requestsAccepted] s t ∧ Dispatched r.size s t ∧
      (∀ j, j ≠ i → t.line j = s.line j) ∧ t.polls = s.polls ∧ t.results = s.results ∧ SameLink s t ∧
      SameSettings s t)

/-- The same on an IDLE line with nothing waiting, listen QUIET and blocks for both: the request is taken into hand
with its reservation and sending begins (R4, R6, R7, R57, R58). -/
def Obligations.RequestOnIdleLine : Prop :=
  ∀ (i : Fin 12) (r : LineRequest) (s : State), s.headRecord = some (.lineRequest r) → r.line = lineByte i →
    (s.line i).txn = .idle → (s.line i).listen = .quiet → (s.line i).queue = [] → (s.line i).due = [] →
    1 ≤ (s.line i).applied.queueDepth → 1 ≤ r.payload.length → r.payload.length ≤ 255 →
    (∀ n, r.expectLen = some n → 1 ≤ n ∧ n ≤ (s.line i).applied.maxReply) → s.pool.waitList = [] →
    let blocks := if r.noReply then 1 else (10 + (s.line i).applied.maxReply + 31) / 32
    let x := Txn.start (.request
      { tag := r.tag, urgent := r.urgent, noReply := r.noReply, suppressRetry := r.suppressRetry
        expectLen := r.expectLen, payload := r.payload, arrival := s.clock })
    (r.payload.length + 31) / 32 + blocks + 16 ≤ s.pool.free → s.pool.slotsUsed + 9 ≤ 256 → s.between →
    Completes .lineRequest s (fun t =>
      t.line i = sendingLine (s.line i) { x with reservation := some blocks } r.payload[0]? ∧
      t.pool.free = s.pool.free - (r.payload.length + 31) / 32 - blocks ∧
      t.pool.held = s.pool.held + (r.payload.length + 31) / 32 ∧ t.pool.reserved = s.pool.reserved + blocks ∧
      t.pool.slotsUsed = s.pool.slotsUsed + 1 ∧ t.pool.waitList = [] ∧
      Counted [.line i .requestsAccepted] s t ∧ Dispatched r.size s t ∧ t.intake.holdTimer = s.intake.holdTimer ∧
      (∀ j, j ≠ i → t.line j = s.line j) ∧ t.polls = s.polls ∧ t.results = s.results ∧ SameLink s t ∧ SameSettings s t)

/-- LINE_REQUEST refused at dispatch: the first check of R126 that fails gives the outcome, and the REPLY is built in a
block and slot of its own (R127). -/
def Obligations.LineRequestRefused : Prop :=
  ∀ (r : LineRequest) (s : State), s.headRecord = some (.lineRequest r) → s.pool.waitList = [] →
    1 ≤ s.pool.free → s.pool.slotsUsed + 1 ≤ 256 → s.between →
    let refused := fun (o : TxnOutcome) (cs : List CtrId) t =>
      t.results = s.results ++ [s.stamp (.reply r.tag r.line o 0 none []) r.urgent 1] ∧
      t.pool.free = s.pool.free - 1 ∧ t.pool.held = s.pool.held + 1 ∧ t.pool.reserved = s.pool.reserved ∧
      t.pool.slotsUsed = s.pool.slotsUsed + 1 ∧ Counted cs s t ∧ Dispatched r.size s t ∧ SameTables s t ∧
      SameLink s t
    ((∀ i, r.line ≠ lineByte i) → Completes .lineRequest s (refused .badLine [])) ∧
    (∀ i, r.line = lineByte i →
      let cs := [CtrId.line i .requestsRefused]
      let l := s.line i
      (l.txn = .offline → Completes .lineRequest s (refused .lineOffline cs)) ∧
      (l.txn ≠ .offline → l.applied.queueDepth ≤ l.queue.length →
        Completes .lineRequest s (refused .queueFull cs)) ∧
      (l.txn ≠ .offline → l.queue.length < l.applied.queueDepth →
        r.payload.length = 0 ∨ 255 < r.payload.length ∨
          (∃ n, r.expectLen = some n ∧ (n = 0 ∨ l.applied.maxReply < n)) →
        Completes .lineRequest s (refused .badParam cs)))

/-- A record that cannot be placed stalls dispatch: the unit joins the wait list with the record's allocation, and the
hold timer starts for a payload and for a command but not for a refusal (R131, R132). -/
def Obligations.DispatchStalls : Prop :=
  ∀ s : State, s.between →
    let stalled := fun (st : Stall) (need : Need) (timer : Option Nat) t =>
      t.intake.stall = some st ∧ t.intake.frames = s.intake.frames ∧ t.intake.holdTimer = timer ∧
      t.pool.waitList = s.pool.waitList ++ [{ who := .intake, need := need }] ∧ t.pool.free = s.pool.free ∧
      t.pool.reserved = s.pool.reserved ∧ t.pool.held = s.pool.held ∧ t.pool.slotsUsed = s.pool.slotsUsed ∧
      Counted [.pool .waitSpaceEntries] s t ∧ SameTables s t ∧ SameLink s t ∧ t.results = s.results
    let limit := if s.cfg.holdLimit = 0 then none else some (s.clock + s.cfg.holdLimit)
    (∀ r, s.headRecord = some (.lineRequest r) → s.dispatchRefusal r = none →
      let need : Need := { blocks := (r.payload.length + 31) / 32, slot := true, cls := .line }
      s.pool.waitList ≠ [] ∨ s.pool.passes need = false →
      Completes .lineRequest s (stalled (.payload r) need limit)) ∧
    (∀ r o, s.headRecord = some (.lineRequest r) → s.dispatchRefusal r = some o →
      let need : Need := { blocks := 1, slot := true, cls := .response }
      s.pool.waitList ≠ [] ∨ s.pool.passes need = false →
      Completes .lineRequest s (stalled (.refusal r o) need none)) ∧
    (∀ m, s.headRecord = some (.command m) →
      (commandOf m.code = some .restart → m.params ≠ [0] ∧ m.params ≠ [1]) →
      let need : Need := { blocks := m.blocks, slot := true, cls := .response }
      s.pool.waitList ≠ [] ∨ s.pool.passes need = false →
      Completes (instrOf (commandOf m.code)) s (stalled (.command m) need limit))

/-- MALFORMED_RECORD (R125): BAD_RECORD is raised and counted, and the rest of the frame is discarded with it. With BadRecords
about to cross 32768, that BAD_RECORD goes before that COUNTER_HALF is the model's choice (log 23): shut out. -/
def Obligations.MalformedRecordDiscardsFrame : Prop :=
  ∀ (f : IntakeFrame) (fs : List IntakeFrame) (s : State), s.intake.stall = none → s.intake.frames = f :: fs →
    f.offset < f.payload.length → malformedAt (f.payload.drop f.offset) → s.between →
    Completes .malformedRecord s (fun t =>
      (s.pool.eventsUsed < 16 → (s.ctrs.read (.link .badRecords)).value ≠ 32767 →
        JoinedBehind [s.stamp (.event .badRecord 0 s.pool.missedEvents
        (((0#2 ++ f.seq) ++ 0#8) ++ BitVec.ofNat 16 f.offset)) true 0] s t) ∧
      Counted [.link .badRecords] s t ∧ t.intake.frames = unfinished fs ∧ t.intake.stall = none ∧
      SameTables s t ∧ SamePool s t ∧ SameLink s t ∧ t.results = s.results)

/-- HOLD_TIMER_EXPIRY: a stalled request is refused NO_SPACE, or stalls again for the refusal's space; a stalled
command is dropped (R133 to R135). -/
def Obligations.HoldTimerExpiry : Prop :=
  ∀ (d : Nat) (s : State), s.intake.holdTimer = some d → d ≤ s.clock → s.between →
    let others := s.pool.waitList.filter (fun w => w.who != .intake)
    (∀ w ws, others = w :: ws → s.pool.passes w.need = false) →
    (∀ r, s.intake.stall = some (.payload r) →
      (∀ i, r.line = lineByte i → others = [] → 1 ≤ s.pool.free → s.pool.slotsUsed + 1 ≤ 256 →
        Completes .holdTimerExpiry s (fun t =>
          t.results = s.results ++ [s.stamp (.reply r.tag r.line .noSpace 0 none []) r.urgent 1] ∧
          t.pool.waitList = [] ∧ t.pool.free = s.pool.free - 1 ∧ t.pool.held = s.pool.held + 1 ∧
          t.pool.slotsUsed = s.pool.slotsUsed + 1 ∧ t.intake.holdTimer = none ∧
          Counted [.link .holdTimeouts, .line i .requestsRefused] s t ∧ Dispatched r.size s t ∧ SameTables s t ∧
          SameLink s t)) ∧
      (others ≠ [] →
        Completes .holdTimerExpiry s (fun t =>
          t.intake.stall = some (.refusal r .noSpace) ∧ t.intake.holdTimer = none ∧
          t.intake.frames = s.intake.frames ∧ t.pool.waitList = others ++
            [{ who := .intake, need := { blocks := 1, slot := true, cls := .response } }] ∧
          Counted [.link .holdTimeouts, .pool .waitSpaceEntries] s t ∧ SameTables s t ∧ SameLink s t ∧
          t.results = s.results ∧ t.pool.free = s.pool.free))) ∧
    (∀ m, s.intake.stall = some (.command m) →
      Completes .holdTimerExpiry s (fun t =>
        (s.pool.eventsUsed + 2 ≤ 16 → ∃ n : Nat,
          JoinedBehind [s.stamp (.event .mgmtDropped 0 n ((m.tag ++ m.code) ++ 0#8)) true 0] s t) ∧
        t.pool.waitList = others ∧ t.intake.holdTimer = none ∧ Counted [.link .holdTimeouts] s t ∧
        Dispatched m.size s t ∧ SameTables s t ∧ SameLink s t ∧ t.results = s.results ∧
        t.pool.free = s.pool.free))

/-- The stalled intake unit, alone on the wait list, granted at WAIT_LIST_GRANT or by an acknowledgement within the step of a
CTRL_FRAME: the refusal is built, the payload is placed and joins its line queue, to be sent at once by an IDLE line, or is
refused in its own first block, and a command acts as it would have acted at its dispatch (R54, R57, R97, R127 to R129). That
it acts at the end of the step is the model's choice (log 7). -/
def Obligations.StalledRecordGranted : Prop :=
  ∀ (n : Need) (s : State), s.pool.waitList = [{ who := .intake, need := n }] → s.between →
    -- `cmd` counts `cs`, has `gone` results acknowledged and leaves these counts before the grant
    let acts := fun (cmd : Instr) (cs : List CtrId) (gone free held slots : Nat) (link : State → Prop) =>
      let told := fun (taken placed : Nat) (ds : List CtrId) (rs : List Record) (t : State) =>
        t.pool.waitList = [] ∧ t.pool.free = free - taken ∧ t.pool.held = held + placed ∧
        t.pool.slotsUsed = slots + (if n.slot then 1 else 0) ∧ t.intake.holdTimer = none ∧ SameSettings s t ∧
        t.results = s.results.drop gone ++ rs ∧ Counted (cs ++ ds) s t ∧ t.polls = s.polls ∧ link t
      (∀ r o, s.intake.stall = some (.refusal r o) →
        let refused := fun (ds : List CtrId) t => told n.blocks n.blocks ds
          [s.stamp (.reply r.tag r.line o 0 none []) r.urgent 1] t ∧ Dispatched r.size s t ∧ t.lines = s.lines
        (∀ i, r.line = lineByte i → Completes cmd s (refused [.line i .requestsRefused])) ∧
        ((∀ i, r.line ≠ lineByte i) → Completes cmd s (refused []))) ∧
      (∀ i r, s.intake.stall = some (.payload r) → r.line = lineByte i →
        let l := s.line i
        let lenOk := ∀ k, r.expectLen = some k → 1 ≤ k ∧ k ≤ l.applied.maxReply
        let q : Request := { tag := r.tag, urgent := r.urgent, noReply := r.noReply, suppressRetry := r.suppressRetry,
                             expectLen := r.expectLen, payload := r.payload, arrival := s.clock }
        let accepted := fun (taken : Nat) t => told taken n.blocks [.line i .requestsAccepted] [] t ∧
          Dispatched r.size s t ∧ ∀ j, j ≠ i → t.line j = s.line j
        let refused := fun (o : TxnOutcome) => n.blocks = payloadBlocks r.payload → 1 ≤ r.payload.length →
          Completes cmd s (fun t => told 1 1 [.line i .requestsRefused]
            [s.stamp (.reply r.tag r.line o 0 none []) r.urgent 1] t ∧ Dispatched r.size s t ∧ t.lines = s.lines)
        (¬ lenOk → refused .badParam) ∧
        (lenOk → l.txn = .offline → refused .lineOffline) ∧
        (lenOk → l.txn ≠ .offline → l.applied.queueDepth ≤ l.queue.length → refused .queueFull) ∧
        (lenOk → l.txn ≠ .offline → l.txn ≠ .idle → l.queue.length < l.applied.queueDepth →
          Completes cmd s (fun t => accepted n.blocks t ∧ t.line i = { l with queue := l.queue ++ [q] })) ∧
        (lenOk → l.txn = .idle → l.listen = .quiet → l.queue = [] → l.due = [] → 1 ≤ l.applied.queueDepth →
          let blocks := if r.noReply then 1 else (10 + l.applied.maxReply + 31) / 32
          n.blocks + blocks + 16 ≤ free →
          Completes cmd s (fun t => accepted (n.blocks + blocks) t ∧ t.pool.reserved = s.pool.reserved + blocks ∧
            t.line i = sendingLine l { Txn.start (.request q) with reservation := some blocks } r.payload[0]?))) ∧
      (∀ m : MgmtRequest, s.intake.stall = some (.command m) → m.code = 0x41 → m.params.length ≤ 200 →
        n.blocks = (8 + m.params.length + 31) / 32 →
        Completes cmd s (fun t => told n.blocks n.blocks []
          [s.stamp (.response m.tag m.code .done m.params) true n.blocks] t ∧ Dispatched m.size s t ∧ t.lines = s.lines))
    (s.pool.passes n = true →
      acts .waitListGrant [] 0 s.pool.free s.pool.held s.pool.slotsUsed (SameLink s) ∧
      ∀ m : MgmtRequest, s.intake.stall = some (.command m) →
        let k : Intake := { s.intake with stall := none, holdTimer := none }
        let u := (s.setIntake k).setPool { s.pool with waitList := [] }
        u.headRecord = some (.command m) → n = { blocks := m.blocks, slot := true, cls := .response } →
        (commandOf m.code = some .restart → m.params ≠ [0] ∧ m.params ≠ [1]) →
        exec .waitListGrant s = exec (instrOf (commandOf m.code)) u) ∧
    (∀ b f, frameOf .ctrl b = some f → s.trunk.up = true → f.reject = false →
      (f.ackSeq - s.trunk.peerAck).toNat ≤ (s.trunk.nextSeq - s.trunk.peerAck).toNat →
      (f.ackSeq - s.trunk.peerAck).toNat = 1 → s.trunk.retransmits ≠ [] →
      let blocks := ((s.released f).map Record.blocks).sum
      let gone := ((s.released f).filter (fun r => !r.isEvent)).length
      blocks ≤ s.pool.held →
      Pool.passes { s.pool with free := s.pool.free + blocks, slotsUsed := s.pool.slotsUsed - gone } n = true →
      acts (.ctrlFrame b) [.link .framesReceived] gone (s.pool.free + blocks) (s.pool.held - blocks)
        (s.pool.slotsUsed - gone) (fun t => t.trunk.up = true ∧ t.trunk.peerAck = f.ackSeq))

/-! Management requests. -/

/-- IDENTIFY, LINK_READ, LINE_READ, POLL_READ and ECHO answer DONE with their data and change nothing else (R170, R173,
R177, R181, R184; the layouts of section 11.5). -/
def Obligations.ReadCommandsAnswer : Prop :=
  ∀ (m : MgmtRequest) (s : State), RequestReady m s →
    let done := fun (d : List Byte) t => Answered m .done d s t ∧ Counted [] s t ∧ SameTables s t ∧ SameLink s t
    (m.code = 0x01 → m.params = [] → Completes .identify s
      (done [0x41, 0xD3, 0x04, 0x12, 1, 12, 0x04, 0x00, 32, 128, 0x01, 0x00, 16, 8, 8])) ∧
    (m.code = 0x03 → m.params = [] → Completes .linkRead s (fun t =>
      done (s.cfg.bytes ++ [boolByte s.trunk.up, s.trunk.epoch, 0#2 ++ s.trunk.nextSeq, 0#2 ++ s.trunk.peerAck,
        0#2 ++ s.trunk.expectSeq, natByte s.trunk.peerAllow, natByte s.trunk.retransmits.length] ++
        natHalf (s.pool.free - 2) ++ [boolByte t.pool.hold]) t)) ∧
    (m.code = 0x11 → ∀ i, m.params = [lineByte i] →
      let l := s.line i
      let staged : List Byte := match l.staged with
        | some p => 1 :: p.bytes
        | none => List.replicate 25 0
      let hand : List Byte := match l.hand.map Txn.work with
        | some (.request r) => 1 :: halfBytes r.tag
        | some (.poll id _) => [2, 0, natByte id.val]
        | none => [0, 0, 0]
      Completes .lineRead s (done ([lineByte i] ++ l.applied.bytes ++ staged ++
        [l.txn.code, l.listen.code, natByte l.queue.length, natByte l.due.length] ++ hand ++
        [match l.hand with
          | some x => natByte x.attempts
          | none => 0]))) ∧
    (m.code = 0x22 → ∀ id : Fin 128, m.params = [natByte id.val] →
      (s.poll id = none → Completes .pollRead s (done ([natByte id.val, 0] ++ List.replicate 24 0))) ∧
      (∀ p, s.poll id = some p → p.defn.request.length ≤ 64 →
        let item := fun (o : Option (List Byte)) (len : Nat) => match o with
          | some b => (1 : Byte) :: b
          | none => List.replicate (1 + len) 0
        Completes .pollRead s (done ([natByte id.val, p.state.code, lineByte p.defn.line] ++ natHalf p.defn.period ++
          natHalf p.defn.phase ++ [p.defn.mode.code, natByte p.defn.forceEvery] ++
          item (p.defn.expectLen.map (fun n => [natByte n])) 1 ++ halfBytes p.pollSeq ++
          item (p.lastDigest.map halfBytes) 2 ++ item (p.lastOutcome.map (fun o => [o.code])) 1 ++
          [natByte p.missed, natByte p.suppressed] ++
          item (p.nextDue.map (fun t => wordBytes (BitVec.ofNat 32 (t - s.clock)))) 4 ++
          [natByte p.defn.request.length] ++ p.defn.request)))) ∧
    (m.code = 0x41 → m.params.length ≤ 200 → Completes .echo s (done m.params))

/-- A command of an unknown code, of a wrong length, or with a parameter out of range is answered BAD_COMMAND,
BAD_FORMAT or BAD_PARAM with no data, and has no effect (R84, R167, R168, R171, R174). -/
def Obligations.CommandRefused : Prop :=
  ∀ (m : MgmtRequest) (s : State), RequestReady m s →
    let refused := fun (st : Status) t => Answered m st [] s t ∧ Counted [] s t ∧ SameTables s t ∧ SameLink s t
    ((∀ c : Command, m.code ≠ c.code) → Completes .badCommand s (refused .badCommand)) ∧
    (∀ c : Command, m.code = c.code → lengthWrong c m.params →
      Completes (instrOf (some c)) s (refused .badFormat)) ∧
    (∀ x y : Byte,
      (m.code = 0x11 → m.params = [x] → (∀ i, x ≠ lineByte i) → Completes .lineRead s (refused .badParam)) ∧
      (m.code = 0x12 → m.params = [x, y] → (∀ i, x ≠ lineByte i) → Completes .lineAbort s (refused .badParam)) ∧
      (m.code = 0x21 → m.params = [x] → 128 ≤ x.toNat → Completes .pollClear s (refused .badParam)) ∧
      (m.code = 0x22 → m.params = [x] → 128 ≤ x.toNat → Completes .pollRead s (refused .badParam)) ∧
      (m.code = 0x23 → m.params = [x] → x ≠ 0 → x ≠ 1 → Completes .pollRun s (refused .badParam)) ∧
      (m.code = 0x30 → m.params = [x, y] → x ≠ 0 → x ≠ 1 → (∀ i, x ≠ 0x10 + lineByte i) →
        Completes .counterRead s (refused .badParam)) ∧
      (m.code = 0x40 → m.params = [x] → x ≠ 0 → x ≠ 1 → Completes .restart s (refused .badParam)) ∧
      (∀ as : List Byte, m.code = 0x13 → m.params = x :: y :: as → as.length = y.toNat →
        (∀ i, x ≠ lineByte i) ∨ 8 < y.toNat ∨ ¬ as.Nodup → Completes .knownSet s (refused .badParam))) ∧
    let n := fun k => (byteAt m.params k).toNat
    let h := fun k => (halfAt m.params k).toNat
    (m.code = 0x02 → m.params.length = 16 →
      50 < n 0 ∨ h 1 < 5 ∨ 2000 < h 1 ∨ n 3 = 0 ∨ 15 < n 3 ∨ h 4 < 20 ∨ 5000 < h 4 ∨ h 6 < 10 ∨ 1000 < h 6 ∨ n 8 = 0 ∨
        15 < n 8 ∨ 100 < n 9 ∨ (1 ≤ h 10 ∧ h 10 ≤ 9) ∨ 10000 < h 10 ∨ h 12 < 16 ∨ 512 < h 12 ∨ h 14 < h 12 + 16 ∨
        1008 < h 14 →
      Completes .linkConfig s (refused .badParam)) ∧
    (m.code = 0x10 → m.params.length = 25 →
      (∀ i, byteAt m.params 0 ≠ lineByte i) ∨ 1 < n 1 ∨ 8 < n 2 ∨ h 3 = 0 ∨ 4095 < h 3 ∨ (n 5 ≠ 7 ∧ n 5 ≠ 8) ∨ 2 < n 6 ∨
        (n 7 ≠ 1 ∧ n 7 ≠ 2) ∨ 15 < n 8 ∨ 15 < n 9 ∨ 1 < n 10 ∨ n 11 < 8 ∨ 1 < n 12 ∨ n 14 = 0 ∨ h 15 = 0 ∨ 7 < n 18 ∨
        1 < n 19 ∨ 1 < n 20 ∨ 2 < n 21 ∨ n 22 = 0 ∨ 8 < n 22 →
      Completes .lineConfig s (refused .badParam)) ∧
    (m.code = 0x20 → 10 ≤ m.params.length →
      128 ≤ n 0 ∨ (∀ i, byteAt m.params 1 ≠ lineByte i) ∨ h 2 = 0 ∨ h 2 < h 4 ∨ 2 < n 6 ∨ m.params.length = 10 ∨
        74 < m.params.length ∨ ((byteAt m.params 8).getLsbD 0 = true ∧
          (n 9 = 0 ∨ ∃ i, byteAt m.params 1 = lineByte i ∧ (s.line i).applied.maxReply < n 9)) →
      Completes .pollSet s (refused .badParam))

/-- LINK_CONFIG that passes its checks replaces the whole link configuration at once, and the new marks test PoolHold
(R101, R172). That POOL_LOW takes the event slot and the pending Missed count before a COUNTER_HALF of PoolLowEpisodes, when
that crosses 32768, is the model's choice (log 23). -/
def Obligations.LinkConfigReplaces : Prop :=
  ∀ (m : MgmtRequest) (c : LinkConfig) (s : State), RequestReady m s → m.code = 0x02 → m.params = c.bytes →
    c.inRange = true →
    let before := holdAfter s.pool.hold (s.pool.free - 1) s.cfg.lowMark s.cfg.highMark
    Completes .linkConfig s (fun t => Answered m .done [] s t ∧ t.cfg = c ∧
      t.pool.hold = holdAfter before (s.pool.free - 1) c.lowMark c.highMark ∧ Counted [] s t ∧
      t.lines = s.lines ∧ t.polls = s.polls ∧ t.pollRun = s.pollRun ∧ t.clock = s.clock ∧ SameLink s t ∧
      (s.pool.hold = false → before = false → s.pool.free - 1 < c.lowMark → s.pool.eventsUsed < 16 →
        JoinedBehind [t.stamp (.event .poolLow 0 s.pool.missedEvents
          (BitVec.ofNat 16 (s.pool.free - 1) ++ BitVec.ofNat 16 c.lowMark)) true 0,
          t.stamp (.response m.tag m.code .done []) true 1] s t ∧
        t.ctrs.read (.pool .poolLowEpisodes) = (s.ctrs.read (.pool .poolLowEpisodes)).inc))

/-- LINE_CONFIG that passes its checks (R29, R31, R175): DONE with the profile applied at once on a line that is OFFLINE, or
IDLE with listen QUIET; STAGED otherwise. -/
def Obligations.LineConfigActs : Prop :=
  ∀ (m : MgmtRequest) (i : Fin 12) (p : Profile) (s : State), RequestReady m s → m.code = 0x10 →
    m.params = lineByte i :: p.bytes → p.inRange = true → p.fits →
    let l := s.line i
    let frame := fun (st : Status) t => Answered m st [] s t ∧ Counted [] s t ∧ SameLink s t ∧ SameSettings s t ∧
      t.polls = s.polls ∧ ∀ j, j ≠ i → t.line j = s.line j
    (l.txn ≠ .offline → l.txn ≠ .idle ∨ l.listen ≠ .quiet →
      Completes .lineConfig s (fun t => frame .staged t ∧ t.line i = { l with staged := some p })) ∧
    (l.txn = .offline → p.enabled = false →
      Completes .lineConfig s (fun t => frame .done t ∧ t.line i = { l with applied := p })) ∧
    (l.txn = .offline → p.enabled = true → l.queue = [] → l.due = [] →
      Completes .lineConfig s (fun t => frame .done t ∧ (t.line i).txn = .idle ∧ (t.line i).listen = .quiet ∧
        (t.line i).applied = p ∧ (t.line i).hand = l.hand ∧ (t.line i).queue = [] ∧ (t.line i).due = [] ∧
        (t.line i).known = l.known)) ∧
    (l.txn = .idle → l.listen = .quiet → p.enabled = true → l.queue = [] →
      Completes .lineConfig s (fun t => frame .done t ∧ t.line i = { l with applied := p })) ∧
    (l.txn = .idle → l.listen = .quiet → p.enabled = false → l.queue = [] → l.due = [] →
      Completes .lineConfig s (fun t => frame .done t ∧ (t.line i).txn = .offline ∧ (t.line i).lde = false ∧
        (t.line i).listen = .quiet ∧ (t.line i).applied = p ∧ (t.line i).known = l.known))

/-- KNOWN_SET (R179): a wrong length is BAD_FORMAT, a wrong line, more than 8 addresses or a repeated one BAD_PARAM, each
without effect; a list that passes replaces the line's list whole, in every state of the line. -/
def Obligations.KnownSetReplacesList : Prop :=
  ∀ (m : MgmtRequest) (s : State), RequestReady m s → m.code = 0x13 →
    let refused := fun (st : Status) t => Answered m st [] s t ∧ Counted [] s t ∧ SameTables s t ∧ SameLink s t
    (m.params.length < 2 ∨ m.params.length ≠ 2 + (byteAt m.params 1).toNat →
      Completes .knownSet s (refused .badFormat)) ∧
    ∀ (x y : Byte) (as : List Byte), m.params = x :: y :: as → as.length = y.toNat →
      ((∀ i, x ≠ lineByte i) ∨ 8 < y.toNat ∨ ¬ as.Nodup → Completes .knownSet s (refused .badParam)) ∧
      ∀ i, x = lineByte i → as.length ≤ 8 → as.Nodup →
        Completes .knownSet s (fun t => Answered m .done [] s t ∧ t.line i = { s.line i with known := as } ∧
          (∀ j, j ≠ i → t.line j = s.line j) ∧ t.polls = s.polls ∧ Counted [] s t ∧ SameLink s t ∧
          SameSettings s t)

/-- POLL_SET that passes its checks acts on the entry's state (R84, R85). -/
def Obligations.PollSetActs : Prop :=
  ∀ (m : MgmtRequest) (id : Fin 128) (d : PollDef) (s : State), RequestReady m s → m.code = 0x20 →
    m.params = pollSetParams id d → d.ok (s.line d.line).applied.maxReply →
    let active := s.pollRun && s.trunk.up
    let frame := fun (st : Status) t => Answered m st [] s t ∧ Counted [] s t ∧ SameLink s t ∧ SameSettings s t ∧
      ∀ k, k ≠ id → t.poll k = s.poll k
    (∀ p, s.poll id = some p → p.state = .inFlight ∨ p.state = .retiring →
      Completes .pollSet s (fun t => frame .busy t ∧ t.poll id = some p ∧ t.lines = s.lines)) ∧
    ((∀ p, s.poll id = some p → p.state = .waiting) →
      (active = false ∨ d.phase ≠ 0 → Completes .pollSet s (fun t => frame .done t ∧ t.lines = s.lines ∧
        t.poll id = some (freshPoll d .waiting (if active then some (s.clock + d.phase * 10) else none)))) ∧
      (active = true → d.phase = 0 → (s.line d.line).txn = .offline →
        Completes .pollSet s (fun t => frame .done t ∧ t.lines = s.lines ∧
          t.poll id = some (freshPoll d .waiting (some (s.clock + d.period * 10))))) ∧
      (active = true → d.phase = 0 → (s.line d.line).txn ≠ .offline → (s.line d.line).txn ≠ .idle →
        Completes .pollSet s (fun t => frame .done t ∧
          t.poll id = some (freshPoll d .due (some (s.clock + d.period * 10))) ∧
          t.line d.line = { s.line d.line with
            due := dueInsert { poll := id, time := s.clock } (s.line d.line).due } ∧
          ∀ j, j ≠ d.line → t.line j = s.line j))) ∧
    (∀ p, s.poll id = some p → p.state = .due → active = false ∨ d.phase ≠ 0 →
      Completes .pollSet s (fun t => frame .done t ∧
        t.poll id = some (freshPoll d .waiting (if active then some (s.clock + d.phase * 10) else none)) ∧
        t.line p.defn.line = { s.line p.defn.line with
          due := (s.line p.defn.line).due.filter (fun e => e.poll != id) } ∧
        ∀ j, j ≠ p.defn.line → t.line j = s.line j))

/-- POLL_CLEAR (R86): a PollId not in 0..127 is BAD_PARAM; otherwise it acts on the entry's state. -/
def Obligations.PollClearActs : Prop :=
  ∀ (m : MgmtRequest) (s : State), RequestReady m s → m.code = 0x21 →
    (∀ x : Byte, m.params = [x] → 128 ≤ x.toNat →
      Completes .pollClear s (fun t => Answered m .badParam [] s t ∧ Counted [] s t ∧ SameTables s t ∧
        SameLink s t)) ∧
    ∀ id : Fin 128, m.params = [natByte id.val] →
      let frame := fun (st : Status) t => Answered m st [] s t ∧ Counted [] s t ∧ SameLink s t ∧ SameSettings s t ∧
        ∀ k, k ≠ id → t.poll k = s.poll k
      (s.poll id = none → Completes .pollClear s (fun t => frame .noEntry t ∧ t.poll id = none ∧ t.lines = s.lines)) ∧
      ∀ p, s.poll id = some p →
        (p.state = .waiting → Completes .pollClear s (fun t => frame .done t ∧ t.poll id = none ∧ t.lines = s.lines)) ∧
        (p.state = .due → Completes .pollClear s (fun t => frame .done t ∧ t.poll id = none ∧
          t.line p.defn.line = { s.line p.defn.line with
            due := (s.line p.defn.line).due.filter (fun e => e.poll != id) } ∧
          ∀ j, j ≠ p.defn.line → t.line j = s.line j)) ∧
        (p.state = .inFlight ∨ p.state = .retiring → Completes .pollClear s (fun t => frame .staged t ∧
          t.poll id = some { p with state := .retiring } ∧ t.lines = s.lines))

/-- POLL_RUN sets PollRun; a change while the link is UP starts or ends polling (R68 to R70, R182). -/
def Obligations.PollRunSets : Prop :=
  ∀ (m : MgmtRequest) (b : Bool) (s : State), RequestReady m s → m.code = 0x23 → m.params = [boolByte b] →
    let frame := fun t => Answered m .done [] s t ∧ t.pollRun = b ∧ Counted [] s t ∧ SameLink s t ∧ t.cfg = s.cfg ∧
      t.clock = s.clock
    (s.pollRun = b ∨ s.trunk.up = false →
      Completes .pollRun s (fun t => frame t ∧ t.lines = s.lines ∧ t.polls = s.polls)) ∧
    (s.trunk.up = true → b = false → s.pollRun = true →
      Completes .pollRun s (fun t => frame t ∧ (∀ i, t.line i = { s.line i with due := [] }) ∧
        ∀ id, t.poll id = (s.poll id).map (fun p =>
          { p with state := if p.state = .due then .waiting else p.state, nextDue := none }))) ∧
    (s.trunk.up = true → b = true → s.pollRun = false →
      (∀ id p, s.poll id = some p → p.state ≠ .due ∧ p.defn.phase ≠ 0) →
      Completes .pollRun s (fun t => frame t ∧ t.lines = s.lines ∧
        ∀ id, t.poll id = (s.poll id).map (fun p => { p with nextDue := some (s.clock + p.defn.phase * 10) }))) ∧
    (s.trunk.up = true → b = true → s.pollRun = false →
      Completes .pollRun s (fun t => t.pollRun = true ∧ Activated s t ∧
        t.results = s.results ++ [t.stamp (.response m.tag m.code .done []) true 1]))

/-- COUNTER_READ answers the set id, the values and the half-range flags as they stand; with Clear it sets them to 0 and
rearms the flags, and for POOL MinFree takes FreeCount (R102, R183, R194). -/
def Obligations.CounterReadClears : Prop :=
  ∀ (m : MgmtRequest) (y : Byte) (s : State), RequestReady m s → m.code = 0x30 →
    let data := fun (id : Byte) (cs : List Counter) => [id] ++ counterValues cs ++ natHalf (halfFlags cs)
    let kept := fun t => SameTables s t ∧ SameLink s t
    (m.params = [0, y] →
      Completes .counterRead s (fun t => Answered m .done (data 0 s.ctrs.link.toList) s t ∧ kept t ∧
        (y.getLsbD 0 = false → Counted [] s t) ∧
        (y.getLsbD 0 = true → s.trunk.tx.isSome = true → (∀ c, t.ctrs.read (.link c) = Counter.zero) ∧
          ∀ i c, t.ctrs.read (.line i c) = s.ctrs.read (.line i c)))) ∧
    (∀ i, m.params = [0x10 + lineByte i, y] →
      Completes .counterRead s (fun t =>
        Answered m .done (data (0x10 + lineByte i) (s.ctrs.line.get i).toList) s t ∧ kept t ∧
        (y.getLsbD 0 = false → Counted [] s t) ∧
        (y.getLsbD 0 = true → (∀ c, t.ctrs.read (.line i c) = Counter.zero) ∧
          ∀ j c, j ≠ i → t.ctrs.read (.line j c) = s.ctrs.read (.line j c)))) ∧
    (m.params = [1, y] → s.pool.hold = false → s.cfg.lowMark + 2 ≤ s.pool.free →
      Completes .counterRead s (fun t =>
        Answered m .done ([1] ++ counterValues s.ctrs.pool.toList ++
          natHalf (min s.pool.minFree (s.pool.free - 2)) ++ natHalf (halfFlags s.ctrs.pool.toList)) s t ∧ kept t ∧
        (y.getLsbD 0 = false → Counted [] s t ∧ t.pool.minFree = min s.pool.minFree (s.pool.free - 2)) ∧
        (y.getLsbD 0 = true → t.pool.minFree = s.pool.free - 2 ∧
          (s.trunk.tx.isSome = true → ∀ c, t.ctrs.read (.pool c) = Counter.zero))))

/-- LINE_ABORT (R26 to R28), with Flush or without, whatever unsolicited frame the line is receiving: that frame is discarded;
nothing in hand; a request or a poll completed ABORTED from its reservation, then GUARD, its time above 0; a character in progress finished
first; a retry pending in GUARD; and, dispatched by a grant, a transaction in WAIT_SPACE, which leaves the wait list (R98). That
the transaction's record and its blocks come before what the frame gives up, and the Attempts of a request aborted in READY,
are the model's reading (log 10, log 22). -/
def Obligations.LineAbortActs : Prop :=
  ∀ (m : MgmtRequest) (i : Fin 12) (y : Byte) (cs : List CtrId) (back filled slots : Nat) (frame : Option Unsolicited)
    (s : State), m.code = 0x12 → m.params = [lineByte i, y] → FrameDiscarded i cs back filled slots frame s →
    let l := s.line i
    let flushed := if y.getLsbD 0 then l.queue else []
    let queue := if y.getLsbD 0 then [] else l.queue
    -- the records `rs`, those of the requests flushed, the response `d`; the counters; what stands
    let told := fun (rs : List Record) (d : List Byte) (ks : List CtrId) t =>
      t.results = s.results ++ rs ++ refusals i .flushed flushed s ++
        [t.stamp (.response m.tag m.code .done (d ++ [natByte flushed.length])) true 1] ∧
      CountedTimes flushed.length (.line i .requestsRefused) (ks ++ cs) s t ∧ Dispatched m.size s t ∧ SameLink s t ∧
      SameSettings s t ∧ t.pool.waitList = [] ∧ ∀ j, j ≠ i → t.line j = s.line j
    let inGuard := fun (x : Txn) (t : State) => (t.line i).txn = .guard ∧ (t.line i).lde = false ∧
      (t.line i).hand = none ∧ (t.line i).charOut = none ∧ (t.line i).window = none ∧
      (t.line i).guardEnd = some (s.clock + l.applied.guardTime) ∧
      (t.line i).lateMark = (if x.noReplyLast then some x.work.lateTag else none) ∧ (t.line i).queue = queue ∧
      (t.line i).due = l.due ∧ (l.txn = .ready → (t.line i).listen = l.listen ∧ (t.line i).unsolicited = frame)
    (RequestReady m s →
      -- `n` blocks of a reservation, `data` of them filled, and `payload` go back to the pool with the frame's; `kept` stay held
      let books := fun (data payload n kept : Nat) t =>
        data ≤ n → filled ≤ back → n + back - (data + filled) ≤ s.pool.reserved →
        data + filled + payload + queueBlocks flushed ≤ s.pool.held →
        t.pool.free + kept + 1 = s.pool.free + n + back + payload + spareBlocks flushed ∧
        t.pool.reserved = s.pool.reserved - (n + back - (data + filled)) ∧
        t.pool.held + data + filled + payload + spareBlocks flushed = s.pool.held + kept + 1
      let ends := l.applied.guardTime ≠ 0 ∧ (l.txn = .ready ∨ l.txn = .turnaround ∨ l.txn = .awaiting ∨
        l.txn = .receiving ∨ (l.txn = .sending ∧ l.charOut = none ∧ ∀ x, l.hand = some x →
          x.abortPending = false ∧ x.echoFailed = false))
      (l.hand = none →
        Completes .lineAbort s (fun t => told [] [0, 0, 0] [] t ∧
          t.line i = { l with queue := queue, unsolicited := frame } ∧
          t.polls = s.polls ∧ t.pool.slotsUsed = s.pool.slotsUsed + 1 - slots ∧ books 0 0 0 0 t)) ∧
      (∀ x c, l.hand = some x → l.txn = .sending → l.charOut = some c → x.abortPending = false → x.echoFailed = false →
        Completes .lineAbort s (fun t => told [] (workReport (some x)) [] t ∧ t.polls = s.polls ∧
          t.pool.slotsUsed = s.pool.slotsUsed + 1 - slots ∧ books 0 0 0 0 t ∧
          t.line i = { l with hand := some { x with abortPending := true }, queue := queue, unsolicited := frame })) ∧
      (∀ x r, l.hand = some x → x.work = .request r →
        let aborted := fun t =>
          told [s.stamp (.reply r.tag (lineByte i) .aborted x.attempts none []) r.urgent 1] ([1] ++ halfBytes r.tag)
            [.line i .aborted] t ∧
          t.polls = s.polls ∧ t.pool.slotsUsed = s.pool.slotsUsed + 1 - slots ∧
          ∀ n, x.reservation = some n → 1 ≤ n →
            books (filledBlocks 10 x.reply.kept.length) (payloadBlocks r.payload) n 1 t
        (ends → Completes .lineAbort s (fun t => aborted t ∧ inGuard x t)) ∧
        (l.txn = .guard → Completes .lineAbort s (fun t => aborted t ∧
          t.line i = { l with hand := none, queue := queue, unsolicited := frame }))) ∧
      (∀ x id k p, l.hand = some x → x.work = .poll id k → s.poll id = some p → p.defn.line = i →
        let aborted := fun (t : State) =>
          (∀ q, q ≠ id → t.poll q = s.poll q) ∧
          (p.state ≠ .retiring →
            told [s.stamp (.pollResult id i p.pollSeq .aborted p.missed false none []) false 1] [2, 0, natByte id.val]
              [.line i .aborted] t ∧
            t.poll id = some { p with state := .waiting, lastOutcome := some .aborted, missed := 0, suppressed := 0 } ∧
            t.pool.slotsUsed = s.pool.slotsUsed + 1 - slots ∧
            ∀ n, x.reservation = some n → 1 ≤ n → books (filledBlocks 11 x.reply.kept.length) 0 n 1 t) ∧
          (p.state = .retiring →
            told [] [2, 0, natByte id.val] [.line i .aborted] t ∧ t.poll id = none ∧
            t.pool.slotsUsed = s.pool.slotsUsed - slots ∧
            ∀ n, x.reservation = some n → 1 ≤ n → books (filledBlocks 11 x.reply.kept.length) 0 n 0 t)
        (ends → Completes .lineAbort s (fun t => aborted t ∧ inGuard x t)) ∧
        (l.txn = .guard → Completes .lineAbort s (fun t => aborted t ∧
          t.line i = { l with hand := none, queue := queue, unsolicited := frame })))) ∧
    ∀ k x, s.between → s.intake.stall = some (.command m) →
      s.pool.waitList = [{ who := .intake, need := { blocks := 1, slot := true, cls := .response } },
        { who := .line i, need := k }] →
      1 ≤ s.pool.free → s.pool.slotsUsed + 1 ≤ 256 →
      Pool.passes { s.pool with free := s.pool.free - 1, slotsUsed := s.pool.slotsUsed + 1 } k = false →
      l.txn = .waitSpace → l.hand = some x → x.reservation = none →
      queue = [] → l.due = [] → l.listen ≠ .quiet ∨ l.staged = none →
      -- `n` blocks and the frame's go back to the pool, `payload` of them from those held
      let books := fun (payload n : Nat) t =>
        filled ≤ back → back - filled ≤ s.pool.reserved → filled + payload + queueBlocks flushed ≤ s.pool.held →
        t.pool.free + 2 = s.pool.free + n + back + spareBlocks flushed ∧
        t.pool.reserved = s.pool.reserved - (back - filled)
      let idle := fun (t : State) =>
        t.line i = { l with txn := .idle, lde := false, hand := none, queue := [], unsolicited := frame }
      (∀ r, x.work = .request r → 1 ≤ r.payload.length →
        Completes .waitListGrant s (fun t =>
          told [s.stamp (.reply r.tag (lineByte i) .aborted 0 none []) r.urgent 1] ([1] ++ halfBytes r.tag)
            [.line i .aborted] t ∧ idle t ∧ t.polls = s.polls ∧ t.pool.slotsUsed = s.pool.slotsUsed + 1 - slots ∧
          books (payloadBlocks r.payload) (payloadBlocks r.payload) t)) ∧
      (∀ id q p, x.work = .poll id q → s.poll id = some p → p.defn.line = i →
        let polled := fun rs (t : State) => told rs [2, 0, natByte id.val] [.line i .aborted] t ∧ idle t ∧
          ∀ d, d ≠ id → t.poll d = s.poll d
        (p.state ≠ .retiring → 2 ≤ s.pool.free → s.pool.slotsUsed + 2 ≤ 256 →
          Completes .waitListGrant s (fun t =>
            polled [s.stamp (.pollResult id i p.pollSeq .aborted p.missed false none []) false 1] t ∧
            t.poll id = some { p with state := .waiting, lastOutcome := some .aborted, missed := 0, suppressed := 0 } ∧
            t.pool.slotsUsed = s.pool.slotsUsed + 2 - slots ∧ books 0 0 t)) ∧
        (p.state ≠ .retiring → s.pool.free = 1 ∨ s.pool.slotsUsed = 255 →
          Completes .waitListGrant s (fun t => polled [] t ∧
            t.poll id = some
              { p with state := .waiting, lastOutcome := some .aborted, missed := min 255 (p.missed + 1) } ∧
            t.pool.slotsUsed = s.pool.slotsUsed + 1 - slots ∧ books 0 1 t)) ∧
        (p.state = .retiring →
          Completes .waitListGrant s (fun t => polled [] t ∧ t.poll id = none ∧
            t.pool.slotsUsed = s.pool.slotsUsed + 1 - slots ∧ books 0 1 t)))

/-- RESTART with its one-byte flag is a warm restart of the whole part, with one record, and no response (R185, R186, the
table of section 9.6). -/
def Obligations.WarmRestart : Prop :=
  ∀ (m : MgmtRequest) (keep : Bool) (s : State), s.headRecord = some (.command m) → m.code = 0x40 →
    m.params = [boolByte keep] →
    Completes .restart s (fun t =>
      t.clock = s.clock ∧ t.trunk.up = false ∧ t.trunk.linkUpPin = false ∧
      t.trunk.epoch = (if s.trunk.epoch = 255 then 1 else s.trunk.epoch + 1) ∧ t.trunk.cause = .warmRestart ∧
      t.trunk.lastAccepted = none ∧ t.trunk.upBefore = false ∧ t.trunk.nextSeq = 0 ∧ t.trunk.peerAck = 0 ∧
      t.trunk.expectSeq = 0 ∧ t.trunk.peerAllow = 0 ∧ t.trunk.expiries = 0 ∧ t.trunk.goBack = false ∧
      t.trunk.retransmits = [] ∧ t.trunk.rejectSent = false ∧ t.trunk.syncAckPending = none ∧
      t.trunk.syncTimer = some (s.clock + 100) ∧ t.trunk.silenceTimer = none ∧ t.trunk.keepaliveTimer = none ∧
      t.trunk.retransmitTimer = none ∧ t.trunk.ackDelayTimer = none ∧
      (if s.trunk.tx.isSome then t.trunk.syncPending = true ∧ t.trunk.tx = s.trunk.tx
       else SyncSent .sync t.trunk.epoch 0 t) ∧
      t.cfg = LinkConfig.default ∧ t.pool.free = 1024 ∧ t.pool.reserved = 0 ∧ t.pool.held = 0 ∧
      t.pool.slotsUsed = 0 ∧ t.pool.eventsUsed = 1 ∧ t.pool.waitList = [] ∧ t.pool.hold = false ∧
      t.pool.minFree = 1024 ∧ t.pool.missedEvents = 0 ∧
      t.uplink = [t.stamp (.event .warmRestart 0 0 (boolByte keep ++ 0#24)) true 0] ∧
      t.intake.frames = [] ∧ t.intake.stall = none ∧ t.intake.holdTimer = none ∧ t.pollRun = false ∧
      (∀ c, c ≠ .link .framesSent → t.ctrs.read c = Counter.zero) ∧
      (keep = false → (∀ i, t.line i = Line.reset) ∧ ∀ id, t.poll id = none) ∧
      (keep = true →
        (∀ i, t.line i = { Line.reset with
          applied := ((s.line i).staged).getD (s.line i).applied, known := (s.line i).known,
          txn := if (((s.line i).staged).getD (s.line i).applied).enabled then .idle else .offline }) ∧
        (∀ id p, s.poll id = some p → t.poll id =
          if p.state = .retiring then none else some (freshPoll p.defn .waiting none)) ∧
        ∀ id, s.poll id = none → t.poll id = none) ∧
      t.pending = s.pending)

/-- The parameters of LINK_CONFIG, LINE_CONFIG and POLL_SET are read back as they are written: no field is dropped or
misplaced (section 11.5). -/
def Obligations.ConfigurationBytesRoundTrip : Prop :=
  (∀ c : LinkConfig, c.inRange = true → c.bytes.length = 16 ∧ LinkConfig.ofBytes c.bytes = c) ∧
  (∀ p : Profile, p.inRange = true → p.fits → p.bytes.length = 24 ∧ checkedProfile p.bytes = some p) ∧
  (∀ (id : Fin 128) (d : PollDef) (limit : Nat), d.ok limit →
    (pollSetParams id d).length = 10 + d.request.length ∧ PollDef.ofBytes (pollSetParams id d) = some d)

/-! The field lines. -/

/-- NEXTDUE_REACHED (R72 to R75): an entry falls due, is skipped, or counts an overrun, and NextDue moves on by one period;
on an IDLE line with nothing else to send it is selected at once. -/
def Obligations.NextDueReached : Prop :=
  ∀ (id : Fin 128) (p : Poll) (d : Nat) (s : State), s.poll id = some p → p.nextDue = some d → d ≤ s.clock →
    s.pollRun = true → s.trunk.up = true → s.between →
    let i := p.defn.line
    let l := s.line i
    let moved := some (d + p.defn.period * 10)
    let frame := fun t => SameSettings s t ∧ SameLink s t ∧ t.intake = s.intake ∧ t.results = s.results ∧
      Counted [] s t ∧ (∀ k, k ≠ id → t.poll k = s.poll k) ∧ ∀ j, j ≠ i → t.line j = s.line j
    (p.state = .waiting → l.txn = .offline →
      Completes (.nextDueReached id) s (fun t => frame t ∧ SamePool s t ∧ t.line i = l ∧
        t.poll id = some { p with nextDue := moved })) ∧
    (p.state = .waiting → l.txn ≠ .offline → l.txn ≠ .idle →
      Completes (.nextDueReached id) s (fun t => frame t ∧ SamePool s t ∧
        t.line i = { l with due := dueInsert { poll := id, time := d } l.due } ∧
        t.poll id = some { p with state := .due, nextDue := moved })) ∧
    (p.state = .waiting → l.txn = .idle → l.queue = [] → l.due = [] → s.pool.waitList = [] →
      Config.blocksFor (11 + l.applied.maxReply) + 16 ≤ s.pool.free → s.pool.slotsUsed + 9 ≤ 256 →
      Completes (.nextDueReached id) s (fun t => frame t ∧
        t.poll id = some { p with state := .inFlight, pollSeq := p.pollSeq + 1, nextDue := moved } ∧
        t.pool.free = s.pool.free - Config.blocksFor (11 + l.applied.maxReply) ∧
        t.pool.reserved = s.pool.reserved + Config.blocksFor (11 + l.applied.maxReply) ∧
        t.pool.slotsUsed = s.pool.slotsUsed + 1 ∧ t.pool.waitList = [] ∧
        let x : Txn := { Txn.start (.poll id p.missed) with
          reservation := some (Config.blocksFor (11 + l.applied.maxReply)) }
        t.line i = if l.listen = .quiet then sendingLine l x p.defn.request[0]?
          else { l with txn := .ready, lde := false, hand := some x })) ∧
    (p.state ≠ .waiting →
      Completes (.nextDueReached id) s (fun t => frame t ∧ SamePool s t ∧ t.line i = l ∧
        t.poll id = some { p with missed := min 255 (p.missed + 1), nextDue := moved }))

/-- DELEAD_END starts the first character (R36); DEHOLD_END opens the reply window, completes a NoReply request, or in
SENDING only ends the count (R8, R37). -/
def Obligations.DriverCountEnds : Prop :=
  ∀ (i : Fin 12) (x : Txn) (s : State), (s.line i).hand = some x → s.between →
    let l := s.line i
    (∀ b bs, l.txn = .sending → l.deLead.isSome = true → l.sent = 0 → s.workBytes x.work = b :: bs →
      Completes (.deleadEnd i) s (fun t => LineMoves i s t ∧
        t.line i = { l with deLead := none, charOut := some (l.applied.onLine b) })) ∧
    (l.txn = .turnaround → l.deHold.isSome = true → x.work.noReply = false →
      Completes (.deholdEnd i) s (fun t => LineMoves i s t ∧
        t.line i = { l with
          txn := .awaiting, lde := false, deHold := none
          window := some (s.clock + l.applied.replyTimeout) })) ∧
    (∀ r, l.txn = .turnaround → l.deHold.isSome = true → x.work = .request r → r.noReply = true →
      x.reply = Assembly.empty →
      Completes (.deholdEnd i) s
        (CompletedTo i { x with attempts := 1 } x.reply r .ok [.line i .txnOk] [] s)) ∧
    (l.txn = .sending → l.deHold.isSome = true →
      Completes (.deholdEnd i) s (fun t => LineMoves i s t ∧ t.line i = { l with deHold := none }))

/-- CHARACTER_SENT (R7, R26, R37, R38, R44): the next character follows at once; after the last one TURNAROUND, which a
DeHold of 0 ends at once and a start bit already taken turns into an early answer; an abort pending and an echo failure
complete. -/
def Obligations.CharacterSent : Prop :=
  ∀ (i : Fin 12) (x : Txn) (c : Byte) (s : State), (s.line i).txn = .sending → (s.line i).hand = some x →
    (s.line i).charOut = some c → s.between →
    let l := s.line i
    let bytes := s.workBytes x.work
    let last := x.abortPending = false ∧ x.echoFailed = false ∧ bytes.length ≤ l.sent + 1
    let matched := l.applied.echoCheck = true → l.sent + 1 ≤ l.echoed
    (x.abortPending = false → x.echoFailed = false → l.sent + 1 < bytes.length →
      Completes (.characterSent i) s (fun t => LineMoves i s t ∧
        t.line i = { l with
          deLead := none, sent := l.sent + 1, charOut := (bytes[l.sent + 1]?).map l.applied.onLine })) ∧
    (last → l.applied.echoCheck = true → l.echoed < l.sent + 1 →
      Completes (.characterSent i) s (fun t => LineMoves i s t ∧
        t.line i = { l with
          sent := l.sent + 1, charOut := none
          deHold := if l.applied.deHold = 0 then none else some l.applied.deHold })) ∧
    (last → matched → l.rxBusy = false → l.applied.deHold ≠ 0 →
      Completes (.characterSent i) s (fun t => LineMoves i s t ∧
        t.line i = { l with
          txn := .turnaround, lde := true, sent := l.sent + 1, charOut := none
          deHold := some l.applied.deHold })) ∧
    (last → matched → l.rxBusy = false → l.applied.deHold = 0 → x.work.noReply = false →
      Completes (.characterSent i) s (fun t => LineMoves i s t ∧
        t.line i = { l with
          txn := .awaiting, lde := false, sent := l.sent + 1, charOut := none, deHold := none
          window := some (s.clock + l.applied.replyTimeout) })) ∧
    (last → matched → l.rxBusy = true → x.work.noReply = false →
      Completes (.characterSent i) s (fun t => LineMoves i s t ∧
        t.line i = { l with
          txn := .receiving, lde := false, sent := l.sent + 1, charOut := none, deHold := none
          hand := some { x with windowLeft := l.applied.replyTimeout, reply := Assembly.empty } })) ∧
    (∀ r, last → matched → l.rxBusy = true ∨ l.applied.deHold = 0 → x.work = .request r → r.noReply = true →
      x.reply = Assembly.empty →
      Completes (.characterSent i) s
        (CompletedTo i { x with attempts := 1 } x.reply r .ok [.line i .txnOk] [] s)) ∧
    (∀ r, x.work = .request r → x.abortPending = true →
      Completes (.characterSent i) s (CompletedTo i x x.reply r .aborted [.line i .aborted] [] s)) ∧
    (∀ r, x.work = .request r → x.abortPending = false → x.echoFailed = true →
      Completes (.characterSent i) s (CompletedTo i x x.reply r .collision [.line i .collisions] [] s))

/-- ECHO_DEADLINE (R44, R45): an echo that has not come stops sending after the character in progress, or completes
COLLISION at once; an abort or a failure already pending stands. -/
def Obligations.EchoDeadline : Prop :=
  ∀ (i : Fin 12) (x : Txn) (s : State), (s.line i).txn = .sending → (s.line i).hand = some x →
    (s.line i).applied.echoCheck = true → (s.line i).echoed < (s.line i).sent → s.between →
    let l := s.line i
    (∀ c, l.charOut = some c → x.abortPending = false → x.echoFailed = false →
      Completes (.echoDeadline i) s (fun t => LineMoves i s t ∧
        t.line i = { l with hand := some { x with echoFailed := true } })) ∧
    (x.abortPending = true ∨ x.echoFailed = true →
      Completes (.echoDeadline i) s (fun t => LineMoves i s t ∧ t.line i = l)) ∧
    (∀ r, l.charOut = none → x.abortPending = false → x.echoFailed = false → x.work = .request r →
      Completes (.echoDeadline i) s (CompletedTo i x x.reply r .collision [.line i .collisions] [] s))

/-- START_BIT by the state of the line (R2, R9, R11, R21, R24, R38, R46). -/
def Obligations.StartBit : Prop :=
  ∀ (i : Fin 12) (s : State), (s.line i).rxBusy = false → (s.line i).brk = false → s.between →
    let l := s.line i
    let quiet := l.txn = .idle ∨ l.txn = .waitSpace ∨ l.txn = .ready ∨ l.txn = .guard
    let moves := fun (m : Line) => Completes (.startBit i) s (fun t => LineMoves i s t ∧ t.line i = m)
    (quiet → l.listen ≠ .listening →
      moves { l with
        listen := .listening, rxBusy := true, edgeListen := l.listen, gap := none, awaitMark := false
        postBreak := none
        unsolicited := some { mode := .undecided, frame := Assembly.empty,
                              late := if l.txn = .guard then l.lateMark else none } }) ∧
    (quiet → l.listen = .listening →
      moves { l with rxBusy := true, edgeListen := .listening, gap := none, awaitMark := false }) ∧
    (∀ x w, l.txn = .awaiting → l.hand = some x → l.window = some w →
      moves { l with
        txn := .receiving, lde := false, rxBusy := true, window := none
        hand := some { x with windowLeft := w - s.clock, reply := Assembly.empty } }) ∧
    (l.txn = .receiving → moves { l with rxBusy := true, gap := none, awaitMark := false }) ∧
    (∀ x, l.txn = .turnaround → l.hand = some x → x.work.noReply = false →
      moves { l with
        txn := .receiving, lde := false, rxBusy := true, deHold := none
        hand := some { x with windowLeft := l.applied.replyTimeout, reply := Assembly.empty } }) ∧
    (∀ x r, l.txn = .turnaround → l.hand = some x → x.work = .request r → r.noReply = true →
      x.reply = Assembly.empty →
      Completes (.startBit i) s (fun t => CompletedTo i { x with attempts := 1 } x.reply r .ok [.line i .txnOk] [] s t ∧
        (l.applied.guardTime ≠ 0 → s.unserved (x.reservation.getD 0 - 1 + payloadBlocks r.payload) 0 →
          (t.line i).listen = .listening ∧ (t.line i).unsolicited =
          some { mode := .undecided, frame := Assembly.empty, late := none }))) ∧
    (l.txn = .sending → l.applied.echoCheck = true → moves { l with rxBusy := true }) ∧
    (l.txn = .offline ∨ (l.txn = .sending ∧ l.applied.echoCheck = false) →
      Completes (.startBit i) s (fun t => t = s))

/-- CHARACTER_COMPLETE (R8, R12, R21 to R24, R35, R37, R38, R40, R43, R44, R46, R48, R49): what a character is, and what it
does in a reply, in an unsolicited frame and as an echo, the last good one entering TURNAROUND, which ends at once when the
DeHold count is over; none is received on a line the receiver does not examine. -/
def Obligations.CharacterComplete : Prop :=
  ∀ (i : Fin 12) (data : Byte) (parity stop : Bool) (s : State), (s.line i).rxBusy = true → s.between →
    let l := s.line i
    let p := l.applied
    let c := rxChar p data parity stop
    let v := if p.dataBits = 7 then data &&& 0x7F else data
    let ones := ((List.range 8).filter (fun k => v.getLsbD k)).length + (if p.parityBit data then 1 else 0)
    let gap := fun (m : Line) => { m with
      gap := if c.atMark then some p.gapTime else none, awaitMark := !c.atMark, rxBusy := false }
    let cmd : Instr := .characterComplete i data parity stop
    let books := fun t => SameOutside i s t ∧ t.polls = s.polls ∧ SameLink s t ∧ t.results = s.results ∧
      t.pool.total = s.pool.total ∧ t.pool.waitList = s.pool.waitList
    -- the character
    (c.value = v ∧ (p.parity = .even → ones % 2 = 0) ∧ (p.parity = .odd → ones % 2 = 1) ∧
      c.framingError = !stop ∧ (c.parityError = true ↔ p.parity ≠ .none ∧ parity ≠ p.parityBit data) ∧
      (stop = true → c.atMark = true)) ∧
    (∀ a : Assembly, let b := a.take p.maxReply c
      b.kept = (if a.kept.length < p.maxReply then a.kept ++ [v] else a.kept) ∧ b.count = a.count + 1 ∧
      b.overlong = (a.overlong || decide (p.maxReply ≤ a.kept.length)) ∧
      b.errorAt = if a.kept.length < p.maxReply ∧ a.errorAt = none ∧ c.bad = true then some a.kept.length
        else a.errorAt) ∧
    -- a reply goes on
    (∀ x, l.txn = .receiving → l.hand = some x →
      let a := x.reply.take p.maxReply c
      let n := filledBlocks x.work.header a.kept.length - filledBlocks x.work.header x.reply.kept.length
      (∀ e, s.workExpect x.work = some e → x.reply.count + 1 < e) →
      p.termChar = false ∨ c.bad = true ∨ c.value ≠ p.onLine p.termValue →
      Completes cmd s (fun t => books t ∧ Counted [] s t ∧ t.pool.free = s.pool.free ∧
        t.pool.slotsUsed = s.pool.slotsUsed ∧ (n ≤ s.pool.reserved → t.pool.held = s.pool.held + n) ∧
        t.line i = gap { l with hand := some { x with reply := a } })) ∧
    -- a reply ends at its expected length or its terminator
    (∀ x r, l.txn = .receiving → l.hand = some x → x.work = .request r →
      let a := x.reply.take p.maxReply c
      (∃ e, r.expectLen = some e ∧ e ≤ x.reply.count + 1) ∨
        (p.termChar = true ∧ c.bad = false ∧ c.value = p.onLine p.termValue) →
      ¬ strayReply { x with reply := a } i s → x.retried p (a.outcome false) = false →
      Completes cmd s (CompletedTo i x a r (a.outcome false) [.line i (outcomeCounter (a.outcome false))] [] s)) ∧
    -- an unsolicited frame: its first character
    (∀ u, l.txn.listens → l.unsolicited = some u → u.mode = .undecided →
      let late := if u.late = none then [] else [CtrId.line i .lateFrames]
      let n := Config.blocksFor (10 + p.maxReply)
      (p.policy = .drop →
        Completes cmd s (fun t => books t ∧ SamePool s t ∧ Counted late s t ∧
          t.line i = gap { l with unsolicited := some { u with mode := .drop } })) ∧
      (p.policy ≠ .drop → n + 16 ≤ s.pool.free → s.pool.slotsUsed + 9 ≤ 256 →
        Completes cmd s (fun t => books t ∧ Counted late s t ∧ t.pool.free = s.pool.free - n ∧
          t.pool.slotsUsed = s.pool.slotsUsed + 1 ∧
          t.line i = gap { l with
            unsolicited := some { u with mode := .keep n, frame := u.frame.take p.maxReply c } })) ∧
      (p.policy ≠ .drop → s.pool.free < n + 16 ∨ 256 < s.pool.slotsUsed + 9 →
        Completes cmd s (fun t => books t ∧ SamePool s t ∧ Counted (.pool .unsolicitedLost :: late) s t ∧
          t.line i = gap { l with unsolicited := some { u with mode := .lost } }))) ∧
    -- an unsolicited frame: the further characters
    (∀ u n, l.txn.listens → l.unsolicited = some u → u.mode = .keep n →
      Completes cmd s (fun t => books t ∧ Counted [] s t ∧ t.pool.free = s.pool.free ∧
        t.pool.slotsUsed = s.pool.slotsUsed ∧
        t.line i = gap { l with unsolicited := some { u with frame := u.frame.take p.maxReply c } })) ∧
    (∀ u, l.txn.listens → l.unsolicited = some u → u.mode = .drop ∨ u.mode = .lost ∨ u.mode = .aborted →
      Completes cmd s (fun t => LineMoves i s t ∧ t.line i = gap l)) ∧
    -- an echo
    (∀ x, l.txn = .sending → p.echoCheck = true → l.hand = some x →
      let bytes := s.workBytes x.work
      let good := goodEcho i x c s
      let moves := fun (m : Line) => Completes cmd s (fun t => LineMoves i s t ∧ t.line i = m)
      (x.abortPending = true ∨ x.echoFailed = true → moves { l with rxBusy := false }) ∧
      (x.abortPending = false → x.echoFailed = false →
        (good → l.echoed + 1 ≠ bytes.length ∨ l.charOut.isSome = true →
          moves { l with rxBusy := false, echoed := l.echoed + 1 }) ∧
        (good → l.echoed + 1 = bytes.length → l.charOut = none → l.deHold.isSome = true →
          moves { l with rxBusy := false, echoed := l.echoed + 1, txn := .turnaround, lde := true }) ∧
        -- the last good echo with the DeHold count over, or with DeHold 0
        (good → l.echoed + 1 = bytes.length → l.charOut = none → l.deHold = none → x.work.noReply = false →
          moves { l with
            rxBusy := false, echoed := l.echoed + 1, txn := .awaiting, lde := false
            window := some (s.clock + p.replyTimeout) }) ∧
        (∀ r, good → l.echoed + 1 = bytes.length → l.charOut = none → l.deHold = none → x.work = .request r →
          r.noReply = true → x.reply = Assembly.empty →
          Completes cmd s (CompletedTo i { x with attempts := 1 } x.reply r .ok [.line i .txnOk] [] s)) ∧
        (¬ good → l.charOut.isSome = true →
          moves { l with rxBusy := false, hand := some { x with echoFailed := true } }) ∧
        (∀ r, ¬ good → l.charOut = none → x.work = .request r →
          Completes cmd s (CompletedTo i x x.reply r .collision [.line i .collisions] [] s)))) ∧
    -- a line that is not examined
    (l.txn = .offline ∨ (l.txn = .sending ∧ p.echoCheck = false) → Completes cmd s (fun t => t = s))

/-- BREAK_START by the listen state that stood before its edge, and in SENDING (R2, R22, R23, R25, R26, R41, R44, R199); none
is taken, or counted, on a line the receiver does not examine (R38). A break in a reply is a completion. In the idle after a
break a new one is counted and raises no event: with Breaks not about to cross 32768, nor a counter of what the transmitter
may start, the event store stands. With an event slot free and Breaks about to cross 32768, that COUNTER_HALF takes the slot
first is the model's choice (log 23): shut out. -/
def Obligations.BreakStart : Prop :=
  ∀ (i : Fin 12) (s : State), (s.line i).rxBusy = true → s.between →
    let l := s.line i
    let broken : Line := { l with
      rxBusy := false, brk := true, listen := .brk, unsolicited := none, gap := none, awaitMark := false
      postBreak := none }
    let frame := fun t => SameOutside i s t ∧ t.polls = s.polls ∧ SameLink s t
    (l.txn.listens → l.edgeListen = .quiet →
      (s.pool.eventsUsed < 16 → (s.ctrs.read (.line i .breaks)).value ≠ 32767 →
        Completes (.breakStart i) s (fun t => frame t ∧ SamePool s t ∧ t.results = s.results ∧
          Counted [.line i .breaks] s t ∧ t.line i = broken ∧
          JoinedBehind [s.stamp (.event .lineBreak (lineByte i) s.pool.missedEvents 0) true 0] s t)) ∧
      (16 ≤ s.pool.eventsUsed → (s.ctrs.read (.line i .breaks)).value ≠ 32767 →
        (s.ctrs.read (.pool .eventsMissed)).value ≠ 32767 → s.trunk.tx.isSome = true →
        Completes (.breakStart i) s (fun t => frame t ∧ SamePool s t ∧ Counted [.line i .breaks] s t ∧
          t.line i = broken ∧ t.stream = s.stream ∧ t.pool.missedEvents = min 255 (s.pool.missedEvents + 1) ∧
          t.ctrs.read (.pool .eventsMissed) = (s.ctrs.read (.pool .eventsMissed)).inc))) ∧
    (l.txn.listens → l.edgeListen = .brk →
      Completes (.breakStart i) s (fun t => frame t ∧ SamePool s t ∧ t.results = s.results ∧
        Counted [.line i .breaks] s t ∧ t.line i = broken ∧
        ((s.ctrs.read (.line i .breaks)).value ≠ 32767 →
          s.trunk.tx.isSome = true ∨ ((s.ctrs.read (.link .framesSent)).value ≠ 32767 ∧
            (s.ctrs.read (.link .retransmissions)).value ≠ 32767) →
          t.stream = s.stream ∧ t.pool.eventsUsed = s.pool.eventsUsed ∧
          t.pool.missedEvents = s.pool.missedEvents))) ∧
    (∀ u cs rs slots, l.txn.listens → l.edgeListen = .listening → l.unsolicited = some u →
      UnsolicitedEnds i u .brk cs rs slots s →
      Completes (.breakStart i) s (fun t => frame t ∧ t.results = s.results ++ rs ∧ t.pool.slotsUsed = slots ∧
        t.pool.total = s.pool.total ∧ t.pool.waitList = s.pool.waitList ∧ Counted (.line i .breaks :: cs) s t ∧
        t.line i = broken ∧ FrameFreed u rs [] s t)) ∧
    (∀ x, l.txn = .sending → l.applied.echoCheck = true → l.hand = some x → x.abortPending = false →
      x.echoFailed = false →
      (l.charOut.isSome = true →
        Completes (.breakStart i) s (fun t => frame t ∧ SamePool s t ∧ t.results = s.results ∧
          Counted [.line i .breaks] s t ∧
          t.line i = { l with rxBusy := false, brk := true, hand := some { x with echoFailed := true } })) ∧
      (∀ r, l.charOut = none → x.work = .request r →
        Completes (.breakStart i) s
          (CompletedTo i x x.reply r .collision [.line i .breaks, .line i .collisions] [] s))) ∧
    (l.txn = .offline ∨ (l.txn = .sending ∧ l.applied.echoCheck = false) →
      Completes (.breakStart i) s (fun t => t = s))

/-- BREAK_END, POST_BREAK_IDLE_END and RETURN_TO_MARK (R6, R30 to R32, R41, R42, R46). -/
def Obligations.BreakAndMarkEnd : Prop :=
  ∀ (i : Fin 12) (s : State), s.between →
    let l := s.line i
    (l.brk = true →
      Completes (.breakEnd i) s (fun t => LineMoves i s t ∧
        t.line i = { l with
          brk := false, postBreak := if l.listen = .brk then some l.applied.gapTime else none })) ∧
    (l.awaitMark = true →
      Completes (.returnToMark i) s (fun t => LineMoves i s t ∧
        t.line i = { l with gap := some l.applied.gapTime, awaitMark := false })) ∧
    (l.postBreak.isSome = true →
      (l.txn ≠ .ready → l.txn = .idle → l.staged = none →
        Completes (.postBreakIdleEnd i) s (fun t => LineMoves i s t ∧ t.line i = quietLine l)) ∧
      (l.txn = .guard ∨ l.txn = .waitSpace →
        Completes (.postBreakIdleEnd i) s (fun t => LineMoves i s t ∧ t.line i = quietLine l)) ∧
      (∀ x, l.txn = .ready → l.hand = some x →
        Completes (.postBreakIdleEnd i) s (fun t => LineMoves i s t ∧
          t.line i = sendingLine (quietLine l) x (s.workBytes x.work)[0]?)) ∧
      (∀ p, l.txn = .idle → l.staged = some p → s.pool.waitList = [] →
        Completes (.postBreakIdleEnd i) s (fun t => SameOutside i s t ∧ SameLink s t ∧
          t.line i = Line.under { quietLine l with staged := none } p ∧ ProfileApplied i p [] [] s t ∧
          t.pool.slotsUsed = s.pool.slotsUsed ∧ t.pool.reserved = s.pool.reserved ∧ t.pool.total = s.pool.total ∧
          (queueBlocks (l.turnedOut p) ≤ s.pool.held →
            t.pool.free = s.pool.free + spareBlocks (l.turnedOut p)) ∧
          (s.pool.eventsUsed < 16 → JoinedBehind [s.stamp (.event .profileApplied (lineByte i) s.pool.missedEvents
            (boolByte p.enabled ++ 0#24)) true 0] s t))))

/-- A controller request completes: its REPLY, its blocks, its counter and GUARD (R12 to R15, R17, R18, R24, R25, R48, R49,
R192), whichever command ends its last attempt. -/
def Obligations.RequestCompletes : Prop :=
  ∀ (c : Instr) (i : Fin 12) (x : Txn) (a : Assembly) (r : Request) (o : TxnOutcome) (cs : List CtrId)
    (rs : List Record) (s : State), Ends c i x a o cs rs s → x.work = .request r → s.between →
    let y := if o = .noReply then { x with noReplyLast := true } else x
    Completes c s (CompletedTo i y a r o cs rs s)

/-- A poll completes: reported, suppressed, or discarded by a RETIRING entry (R76 to R82, R87), whichever command ends its
last attempt; the blocks of its reservation that no record holds are freed. What is freed serves no waiter here;
WaitListGrant states what a served waiter does. -/
def Obligations.PollCompletes : Prop :=
  ∀ (c : Instr) (i : Fin 12) (x : Txn) (a : Assembly) (id : Fin 128) (m : Nat) (p : Poll) (o : TxnOutcome)
    (cs : List CtrId) (rs : List Record) (s : State),
    Ends c i x a o cs rs s → x.work = .poll id m → s.poll id = some p → p.defn.line = i →
    s.between →
    let d := o.dataOf a
    let blocks := Config.blocksFor (11 + d.length)
    let filled := filledBlocks 11 x.reply.kept.length
    let must := p.defn.mode = .every ∨ (o = .ok ∧ p.lastDigest ≠ some (digest d)) ∨
      (o ≠ .ok ∧ p.defn.mode = .change) ∨
      (o ≠ .ok ∧ p.defn.mode = .changeQuietErrors ∧ p.lastOutcome ≠ some o) ∨ 0 < p.missed ∨ o = .aborted
    let forced := p.defn.forceEvery ≠ 0 ∧ p.defn.forceEvery ≤ p.suppressed + 1
    let late := if x.noReplyLast ∨ o = .noReply then some (0xFF00 + BitVec.ofNat 16 id.val) else none
    let ran : Poll := { p with
      state := .waiting, lastOutcome := some o
      lastDigest := if o = .ok then some (digest d) else p.lastDigest }
    -- of the reservation, `kept` blocks hold the record; the others are free
    let frame := fun (kept : Nat) t => InGuard i none late s t ∧ SameOutside i s t ∧ SameLink s t ∧
      t.pool.total = s.pool.total ∧ t.pool.waitList = s.pool.waitList ∧ (∀ k, k ≠ id → t.poll k = s.poll k) ∧
      ∀ n, x.reservation = some n → blocks ≤ n → filled ≤ n → filledBlocks 11 a.kept.length ≤ n →
        n - filled ≤ s.pool.reserved → filled ≤ s.pool.held →
        t.pool.free + (rs.map Record.blocks).sum = s.pool.free + (n - kept)
    let record := s.stamp (.pollResult id i p.pollSeq o p.missed (decide (forced ∧ ¬ must)) (o.errorOf a) d) false blocks
    ((s.line i).applied.guardTime ≠ 0 → s.unserved (max (x.reservation.getD 0) (max filled blocks)) 1 →
      (p.state ≠ .retiring → must ∨ forced →
        Completes c s (fun t => frame blocks t ∧ Counted cs s t ∧ t.pool.slotsUsed = s.pool.slotsUsed + rs.length ∧
          t.results = s.results ++ rs ++ [record] ∧
          t.poll id = some { ran with missed := 0, suppressed := 0 })) ∧
      (p.state ≠ .retiring → ¬ must → ¬ forced →
        Completes c s (fun t => frame 0 t ∧ Counted (cs ++ [.line i .pollSuppressed]) s t ∧
          t.pool.slotsUsed = s.pool.slotsUsed + rs.length - 1 ∧ t.results = s.results ++ rs ∧
          t.poll id = some { ran with suppressed := min 255 (p.suppressed + 1) })) ∧
      (p.state = .retiring →
        Completes c s (fun t => frame 0 t ∧ Counted cs s t ∧
          t.pool.slotsUsed = s.pool.slotsUsed + rs.length - 1 ∧ t.results = s.results ++ rs ∧ t.poll id = none))) ∧
    ((s.line i).applied.guardTime = 0 → s.pool.waitList = [] →
      Completes c s (fun t => (t.line i).txn ≠ .guard ∧ (t.line i).guardEnd = none ∧ (t.line i).lateMark = none ∧
        SameOutside i s t ∧ SameLink s t ∧ (∀ d, d ∈ cs → t.ctrs.read d = (s.ctrs.read d).inc) ∧
        (if p.state ≠ .retiring ∧ (must ∨ forced) then s.results ++ rs ++ [record] else s.results ++ rs) <+: t.results))

/-- An attempt that ends NO_REPLY, or CHAR_ERROR when the profile says so, is retried while attempts are left and the
request does not suppress it (R10, R15, R16, R24), at the gap as at the character that ends the reply (R48, R49). -/
def Obligations.AttemptRetried : Prop :=
  ∀ (i : Fin 12) (x : Txn) (s : State), (s.line i).hand = some x → s.between →
    x.attempts < (s.line i).applied.retries + 1 → x.work.suppressRetry = false →
    let l := s.line i
    (∀ d, l.txn = .awaiting → l.window = some d → d ≤ s.clock →
      Completes (.replyWindowExpiry i) s (Retried i x x.reply true [] [] s)) ∧
    (∀ c a, ReplyEnds c i x a s → ¬ strayReply { x with reply := a } i s → a.overlong = false →
      a.errorAt.isSome = true → l.applied.retryOn = .noReplyAndCharError →
      Completes c s (Retried i x a x.noReplyLast [] [] s))

/-- A stray reply (R13, R14), at the gap as at the character that ends it (R48, R49): disposed of under the policy, and the
window runs on; with no window left the attempt ends NO_REPLY, here to be retried (its completion is RequestCompletes's and
PollCompletes's). Its reservation lies outside the wait list, whose head fails its test as in every state between steps. -/
def Obligations.StrayFound : Prop :=
  ∀ (c : Instr) (i : Fin 12) (x : Txn) (a : Assembly) (cs : List CtrId) (rs : List Record) (s : State),
    ReplyEnds c i x a s → strayReply { x with reply := a } i s → Disposal i a cs rs s → s.between → s.headWaits →
    let l := s.line i
    (x.windowLeft ≠ 0 →
      Completes c s (fun t => SameOutside i s t ∧ t.polls = s.polls ∧ SameLink s t ∧ t.pool.total = s.pool.total ∧
        t.pool.waitList = s.pool.waitList ∧ t.results = s.results ++ rs ∧
        t.pool.slotsUsed = s.pool.slotsUsed + rs.length ∧
        t.pool.free + (rs.map Record.blocks).sum = s.pool.free ∧
        Counted (.line i .strayFrames :: cs) s t ∧
        t.line i = { l with
          txn := .awaiting, lde := false, window := some (s.clock + x.windowLeft), gap := none, awaitMark := false
          rxBusy := if c = .gapCountEnd i then l.rxBusy else false
          hand := some { x with reply := Assembly.empty } })) ∧
    (x.windowLeft = 0 → x.attempts < l.applied.retries + 1 → x.work.suppressRetry = false →
      Completes c s (Retried i x a true (.line i .strayFrames :: cs) rs s))

/-- An unsolicited frame ends by gap (R6, R22, R23, R26, R52): forwarded, dropped, or already given up; the listen state is
QUIET, a line in READY sends, and an IDLE line applies a staged profile (R30 to R32). The blocks of its reservation that a
record does not use are free again, all of them at a miss. What is freed serves no waiter here; WaitListGrant states what a
served waiter does. -/
def Obligations.UnsolicitedFrameEnds : Prop :=
  ∀ (i : Fin 12) (u : Unsolicited) (cs : List CtrId) (rs : List Record) (slots : Nat) (s : State),
    (s.line i).unsolicited = some u → (s.line i).gap.isSome = true → s.between →
    UnsolicitedEnds i u (u.frame.outcome false) cs rs slots s →
    let l := s.line i
    let frame := fun t => SameOutside i s t ∧ SameLink s t ∧ t.pool.total = s.pool.total ∧
      t.pool.waitList = s.pool.waitList ∧ t.pool.slotsUsed = slots
    (∀ m, (((l.txn = .idle ∧ l.staged = none) ∨ l.txn = .waitSpace ∨ l.txn = .guard) ∧ m = quietLine l) ∨
        (∃ x, l.txn = .ready ∧ l.hand = some x ∧ m = sendingLine (quietLine l) x (s.workBytes x.work)[0]?) →
      Completes (.gapCountEnd i) s (fun t => frame t ∧ t.polls = s.polls ∧ t.results = s.results ++ rs ∧
        Counted cs s t ∧ t.line i = m ∧ FrameFreed u rs [] s t)) ∧
    (∀ p, l.txn = .idle → l.staged = some p → s.pool.waitList = [] →
      Completes (.gapCountEnd i) s (fun t => frame t ∧
        t.line i = Line.under { quietLine l with staged := none } p ∧ ProfileApplied i p cs rs s t ∧
        FrameFreed u rs (l.turnedOut p) s t ∧
        (s.pool.eventsUsed < 16 → u.mode = .lost ∨ u.mode = .aborted →
          JoinedBehind [s.stamp (.event .profileApplied (lineByte i) s.pool.missedEvents
            (boolByte p.enabled ++ 0#24)) true 0] s t)))

/-- GUARD_END (R4, R5, R16, R20, R24, R30 to R32, R57, R75): a retry enters READY with Attempts increased; any other line
enters IDLE, applies a staged profile when listen is QUIET, and selects a request or a poll. -/
def Obligations.GuardEnd : Prop :=
  ∀ (i : Fin 12) (d : Nat) (s : State), (s.line i).txn = .guard → (s.line i).guardEnd = some d → d ≤ s.clock →
    s.between →
    let l := s.line i
    let free : Line := { l with guardEnd := none, lateMark := none, lde := false }
    (∀ x, l.hand = some x →
      let y := { x with attempts := x.attempts + 1 }
      Completes (.guardEnd i) s (fun t => LineMoves i s t ∧
        t.line i = if l.listen = .quiet then sendingLine free y (s.workBytes x.work)[0]?
          else { free with txn := .ready, hand := some y })) ∧
    (l.hand = none → l.queue = [] → l.due = [] → l.listen ≠ .quiet ∨ l.staged = none →
      Completes (.guardEnd i) s (fun t => LineMoves i s t ∧ t.line i = { free with txn := .idle })) ∧
    (∀ r q, l.hand = none → l.listen ≠ .quiet ∨ l.staged = none → choose l s.clock = .request r q →
      let n := if r.noReply then 1 else Config.blocksFor (10 + l.applied.maxReply)
      let x := Txn.start (.request r)
      let frame := fun t => SameOutside i s t ∧ t.polls = s.polls ∧ SameLink s t ∧ t.results = s.results ∧
        t.pool.total = s.pool.total ∧ t.pool.slotsUsed = s.pool.slotsUsed
      (s.pool.waitList = [] → n + 16 ≤ s.pool.free →
        Completes (.guardEnd i) s (fun t => frame t ∧ Counted [] s t ∧ t.pool.waitList = [] ∧
          t.pool.reserved = s.pool.reserved + n ∧
          t.line i = if l.listen = .quiet then
              sendingLine { free with queue := q } { x with reservation := some n } r.payload[0]?
            else { free with txn := .ready, queue := q, hand := some { x with reservation := some n } })) ∧
      (s.pool.waitList ≠ [] ∨ s.pool.free < n + 16 →
        Completes (.guardEnd i) s (fun t => frame t ∧ Counted [.pool .waitSpaceEntries] s t ∧
          t.pool.free = s.pool.free ∧
          t.pool.waitList = s.pool.waitList ++
            [{ who := .line i, need := { blocks := n, slot := false, cls := .line } }] ∧
          t.line i = { free with txn := .waitSpace, queue := q, hand := some x }))) ∧
    (∀ d ds p, l.hand = none → l.listen ≠ .quiet ∨ l.staged = none → choose l s.clock = .poll d ds →
      s.poll d.poll = some p →
      let n := Config.blocksFor (11 + l.applied.maxReply)
      let x := Txn.start (.poll d.poll p.missed)
      let frame := fun t => SameOutside i s t ∧ SameLink s t ∧ t.results = s.results ∧ t.pool.total = s.pool.total ∧
        t.poll d.poll = some { p with state := .inFlight, pollSeq := p.pollSeq + 1 } ∧
        ∀ k, k ≠ d.poll → t.poll k = s.poll k
      (s.pool.waitList = [] → n + 16 ≤ s.pool.free → s.pool.slotsUsed + 9 ≤ 256 →
        Completes (.guardEnd i) s (fun t => frame t ∧ Counted [] s t ∧ t.pool.waitList = [] ∧
          t.pool.free = s.pool.free - n ∧ t.pool.reserved = s.pool.reserved + n ∧
          t.pool.slotsUsed = s.pool.slotsUsed + 1 ∧
          t.line i = if l.listen = .quiet then
              sendingLine { free with due := ds } { x with reservation := some n } p.defn.request[0]?
            else { free with txn := .ready, due := ds, hand := some { x with reservation := some n } })) ∧
      (s.pool.waitList ≠ [] ∨ s.pool.free < n + 16 ∨ 256 < s.pool.slotsUsed + 9 →
        Completes (.guardEnd i) s (fun t => frame t ∧ Counted [.pool .waitSpaceEntries] s t ∧
          t.pool.free = s.pool.free ∧ t.pool.slotsUsed = s.pool.slotsUsed ∧
          t.pool.waitList = s.pool.waitList ++
            [{ who := .line i, need := { blocks := n, slot := true, cls := .line } }] ∧
          t.line i = { free with txn := .waitSpace, due := ds, hand := some x }))) ∧
    (∀ p, l.hand = none → l.listen = .quiet → l.staged = some p → s.pool.waitList = [] →
      queueBlocks (l.turnedOut p) ≤ s.pool.held →
      let m : Line := Line.under { free with txn := .idle, staged := none } p
      let more := spareBlocks (l.turnedOut p)
      let frame := fun t => SameOutside i s t ∧ SameLink s t ∧ t.pool.total = s.pool.total ∧
        t.pool.slotsUsed = s.pool.slotsUsed ∧ t.pool.waitList = [] ∧ ProfileApplied i p [] [] s t ∧
        (s.pool.eventsUsed < 16 → JoinedBehind [s.stamp (.event .profileApplied (lineByte i) s.pool.missedEvents
          (boolByte p.enabled ++ 0#24)) true 0] s t)
      (p.enabled = false ∨ choose m s.clock = .nothing →
        Completes (.guardEnd i) s (fun t => frame t ∧ t.pool.free = s.pool.free + more ∧ t.line i = m)) ∧
      (∀ r q, p.enabled = true → choose m s.clock = .request r q →
        let n := if r.noReply then 1 else Config.blocksFor (10 + p.maxReply)
        n + 16 ≤ s.pool.free + more →
        Completes (.guardEnd i) s (fun t => frame t ∧ t.pool.free + n = s.pool.free + more ∧
          t.pool.reserved = s.pool.reserved + n ∧
          t.line i = sendingLine { m with queue := q } { Txn.start (.request r) with reservation := some n }
            r.payload[0]?)))

/-- A command of one line leaves every other line that does not wait for space, the configuration, the receive side of the
trunk, and the counters of the link and of every other line (a suppressed poll is counted at its entry's line); a line that
waits may be granted within the step (R97). The intake unit, where it does not wait, stands. -/
def Obligations.LineCommandFrame : Prop :=
  ∀ (c : Instr) (i : Fin 12) (s : State), s.between →
    c = .deleadEnd i ∨ c = .characterSent i ∨ c = .deholdEnd i ∨ c = .echoDeadline i ∨ c = .startBit i ∨
      (∃ d a b, c = .characterComplete i d a b) ∨ c = .breakStart i ∨ c = .breakEnd i ∨ c = .postBreakIdleEnd i ∨
      c = .gapCountEnd i ∨ c = .replyWindowExpiry i ∨ c = .guardEnd i ∨ c = .returnToMark i →
    (∀ w, w ∈ s.pool.waitList → w.who ≠ .intake) →
    Completes c s (fun t => (∀ j, j ≠ i → (∀ w, w ∈ s.pool.waitList → w.who ≠ .line j) → t.line j = s.line j) ∧
      t.intake = s.intake ∧ SameSettings s t ∧ SameLink s t ∧ t.pool.total = s.pool.total ∧ t.between ∧
      ∀ d : CtrId, ¬ d.sideways → (∀ k, d ≠ .pool k) → (∀ k, d ≠ .line i k) → (∀ j, d ≠ .line j .pollSuppressed) →
        t.ctrs.read d = s.ctrs.read d)

/-- Selection (R58, R59): the oldest URGENT request; then the oldest NORMAL one if it has waited AgeLimit; then the head of
the due list; then the oldest NORMAL request. -/
def Obligations.SelectionOrder : Prop :=
  ∀ (l : Line) (now : Nat),
    (∀ a r b, l.queue = a ++ r :: b → (∀ x, x ∈ a → x.urgent = false) → r.urgent = true →
      choose l now = .request r (a ++ b)) ∧
    ((∀ x, x ∈ l.queue → x.urgent = false) →
      (∀ r q, l.queue = r :: q → l.applied.ageLimit ≤ min (now - r.arrival) (2 ^ 31) →
        choose l now = .request r q) ∧
      (∀ r q d ds, l.queue = r :: q → min (now - r.arrival) (2 ^ 31) < l.applied.ageLimit → l.due = d :: ds →
        choose l now = .poll d ds) ∧
      (∀ d ds, l.queue = [] → l.due = d :: ds → choose l now = .poll d ds) ∧
      (∀ r q, l.queue = r :: q → l.due = [] → choose l now = .request r q) ∧
      (l.queue = [] → l.due = [] → choose l now = .nothing))

/-! Every step. -/

/-- Every step keeps the pool's books (R90, R94, R95, R122), the pins (R36, R141), the retransmit window (R151), that no
record is kept back and every granted requester has acted between steps, that the head of the wait list fails its test
(R97), the ranges of the link configuration (R171), and that no deadline lies behind the timebase, so that each timer expires,
and each NextDue is reached, at its own reading (R208). -/
def Obligations.InvariantKept : Prop :=
  ∀ s t : State, step s = .next t →
    (s.pool.balanced → t.pool.balanced) ∧ (s.pool.slotsOk → t.pool.slotsOk) ∧
    (s.intake.slotsOk → t.intake.slotsOk) ∧ (s.trunk.pinOk → t.trunk.pinOk) ∧
    ((∀ i, (s.line i).pinOk) → ∀ i, (t.line i).pinOk) ∧ (s.trunk.windowOk → t.trunk.windowOk) ∧
    (s.between → t.between) ∧ (s.between → s.headWaits → t.headWaits) ∧
    (s.cfg.inRange = true → t.cfg.inRange = true) ∧ (s.cfg.inRange = true → s.onTime → t.onTime)
end

