-- ==== Sys2Proof/Laws/State.lean ====
section
/-! SUPPORT. What each update of the state leaves in each field: one lemma per field per update, by `rfl`. -/

namespace Sys2Proof

/-- `Vector.get` as indexing. -/
theorem get_eq {α : Type} {n : Nat} (v : Vector α n) (i : Fin n) : v.get i = v[i.val]'i.isLt := rfl

/-- A place after another, or the same, was set. -/
theorem get_set {α : Type} {n : Nat} (v : Vector α n) (i j : Fin n) (x : α) :
    (v.set i.val x i.isLt).get j = if j = i then x else v.get j := by
  by_cases h : j = i
  · subst h; simp [get_eq]
  · have h' : i.val ≠ j.val := fun e => h (Fin.ext e.symm)
    simp only [get_eq, Vector.getElem_set, h, h', if_false]

/-- `mapVec` read at a place. -/
@[simp] theorem get_mapVec {α β : Type} {n : Nat} (f : α → β) (v : Vector α n) (i : Fin n) :
    (mapVec f v).get i = f (v.get i) := by
  have h : ((v.toArray.toList.map f).toArray)[i.val]'(by simp) = f (v.toArray[i.val]'(by simp)) := by simp
  exact h

/-- A constant vector read at a place. -/
@[simp] theorem get_replicate {α : Type} {n : Nat} (x : α) (i : Fin n) : (Vector.replicate n x).get i = x := by
  simp [get_eq]

end Sys2Proof

namespace Sys2Proof.Machine.State


/-! setTrunk -/

@[simp] theorem clock_setTrunk (s : State) (v : Trunk) : (s.setTrunk v).clock = s.clock := rfl
@[simp] theorem trunk_setTrunk (s : State) (v : Trunk) : (s.setTrunk v).trunk = v := rfl
@[simp] theorem cfg_setTrunk (s : State) (v : Trunk) : (s.setTrunk v).cfg = s.cfg := rfl
@[simp] theorem pool_setTrunk (s : State) (v : Trunk) : (s.setTrunk v).pool = s.pool := rfl
@[simp] theorem uplink_setTrunk (s : State) (v : Trunk) : (s.setTrunk v).uplink = s.uplink := rfl
@[simp] theorem late_setTrunk (s : State) (v : Trunk) : (s.setTrunk v).late = s.late := rfl
@[simp] theorem granted_setTrunk (s : State) (v : Trunk) : (s.setTrunk v).granted = s.granted := rfl
@[simp] theorem intake_setTrunk (s : State) (v : Trunk) : (s.setTrunk v).intake = s.intake := rfl
@[simp] theorem lines_setTrunk (s : State) (v : Trunk) : (s.setTrunk v).lines = s.lines := rfl
@[simp] theorem polls_setTrunk (s : State) (v : Trunk) : (s.setTrunk v).polls = s.polls := rfl
@[simp] theorem pollRun_setTrunk (s : State) (v : Trunk) : (s.setTrunk v).pollRun = s.pollRun := rfl
@[simp] theorem ctrs_setTrunk (s : State) (v : Trunk) : (s.setTrunk v).ctrs = s.ctrs := rfl
@[simp] theorem pending_setTrunk (s : State) (v : Trunk) : (s.setTrunk v).pending = s.pending := rfl
@[simp] theorem line_setTrunk (s : State) (v : Trunk) (i : Fin 12) : (s.setTrunk v).line i = s.line i := rfl
@[simp] theorem poll_setTrunk (s : State) (v : Trunk) (p : Fin 128) : (s.setTrunk v).poll p = s.poll p := rfl

/-! setPool -/

@[simp] theorem clock_setPool (s : State) (v : Pool) : (s.setPool v).clock = s.clock := rfl
@[simp] theorem trunk_setPool (s : State) (v : Pool) : (s.setPool v).trunk = s.trunk := rfl
@[simp] theorem cfg_setPool (s : State) (v : Pool) : (s.setPool v).cfg = s.cfg := rfl
@[simp] theorem pool_setPool (s : State) (v : Pool) : (s.setPool v).pool = v := rfl
@[simp] theorem uplink_setPool (s : State) (v : Pool) : (s.setPool v).uplink = s.uplink := rfl
@[simp] theorem late_setPool (s : State) (v : Pool) : (s.setPool v).late = s.late := rfl
@[simp] theorem granted_setPool (s : State) (v : Pool) : (s.setPool v).granted = s.granted := rfl
@[simp] theorem intake_setPool (s : State) (v : Pool) : (s.setPool v).intake = s.intake := rfl
@[simp] theorem lines_setPool (s : State) (v : Pool) : (s.setPool v).lines = s.lines := rfl
@[simp] theorem polls_setPool (s : State) (v : Pool) : (s.setPool v).polls = s.polls := rfl
@[simp] theorem pollRun_setPool (s : State) (v : Pool) : (s.setPool v).pollRun = s.pollRun := rfl
@[simp] theorem ctrs_setPool (s : State) (v : Pool) : (s.setPool v).ctrs = s.ctrs := rfl
@[simp] theorem pending_setPool (s : State) (v : Pool) : (s.setPool v).pending = s.pending := rfl
@[simp] theorem line_setPool (s : State) (v : Pool) (i : Fin 12) : (s.setPool v).line i = s.line i := rfl
@[simp] theorem poll_setPool (s : State) (v : Pool) (p : Fin 128) : (s.setPool v).poll p = s.poll p := rfl

/-! setIntake -/

@[simp] theorem clock_setIntake (s : State) (v : Intake) : (s.setIntake v).clock = s.clock := rfl
@[simp] theorem trunk_setIntake (s : State) (v : Intake) : (s.setIntake v).trunk = s.trunk := rfl
@[simp] theorem cfg_setIntake (s : State) (v : Intake) : (s.setIntake v).cfg = s.cfg := rfl
@[simp] theorem pool_setIntake (s : State) (v : Intake) : (s.setIntake v).pool = s.pool := rfl
@[simp] theorem uplink_setIntake (s : State) (v : Intake) : (s.setIntake v).uplink = s.uplink := rfl
@[simp] theorem late_setIntake (s : State) (v : Intake) : (s.setIntake v).late = s.late := rfl
@[simp] theorem granted_setIntake (s : State) (v : Intake) : (s.setIntake v).granted = s.granted := rfl
@[simp] theorem intake_setIntake (s : State) (v : Intake) : (s.setIntake v).intake = v := rfl
@[simp] theorem lines_setIntake (s : State) (v : Intake) : (s.setIntake v).lines = s.lines := rfl
@[simp] theorem polls_setIntake (s : State) (v : Intake) : (s.setIntake v).polls = s.polls := rfl
@[simp] theorem pollRun_setIntake (s : State) (v : Intake) : (s.setIntake v).pollRun = s.pollRun := rfl
@[simp] theorem ctrs_setIntake (s : State) (v : Intake) : (s.setIntake v).ctrs = s.ctrs := rfl
@[simp] theorem pending_setIntake (s : State) (v : Intake) : (s.setIntake v).pending = s.pending := rfl
@[simp] theorem line_setIntake (s : State) (v : Intake) (i : Fin 12) : (s.setIntake v).line i = s.line i := rfl
@[simp] theorem poll_setIntake (s : State) (v : Intake) (p : Fin 128) : (s.setIntake v).poll p = s.poll p := rfl

/-! setCtrs -/

@[simp] theorem clock_setCtrs (s : State) (v : Counters) : (s.setCtrs v).clock = s.clock := rfl
@[simp] theorem trunk_setCtrs (s : State) (v : Counters) : (s.setCtrs v).trunk = s.trunk := rfl
@[simp] theorem cfg_setCtrs (s : State) (v : Counters) : (s.setCtrs v).cfg = s.cfg := rfl
@[simp] theorem pool_setCtrs (s : State) (v : Counters) : (s.setCtrs v).pool = s.pool := rfl
@[simp] theorem uplink_setCtrs (s : State) (v : Counters) : (s.setCtrs v).uplink = s.uplink := rfl
@[simp] theorem late_setCtrs (s : State) (v : Counters) : (s.setCtrs v).late = s.late := rfl
@[simp] theorem granted_setCtrs (s : State) (v : Counters) : (s.setCtrs v).granted = s.granted := rfl
@[simp] theorem intake_setCtrs (s : State) (v : Counters) : (s.setCtrs v).intake = s.intake := rfl
@[simp] theorem lines_setCtrs (s : State) (v : Counters) : (s.setCtrs v).lines = s.lines := rfl
@[simp] theorem polls_setCtrs (s : State) (v : Counters) : (s.setCtrs v).polls = s.polls := rfl
@[simp] theorem pollRun_setCtrs (s : State) (v : Counters) : (s.setCtrs v).pollRun = s.pollRun := rfl
@[simp] theorem ctrs_setCtrs (s : State) (v : Counters) : (s.setCtrs v).ctrs = v := rfl
@[simp] theorem pending_setCtrs (s : State) (v : Counters) : (s.setCtrs v).pending = s.pending := rfl
@[simp] theorem line_setCtrs (s : State) (v : Counters) (i : Fin 12) : (s.setCtrs v).line i = s.line i := rfl
@[simp] theorem poll_setCtrs (s : State) (v : Counters) (p : Fin 128) : (s.setCtrs v).poll p = s.poll p := rfl

/-! setUplink -/

@[simp] theorem clock_setUplink (s : State) (v : List Record) : (s.setUplink v).clock = s.clock := rfl
@[simp] theorem trunk_setUplink (s : State) (v : List Record) : (s.setUplink v).trunk = s.trunk := rfl
@[simp] theorem cfg_setUplink (s : State) (v : List Record) : (s.setUplink v).cfg = s.cfg := rfl
@[simp] theorem pool_setUplink (s : State) (v : List Record) : (s.setUplink v).pool = s.pool := rfl
@[simp] theorem uplink_setUplink (s : State) (v : List Record) : (s.setUplink v).uplink = v := rfl
@[simp] theorem late_setUplink (s : State) (v : List Record) : (s.setUplink v).late = s.late := rfl
@[simp] theorem granted_setUplink (s : State) (v : List Record) : (s.setUplink v).granted = s.granted := rfl
@[simp] theorem intake_setUplink (s : State) (v : List Record) : (s.setUplink v).intake = s.intake := rfl
@[simp] theorem lines_setUplink (s : State) (v : List Record) : (s.setUplink v).lines = s.lines := rfl
@[simp] theorem polls_setUplink (s : State) (v : List Record) : (s.setUplink v).polls = s.polls := rfl
@[simp] theorem pollRun_setUplink (s : State) (v : List Record) : (s.setUplink v).pollRun = s.pollRun := rfl
@[simp] theorem ctrs_setUplink (s : State) (v : List Record) : (s.setUplink v).ctrs = s.ctrs := rfl
@[simp] theorem pending_setUplink (s : State) (v : List Record) : (s.setUplink v).pending = s.pending := rfl
@[simp] theorem line_setUplink (s : State) (v : List Record) (i : Fin 12) : (s.setUplink v).line i = s.line i := rfl
@[simp] theorem poll_setUplink (s : State) (v : List Record) (p : Fin 128) : (s.setUplink v).poll p = s.poll p := rfl

/-! setLate -/

@[simp] theorem clock_setLate (s : State) (v : List Record) : (s.setLate v).clock = s.clock := rfl
@[simp] theorem trunk_setLate (s : State) (v : List Record) : (s.setLate v).trunk = s.trunk := rfl
@[simp] theorem cfg_setLate (s : State) (v : List Record) : (s.setLate v).cfg = s.cfg := rfl
@[simp] theorem pool_setLate (s : State) (v : List Record) : (s.setLate v).pool = s.pool := rfl
@[simp] theorem uplink_setLate (s : State) (v : List Record) : (s.setLate v).uplink = s.uplink := rfl
@[simp] theorem late_setLate (s : State) (v : List Record) : (s.setLate v).late = v := rfl
@[simp] theorem granted_setLate (s : State) (v : List Record) : (s.setLate v).granted = s.granted := rfl
@[simp] theorem intake_setLate (s : State) (v : List Record) : (s.setLate v).intake = s.intake := rfl
@[simp] theorem lines_setLate (s : State) (v : List Record) : (s.setLate v).lines = s.lines := rfl
@[simp] theorem polls_setLate (s : State) (v : List Record) : (s.setLate v).polls = s.polls := rfl
@[simp] theorem pollRun_setLate (s : State) (v : List Record) : (s.setLate v).pollRun = s.pollRun := rfl
@[simp] theorem ctrs_setLate (s : State) (v : List Record) : (s.setLate v).ctrs = s.ctrs := rfl
@[simp] theorem pending_setLate (s : State) (v : List Record) : (s.setLate v).pending = s.pending := rfl
@[simp] theorem line_setLate (s : State) (v : List Record) (i : Fin 12) : (s.setLate v).line i = s.line i := rfl
@[simp] theorem poll_setLate (s : State) (v : List Record) (p : Fin 128) : (s.setLate v).poll p = s.poll p := rfl

/-! setGranted -/

@[simp] theorem clock_setGranted (s : State) (v : List WaiterId) : (s.setGranted v).clock = s.clock := rfl
@[simp] theorem trunk_setGranted (s : State) (v : List WaiterId) : (s.setGranted v).trunk = s.trunk := rfl
@[simp] theorem cfg_setGranted (s : State) (v : List WaiterId) : (s.setGranted v).cfg = s.cfg := rfl
@[simp] theorem pool_setGranted (s : State) (v : List WaiterId) : (s.setGranted v).pool = s.pool := rfl
@[simp] theorem uplink_setGranted (s : State) (v : List WaiterId) : (s.setGranted v).uplink = s.uplink := rfl
@[simp] theorem late_setGranted (s : State) (v : List WaiterId) : (s.setGranted v).late = s.late := rfl
@[simp] theorem granted_setGranted (s : State) (v : List WaiterId) : (s.setGranted v).granted = v := rfl
@[simp] theorem intake_setGranted (s : State) (v : List WaiterId) : (s.setGranted v).intake = s.intake := rfl
@[simp] theorem lines_setGranted (s : State) (v : List WaiterId) : (s.setGranted v).lines = s.lines := rfl
@[simp] theorem polls_setGranted (s : State) (v : List WaiterId) : (s.setGranted v).polls = s.polls := rfl
@[simp] theorem pollRun_setGranted (s : State) (v : List WaiterId) : (s.setGranted v).pollRun = s.pollRun := rfl
@[simp] theorem ctrs_setGranted (s : State) (v : List WaiterId) : (s.setGranted v).ctrs = s.ctrs := rfl
@[simp] theorem pending_setGranted (s : State) (v : List WaiterId) : (s.setGranted v).pending = s.pending := rfl
@[simp] theorem line_setGranted (s : State) (v : List WaiterId) (i : Fin 12) : (s.setGranted v).line i = s.line i := rfl
@[simp] theorem poll_setGranted (s : State) (v : List WaiterId) (p : Fin 128) : (s.setGranted v).poll p = s.poll p := rfl

/-! setCfg -/

@[simp] theorem clock_setCfg (s : State) (v : LinkConfig) : (s.setCfg v).clock = s.clock := rfl
@[simp] theorem trunk_setCfg (s : State) (v : LinkConfig) : (s.setCfg v).trunk = s.trunk := rfl
@[simp] theorem cfg_setCfg (s : State) (v : LinkConfig) : (s.setCfg v).cfg = v := rfl
@[simp] theorem pool_setCfg (s : State) (v : LinkConfig) : (s.setCfg v).pool = s.pool := rfl
@[simp] theorem uplink_setCfg (s : State) (v : LinkConfig) : (s.setCfg v).uplink = s.uplink := rfl
@[simp] theorem late_setCfg (s : State) (v : LinkConfig) : (s.setCfg v).late = s.late := rfl
@[simp] theorem granted_setCfg (s : State) (v : LinkConfig) : (s.setCfg v).granted = s.granted := rfl
@[simp] theorem intake_setCfg (s : State) (v : LinkConfig) : (s.setCfg v).intake = s.intake := rfl
@[simp] theorem lines_setCfg (s : State) (v : LinkConfig) : (s.setCfg v).lines = s.lines := rfl
@[simp] theorem polls_setCfg (s : State) (v : LinkConfig) : (s.setCfg v).polls = s.polls := rfl
@[simp] theorem pollRun_setCfg (s : State) (v : LinkConfig) : (s.setCfg v).pollRun = s.pollRun := rfl
@[simp] theorem ctrs_setCfg (s : State) (v : LinkConfig) : (s.setCfg v).ctrs = s.ctrs := rfl
@[simp] theorem pending_setCfg (s : State) (v : LinkConfig) : (s.setCfg v).pending = s.pending := rfl
@[simp] theorem line_setCfg (s : State) (v : LinkConfig) (i : Fin 12) : (s.setCfg v).line i = s.line i := rfl
@[simp] theorem poll_setCfg (s : State) (v : LinkConfig) (p : Fin 128) : (s.setCfg v).poll p = s.poll p := rfl

/-! setPollRun -/

@[simp] theorem clock_setPollRun (s : State) (v : Bool) : (s.setPollRun v).clock = s.clock := rfl
@[simp] theorem trunk_setPollRun (s : State) (v : Bool) : (s.setPollRun v).trunk = s.trunk := rfl
@[simp] theorem cfg_setPollRun (s : State) (v : Bool) : (s.setPollRun v).cfg = s.cfg := rfl
@[simp] theorem pool_setPollRun (s : State) (v : Bool) : (s.setPollRun v).pool = s.pool := rfl
@[simp] theorem uplink_setPollRun (s : State) (v : Bool) : (s.setPollRun v).uplink = s.uplink := rfl
@[simp] theorem late_setPollRun (s : State) (v : Bool) : (s.setPollRun v).late = s.late := rfl
@[simp] theorem granted_setPollRun (s : State) (v : Bool) : (s.setPollRun v).granted = s.granted := rfl
@[simp] theorem intake_setPollRun (s : State) (v : Bool) : (s.setPollRun v).intake = s.intake := rfl
@[simp] theorem lines_setPollRun (s : State) (v : Bool) : (s.setPollRun v).lines = s.lines := rfl
@[simp] theorem polls_setPollRun (s : State) (v : Bool) : (s.setPollRun v).polls = s.polls := rfl
@[simp] theorem pollRun_setPollRun (s : State) (v : Bool) : (s.setPollRun v).pollRun = v := rfl
@[simp] theorem ctrs_setPollRun (s : State) (v : Bool) : (s.setPollRun v).ctrs = s.ctrs := rfl
@[simp] theorem pending_setPollRun (s : State) (v : Bool) : (s.setPollRun v).pending = s.pending := rfl
@[simp] theorem line_setPollRun (s : State) (v : Bool) (i : Fin 12) : (s.setPollRun v).line i = s.line i := rfl
@[simp] theorem poll_setPollRun (s : State) (v : Bool) (p : Fin 128) : (s.setPollRun v).poll p = s.poll p := rfl

/-! setPending -/

@[simp] theorem clock_setPending (s : State) (v : List Instr) : (s.setPending v).clock = s.clock := rfl
@[simp] theorem trunk_setPending (s : State) (v : List Instr) : (s.setPending v).trunk = s.trunk := rfl
@[simp] theorem cfg_setPending (s : State) (v : List Instr) : (s.setPending v).cfg = s.cfg := rfl
@[simp] theorem pool_setPending (s : State) (v : List Instr) : (s.setPending v).pool = s.pool := rfl
@[simp] theorem uplink_setPending (s : State) (v : List Instr) : (s.setPending v).uplink = s.uplink := rfl
@[simp] theorem late_setPending (s : State) (v : List Instr) : (s.setPending v).late = s.late := rfl
@[simp] theorem granted_setPending (s : State) (v : List Instr) : (s.setPending v).granted = s.granted := rfl
@[simp] theorem intake_setPending (s : State) (v : List Instr) : (s.setPending v).intake = s.intake := rfl
@[simp] theorem lines_setPending (s : State) (v : List Instr) : (s.setPending v).lines = s.lines := rfl
@[simp] theorem polls_setPending (s : State) (v : List Instr) : (s.setPending v).polls = s.polls := rfl
@[simp] theorem pollRun_setPending (s : State) (v : List Instr) : (s.setPending v).pollRun = s.pollRun := rfl
@[simp] theorem ctrs_setPending (s : State) (v : List Instr) : (s.setPending v).ctrs = s.ctrs := rfl
@[simp] theorem pending_setPending (s : State) (v : List Instr) : (s.setPending v).pending = v := rfl
@[simp] theorem line_setPending (s : State) (v : List Instr) (i : Fin 12) : (s.setPending v).line i = s.line i := rfl
@[simp] theorem poll_setPending (s : State) (v : List Instr) (p : Fin 128) : (s.setPending v).poll p = s.poll p := rfl

/-! setLine and modLine -/

@[simp] theorem clock_setLine (s : State) (i : Fin 12) (l : Line) : (s.setLine i l).clock = s.clock := rfl
@[simp] theorem trunk_setLine (s : State) (i : Fin 12) (l : Line) : (s.setLine i l).trunk = s.trunk := rfl
@[simp] theorem cfg_setLine (s : State) (i : Fin 12) (l : Line) : (s.setLine i l).cfg = s.cfg := rfl
@[simp] theorem pool_setLine (s : State) (i : Fin 12) (l : Line) : (s.setLine i l).pool = s.pool := rfl
@[simp] theorem uplink_setLine (s : State) (i : Fin 12) (l : Line) : (s.setLine i l).uplink = s.uplink := rfl
@[simp] theorem late_setLine (s : State) (i : Fin 12) (l : Line) : (s.setLine i l).late = s.late := rfl
@[simp] theorem granted_setLine (s : State) (i : Fin 12) (l : Line) : (s.setLine i l).granted = s.granted := rfl
@[simp] theorem intake_setLine (s : State) (i : Fin 12) (l : Line) : (s.setLine i l).intake = s.intake := rfl
@[simp] theorem polls_setLine (s : State) (i : Fin 12) (l : Line) : (s.setLine i l).polls = s.polls := rfl
@[simp] theorem pollRun_setLine (s : State) (i : Fin 12) (l : Line) : (s.setLine i l).pollRun = s.pollRun := rfl
@[simp] theorem ctrs_setLine (s : State) (i : Fin 12) (l : Line) : (s.setLine i l).ctrs = s.ctrs := rfl
@[simp] theorem pending_setLine (s : State) (i : Fin 12) (l : Line) : (s.setLine i l).pending = s.pending := rfl
@[simp] theorem poll_setLine (s : State) (i : Fin 12) (l : Line) (p : Fin 128) : (s.setLine i l).poll p = s.poll p := rfl
@[simp] theorem clock_modLine (s : State) (i : Fin 12) (f : Line → Line) : (s.modLine i f).clock = s.clock := rfl
@[simp] theorem trunk_modLine (s : State) (i : Fin 12) (f : Line → Line) : (s.modLine i f).trunk = s.trunk := rfl
@[simp] theorem cfg_modLine (s : State) (i : Fin 12) (f : Line → Line) : (s.modLine i f).cfg = s.cfg := rfl
@[simp] theorem pool_modLine (s : State) (i : Fin 12) (f : Line → Line) : (s.modLine i f).pool = s.pool := rfl
@[simp] theorem uplink_modLine (s : State) (i : Fin 12) (f : Line → Line) : (s.modLine i f).uplink = s.uplink := rfl
@[simp] theorem late_modLine (s : State) (i : Fin 12) (f : Line → Line) : (s.modLine i f).late = s.late := rfl
@[simp] theorem granted_modLine (s : State) (i : Fin 12) (f : Line → Line) : (s.modLine i f).granted = s.granted := rfl
@[simp] theorem intake_modLine (s : State) (i : Fin 12) (f : Line → Line) : (s.modLine i f).intake = s.intake := rfl
@[simp] theorem polls_modLine (s : State) (i : Fin 12) (f : Line → Line) : (s.modLine i f).polls = s.polls := rfl
@[simp] theorem pollRun_modLine (s : State) (i : Fin 12) (f : Line →
    Line) : (s.modLine i f).pollRun = s.pollRun := rfl
@[simp] theorem ctrs_modLine (s : State) (i : Fin 12) (f : Line → Line) : (s.modLine i f).ctrs = s.ctrs := rfl
@[simp] theorem pending_modLine (s : State) (i : Fin 12) (f : Line →
    Line) : (s.modLine i f).pending = s.pending := rfl
@[simp] theorem poll_modLine (s : State) (i : Fin 12) (f : Line →
    Line) (p : Fin 128) : (s.modLine i f).poll p = s.poll p := rfl

/-- The line just put is read back. -/
@[simp] theorem line_setLine_same (s : State) (i : Fin 12) (l : Line) : (s.setLine i l).line i = l := by
  simp [State.line, State.setLine, get_set]

/-- Any other line is as before. -/
@[simp] theorem line_setLine_ne (s : State) (i j : Fin 12) (l : Line) (h : j ≠ i) :
    (s.setLine i l).line j = s.line j := by
  simp [State.line, State.setLine, get_set, h]

@[simp] theorem line_modLine_same (s : State) (i : Fin 12) (f : Line → Line) :
    (s.modLine i f).line i = f (s.line i) := by simp [State.modLine]

@[simp] theorem line_modLine_ne (s : State) (i j : Fin 12) (f : Line → Line) (h : j ≠ i) :
    (s.modLine i f).line j = s.line j := by simp [State.modLine, h]

/-- A line after an update of line `i`. -/
theorem line_modLine (s : State) (i j : Fin 12) (f : Line → Line) :
    (s.modLine i f).line j = if j = i then f (s.line i) else s.line j := by
  by_cases h : j = i
  · subst h; simp
  · simp [h]


/-! setPoll -/

@[simp] theorem clock_setPoll (s : State) (p : Fin 128) (e : Option Poll) : (s.setPoll p e).clock = s.clock := rfl
@[simp] theorem trunk_setPoll (s : State) (p : Fin 128) (e : Option Poll) : (s.setPoll p e).trunk = s.trunk := rfl
@[simp] theorem cfg_setPoll (s : State) (p : Fin 128) (e : Option Poll) : (s.setPoll p e).cfg = s.cfg := rfl
@[simp] theorem pool_setPoll (s : State) (p : Fin 128) (e : Option Poll) : (s.setPoll p e).pool = s.pool := rfl
@[simp] theorem uplink_setPoll (s : State) (p : Fin 128) (e : Option Poll) : (s.setPoll p e).uplink = s.uplink := rfl
@[simp] theorem late_setPoll (s : State) (p : Fin 128) (e : Option Poll) : (s.setPoll p e).late = s.late := rfl
@[simp] theorem granted_setPoll (s : State) (p : Fin 128) (e : Option Poll) : (s.setPoll p e).granted = s.granted := rfl
@[simp] theorem intake_setPoll (s : State) (p : Fin 128) (e : Option Poll) : (s.setPoll p e).intake = s.intake := rfl
@[simp] theorem lines_setPoll (s : State) (p : Fin 128) (e : Option Poll) : (s.setPoll p e).lines = s.lines := rfl
@[simp] theorem pollRun_setPoll (s : State) (p : Fin 128) (e : Option Poll) : (s.setPoll p e).pollRun = s.pollRun := rfl
@[simp] theorem ctrs_setPoll (s : State) (p : Fin 128) (e : Option Poll) : (s.setPoll p e).ctrs = s.ctrs := rfl
@[simp] theorem pending_setPoll (s : State) (p : Fin 128) (e : Option Poll) : (s.setPoll p e).pending = s.pending := rfl
@[simp] theorem line_setPoll (s : State) (p : Fin 128) (e : Option Poll) (i : Fin 12) :
    (s.setPoll p e).line i = s.line i := rfl

/-- The entry just put is read back. -/
@[simp] theorem poll_setPoll_same (s : State) (p : Fin 128) (e : Option Poll) : (s.setPoll p e).poll p = e := by
  simp [State.poll, State.setPoll, get_set]

/-- Any other entry is as before. -/
@[simp] theorem poll_setPoll_ne (s : State) (p q : Fin 128) (e : Option Poll) (h : q ≠ p) :
    (s.setPoll p e).poll q = s.poll q := by
  simp [State.poll, State.setPoll, get_set, h]

end Sys2Proof.Machine.State
end

