-- ==== Sys2Proof/Laws/Ops.lean ====
section
/-! SUPPORT. What the shared operations of Ops leave unchanged, and what they do to the pool. The `simp` lemmas are
conjunctions: each conjunct rewrites on its own. -/

set_option Elab.async false

namespace Sys2Proof.Machine

/-- The trunk interface with the one mark the pool may set put aside. -/
def Trunk.calm (t : Trunk) : Trunk := { t with allowRose := false }

namespace State

@[simp] theorem stamp_fields (s : State) (b : Body) (u : Bool) (n : Nat) :
    (s.stamp b u n).body = b ∧ (s.stamp b u n).urgent = u ∧ (s.stamp b u n).resent = false ∧
    (s.stamp b u n).blocks = n ∧ (s.stamp b u n).joinTime = s.clock ∧
    (s.stamp b u n).deadline = s.clock + s.cfg.batchDelay := ⟨rfl, rfl, rfl, rfl, rfl, rfl⟩

/-- A record joins the tail of the uplink queue and nothing else changes (R106). -/
@[simp] theorem join_frame (s : State) (b : Body) (u : Bool) (n : Nat) :
    (s.join b u n).granted = s.granted ∧ (s.join b u n).clock = s.clock ∧ (s.join b u n).cfg = s.cfg ∧ (s.join b u n).intake = s.intake ∧
    (s.join b u n).lines = s.lines ∧ (s.join b u n).polls = s.polls ∧ (s.join b u n).pollRun = s.pollRun ∧
    (s.join b u n).pending = s.pending ∧ (∀ i, (s.join b u n).line i = s.line i) ∧
    (∀ p, (s.join b u n).poll p = s.poll p) ∧ (s.join b u n).trunk = s.trunk ∧ (s.join b u n).pool = s.pool ∧
    (s.join b u n).late = s.late ∧ (s.join b u n).ctrs = s.ctrs ∧
    (s.join b u n).uplink = s.uplink ++ [s.stamp b u n] := by
  simp [join]

@[simp] theorem takeEventSlot_frame (s : State) :
    (s.takeEventSlot).granted = s.granted ∧ (s.takeEventSlot).clock = s.clock ∧ (s.takeEventSlot).cfg = s.cfg ∧ (s.takeEventSlot).intake = s.intake ∧
    (s.takeEventSlot).lines = s.lines ∧ (s.takeEventSlot).polls = s.polls ∧ (s.takeEventSlot).pollRun = s.pollRun ∧
    (s.takeEventSlot).pending = s.pending ∧ (∀ i, (s.takeEventSlot).line i = s.line i) ∧
    (∀ p, (s.takeEventSlot).poll p = s.poll p) ∧ (s.takeEventSlot).trunk = s.trunk ∧
    (s.takeEventSlot).pool.free = s.pool.free ∧ (s.takeEventSlot).pool.reserved = s.pool.reserved ∧
    (s.takeEventSlot).pool.held = s.pool.held ∧ (s.takeEventSlot).pool.slotsUsed = s.pool.slotsUsed ∧
    (s.takeEventSlot).pool.waitList = s.pool.waitList ∧ (s.takeEventSlot).pool.hold = s.pool.hold ∧
    (s.takeEventSlot).pool.minFree = s.pool.minFree ∧ (s.takeEventSlot).pool.eventsUsed = s.pool.eventsUsed + 1 ∧
    (s.takeEventSlot).pool.missedEvents = 0 ∧ (s.takeEventSlot).late = s.late ∧
    (s.takeEventSlot).uplink = s.uplink ∧ (s.takeEventSlot).ctrs = s.ctrs := by
  simp [takeEventSlot]

@[simp] theorem countMissed_frame (s : State) :
    (s.countMissed).granted = s.granted ∧ (s.countMissed).clock = s.clock ∧ (s.countMissed).cfg = s.cfg ∧ (s.countMissed).intake = s.intake ∧
    (s.countMissed).lines = s.lines ∧ (s.countMissed).polls = s.polls ∧ (s.countMissed).pollRun = s.pollRun ∧
    (s.countMissed).pending = s.pending ∧ (∀ i, (s.countMissed).line i = s.line i) ∧
    (∀ p, (s.countMissed).poll p = s.poll p) ∧ (s.countMissed).trunk = s.trunk ∧
    (s.countMissed).pool.free = s.pool.free ∧ (s.countMissed).pool.reserved = s.pool.reserved ∧
    (s.countMissed).pool.held = s.pool.held ∧ (s.countMissed).pool.slotsUsed = s.pool.slotsUsed ∧
    (s.countMissed).pool.waitList = s.pool.waitList ∧ (s.countMissed).pool.hold = s.pool.hold ∧
    (s.countMissed).pool.minFree = s.pool.minFree ∧ (s.countMissed).pool.eventsUsed = s.pool.eventsUsed ∧
    (s.countMissed).late = s.late ∧ (s.countMissed).uplink = s.uplink := by
  simp [countMissed]

/-- A lost event leaves everything but EventsMissed and the pending count (R199). -/
@[simp] theorem loseEvent_frame (s : State) :
    (s.loseEvent).granted = s.granted ∧ (s.loseEvent).clock = s.clock ∧ (s.loseEvent).cfg = s.cfg ∧ (s.loseEvent).intake = s.intake ∧
    (s.loseEvent).lines = s.lines ∧ (s.loseEvent).polls = s.polls ∧ (s.loseEvent).pollRun = s.pollRun ∧
    (s.loseEvent).pending = s.pending ∧ (∀ i, (s.loseEvent).line i = s.line i) ∧
    (∀ p, (s.loseEvent).poll p = s.poll p) ∧ (s.loseEvent).trunk = s.trunk ∧ (s.loseEvent).pool.free = s.pool.free ∧
    (s.loseEvent).pool.reserved = s.pool.reserved ∧ (s.loseEvent).pool.held = s.pool.held ∧
    (s.loseEvent).pool.slotsUsed = s.pool.slotsUsed ∧ (s.loseEvent).pool.waitList = s.pool.waitList ∧
    (s.loseEvent).pool.hold = s.pool.hold ∧ (s.loseEvent).pool.minFree = s.pool.minFree ∧
    (s.loseEvent).pool.eventsUsed = s.pool.eventsUsed ∧ (s.loseEvent).late = s.late ∧
    (s.loseEvent).uplink = s.uplink := by
  unfold loseEvent
  split <;> simp

/-- Raising an event touches the event store, the uplink queue and EventsMissed alone (R197, R199). -/
@[simp] theorem raiseEvent_frame (s : State) (k : EventKind) (l : Byte) (d : BitVec 32) :
    (s.raiseEvent k l d).granted = s.granted ∧ (s.raiseEvent k l d).clock = s.clock ∧ (s.raiseEvent k l d).cfg = s.cfg ∧
    (s.raiseEvent k l d).intake = s.intake ∧ (s.raiseEvent k l d).lines = s.lines ∧
    (s.raiseEvent k l d).polls = s.polls ∧ (s.raiseEvent k l d).pollRun = s.pollRun ∧
    (s.raiseEvent k l d).pending = s.pending ∧ (∀ i, (s.raiseEvent k l d).line i = s.line i) ∧
    (∀ p, (s.raiseEvent k l d).poll p = s.poll p) ∧ (s.raiseEvent k l d).trunk = s.trunk ∧
    (s.raiseEvent k l d).pool.free = s.pool.free ∧ (s.raiseEvent k l d).pool.reserved = s.pool.reserved ∧
    (s.raiseEvent k l d).pool.held = s.pool.held ∧ (s.raiseEvent k l d).pool.slotsUsed = s.pool.slotsUsed ∧
    (s.raiseEvent k l d).pool.waitList = s.pool.waitList ∧ (s.raiseEvent k l d).pool.hold = s.pool.hold ∧
    (s.raiseEvent k l d).pool.minFree = s.pool.minFree ∧ (s.raiseEvent k l d).late = s.late := by
  unfold raiseEvent
  split <;> simp

@[simp] theorem raiseHalf_frame (s : State) (c : CtrId) :
    (s.raiseHalf c).granted = s.granted ∧ (s.raiseHalf c).clock = s.clock ∧ (s.raiseHalf c).cfg = s.cfg ∧ (s.raiseHalf c).intake = s.intake ∧
    (s.raiseHalf c).lines = s.lines ∧ (s.raiseHalf c).polls = s.polls ∧ (s.raiseHalf c).pollRun = s.pollRun ∧
    (s.raiseHalf c).pending = s.pending ∧ (∀ i, (s.raiseHalf c).line i = s.line i) ∧
    (∀ p, (s.raiseHalf c).poll p = s.poll p) ∧ (s.raiseHalf c).trunk = s.trunk ∧
    (s.raiseHalf c).pool.free = s.pool.free ∧ (s.raiseHalf c).pool.reserved = s.pool.reserved ∧
    (s.raiseHalf c).pool.held = s.pool.held ∧ (s.raiseHalf c).pool.slotsUsed = s.pool.slotsUsed ∧
    (s.raiseHalf c).pool.waitList = s.pool.waitList ∧ (s.raiseHalf c).pool.hold = s.pool.hold ∧
    (s.raiseHalf c).pool.minFree = s.pool.minFree ∧ (s.raiseHalf c).uplink = s.uplink := by
  unfold raiseHalf
  split <;> simp

/-- An increase touches the counter bank, and at 32768 the event store and the records kept back (R193). -/
@[simp] theorem bump_frame (s : State) (c : CtrId) :
    (s.bump c).granted = s.granted ∧ (s.bump c).clock = s.clock ∧ (s.bump c).cfg = s.cfg ∧ (s.bump c).intake = s.intake ∧
    (s.bump c).lines = s.lines ∧ (s.bump c).polls = s.polls ∧ (s.bump c).pollRun = s.pollRun ∧
    (s.bump c).pending = s.pending ∧ (∀ i, (s.bump c).line i = s.line i) ∧ (∀ p, (s.bump c).poll p = s.poll p) ∧
    (s.bump c).trunk = s.trunk ∧ (s.bump c).pool.free = s.pool.free ∧ (s.bump c).pool.reserved = s.pool.reserved ∧
    (s.bump c).pool.held = s.pool.held ∧ (s.bump c).pool.slotsUsed = s.pool.slotsUsed ∧
    (s.bump c).pool.waitList = s.pool.waitList ∧ (s.bump c).pool.hold = s.pool.hold ∧
    (s.bump c).pool.minFree = s.pool.minFree ∧ (s.bump c).uplink = s.uplink := by
  simp only [bump]
  split <;> simp

@[simp] theorem flushLate_frame (s : State) :
    (s.flushLate).granted = s.granted ∧ (s.flushLate).clock = s.clock ∧ (s.flushLate).cfg = s.cfg ∧ (s.flushLate).intake = s.intake ∧
    (s.flushLate).lines = s.lines ∧ (s.flushLate).polls = s.polls ∧ (s.flushLate).pollRun = s.pollRun ∧
    (s.flushLate).pending = s.pending ∧ (∀ i, (s.flushLate).line i = s.line i) ∧
    (∀ p, (s.flushLate).poll p = s.poll p) ∧ (s.flushLate).trunk = s.trunk ∧ (s.flushLate).pool = s.pool ∧
    (s.flushLate).late = [] ∧ (s.flushLate).ctrs = s.ctrs ∧ (s.flushLate).uplink = s.uplink ++ s.late := by
  simp [flushLate]

@[simp] theorem allowRises_frame (s : State) :
    (s.allowRises).granted = s.granted ∧ (s.allowRises).clock = s.clock ∧ (s.allowRises).cfg = s.cfg ∧ (s.allowRises).intake = s.intake ∧
    (s.allowRises).lines = s.lines ∧ (s.allowRises).polls = s.polls ∧ (s.allowRises).pollRun = s.pollRun ∧
    (s.allowRises).pending = s.pending ∧ (∀ i, (s.allowRises).line i = s.line i) ∧
    (∀ p, (s.allowRises).poll p = s.poll p) ∧ (s.allowRises).pool = s.pool ∧ (s.allowRises).late = s.late ∧
    (s.allowRises).ctrs = s.ctrs ∧ (s.allowRises).uplink = s.uplink ∧ (s.allowRises).trunk.up = s.trunk.up ∧
    (s.allowRises).trunk.linkUpPin = s.trunk.linkUpPin ∧ (s.allowRises).trunk.retransmits = s.trunk.retransmits ∧
    (s.allowRises).trunk.nextSeq = s.trunk.nextSeq ∧ (s.allowRises).trunk.peerAck = s.trunk.peerAck ∧
    (s.allowRises).trunk.peerAllow = s.trunk.peerAllow ∧ (s.allowRises).trunk.tx = s.trunk.tx ∧
    (s.allowRises).trunk.goBack = s.trunk.goBack ∧ (s.allowRises).trunk.expectSeq = s.trunk.expectSeq ∧
    (s.allowRises).trunk.calm = s.trunk.calm ∧ (s.allowRises).trunk.epoch = s.trunk.epoch ∧
    (s.allowRises).trunk.cause = s.trunk.cause ∧ (s.allowRises).trunk.lastAccepted = s.trunk.lastAccepted ∧
    (s.allowRises).trunk.upBefore = s.trunk.upBefore ∧ (s.allowRises).trunk.downSince = s.trunk.downSince ∧
    (s.allowRises).trunk.rejectSent = s.trunk.rejectSent ∧
    (s.allowRises).trunk.rejectPending = s.trunk.rejectPending ∧ (s.allowRises).trunk.expiries = s.trunk.expiries ∧
    (s.allowRises).trunk.retransmitTimer = s.trunk.retransmitTimer ∧
    (s.allowRises).trunk.syncPending = s.trunk.syncPending ∧
    (s.allowRises).trunk.syncAckPending = s.trunk.syncAckPending ∧
    (s.allowRises).trunk.anyAccepted = s.trunk.anyAccepted := by
  unfold allowRises
  split <;> simp [Trunk.calm]

@[simp] theorem holdOn_frame (s : State) :
    (s.holdOn).granted = s.granted ∧ (s.holdOn).clock = s.clock ∧ (s.holdOn).cfg = s.cfg ∧ (s.holdOn).intake = s.intake ∧
    (s.holdOn).lines = s.lines ∧ (s.holdOn).polls = s.polls ∧ (s.holdOn).pollRun = s.pollRun ∧
    (s.holdOn).pending = s.pending ∧ (∀ i, (s.holdOn).line i = s.line i) ∧ (∀ p, (s.holdOn).poll p = s.poll p) ∧
    (s.holdOn).trunk = s.trunk ∧ (s.holdOn).pool.free = s.pool.free ∧ (s.holdOn).pool.reserved = s.pool.reserved ∧
    (s.holdOn).pool.held = s.pool.held ∧ (s.holdOn).pool.slotsUsed = s.pool.slotsUsed ∧
    (s.holdOn).pool.waitList = s.pool.waitList ∧ (s.holdOn).pool.minFree = s.pool.minFree := by
  simp [holdOn]

@[simp] theorem holdOff_frame (s : State) :
    (s.holdOff).granted = s.granted ∧ (s.holdOff).clock = s.clock ∧ (s.holdOff).cfg = s.cfg ∧ (s.holdOff).intake = s.intake ∧
    (s.holdOff).lines = s.lines ∧ (s.holdOff).polls = s.polls ∧ (s.holdOff).pollRun = s.pollRun ∧
    (s.holdOff).pending = s.pending ∧ (∀ i, (s.holdOff).line i = s.line i) ∧ (∀ p, (s.holdOff).poll p = s.poll p) ∧
    (s.holdOff).pool.free = s.pool.free ∧ (s.holdOff).pool.reserved = s.pool.reserved ∧
    (s.holdOff).pool.held = s.pool.held ∧ (s.holdOff).pool.slotsUsed = s.pool.slotsUsed ∧
    (s.holdOff).pool.waitList = s.pool.waitList ∧ (s.holdOff).pool.minFree = s.pool.minFree ∧
    (s.holdOff).trunk.up = s.trunk.up ∧ (s.holdOff).trunk.linkUpPin = s.trunk.linkUpPin ∧
    (s.holdOff).trunk.retransmits = s.trunk.retransmits ∧ (s.holdOff).trunk.nextSeq = s.trunk.nextSeq ∧
    (s.holdOff).trunk.peerAck = s.trunk.peerAck ∧ (s.holdOff).trunk.peerAllow = s.trunk.peerAllow ∧
    (s.holdOff).trunk.tx = s.trunk.tx ∧ (s.holdOff).trunk.goBack = s.trunk.goBack ∧
    (s.holdOff).trunk.expectSeq = s.trunk.expectSeq ∧ (s.holdOff).trunk.calm = s.trunk.calm ∧
    (s.holdOff).trunk.epoch = s.trunk.epoch ∧ (s.holdOff).trunk.cause = s.trunk.cause ∧
    (s.holdOff).trunk.lastAccepted = s.trunk.lastAccepted ∧ (s.holdOff).trunk.upBefore = s.trunk.upBefore ∧
    (s.holdOff).trunk.downSince = s.trunk.downSince ∧ (s.holdOff).trunk.rejectSent = s.trunk.rejectSent ∧
    (s.holdOff).trunk.rejectPending = s.trunk.rejectPending ∧ (s.holdOff).trunk.expiries = s.trunk.expiries ∧
    (s.holdOff).trunk.retransmitTimer = s.trunk.retransmitTimer ∧
    (s.holdOff).trunk.syncPending = s.trunk.syncPending ∧
    (s.holdOff).trunk.syncAckPending = s.trunk.syncAckPending ∧
        (s.holdOff).trunk.anyAccepted = s.trunk.anyAccepted := by
  simp only [holdOff]
  split <;> simp

/-- The test of PoolHold changes no count of the pool (R100). -/
@[simp] theorem testHold_frame (s : State) :
    (s.testHold).granted = s.granted ∧ (s.testHold).clock = s.clock ∧ (s.testHold).cfg = s.cfg ∧ (s.testHold).intake = s.intake ∧
    (s.testHold).lines = s.lines ∧ (s.testHold).polls = s.polls ∧ (s.testHold).pollRun = s.pollRun ∧
    (s.testHold).pending = s.pending ∧ (∀ i, (s.testHold).line i = s.line i) ∧
    (∀ p, (s.testHold).poll p = s.poll p) ∧ (s.testHold).pool.free = s.pool.free ∧
    (s.testHold).pool.reserved = s.pool.reserved ∧ (s.testHold).pool.held = s.pool.held ∧
    (s.testHold).pool.slotsUsed = s.pool.slotsUsed ∧ (s.testHold).pool.waitList = s.pool.waitList ∧
    (s.testHold).pool.minFree = s.pool.minFree ∧ (s.testHold).trunk.up = s.trunk.up ∧
    (s.testHold).trunk.linkUpPin = s.trunk.linkUpPin ∧ (s.testHold).trunk.retransmits = s.trunk.retransmits ∧
    (s.testHold).trunk.nextSeq = s.trunk.nextSeq ∧ (s.testHold).trunk.peerAck = s.trunk.peerAck ∧
    (s.testHold).trunk.peerAllow = s.trunk.peerAllow ∧ (s.testHold).trunk.tx = s.trunk.tx ∧
    (s.testHold).trunk.goBack = s.trunk.goBack ∧ (s.testHold).trunk.expectSeq = s.trunk.expectSeq ∧
    (s.testHold).trunk.calm = s.trunk.calm ∧ (s.testHold).trunk.epoch = s.trunk.epoch ∧
    (s.testHold).trunk.cause = s.trunk.cause ∧ (s.testHold).trunk.lastAccepted = s.trunk.lastAccepted ∧
    (s.testHold).trunk.upBefore = s.trunk.upBefore ∧ (s.testHold).trunk.downSince = s.trunk.downSince ∧
    (s.testHold).trunk.rejectSent = s.trunk.rejectSent ∧ (s.testHold).trunk.rejectPending = s.trunk.rejectPending ∧
    (s.testHold).trunk.expiries = s.trunk.expiries ∧ (s.testHold).trunk.retransmitTimer = s.trunk.retransmitTimer ∧
    (s.testHold).trunk.syncPending = s.trunk.syncPending ∧
    (s.testHold).trunk.syncAckPending = s.trunk.syncAckPending ∧
    (s.testHold).trunk.anyAccepted = s.trunk.anyAccepted := by
  unfold testHold
  split_ifs <;> simp

@[simp] theorem freeChanged_frame (s : State) :
    (s.freeChanged).granted = s.granted ∧ (s.freeChanged).clock = s.clock ∧ (s.freeChanged).cfg = s.cfg ∧ (s.freeChanged).intake = s.intake ∧
    (s.freeChanged).lines = s.lines ∧ (s.freeChanged).polls = s.polls ∧ (s.freeChanged).pollRun = s.pollRun ∧
    (s.freeChanged).pending = s.pending ∧ (∀ i, (s.freeChanged).line i = s.line i) ∧
    (∀ p, (s.freeChanged).poll p = s.poll p) ∧ (s.freeChanged).pool.free = s.pool.free ∧
    (s.freeChanged).pool.reserved = s.pool.reserved ∧ (s.freeChanged).pool.held = s.pool.held ∧
    (s.freeChanged).pool.slotsUsed = s.pool.slotsUsed ∧ (s.freeChanged).pool.waitList = s.pool.waitList ∧
    (s.freeChanged).trunk.up = s.trunk.up ∧ (s.freeChanged).trunk.linkUpPin = s.trunk.linkUpPin ∧
    (s.freeChanged).trunk.retransmits = s.trunk.retransmits ∧ (s.freeChanged).trunk.nextSeq = s.trunk.nextSeq ∧
    (s.freeChanged).trunk.peerAck = s.trunk.peerAck ∧ (s.freeChanged).trunk.peerAllow = s.trunk.peerAllow ∧
    (s.freeChanged).trunk.tx = s.trunk.tx ∧ (s.freeChanged).trunk.goBack = s.trunk.goBack ∧
    (s.freeChanged).trunk.expectSeq = s.trunk.expectSeq ∧ (s.freeChanged).trunk.calm = s.trunk.calm ∧
    (s.freeChanged).trunk.epoch = s.trunk.epoch ∧ (s.freeChanged).trunk.cause = s.trunk.cause ∧
    (s.freeChanged).trunk.lastAccepted = s.trunk.lastAccepted ∧ (s.freeChanged).trunk.upBefore = s.trunk.upBefore ∧
    (s.freeChanged).trunk.downSince = s.trunk.downSince ∧ (s.freeChanged).trunk.rejectSent = s.trunk.rejectSent ∧
    (s.freeChanged).trunk.rejectPending = s.trunk.rejectPending ∧
    (s.freeChanged).trunk.expiries = s.trunk.expiries ∧
    (s.freeChanged).trunk.retransmitTimer = s.trunk.retransmitTimer ∧
    (s.freeChanged).trunk.syncPending = s.trunk.syncPending ∧
    (s.freeChanged).trunk.syncAckPending = s.trunk.syncAckPending ∧
    (s.freeChanged).trunk.anyAccepted = s.trunk.anyAccepted ∧
    (s.freeChanged).pool.minFree = min s.pool.minFree s.pool.free := by
  simp [freeChanged]

/-- An allocation moves its blocks out of free and takes its slot (R91, R92). -/
@[simp] theorem take_frame (s : State) (n : Need) (into : Into) :
    (s.take n into).granted = s.granted ∧ (s.take n into).clock = s.clock ∧ (s.take n into).cfg = s.cfg ∧ (s.take n into).intake = s.intake ∧
    (s.take n into).lines = s.lines ∧ (s.take n into).polls = s.polls ∧ (s.take n into).pollRun = s.pollRun ∧
    (s.take n into).pending = s.pending ∧ (∀ i, (s.take n into).line i = s.line i) ∧
    (∀ p, (s.take n into).poll p = s.poll p) ∧ (s.take n into).trunk.up = s.trunk.up ∧
    (s.take n into).trunk.linkUpPin = s.trunk.linkUpPin ∧ (s.take n into).trunk.retransmits = s.trunk.retransmits ∧
    (s.take n into).trunk.nextSeq = s.trunk.nextSeq ∧ (s.take n into).trunk.peerAck = s.trunk.peerAck ∧
    (s.take n into).trunk.peerAllow = s.trunk.peerAllow ∧ (s.take n into).trunk.tx = s.trunk.tx ∧
    (s.take n into).trunk.goBack = s.trunk.goBack ∧ (s.take n into).trunk.expectSeq = s.trunk.expectSeq ∧
    (s.take n into).trunk.calm = s.trunk.calm ∧ (s.take n into).trunk.epoch = s.trunk.epoch ∧
    (s.take n into).trunk.cause = s.trunk.cause ∧ (s.take n into).trunk.lastAccepted = s.trunk.lastAccepted ∧
    (s.take n into).trunk.upBefore = s.trunk.upBefore ∧ (s.take n into).trunk.downSince = s.trunk.downSince ∧
    (s.take n into).trunk.rejectSent = s.trunk.rejectSent ∧
    (s.take n into).trunk.rejectPending = s.trunk.rejectPending ∧
    (s.take n into).trunk.expiries = s.trunk.expiries ∧
    (s.take n into).trunk.retransmitTimer = s.trunk.retransmitTimer ∧
    (s.take n into).trunk.syncPending = s.trunk.syncPending ∧
    (s.take n into).trunk.syncAckPending = s.trunk.syncAckPending ∧
    (s.take n into).trunk.anyAccepted = s.trunk.anyAccepted ∧ (s.take n into).pool.waitList = s.pool.waitList ∧
    (s.take n into).pool.slotsUsed = s.pool.slotsUsed + (if n.slot then 1 else 0) ∧
    (s.take n into).pool.free = s.pool.free - min n.blocks s.pool.free ∧
        (s.take n into).pool.total = s.pool.total := by
  cases into <;> simp [take, Pool.total, Pool.taken]
  all_goals omega

@[simp] theorem fill_frame (s : State) (n : Nat) :
    (s.fill n).granted = s.granted ∧ (s.fill n).clock = s.clock ∧ (s.fill n).cfg = s.cfg ∧ (s.fill n).intake = s.intake ∧
    (s.fill n).lines = s.lines ∧ (s.fill n).polls = s.polls ∧ (s.fill n).pollRun = s.pollRun ∧
    (s.fill n).pending = s.pending ∧ (∀ i, (s.fill n).line i = s.line i) ∧ (∀ p, (s.fill n).poll p = s.poll p) ∧
    (s.fill n).trunk = s.trunk ∧ (s.fill n).pool.free = s.pool.free ∧ (s.fill n).pool.slotsUsed = s.pool.slotsUsed ∧
    (s.fill n).pool.eventsUsed = s.pool.eventsUsed ∧ (s.fill n).pool.waitList = s.pool.waitList ∧
    (s.fill n).pool.hold = s.pool.hold ∧ (s.fill n).pool.minFree = s.pool.minFree ∧
    (s.fill n).pool.missedEvents = s.pool.missedEvents ∧ (s.fill n).pool.total = s.pool.total ∧
    (s.fill n).late = s.late ∧ (s.fill n).uplink = s.uplink ∧ (s.fill n).ctrs = s.ctrs := by
  simp [fill, Pool.total]
  omega

@[simp] theorem unfill_frame (s : State) (n : Nat) :
    (s.unfill n).granted = s.granted ∧ (s.unfill n).clock = s.clock ∧ (s.unfill n).cfg = s.cfg ∧ (s.unfill n).intake = s.intake ∧
    (s.unfill n).lines = s.lines ∧ (s.unfill n).polls = s.polls ∧ (s.unfill n).pollRun = s.pollRun ∧
    (s.unfill n).pending = s.pending ∧ (∀ i, (s.unfill n).line i = s.line i) ∧
    (∀ p, (s.unfill n).poll p = s.poll p) ∧ (s.unfill n).trunk = s.trunk ∧ (s.unfill n).pool.free = s.pool.free ∧
    (s.unfill n).pool.slotsUsed = s.pool.slotsUsed ∧ (s.unfill n).pool.eventsUsed = s.pool.eventsUsed ∧
    (s.unfill n).pool.waitList = s.pool.waitList ∧ (s.unfill n).pool.hold = s.pool.hold ∧
    (s.unfill n).pool.minFree = s.pool.minFree ∧ (s.unfill n).pool.missedEvents = s.pool.missedEvents ∧
    (s.unfill n).pool.total = s.pool.total ∧ (s.unfill n).late = s.late ∧ (s.unfill n).uplink = s.uplink ∧
    (s.unfill n).ctrs = s.ctrs := by
  simp [unfill, Pool.total]
  omega

/-- A release moves blocks to free and keeps the sum of the three counts (R90, R91). -/
@[simp] theorem release_frame (s : State) (a b : Nat) :
    (s.release a b).granted = s.granted ∧ (s.release a b).clock = s.clock ∧ (s.release a b).cfg = s.cfg ∧ (s.release a b).intake = s.intake ∧
    (s.release a b).lines = s.lines ∧ (s.release a b).polls = s.polls ∧ (s.release a b).pollRun = s.pollRun ∧
    (s.release a b).pending = s.pending ∧ (∀ i, (s.release a b).line i = s.line i) ∧
    (∀ p, (s.release a b).poll p = s.poll p) ∧ (s.release a b).trunk.up = s.trunk.up ∧
    (s.release a b).trunk.linkUpPin = s.trunk.linkUpPin ∧ (s.release a b).trunk.retransmits = s.trunk.retransmits ∧
    (s.release a b).trunk.nextSeq = s.trunk.nextSeq ∧ (s.release a b).trunk.peerAck = s.trunk.peerAck ∧
    (s.release a b).trunk.peerAllow = s.trunk.peerAllow ∧ (s.release a b).trunk.tx = s.trunk.tx ∧
    (s.release a b).trunk.goBack = s.trunk.goBack ∧ (s.release a b).trunk.expectSeq = s.trunk.expectSeq ∧
    (s.release a b).trunk.calm = s.trunk.calm ∧ (s.release a b).trunk.epoch = s.trunk.epoch ∧
    (s.release a b).trunk.cause = s.trunk.cause ∧ (s.release a b).trunk.lastAccepted = s.trunk.lastAccepted ∧
    (s.release a b).trunk.upBefore = s.trunk.upBefore ∧ (s.release a b).trunk.downSince = s.trunk.downSince ∧
    (s.release a b).trunk.rejectSent = s.trunk.rejectSent ∧
    (s.release a b).trunk.rejectPending = s.trunk.rejectPending ∧
    (s.release a b).trunk.expiries = s.trunk.expiries ∧
    (s.release a b).trunk.retransmitTimer = s.trunk.retransmitTimer ∧
    (s.release a b).trunk.syncPending = s.trunk.syncPending ∧
    (s.release a b).trunk.syncAckPending = s.trunk.syncAckPending ∧
    (s.release a b).trunk.anyAccepted = s.trunk.anyAccepted ∧ (s.release a b).pool.slotsUsed = s.pool.slotsUsed ∧
    (s.release a b).pool.waitList = s.pool.waitList ∧ (s.release a b).pool.total = s.pool.total ∧
    (s.release a b).pool.free = s.pool.free + min a s.pool.reserved + min b s.pool.held ∧
    (s.release a b).pool.reserved = s.pool.reserved - min a s.pool.reserved ∧
    (s.release a b).pool.held = s.pool.held - min b s.pool.held := by
  unfold release
  split
  next h =>
    obtain ⟨rfl, rfl⟩ : a = 0 ∧ b = 0 := by omega
    simp
  next => simp [Pool.total]; omega

@[simp] theorem freeRecordSlots_frame (s : State) (n : Nat) :
    (s.freeRecordSlots n).granted = s.granted ∧ (s.freeRecordSlots n).clock = s.clock ∧ (s.freeRecordSlots n).cfg = s.cfg ∧
    (s.freeRecordSlots n).intake = s.intake ∧ (s.freeRecordSlots n).lines = s.lines ∧
    (s.freeRecordSlots n).polls = s.polls ∧ (s.freeRecordSlots n).pollRun = s.pollRun ∧
    (s.freeRecordSlots n).pending = s.pending ∧ (∀ i, (s.freeRecordSlots n).line i = s.line i) ∧
    (∀ p, (s.freeRecordSlots n).poll p = s.poll p) ∧ (s.freeRecordSlots n).trunk = s.trunk ∧
    (s.freeRecordSlots n).pool.free = s.pool.free ∧ (s.freeRecordSlots n).pool.reserved = s.pool.reserved ∧
    (s.freeRecordSlots n).pool.held = s.pool.held ∧ (s.freeRecordSlots n).pool.eventsUsed = s.pool.eventsUsed ∧
    (s.freeRecordSlots n).pool.waitList = s.pool.waitList ∧ (s.freeRecordSlots n).pool.hold = s.pool.hold ∧
    (s.freeRecordSlots n).pool.minFree = s.pool.minFree ∧
    (s.freeRecordSlots n).pool.missedEvents = s.pool.missedEvents ∧
    (s.freeRecordSlots n).pool.total = s.pool.total ∧ (s.freeRecordSlots n).pool.slotsUsed = s.pool.slotsUsed - n ∧
    (s.freeRecordSlots n).late = s.late ∧ (s.freeRecordSlots n).uplink = s.uplink ∧
    (s.freeRecordSlots n).ctrs = s.ctrs := by
  simp [freeRecordSlots, Pool.total]

@[simp] theorem freeEventSlots_frame (s : State) (n : Nat) :
    (s.freeEventSlots n).granted = s.granted ∧ (s.freeEventSlots n).clock = s.clock ∧ (s.freeEventSlots n).cfg = s.cfg ∧
    (s.freeEventSlots n).intake = s.intake ∧ (s.freeEventSlots n).lines = s.lines ∧
    (s.freeEventSlots n).polls = s.polls ∧ (s.freeEventSlots n).pollRun = s.pollRun ∧
    (s.freeEventSlots n).pending = s.pending ∧ (∀ i, (s.freeEventSlots n).line i = s.line i) ∧
    (∀ p, (s.freeEventSlots n).poll p = s.poll p) ∧ (s.freeEventSlots n).trunk = s.trunk ∧
    (s.freeEventSlots n).pool.free = s.pool.free ∧ (s.freeEventSlots n).pool.reserved = s.pool.reserved ∧
    (s.freeEventSlots n).pool.held = s.pool.held ∧ (s.freeEventSlots n).pool.slotsUsed = s.pool.slotsUsed ∧
    (s.freeEventSlots n).pool.waitList = s.pool.waitList ∧ (s.freeEventSlots n).pool.hold = s.pool.hold ∧
    (s.freeEventSlots n).pool.minFree = s.pool.minFree ∧
    (s.freeEventSlots n).pool.missedEvents = s.pool.missedEvents ∧ (s.freeEventSlots n).pool.total = s.pool.total ∧
    (s.freeEventSlots n).pool.eventsUsed = s.pool.eventsUsed - n ∧ (s.freeEventSlots n).late = s.late ∧
    (s.freeEventSlots n).uplink = s.uplink ∧ (s.freeEventSlots n).ctrs = s.ctrs := by
  simp [freeEventSlots, Pool.total]

@[simp] theorem settle_frame (s : State) (a b c d : Nat) :
    (s.settle a b c d).granted = s.granted ∧ (s.settle a b c d).clock = s.clock ∧ (s.settle a b c d).cfg = s.cfg ∧ (s.settle a b c d).intake = s.intake ∧
    (s.settle a b c d).lines = s.lines ∧ (s.settle a b c d).polls = s.polls ∧
    (s.settle a b c d).pollRun = s.pollRun ∧ (s.settle a b c d).pending = s.pending ∧
    (∀ i, (s.settle a b c d).line i = s.line i) ∧ (∀ p, (s.settle a b c d).poll p = s.poll p) ∧
    (s.settle a b c d).trunk.up = s.trunk.up ∧ (s.settle a b c d).trunk.linkUpPin = s.trunk.linkUpPin ∧
    (s.settle a b c d).trunk.retransmits = s.trunk.retransmits ∧
    (s.settle a b c d).trunk.nextSeq = s.trunk.nextSeq ∧ (s.settle a b c d).trunk.peerAck = s.trunk.peerAck ∧
    (s.settle a b c d).trunk.peerAllow = s.trunk.peerAllow ∧ (s.settle a b c d).trunk.tx = s.trunk.tx ∧
    (s.settle a b c d).trunk.goBack = s.trunk.goBack ∧ (s.settle a b c d).trunk.expectSeq = s.trunk.expectSeq ∧
    (s.settle a b c d).trunk.calm = s.trunk.calm ∧ (s.settle a b c d).trunk.epoch = s.trunk.epoch ∧
    (s.settle a b c d).trunk.cause = s.trunk.cause ∧ (s.settle a b c d).trunk.lastAccepted = s.trunk.lastAccepted ∧
    (s.settle a b c d).trunk.upBefore = s.trunk.upBefore ∧ (s.settle a b c d).trunk.downSince = s.trunk.downSince ∧
    (s.settle a b c d).trunk.rejectSent = s.trunk.rejectSent ∧
    (s.settle a b c d).trunk.rejectPending = s.trunk.rejectPending ∧
    (s.settle a b c d).trunk.expiries = s.trunk.expiries ∧
    (s.settle a b c d).trunk.retransmitTimer = s.trunk.retransmitTimer ∧
    (s.settle a b c d).trunk.syncPending = s.trunk.syncPending ∧
    (s.settle a b c d).trunk.syncAckPending = s.trunk.syncAckPending ∧
    (s.settle a b c d).trunk.anyAccepted = s.trunk.anyAccepted ∧
    (s.settle a b c d).pool.slotsUsed = s.pool.slotsUsed ∧ (s.settle a b c d).pool.waitList = s.pool.waitList ∧
    (s.settle a b c d).pool.total = s.pool.total := by
  simp [settle]

/-- A waiter joins the tail of the wait list (R97). -/
@[simp] theorem joinWait_frame (s : State) (w : Waiter) :
    (s.joinWait w).granted = s.granted ∧ (s.joinWait w).clock = s.clock ∧ (s.joinWait w).cfg = s.cfg ∧ (s.joinWait w).intake = s.intake ∧
    (s.joinWait w).lines = s.lines ∧ (s.joinWait w).polls = s.polls ∧ (s.joinWait w).pollRun = s.pollRun ∧
    (s.joinWait w).pending = s.pending ∧ (∀ i, (s.joinWait w).line i = s.line i) ∧
    (∀ p, (s.joinWait w).poll p = s.poll p) ∧ (s.joinWait w).trunk = s.trunk ∧
    (s.joinWait w).pool.free = s.pool.free ∧ (s.joinWait w).pool.reserved = s.pool.reserved ∧
    (s.joinWait w).pool.held = s.pool.held ∧ (s.joinWait w).pool.slotsUsed = s.pool.slotsUsed ∧
    (s.joinWait w).pool.hold = s.pool.hold ∧ (s.joinWait w).pool.minFree = s.pool.minFree ∧
    (s.joinWait w).pool.total = s.pool.total ∧ (s.joinWait w).uplink = s.uplink ∧
    (s.joinWait w).pool.waitList = s.pool.waitList ++ [w] := by
  simp [joinWait, Pool.total]

@[simp] theorem leaveWait_frame (s : State) (w : WaiterId) :
    (s.leaveWait w).granted = s.granted ∧ (s.leaveWait w).clock = s.clock ∧ (s.leaveWait w).cfg = s.cfg ∧ (s.leaveWait w).intake = s.intake ∧
    (s.leaveWait w).lines = s.lines ∧ (s.leaveWait w).polls = s.polls ∧ (s.leaveWait w).pollRun = s.pollRun ∧
    (s.leaveWait w).pending = s.pending ∧ (∀ i, (s.leaveWait w).line i = s.line i) ∧
    (∀ p, (s.leaveWait w).poll p = s.poll p) ∧ (s.leaveWait w).trunk = s.trunk ∧
    (s.leaveWait w).pool.free = s.pool.free ∧ (s.leaveWait w).pool.reserved = s.pool.reserved ∧
    (s.leaveWait w).pool.held = s.pool.held ∧ (s.leaveWait w).pool.slotsUsed = s.pool.slotsUsed ∧
    (s.leaveWait w).pool.eventsUsed = s.pool.eventsUsed ∧ (s.leaveWait w).pool.hold = s.pool.hold ∧
    (s.leaveWait w).pool.minFree = s.pool.minFree ∧ (s.leaveWait w).pool.missedEvents = s.pool.missedEvents ∧
    (s.leaveWait w).pool.total = s.pool.total ∧ (s.leaveWait w).late = s.late ∧ (s.leaveWait w).uplink = s.uplink ∧
    (s.leaveWait w).ctrs = s.ctrs := by
  simp [leaveWait, Pool.total]

@[simp] theorem takeEventSlot_total (s : State) : (s.takeEventSlot).pool.total = s.pool.total := by simp [Pool.total]
@[simp] theorem countMissed_total (s : State) : (s.countMissed).pool.total = s.pool.total := by simp [Pool.total]
@[simp] theorem loseEvent_total (s : State) : (s.loseEvent).pool.total = s.pool.total := by simp [Pool.total]
@[simp] theorem raiseEvent_total (s : State) (k : EventKind) (l : Byte) (d : BitVec 32) : (s.raiseEvent k l d).pool.total = s.pool.total := by simp [Pool.total]
@[simp] theorem raiseHalf_total (s : State) (c : CtrId) : (s.raiseHalf c).pool.total = s.pool.total := by simp [Pool.total]
@[simp] theorem bump_total (s : State) (c : CtrId) : (s.bump c).pool.total = s.pool.total := by simp [Pool.total]
@[simp] theorem holdOn_total (s : State) : (s.holdOn).pool.total = s.pool.total := by simp [Pool.total]
@[simp] theorem holdOff_total (s : State) : (s.holdOff).pool.total = s.pool.total := by simp [Pool.total]
@[simp] theorem testHold_total (s : State) : (s.testHold).pool.total = s.pool.total := by simp [Pool.total]
@[simp] theorem freeChanged_total (s : State) : (s.freeChanged).pool.total = s.pool.total := by simp [Pool.total]

/-! The event store is never over-full (R95). -/

theorem raiseEvent_events (s : State) (k : EventKind) (l : Byte) (d : BitVec 32)
    (h : s.pool.eventsUsed ≤ Config.eventSlots) : (s.raiseEvent k l d).pool.eventsUsed ≤ Config.eventSlots := by
  unfold raiseEvent eventSlotFree
  split
  next hf => simp at hf ⊢; omega
  next => simpa using h

theorem raiseHalf_events (s : State) (c : CtrId) (h : s.pool.eventsUsed ≤ Config.eventSlots) :
    (s.raiseHalf c).pool.eventsUsed ≤ Config.eventSlots := by
  unfold raiseHalf eventSlotFree
  split
  next hf => simp at hf ⊢; omega
  next => simpa using h

theorem bump_events (s : State) (c : CtrId) (h : s.pool.eventsUsed ≤ Config.eventSlots) :
    (s.bump c).pool.eventsUsed ≤ Config.eventSlots := by
  simp only [bump]
  split
  · exact raiseHalf_events _ c (by simpa using h)
  · simpa using h

theorem holdOn_events (s : State) (h : s.pool.eventsUsed ≤ Config.eventSlots) :
    s.holdOn.pool.eventsUsed ≤ Config.eventSlots := by
  exact bump_events _ _ (raiseEvent_events _ _ _ _ (by simpa using h))

theorem holdOff_events (s : State) (h : s.pool.eventsUsed ≤ Config.eventSlots) :
    s.holdOff.pool.eventsUsed ≤ Config.eventSlots := by
  have h1 := raiseEvent_events (s.setPool { s.pool with hold := false }) .poolRecovered 0
    (BitVec.ofNat 16 s.pool.free ++ BitVec.ofNat 16 s.cfg.highMark) (by simpa using h)
  simp only [holdOff]
  split <;> simpa using h1

theorem testHold_events (s : State) (h : s.pool.eventsUsed ≤ Config.eventSlots) :
    s.testHold.pool.eventsUsed ≤ Config.eventSlots := by
  unfold testHold
  split_ifs
  · exact holdOff_events s h
  · exact h
  · exact holdOn_events s h
  · exact h

theorem freeChanged_events (s : State) (h : s.pool.eventsUsed ≤ Config.eventSlots) :
    s.freeChanged.pool.eventsUsed ≤ Config.eventSlots := testHold_events _ (by simpa using h)

theorem take_events (s : State) (n : Need) (into : Into) (h : s.pool.eventsUsed ≤ Config.eventSlots) :
    (s.take n into).pool.eventsUsed ≤ Config.eventSlots := by
  refine freeChanged_events _ ?_
  cases into <;> simpa [Pool.taken] using h

theorem release_events (s : State) (a b : Nat) (h : s.pool.eventsUsed ≤ Config.eventSlots) :
    (s.release a b).pool.eventsUsed ≤ Config.eventSlots := by
  unfold release
  split
  · exact h
  · exact freeChanged_events _ (by simpa using h)

theorem settle_events (s : State) (a b c d : Nat) (h : s.pool.eventsUsed ≤ Config.eventSlots) :
    (s.settle a b c d).pool.eventsUsed ≤ Config.eventSlots := release_events _ _ _ (by simpa using h)

theorem joinWait_events (s : State) (w : Waiter) (h : s.pool.eventsUsed ≤ Config.eventSlots) :
    (s.joinWait w).pool.eventsUsed ≤ Config.eventSlots := bump_events _ _ (by simpa using h)

end State

end Sys2Proof.Machine
end

