-- ==== Sys2Proof/Laws/Grants.lean ====
section
/-! SUPPORT. The granting of the wait list (R97): what it leaves, when it grants nothing, and that its head fails
afterwards. -/

set_option Elab.async false

namespace Sys2Proof.Machine

/-- A test that fails goes on failing with fewer blocks free and more slots taken (R92). -/
theorem Pool.passes_anti {p q : Pool} (n : Need) (f : q.free ≤ p.free) (u : p.slotsUsed ≤ q.slotsUsed)
    (h : p.passes n = false) : q.passes n = false := by
  obtain ⟨b, sl, c⟩ := n
  cases c <;> cases sl <;> simp [Pool.passes] at h ⊢ <;> omega

namespace State

/-- A line's hand after a grant: the reservation alone is new. -/
theorem giveReservation_line (s : State) (i j : Fin 12) (n : Nat) :
    (s.giveReservation i n).line j = { s.line j with
      hand := if j = i then (s.line i).hand.map (fun t => { t with reservation := some n }) else (s.line j).hand } := by
  rw [giveReservation, line_modLine]
  split
  · next e => subst e; rfl
  · rfl

@[simp] theorem giveReservation_frame (s : State) (i : Fin 12) (n : Nat) :
    (s.giveReservation i n).granted = s.granted ∧ (s.giveReservation i n).clock = s.clock ∧
    (s.giveReservation i n).cfg = s.cfg ∧ (s.giveReservation i n).intake = s.intake ∧
    (s.giveReservation i n).polls = s.polls ∧ (s.giveReservation i n).pollRun = s.pollRun ∧
    (s.giveReservation i n).pending = s.pending ∧ (∀ p, (s.giveReservation i n).poll p = s.poll p) ∧
    (s.giveReservation i n).trunk = s.trunk ∧ (s.giveReservation i n).pool = s.pool ∧
    (s.giveReservation i n).late = s.late ∧ (s.giveReservation i n).uplink = s.uplink ∧
    (s.giveReservation i n).ctrs = s.ctrs := ⟨rfl, rfl, rfl, rfl, rfl, rfl, rfl, fun _ => rfl, rfl, rfl, rfl, rfl, rfl⟩

/-- One grant (R97): the waiter leaves the list, its blocks and its slot are taken, and it has still to act. -/
theorem grantOne_books (s : State) (w : Waiter) (ws : List Waiter) :
    (s.grantOne w ws).granted = s.granted ++ [w.who] ∧ (s.grantOne w ws).pool.waitList = ws ∧
    (s.grantOne w ws).pool.free = s.pool.free - min w.need.blocks s.pool.free ∧
    (s.grantOne w ws).pool.slotsUsed = s.pool.slotsUsed + (if w.need.slot then 1 else 0) ∧
    (s.grantOne w ws).pool.total = s.pool.total := by
  unfold grantOne
  cases w.who <;> simp <;> rfl

/-- What one grant leaves. -/
@[simp] theorem grantOne_frame (s : State) (w : Waiter) (ws : List Waiter) :
    (s.grantOne w ws).clock = s.clock ∧ (s.grantOne w ws).cfg = s.cfg ∧ (s.grantOne w ws).intake = s.intake ∧
    (s.grantOne w ws).polls = s.polls ∧ (s.grantOne w ws).pollRun = s.pollRun ∧
    (s.grantOne w ws).pending = s.pending ∧ (∀ p, (s.grantOne w ws).poll p = s.poll p) ∧
    (s.grantOne w ws).trunk.up = s.trunk.up ∧ (s.grantOne w ws).trunk.calm = s.trunk.calm ∧
    (∀ j, (s.grantOne w ws).line j = { s.line j with hand := ((s.grantOne w ws).line j).hand }) ∧
    (∀ j, w.who ≠ .line j → (s.grantOne w ws).line j = s.line j) := by
  unfold grantOne
  cases w.who
  · simp [giveReservation_line]
    intro j hj
    simp [Ne.symm hj]
  · simp

/-- A granting leaves all but the pool, the trunk's mark, records, counters and reservations in hand. -/
theorem grantRun_frame (ws : List Waiter) (s : State) :
    (grantRun ws s).clock = s.clock ∧ (grantRun ws s).cfg = s.cfg ∧ (grantRun ws s).intake = s.intake ∧
    (grantRun ws s).polls = s.polls ∧ (grantRun ws s).pollRun = s.pollRun ∧
    (grantRun ws s).pending = s.pending ∧ (∀ p, (grantRun ws s).poll p = s.poll p) ∧
    (grantRun ws s).trunk.up = s.trunk.up ∧ (grantRun ws s).trunk.calm = s.trunk.calm ∧
    (∀ j, (grantRun ws s).line j = { s.line j with hand := ((grantRun ws s).line j).hand }) ∧
    (∀ j, (∀ n, (⟨.line j, n⟩ : Waiter) ∉ ws) → (grantRun ws s).line j = s.line j) ∧
    (grantRun ws s).pool.total = s.pool.total ∧ s.granted <+: (grantRun ws s).granted := by
  induction ws generalizing s with
  | nil => simp [grantRun]
  | cons w ws ih =>
    unfold grantRun
    split
    · obtain ⟨a1, a2, a3, a4, a5, a6, a7, a8, a9, a10, a11, a12, a13⟩ := ih (s.grantOne w ws)
      obtain ⟨b1, b2, b3, b4, b5, b6, b7, b8, b9, b10, b11⟩ := grantOne_frame s w ws
      obtain ⟨c1, c2, c3, c4, c5⟩ := grantOne_books s w ws
      refine ⟨a1.trans b1, a2.trans b2, a3.trans b3, a4.trans b4, a5.trans b5, a6.trans b6,
        fun p => (a7 p).trans (b7 p), a8.trans b8, a9.trans b9, fun j => ?_, fun j hj => ?_, a12.trans c5, ?_⟩
      · exact (a10 j).trans (by rw [b10 j])
      · exact (a11 j (fun n hn => hj n (List.mem_cons_of_mem _ hn))).trans
          (b11 j (fun e => hj w.need (by cases w; cases e; exact List.mem_cons_self)))
      · exact (by rw [c1]; exact List.prefix_append _ _ : s.granted <+: _).trans a13
    · simp

/-- The same of the granting of the wait list (R97). -/
@[simp] theorem grantAll_frame (s : State) :
    (s.grantAll).clock = s.clock ∧ (s.grantAll).cfg = s.cfg ∧ (s.grantAll).intake = s.intake ∧
    (s.grantAll).polls = s.polls ∧ (s.grantAll).pollRun = s.pollRun ∧ (s.grantAll).pending = s.pending ∧
    (∀ p, (s.grantAll).poll p = s.poll p) ∧ (s.grantAll).trunk.up = s.trunk.up ∧
    (s.grantAll).trunk.calm = s.trunk.calm ∧ (s.grantAll).pool.total = s.pool.total := by
  obtain ⟨a1, a2, a3, a4, a5, a6, a7, a8, a9, _, _, a12, _⟩ := grantRun_frame s.pool.waitList s
  exact ⟨a1, a2, a3, a4, a5, a6, a7, a8, a9, a12⟩

/-- A granting changes of a line the reservation in hand alone, and nothing of a line that does not wait. -/
theorem grantAll_line (s : State) (j : Fin 12) :
    s.grantAll.line j = { s.line j with hand := (s.grantAll.line j).hand } ∧
    ((∀ n, (⟨.line j, n⟩ : Waiter) ∉ s.pool.waitList) → s.grantAll.line j = s.line j) := by
  obtain ⟨_, _, _, _, _, _, _, _, _, a10, a11, _, _⟩ := grantRun_frame s.pool.waitList s
  exact ⟨a10 j, a11 j⟩

/-- A granting whose head fails, or that finds no waiter, grants nothing (R97). -/
theorem grantAll_none {s : State} (h : s.headWaits) : s.grantAll = s := by
  unfold grantAll
  cases hw : s.pool.waitList with
  | nil => rfl
  | cons w ws => simp [grantRun, h w ws hw]

theorem grantRun_heads (ws : List Waiter) (s : State) (h : s.pool.waitList = ws) : (grantRun ws s).headWaits := by
  induction ws generalizing s with
  | nil => intro w ws hw; simp [grantRun, h] at hw
  | cons w ws ih =>
    unfold grantRun
    split
    · exact ih _ (grantOne_books s w ws).2.1
    · next hp => intro v vs hv; rw [h] at hv; cases hv; simpa using hp

/-- After a granting the head fails its test (R97). -/
theorem grantAll_heads (s : State) : s.grantAll.headWaits := grantRun_heads _ s rfl

/-- A granting that grants the head and stops at the next (R97). -/
theorem grantAll_one {s : State} {w : Waiter} {ws : List Waiter} (hw : s.pool.waitList = w :: ws)
    (hp : s.pool.passes w.need = true) (hn : (s.grantOne w ws).headWaits) : s.grantAll = s.grantOne w ws := by
  have e : s.grantAll = (s.grantOne w ws).grantAll := by
    simp only [grantAll, hw, grantRun, hp, if_true, (grantOne_books s w ws).2.1]
  rw [e, grantAll_none hn]

/-- A release too small for the head leaves it failing. -/
theorem unserved.heads {n k : Nat} {s u : State} (h : s.unserved n k) (w : u.pool.waitList = s.pool.waitList)
    (f : u.pool.free ≤ s.pool.free + n) (l : s.pool.slotsUsed - k ≤ u.pool.slotsUsed) : u.headWaits :=
  fun v vs hv => Pool.passes_anti v.need f l (h v vs (w ▸ hv))

/-- A release too small for the head grants nothing. -/
theorem unserved.grantAll {n k : Nat} {s u : State} (h : s.unserved n k) (w : u.pool.waitList = s.pool.waitList)
    (f : u.pool.free ≤ s.pool.free + n) (l : s.pool.slotsUsed - k ≤ u.pool.slotsUsed) : u.grantAll = u :=
  grantAll_none (h.heads w f l)

/-- Where nobody waits, no release serves a waiter. -/
theorem unserved_nobody {s : State} (h : s.pool.waitList = []) (n k : Nat) : s.unserved n k :=
  fun w ws hw => by rw [h] at hw; cases hw

/-- What no more serves a waiter in one state serves none in another of the same pool. -/
theorem unserved.mono {n k n' k' : Nat} {s u : State} (h : s.unserved n k) (w : u.pool.waitList = s.pool.waitList)
    (f : u.pool.free + n' ≤ s.pool.free + n) (l : s.pool.slotsUsed - k ≤ u.pool.slotsUsed - k') : u.unserved n' k' :=
  fun v vs hv => Pool.passes_anti v.need f l (h v vs (w ▸ hv))

/-- What a settled reservation frees at most (R17, R91). -/
theorem settle_free (s : State) (n h b extra : Nat) :
    (s.settle n h b extra).pool.free ≤ s.pool.free + (max n h - b + extra) := by
  unfold settle
  simp only [release_frame, fill_frame]
  omega

/-- With no waiter nothing is granted. -/
theorem grantAll_nobody {s : State} (h : s.pool.waitList = []) : s.grantAll = s :=
  grantAll_none (fun w ws hw => by rw [h] at hw; cases hw)

/-- Where nobody has been granted, nobody acts. -/
theorem actGranted_none {u : State} (h : u.granted = []) : u.actGranted = u := by
  have e : u.setGranted [] = u := by cases u; cases h; rfl
  simp only [actGranted, h, List.foldl_nil, e]

/-- Where nobody has been granted, the end of a step is its close. -/
theorem finish_none {u : State} (h : u.granted = []) : u.finish = u.close := by
  rw [finish, actGranted_none h]

/-- The event store is never over-full (R95). -/
theorem grantAll_events (s : State) (h : s.pool.eventsUsed ≤ Config.eventSlots) :
    s.grantAll.pool.eventsUsed ≤ Config.eventSlots := by
  have k : ∀ (ws : List Waiter) (t : State), t.pool.eventsUsed ≤ Config.eventSlots →
      (grantRun ws t).pool.eventsUsed ≤ Config.eventSlots := by
    intro ws
    induction ws with
    | nil => exact fun t ht => ht
    | cons w ws ih =>
      intro t ht
      unfold grantRun
      split
      · refine ih _ ?_
        unfold grantOne
        cases w.who
        · exact take_events _ _ _ (by simpa using ht)
        · exact take_events _ _ _ (by simpa using ht)
      · exact ht
  exact k _ s h

end State

end Sys2Proof.Machine
end

