-- ==== Sys2Proof/Laws/Keeps.lean ====
section
/-! SUPPORT. One relation, `Keeps s t`, for what every operation keeps: the sum of the pool's counts, the bounds of the
slots, the pins, the retransmit list's shape, the deadlines, the ranges of the configuration, the clock and the command
queue. One lemma per operation, in the form in
which they chain. -/

set_option Elab.async false

namespace Sys2Proof.Machine

/-! Deadlines, part by part. -/

/-- The timers of the trunk interface. -/
def Trunk.onTime (now : Nat) (v : Trunk) : Prop :=
  notPast now v.syncTimer ∧ notPast now v.silenceTimer ∧ notPast now v.retransmitTimer ∧ notPast now v.keepaliveTimer ∧
  notPast now v.ackDelayTimer

/-- The timers of a line. -/
def Line.onTime (now : Nat) (l : Line) : Prop := notPast now l.guardEnd ∧ notPast now l.window

/-- The NextDue of an entry. -/
def pollOnTime (now : Nat) (e : Option Poll) : Prop := notPast now (e.bind Poll.nextDue)

@[simp] theorem notPast_none (now : Nat) : notPast now none := fun _ h => by cases h
@[simp] theorem notPast_some (now d : Nat) : notPast now (some d) ↔ now ≤ d :=
  ⟨fun h => h d rfl, fun h _ e => by cases e; exact h⟩
@[simp] theorem notPast_timer (s : State) (n : Nat) : notPast s.clock (s.timer n) := by simp [State.timer]
@[simp] theorem pollOnTime_none (now : Nat) : pollOnTime now none := notPast_none now

@[simp] theorem pollOnTime_some (now : Nat) (p : Poll) : pollOnTime now (some p) ↔ notPast now p.nextDue := Iff.rfl

/-- The CTRL reasons are no timers. -/
theorem Trunk.onTime_calm {v w : Trunk} (n : Nat) (h : v.calm = w.calm) : v.onTime n ↔ w.onTime n := by
  show v.calm.onTime n ↔ w.calm.onTime n
  rw [h]

/-- The deadlines of a state are those of its parts. -/
theorem State.onTime_iff (s : State) : s.onTime ↔ s.trunk.onTime s.clock ∧ notPast s.clock s.intake.holdTimer ∧
    (∀ i, (s.line i).onTime s.clock) ∧ ∀ id, pollOnTime s.clock (s.poll id) := by
  constructor
  · intro h
    exact ⟨⟨h .syncTimerExpiry, h .silenceTimerExpiry, h .retransmitTimerExpiry, h .keepaliveTimerExpiry,
      h .ackDelayTimerExpiry⟩, h .holdTimerExpiry, fun i => ⟨h (.guardEnd i), h (.replyWindowExpiry i)⟩,
      fun id => h (.nextDueReached id)⟩
  · rintro ⟨⟨a, b, c, d, e⟩, k, l, p⟩ x
    cases x
    case syncTimerExpiry => exact a
    case silenceTimerExpiry => exact b
    case retransmitTimerExpiry => exact c
    case keepaliveTimerExpiry => exact d
    case ackDelayTimerExpiry => exact e
    case holdTimerExpiry => exact k
    case guardEnd i => exact (l i).1
    case replyWindowExpiry i => exact (l i).2
    case nextDueReached id => exact p id
    all_goals exact notPast_none _

/-- What an operation keeps of the deadlines, part by part, and of the configuration's ranges. -/
structure TimeKept (s t : State) : Prop where
  trunk : s.trunk.onTime s.clock → t.trunk.onTime t.clock
  intake : notPast s.clock s.intake.holdTimer → notPast t.clock t.intake.holdTimer
  lines : (∀ i, (s.line i).onTime s.clock) → ∀ i, (t.line i).onTime t.clock
  polls : (∀ id, pollOnTime s.clock (s.poll id)) → ∀ id, pollOnTime t.clock (t.poll id)
  cfg : s.cfg.inRange = true → t.cfg.inRange = true

theorem TimeKept.trans {s t u : State} (h : TimeKept s t) (k : TimeKept t u) : TimeKept s u :=
  ⟨k.trunk ∘ h.trunk, k.intake ∘ h.intake, k.lines ∘ h.lines, k.polls ∘ h.polls, k.cfg ∘ h.cfg⟩

/-- An operation that touches no deadline. -/
theorem TimeKept.same {s t : State} (c : t.clock = s.clock := by rfl) (v : t.trunk.onTime s.clock ↔ s.trunk.onTime s.clock := by rfl)
    (k : t.intake = s.intake := by rfl) (l : ∀ i, t.line i = s.line i := by intro _; rfl)
    (p : ∀ i, t.poll i = s.poll i := by intro _; rfl) (g : t.cfg = s.cfg := by rfl) : TimeKept s t :=
  ⟨fun x => by rw [c]; exact v.mpr x, fun x => by rw [c, k]; exact x, fun x i => by rw [c, l]; exact x i,
    fun x i => by rw [c, p]; exact x i, fun x => by rw [g]; exact x⟩

/-- From `s` to `t` the clock, the queue and the sum of the pool's counts stand, and each bound that held still holds; the
head of the wait list apart. -/
structure KeepsB (s t : State) : Prop where
  clock : t.clock = s.clock
  pending : t.pending = s.pending
  total : t.pool.total = s.pool.total
  record : s.pool.slotsUsed ≤ Config.recordSlots → t.pool.slotsUsed ≤ Config.recordSlots
  events : s.pool.eventsUsed ≤ Config.eventSlots → t.pool.eventsUsed ≤ Config.eventSlots
  intake : s.intake.slotsOk → t.intake.slotsOk
  lines : (∀ i, (s.line i).pinOk) → ∀ i, (t.line i).pinOk
  pin : s.trunk.pinOk → t.trunk.pinOk
  window : s.trunk.windowOk → t.trunk.windowOk
  time : TimeKept s t

/-- The same, and a head that fails its test goes on failing it (R97). What frees blocks or slots, or takes a waiter off the
list, keeps this only with the granting that follows it. -/
structure Keeps (s t : State) : Prop extends KeepsB s t where
  head : s.headWaits → t.headWaits

/-- One after another, the head apart. -/
theorem KeepsB.trans {s t u : State} (h : KeepsB s t) (k : KeepsB t u) : KeepsB s u :=
  ⟨k.clock.trans h.clock, k.pending.trans h.pending, k.total.trans h.total, k.record ∘ h.record,
   k.events ∘ h.events, k.intake ∘ h.intake, k.lines ∘ h.lines, k.pin ∘ h.pin, k.window ∘ h.window, h.time.trans k.time⟩

/-- An operation that keeps all, after others. -/
theorem KeepsB.then {s t u : State} (h : KeepsB s t) (k : Keeps t u) : KeepsB s u := h.trans k.toKeepsB

namespace Keeps

/-- Nothing changed. -/
@[simp] theorem rfl' (s : State) : Keeps s s := ⟨⟨rfl, rfl, rfl, id, id, id, id, id, id, .same⟩, id⟩

/-- One after another. -/
theorem trans {s t u : State} (h : Keeps s t) (k : Keeps t u) : Keeps s u :=
  ⟨h.toKeepsB.trans k.toKeepsB, k.head ∘ h.head⟩

/-- A fold of operations that each keep. -/
theorem foldl {α : Type} {s t : State} (f : State → α → State) (l : List α)
    (hf : ∀ u a, Keeps u (f u a)) (h : Keeps s t) : Keeps s (l.foldl f t) := by
  induction l generalizing t with
  | nil => exact h
  | cons a as ih => exact ih (h.trans (hf t a))

end Keeps

namespace State

variable {s t : State}

/-! Updates. -/

@[simp] theorem keeps_setUplink (h : Keeps s t) (u : List Record) : Keeps s (t.setUplink u) :=
  h.trans ⟨⟨rfl, rfl, rfl, id, id, id, id, id, id, .same⟩, id⟩
@[simp] theorem keeps_setLate (h : Keeps s t) (u : List Record) : Keeps s (t.setLate u) :=
  h.trans ⟨⟨rfl, rfl, rfl, id, id, id, id, id, id, .same⟩, id⟩
@[simp] theorem keeps_setCtrs (h : Keeps s t) (c : Counters) : Keeps s (t.setCtrs c) :=
  h.trans ⟨⟨rfl, rfl, rfl, id, id, id, id, id, id, .same⟩, id⟩
theorem keeps_setCfg (h : Keeps s t) (c : LinkConfig) (hc : c.inRange = true) : Keeps s (t.setCfg c) :=
  h.trans ⟨⟨rfl, rfl, rfl, id, id, id, id, id, id, ⟨id, id, id, id, fun _ => hc⟩⟩, id⟩
@[simp] theorem keeps_setPollRun (h : Keeps s t) (b : Bool) : Keeps s (t.setPollRun b) :=
  h.trans ⟨⟨rfl, rfl, rfl, id, id, id, id, id, id, .same⟩, id⟩
/-- An update of an entry whose NextDue does not lie behind the clock while none does. -/
theorem keeps_setPoll (h : Keeps s t) (p : Fin 128) (e : Option Poll)
    (he : (∀ id, pollOnTime t.clock (t.poll id)) → pollOnTime t.clock e) : Keeps s (t.setPoll p e) := by
  refine h.trans ⟨⟨rfl, rfl, rfl, id, id, id, id, id, id, ⟨id, id, id, fun x q => ?_, id⟩⟩, id⟩
  show pollOnTime t.clock _
  by_cases hq : q = p
  · subst hq; rw [poll_setPoll_same]; exact he x
  · rw [poll_setPoll_ne _ _ _ _ hq]; exact x q
theorem keeps_setIntake (h : Keeps s t) (k : Intake) (hk : k.frames.length ≤ t.intake.frames.length)
    (ht : notPast t.clock t.intake.holdTimer → notPast t.clock k.holdTimer := by exact id) : Keeps s (t.setIntake k) :=
  h.trans ⟨⟨rfl, rfl, rfl, id, id, fun e => Nat.le_trans hk e, id, id, id, ⟨id, ht, id, id, id⟩⟩, id⟩
theorem keeps_setTrunk (h : Keeps s t) (v : Trunk) (hp : t.trunk.pinOk → v.pinOk)
    (hw : t.trunk.windowOk → v.windowOk) (ht : t.trunk.onTime t.clock → v.onTime t.clock := by
      rintro ⟨a, b, c, d, e⟩
      refine ⟨?_, ?_, ?_, ?_, ?_⟩ <;>
        first | assumption | (simp [State.timer]; done) | (dsimp only; split_ifs <;> first | assumption | simp [State.timer])) :
    Keeps s (t.setTrunk v) :=
  h.trans ⟨⟨rfl, rfl, rfl, id, id, id, id, hp, hw, ⟨ht, id, id, id, id⟩⟩, id⟩
/-- An update of the trunk interface outside its link state, its pin and its window. -/
@[simp] theorem keeps_setTrunk_same (h : Keeps s t) (v : Trunk)
    (hv : v.up = t.trunk.up ∧ v.linkUpPin = t.trunk.linkUpPin ∧ v.peerAck = t.trunk.peerAck ∧
      v.nextSeq = t.trunk.nextSeq ∧ v.retransmits = t.trunk.retransmits := by exact ⟨rfl, rfl, rfl, rfl, rfl⟩)
    (ht : t.trunk.onTime t.clock → v.onTime t.clock := by
      rintro ⟨a, b, c, d, e⟩
      refine ⟨?_, ?_, ?_, ?_, ?_⟩ <;>
        first | assumption | (simp [State.timer]; done) | (dsimp only; split_ifs <;> first | assumption | simp [State.timer])) : Keeps s (t.setTrunk v) := by
  obtain ⟨a, b, c, d, e⟩ := hv
  exact keeps_setTrunk h v (by simp [Trunk.pinOk, a, b]) (by simp [Trunk.windowOk, a, c, d, e]) ht
theorem keeps_setPool (h : Keeps s t) (p : Pool) (ht : p.total = t.pool.total)
    (hs : p.slotsUsed ≤ t.pool.slotsUsed) (he : p.eventsUsed ≤ t.pool.eventsUsed)
    (hh : t.headWaits → (t.setPool p).headWaits) : Keeps s (t.setPool p) :=
  h.trans ⟨⟨rfl, rfl, ht, fun e => Nat.le_trans hs e, fun e => Nat.le_trans he e, id, id, id, id, .same⟩, hh⟩
/-- An update of a line that leaves LDEn right and no deadline behind. -/
theorem keeps_modLine (h : Keeps s t) (i : Fin 12) (f : Line → Line)
    (hf : (t.line i).pinOk → (f (t.line i)).pinOk)
    (ht : (t.line i).onTime t.clock → (f (t.line i)).onTime t.clock) : Keeps s (t.modLine i f) := by
  refine h.trans ⟨⟨rfl, rfl, rfl, id, id, id, fun e j => ?_, id, id, ⟨id, id, fun e j => ?_, id, id⟩⟩, id⟩
  · rw [line_modLine]
    split
    · exact hf (e i)
    · exact e j
  · show Line.onTime t.clock _
    rw [line_modLine]
    split
    · exact ht (e i)
    · exact e j
/-- An update of a line outside its transaction state and LDEn. -/
@[simp] theorem keeps_modLine_same (h : Keeps s t) (i : Fin 12) (f : Line → Line)
    (hf : ∀ l, (f l).txn = l.txn ∧ (f l).lde = l.lde := by intro _; exact ⟨rfl, rfl⟩)
    (ht : ∀ l, l.onTime t.clock → (f l).onTime t.clock := by
      exact fun _ h => ⟨by first | exact h.1 | simp [Line.goto], by first | exact h.2 | simp [Line.goto]⟩) :
    Keeps s (t.modLine i f) := keeps_modLine h i f (by simp [Line.pinOk, hf]) (ht _)
/-- A move of a line to a transaction state. -/
@[simp] theorem keeps_modLine_goto (h : Keeps s t) (i : Fin 12) (f : Line → Line)
    (hf : ∀ l, (f l).lde = (f l).txn.drives := by intro _; rfl)
    (ht : ∀ l, l.onTime t.clock → (f l).onTime t.clock := by
      exact fun _ h => ⟨by first | exact h.1 | simp [Line.goto], by first | exact h.2 | simp [Line.goto]⟩) : Keeps s (t.modLine i f) :=
  keeps_modLine h i f (fun _ => hf _) (ht _)

/-! Operations of Ops. -/

/-- An operation that leaves lines, intake and trunk window alone, given what it does to the pool; the head apart. -/
theorem keepsB_books (h : KeepsB s t) (u : State) (c : u.clock = t.clock) (q : u.pending = t.pending)
    (p : u.pool.total = t.pool.total) (r : u.pool.slotsUsed ≤ t.pool.slotsUsed)
    (e : t.pool.eventsUsed ≤ Config.eventSlots → u.pool.eventsUsed ≤ Config.eventSlots)
    (k : u.intake = t.intake) (l : ∀ i, u.line i = t.line i)
    (tr : u.trunk.calm = t.trunk.calm) (po : ∀ i, u.poll i = t.poll i := by simp) (g : u.cfg = t.cfg := by simp) :
    KeepsB s u := by
  refine h.trans ⟨c, q, p, fun x => Nat.le_trans r x, e, by rw [k]; exact id, fun x i => by rw [l]; exact x i, ?_, ?_,
    .same c ?_ k l po g⟩
  · have a : u.trunk.calm.up = t.trunk.calm.up := by rw [tr]
    have b : u.trunk.calm.linkUpPin = t.trunk.calm.linkUpPin := by rw [tr]
    simp only [Trunk.calm] at a b
    simp [Trunk.pinOk, a, b]
  · have a : u.trunk.calm.up = t.trunk.calm.up := by rw [tr]
    have b : u.trunk.calm.retransmits = t.trunk.calm.retransmits := by rw [tr]
    have c' : u.trunk.calm.nextSeq = t.trunk.calm.nextSeq := by rw [tr]
    have d : u.trunk.calm.peerAck = t.trunk.calm.peerAck := by rw [tr]
    simp only [Trunk.calm] at a b c' d
    simp [Trunk.windowOk, a, b, c', d]
  · exact Trunk.onTime_calm _ tr

/-- The same of an operation that leaves what the head's test reads. -/
theorem keeps_books (h : Keeps s t) (u : State) (c : u.clock = t.clock) (q : u.pending = t.pending)
    (p : u.pool.total = t.pool.total) (r : u.pool.slotsUsed = t.pool.slotsUsed)
    (e : t.pool.eventsUsed ≤ Config.eventSlots → u.pool.eventsUsed ≤ Config.eventSlots)
    (k : u.intake = t.intake) (l : ∀ i, u.line i = t.line i) (tr : u.trunk.calm = t.trunk.calm)
    (w : u.pool.waitList = t.pool.waitList := by simp) (f : u.pool.free = t.pool.free := by simp)
    (po : ∀ i, u.poll i = t.poll i := by simp) (g : u.cfg = t.cfg := by simp) : Keeps s u :=
  ⟨keepsB_books h.toKeepsB u c q p (Nat.le_of_eq r) e k l tr po g,
   fun hh v vs hv => Pool.passes_anti v.need (Nat.le_of_eq f) (Nat.le_of_eq r.symm) (h.head hh v vs (w ▸ hv))⟩

@[simp] theorem keeps_join (h : Keeps s t) (b : Body) (u : Bool) (n : Nat) : Keeps s (t.join b u n) :=
  keeps_books h _ (by simp) (by simp) (by simp) (by simp) (by simp) (by simp) (by simp) (by simp)
@[simp] theorem keeps_raiseEvent (h : Keeps s t) (k : EventKind) (l : Byte) (d : BitVec 32) :
    Keeps s (t.raiseEvent k l d) :=
  keeps_books h _ (by simp) (by simp) (by simp) (by simp) (raiseEvent_events t k l d) (by simp) (by simp) (by simp)
@[simp] theorem keeps_bump (h : Keeps s t) (c : CtrId) : Keeps s (t.bump c) :=
  keeps_books h _ (by simp) (by simp) (by simp) (by simp) (bump_events t c) (by simp) (by simp) (by simp)
@[simp] theorem keeps_flushLate (h : Keeps s t) : Keeps s t.flushLate :=
  keeps_books h _ (by simp) (by simp) (by simp) (by simp) (by simp) (by simp) (by simp) (by simp)
@[simp] theorem keeps_allowRises (h : Keeps s t) : Keeps s t.allowRises :=
  keeps_books h _ (by simp) (by simp) (by simp) (by simp) (by simp) (by simp) (by simp) (by simp)
@[simp] theorem keeps_testHold (h : Keeps s t) : Keeps s t.testHold :=
  keeps_books h _ (by simp) (by simp) (by simp) (by simp) (testHold_events t) (by simp) (by simp) (by simp)
@[simp] theorem keeps_fill (h : Keeps s t) (n : Nat) : Keeps s (t.fill n) :=
  keeps_books h _ (by simp) (by simp) (by simp) (by simp) (by simp) (by simp) (by simp) (by simp)
@[simp] theorem keeps_unfill (h : Keeps s t) (n : Nat) : Keeps s (t.unfill n) :=
  keeps_books h _ (by simp) (by simp) (by simp) (by simp) (by simp) (by simp) (by simp) (by simp)
theorem keepsB_release (h : KeepsB s t) (a b : Nat) : KeepsB s (t.release a b) :=
  keepsB_books h _ (by simp) (by simp) (by simp) (by simp) (release_events t a b) (by simp) (by simp) (by simp)
theorem keepsB_settle (h : KeepsB s t) (a b c d : Nat) : KeepsB s (t.settle a b c d) :=
  keepsB_books h _ (by simp) (by simp) (by simp) (by simp) (settle_events t a b c d) (by simp) (by simp) (by simp)
theorem keepsB_freeRecordSlots (h : KeepsB s t) (n : Nat) : KeepsB s (t.freeRecordSlots n) :=
  keepsB_books h _ (by simp) (by simp) (by simp) (by simp) (by simp) (by simp) (by simp) (by simp)
@[simp] theorem keeps_freeEventSlots (h : Keeps s t) (n : Nat) : Keeps s (t.freeEventSlots n) :=
  keeps_books h _ (by simp) (by simp) (by simp) (by simp) (by simp; omega) (by simp) (by simp) (by simp)
/-- A requester that is not granted at once joins behind a head that fails, or fails itself (R93). -/
theorem keeps_joinWait (h : Keeps s t) (w : Waiter) (hg : ¬ t.grantsNow w.need = true) : Keeps s (t.joinWait w) := by
  refine ⟨keepsB_books h.toKeepsB _ (by simp) (by simp) (by simp) (by simp) (joinWait_events t w) (by simp) (by simp)
    (by simp), fun hh v vs hv => ?_⟩
  simp only [joinWait_frame] at hv
  refine Pool.passes_anti (p := t.pool) v.need (by simp) (by simp) ?_
  cases hl : t.pool.waitList with
  | nil => rw [hl] at hv; cases hv; simpa [grantsNow, hl] using hg
  | cons x xs => rw [hl] at hv; cases hv; exact h.head hh _ _ hl
theorem keepsB_leaveWait (h : KeepsB s t) (w : WaiterId) : KeepsB s (t.leaveWait w) :=
  keepsB_books h _ (by simp) (by simp) (by simp) (by simp) (by simp) (by simp) (by simp) (by simp)

/-- A passed class test leaves room for the slot it takes (R92). -/
theorem passes_slot (p : Pool) (n : Need) (h : p.passes n = true) :
    p.slotsUsed ≤ Config.recordSlots → p.slotsUsed + (if n.slot then 1 else 0) ≤ Config.recordSlots := by
  intro hs
  unfold Pool.passes at h
  cases hn : n.slot
  · simpa using hs
  · cases hc : n.cls <;> simp [hn, hc] at h ⊢ <;> omega

@[simp] theorem keeps_take (h : Keeps s t) (n : Need) (into : Into) (hp : t.pool.passes n = true) :
    Keeps s (t.take n into) := by
  refine h.trans ⟨⟨by simp, by simp, by simp, ?_, take_events t n into, by simp, by simp, by simp [Trunk.pinOk],
    by simp [Trunk.windowOk], .same (by simp) (Trunk.onTime_calm _ (by simp)) (by simp)
      (by simp) (by simp) (by simp)⟩, fun hh v vs hv => ?_⟩
  · simpa using passes_slot t.pool n hp
  · exact Pool.passes_anti (p := t.pool) v.need (by simp) (by simp) (hh v vs (by simpa using hv))

/-- What the granting keeps (R97): after it the head fails its test, whatever was freed before. -/
theorem keeps_grantAll (h : KeepsB s t) : Keeps s t.grantAll := by
  have k : ∀ (ws : List Waiter) (u : State), KeepsB s u → KeepsB s (grantRun ws u) := by
    intro ws
    induction ws with
    | nil => exact fun u hu => hu
    | cons w ws ih =>
      intro u hu
      unfold grantRun
      split
      · next hp =>
        refine ih _ ?_
        have b : KeepsB s ((u.setPool { u.pool with waitList := ws }).setGranted (u.granted ++ [w.who])) :=
          hu.trans ⟨rfl, rfl, rfl, id, id, id, id, id, id, .same⟩
        have g : KeepsB s (((u.setPool { u.pool with waitList := ws }).setGranted (u.granted ++ [w.who])).take w.need
            .reserved) := b.then (keeps_take (Keeps.rfl' _) _ _ hp)
        unfold grantOne
        split
        · exact g.then (keeps_modLine_same (Keeps.rfl' _) _ _)
        · exact b.then (keeps_take (Keeps.rfl' _) _ _ hp)
      · exact hu
  exact ⟨k _ _ h, fun _ => grantAll_heads t⟩

/-- A granting on its own. -/
@[simp] theorem keeps_grantAll_same (h : Keeps s t) : Keeps s t.grantAll := keeps_grantAll h.toKeepsB

/-! A release, and the granting that follows it. -/

@[simp] theorem keeps_release (h : Keeps s t) (a b : Nat) : Keeps s (t.release a b).grantAll :=
  keeps_grantAll (keepsB_release h.toKeepsB a b)
@[simp] theorem keeps_settle (h : Keeps s t) (a b c d : Nat) : Keeps s (t.settle a b c d).grantAll :=
  keeps_grantAll (keepsB_settle h.toKeepsB a b c d)
@[simp] theorem keeps_settleSlot (h : Keeps s t) (a b c d n : Nat) :
    Keeps s ((t.settle a b c d).freeRecordSlots n).grantAll :=
  keeps_grantAll (keepsB_freeRecordSlots (keepsB_settle h.toKeepsB a b c d) n)

end State

end Sys2Proof.Machine
end

