-- ==== Sys2Proof/Laws/KeepsLine.lean ====
section
/-! SUPPORT. `Keeps` for the operations of the poll table and of the lines. -/

set_option Elab.async false

namespace Sys2Proof.Machine.State

variable {s t : State}

/-- A granted allocation of a waiting requester passed its class test (R93). -/
theorem passes_of_grantsNow (n : Need) (h : t.grantsNow n = true) : t.pool.passes n = true := by
  simp [grantsNow] at h; exact h.2

/-! Poll table. -/

@[simp] theorem keeps_dropReservation (h : Keeps s t) (r : Option (Nat × Nat)) :
    Keeps s (t.dropReservation r) := by
  unfold dropReservation; split <;> simp [h]

@[simp] theorem keeps_pollReported (h : Keeps s t) (id : Fin 128) (p : Poll) (o : TxnOutcome) (a : Assembly)
    (n k : Nat) (hp : (∀ id, pollOnTime t.clock (t.poll id)) → notPast t.clock p.nextDue) :
    Keeps s (t.pollReported id p o a n k) := by
  simp only [pollReported]
  exact keeps_setPoll (keeps_settle (keeps_join h _ _ _) _ _ _ _) _ _ (by simpa [Poll.ran] using hp)

@[simp] theorem keeps_pollSuppressed (h : Keeps s t) (id : Fin 128) (p : Poll) (o : TxnOutcome) (a : Assembly)
    (n k : Nat) (hp : (∀ id, pollOnTime t.clock (t.poll id)) → notPast t.clock p.nextDue) :
    Keeps s (t.pollSuppressed id p o a n k) := by
  simp only [pollSuppressed]
  exact keeps_bump (keeps_setPoll (keeps_dropReservation h _) _ _ (by simpa [Poll.ran, dropReservation] using hp)) _

@[simp] theorem keeps_pollDone (h : Keeps s t) (id : Fin 128) (o : TxnOutcome) (a : Assembly)
    (r : Option (Nat × Nat)) : Keeps s (t.pollDone id o a r) := by
  unfold pollDone pollRunDone; split
  · simp [h]
  next p hp =>
    have k : (∀ id, pollOnTime t.clock (t.poll id)) → notPast t.clock p.nextDue := fun x => by simpa [hp] using x id
    split
    · exact keeps_setPoll (keeps_dropReservation h _) _ _ (by simp)
    · split
      · split
        · exact keeps_pollReported h _ _ _ _ _ _ k
        · exact keeps_pollSuppressed h _ _ _ _ _ _ k
      · exact keeps_setPoll h _ _ k

@[simp] theorem keeps_pollUndue (h : Keeps s t) (id : Fin 128) : Keeps s (t.pollUndue id) := by
  refine keeps_setPoll h _ _ (fun x => ?_)
  have := x id
  cases hp : t.poll id
  · simp
  · simpa [hp] using this

/-! Lines. -/

@[simp] theorem keeps_startChar (h : Keeps s t) (i : Fin 12) : Keeps s (t.startChar i) := by
  unfold startChar; split
  · exact h
  · exact keeps_modLine_same h i _

@[simp] theorem keeps_enterSending (h : Keeps s t) (i : Fin 12) : Keeps s (t.enterSending i) := by
  simp only [enterSending]
  have k : Keeps s (t.modLine i (fun l =>
      { l.goto .sending with
        hand := l.hand.map Txn.fresh, sent := 0, echoed := 0, charOut := none, deHold := none,
        deLead := countOf l.applied.deLead })) := keeps_modLine_goto h i _
  split
  · exact keeps_startChar k i
  · exact k

@[simp] theorem keeps_enterReady (h : Keeps s t) (i : Fin 12) : Keeps s (t.enterReady i) := by
  simp only [enterReady]
  have k : Keeps s (t.modLine i (fun l => l.goto .ready)) := keeps_modLine_goto h i _
  split
  · exact keeps_enterSending k i
  · exact k

@[simp] theorem keeps_giveReservation (h : Keeps s t) (i : Fin 12) (n : Nat) :
    Keeps s (t.giveReservation i n) := keeps_modLine_same h i _

@[simp] theorem keeps_takeInHand (h : Keeps s t) (i : Fin 12) (w : Work) : Keeps s (t.takeInHand i w) := by
  simp only [takeInHand]
  have k : Keeps s (t.modLine i (fun l => { l.goto .waitSpace with hand := some (Txn.start w) })) :=
    keeps_modLine_goto h i _
  split
  next hg => exact keeps_enterReady (keeps_giveReservation (keeps_take k _ _ (passes_of_grantsNow _ hg)) i _) i
  next hg => exact keeps_joinWait k _ hg

/-- Selected, an entry has the NextDue it had. -/
theorem pollOnTime_selected (x : ∀ id, pollOnTime t.clock (t.poll id)) (id : Fin 128) :
    pollOnTime t.clock ((t.poll id).map Poll.selected) := by
  have := x id
  cases hp : t.poll id <;> simp_all [Poll.selected]

@[simp] theorem keeps_select (h : Keeps s t) (i : Fin 12) : Keeps s (t.select i) := by
  unfold select; split
  · exact keeps_takeInHand (keeps_modLine_same h i _) i _
  · exact keeps_takeInHand (keeps_setPoll (keeps_modLine_same h i _) _ _
      (fun x => by simpa using pollOnTime_selected x _)) i _
  · exact h

@[simp] theorem keeps_selectIfIdle (h : Keeps s t) (i : Fin 12) : Keeps s (t.selectIfIdle i) := by
  unfold selectIfIdle; split <;> simp [h]

theorem keepsB_replyInPayload (h : KeepsB s t) (l : Byte) (g : Half) (u : Bool) (p : List Byte)
    (o : TxnOutcome) : KeepsB s (t.replyInPayload l g u p o) :=
  (keepsB_release h _ _).then (keeps_join (Keeps.rfl' _) _ _ _)

@[simp] theorem keeps_refuseOwn (h : Keeps s t) (i : Fin 12) (o : TxnOutcome) (r : Request) :
    Keeps s (t.refuseOwn i o r) := by
  simp only [refuseOwn]
  exact keeps_join (keeps_bump (keeps_release h _ _) _) _ _ _

@[simp] theorem keeps_refuseAll (h : Keeps s t) (i : Fin 12) (o : TxnOutcome) (rs : List Request) :
    Keeps s (t.refuseAll i o rs) := Keeps.foldl _ rs (fun u r => keeps_refuseOwn (Keeps.rfl' u) i o r) h

@[simp] theorem keeps_goOffline (h : Keeps s t) (i : Fin 12) : Keeps s (t.goOffline i) :=
  keeps_refuseAll (Keeps.foldl (fun s (d : DueItem) => s.pollUndue d.poll) _
    (fun u d => keeps_pollUndue (Keeps.rfl' u) d.poll) (keeps_modLine_goto h i _)) i _ _

@[simp] theorem keeps_shrinkQueue (h : Keeps s t) (i : Fin 12) : Keeps s (t.shrinkQueue i) :=
  keeps_refuseAll (keeps_modLine_same h i _) i _ _

@[simp] theorem keeps_putProfile (h : Keeps s t) (i : Fin 12) (p : Profile) : Keeps s (t.putProfile i p) := by
  simp only [putProfile]
  have k : Keeps s (t.modLine i (fun l => { l with applied := p })) :=
    keeps_modLine_same h i _
  split_ifs
  · exact keeps_shrinkQueue (keeps_modLine_goto k i _) i
  · exact keeps_shrinkQueue k i
  · exact k
  · exact keeps_goOffline k i

@[simp] theorem keeps_applyStaged (h : Keeps s t) (i : Fin 12) : Keeps s (t.applyStaged i) := by
  unfold applyStaged; split
  · exact h
  · exact keeps_putProfile (keeps_raiseEvent (keeps_modLine_same h i _) _ _ _) i _

@[simp] theorem keeps_enterIdle (h : Keeps s t) (i : Fin 12) : Keeps s (t.enterIdle i) := by
  simp only [enterIdle]
  have k : Keeps s (t.modLine i (fun l => l.goto .idle)) := keeps_modLine_goto h i _
  split
  · exact keeps_selectIfIdle (keeps_applyStaged k i) i
  · exact keeps_selectIfIdle k i

@[simp] theorem keeps_guardOver (h : Keeps s t) (i : Fin 12) : Keeps s (t.guardOver i) := by
  simp only [guardOver]
  have k : Keeps s (t.modLine i (fun l => { l with guardEnd := none, lateMark := none })) :=
    keeps_modLine_same h i _
  split
  · exact keeps_enterReady (keeps_modLine_same k i _) i
  · exact keeps_enterIdle k i

@[simp] theorem keeps_enterGuard (h : Keeps s t) (i : Fin 12) (late : Option Half) :
    Keeps s (t.enterGuard i late) := by
  simp only [enterGuard]
  have k : Keeps s (t.modLine i (fun l =>
      { l.fixListen.goto .guard with
        guardEnd := some (t.clock + l.applied.guardTime), lateMark := late, window := none, deLead := none,
        deHold := none, charOut := none })) := keeps_modLine_goto h i _
  split
  · exact keeps_guardOver k i
  · exact k

@[simp] theorem keeps_countOutcome (h : Keeps s t) (i : Fin 12) (o : TxnOutcome) :
    Keeps s (t.countOutcome i o) := by unfold countOutcome; split <;> simp [h]

@[simp] theorem keeps_replyDone (h : Keeps s t) (i : Fin 12) (r : Request) (x : Txn) (o : TxnOutcome) :
    Keeps s (t.replyDone i r x o) := by simp [replyDone, h]

@[simp] theorem keeps_complete (h : Keeps s t) (i : Fin 12) (x : Txn) (o : TxnOutcome) :
    Keeps s (t.complete i x o) := by
  simp only [complete]
  have k : Keeps s (t.modLine i (fun l => { l with hand := none })) :=
    keeps_modLine_same h i _
  split
  · exact keeps_countOutcome (keeps_replyDone k i _ x o) i o
  · exact keeps_pollDone (keeps_countOutcome k i o) _ o _ _

@[simp] theorem keeps_completeToGuard (h : Keeps s t) (i : Fin 12) (x : Txn) (o : TxnOutcome) :
    Keeps s (t.completeToGuard i x o) := keeps_enterGuard (keeps_complete h i x o) i _

@[simp] theorem keeps_discardReply (h : Keeps s t) (i : Fin 12) (x : Txn) : Keeps s (t.discardReply i x) :=
  keeps_unfill (keeps_modLine_same h i _) _

@[simp] theorem keeps_attemptEnds (h : Keeps s t) (i : Fin 12) (x : Txn) (o : TxnOutcome) :
    Keeps s (t.attemptEnds i x o) := by
  unfold attemptEnds; split
  · exact keeps_enterGuard (keeps_bump (keeps_discardReply h i x) _) i _
  · exact keeps_completeToGuard h i x o

@[simp] theorem keeps_noReplyEnds (h : Keeps s t) (i : Fin 12) (x : Txn) : Keeps s (t.noReplyEnds i x) :=
  keeps_attemptEnds (keeps_discardReply h i x) i _ _

@[simp] theorem keeps_turnaroundOver (h : Keeps s t) (i : Fin 12) : Keeps s (t.turnaroundOver i) := by
  unfold turnaroundOver; split
  · exact h
  · split
    · exact keeps_completeToGuard h i _ _
    · exact keeps_modLine_goto h i _

@[simp] theorem keeps_earlyAnswer (h : Keeps s t) (i : Fin 12) : Keeps s (t.earlyAnswer i) := by
  unfold earlyAnswer; split
  · exact h
  · split
    · exact keeps_completeToGuard h i _ _
    · exact keeps_modLine_goto h i _

@[simp] theorem keeps_enterTurnaround (h : Keeps s t) (i : Fin 12) : Keeps s (t.enterTurnaround i) := by
  simp only [enterTurnaround]
  have k : Keeps s (t.modLine i (fun l => l.goto .turnaround)) := keeps_modLine_goto h i _
  split_ifs
  · exact keeps_earlyAnswer k i
  · exact keeps_turnaroundOver k i
  · exact k

@[simp] theorem keeps_forwardFrame (h : Keeps s t) (i : Fin 12) (a : Assembly) (o : TxnOutcome)
    (l : Option Half) (st : Bool) (kn : Option Nat) (n m : Nat) :
    Keeps s (t.forwardFrame i a o l st kn n m) := by
  simp only [forwardFrame]
  exact keeps_bump (keeps_settle (keeps_join h _ _ _) _ _ _ _) _

@[simp] theorem keeps_dropKept (h : Keeps s t) (i : Fin 12) (n m : Nat) : Keeps s (t.dropKept i n m) :=
  keeps_bump (keeps_settleSlot h _ _ _ _ _) _

@[simp] theorem keeps_finishKept (h : Keeps s t) (i : Fin 12) (a : Assembly) (o : TxnOutcome)
    (l : Option Half) (st : Bool) (n m : Nat) : Keeps s (t.finishKept i a o l st n m) := by
  unfold finishKept; split
  · split
    · simp [h]
    · split <;> simp [h]
  · simp [h]
  · simp [h]

@[simp] theorem keeps_disposeStray (h : Keeps s t) (i : Fin 12) (a : Assembly) :
    Keeps s (t.disposeStray i a) := by
  simp only [disposeStray]
  split_ifs
  · exact keeps_bump h _
  next hp => exact keeps_finishKept (keeps_take h _ _ hp) i a _ _ _ _ _
  · exact keeps_bump h _

@[simp] theorem keeps_strayFound (h : Keeps s t) (i : Fin 12) (x : Txn) : Keeps s (t.strayFound i x) := by
  simp only [strayFound]
  have k : Keeps s ((t.bump (.line i .strayFrames)).disposeStray i x.reply) :=
    keeps_disposeStray (keeps_bump h _) i _
  split
  · exact keeps_noReplyEnds k i x
  · have c := (keeps_discardReply (keeps_disposeStray (keeps_bump (Keeps.rfl' t) (.line i .strayFrames)) i x.reply) i
      x).clock
    exact keeps_modLine_goto (keeps_discardReply k i x) i _ (ht := fun _ y => ⟨y.1, by simp [c]⟩)

@[simp] theorem keeps_endReply (h : Keeps s t) (i : Fin 12) (x : Txn) : Keeps s (t.endReply i x) := by
  unfold endReply; split <;> simp [h]

/-- Starting a gap count moves no transaction state. -/
@[simp] theorem startGap_pins (l : Line) (b : Bool) : (l.startGap b).txn = l.txn ∧ (l.startGap b).lde = l.lde := by
  unfold Line.startGap; split <;> exact ⟨rfl, rfl⟩

/-- Nor does it start a timer. -/
theorem startGap_onTime (l : Line) (b : Bool) (n : Nat) : (l.startGap b).onTime n ↔ l.onTime n := by
  unfold Line.startGap; split <;> exact Iff.rfl

@[simp] theorem keeps_replyChar (h : Keeps s t) (i : Fin 12) (x : Txn) (c : RxChar) :
    Keeps s (t.replyChar i x c) := by
  simp only [replyChar]
  split
  · exact keeps_endReply (keeps_fill (keeps_modLine_same h i _) _) i _
  · exact keeps_modLine_same (keeps_fill (keeps_modLine_same h i _) _) i _
      (fun l => startGap_pins l _) (fun l x => (startGap_onTime _ _ _).mpr x)

@[simp] theorem keeps_keepUnsolicited (h : Keeps s t) (i : Fin 12) (u : Unsolicited) (n : Nat) (c : RxChar) :
    Keeps s (t.keepUnsolicited i u n c) := by
  simp only [keepUnsolicited]
  refine keeps_fill (keeps_modLine_same h i _ ?_ ?_) _
  · exact fun _ => startGap_pins _ _
  · exact fun _ x => (startGap_onTime _ _ _).mpr x

@[simp] theorem keeps_discardUnsolicited (h : Keeps s t) (i : Fin 12) (u : Unsolicited) (m : UnsolMode)
    (c : RxChar) : Keeps s (t.discardUnsolicited i u m c) :=
  keeps_modLine_same h i _ (fun _ => startGap_pins _ _) (fun _ x => (startGap_onTime _ _ _).mpr x)

@[simp] theorem keeps_countLate (h : Keeps s t) (i : Fin 12) (u : Unsolicited) : Keeps s (t.countLate i u) := by
  unfold countLate; split <;> simp [h]

@[simp] theorem keeps_firstUnsolicited (h : Keeps s t) (i : Fin 12) (u : Unsolicited) (c : RxChar) :
    Keeps s (t.firstUnsolicited i u c) := by
  simp only [firstUnsolicited]
  have k := keeps_countLate h i u
  split_ifs
  · exact keeps_discardUnsolicited k i u _ c
  next hp => exact keeps_keepUnsolicited (keeps_take k _ _ hp) i u _ c
  · exact keeps_discardUnsolicited (keeps_bump k _) i u _ c

@[simp] theorem keeps_unsolicitedChar (h : Keeps s t) (i : Fin 12) (u : Unsolicited) (c : RxChar) :
    Keeps s (t.unsolicitedChar i u c) := by unfold unsolicitedChar; split <;> simp [h]

@[simp] theorem keeps_endUnsolicited (h : Keeps s t) (i : Fin 12) (b : Bool) :
    Keeps s (t.endUnsolicited i b) := by
  unfold endUnsolicited finishUnsolicited; split
  · split <;> simp [h]
  · exact h

@[simp] theorem keeps_becomeQuiet (h : Keeps s t) (i : Fin 12) : Keeps s (t.becomeQuiet i) := by
  simp only [becomeQuiet]
  have k : Keeps s (t.modLine i (fun l =>
      { l with listen := .quiet, unsolicited := none, gap := none, awaitMark := false, postBreak := none })) :=
    keeps_modLine_same h i _
  split <;> simp [k]

@[simp] theorem keeps_becomeBreak (h : Keeps s t) (i : Fin 12) : Keeps s (t.becomeBreak i) :=
  keeps_modLine_same h i _

@[simp] theorem keeps_echoFails (h : Keeps s t) (i : Fin 12) (x : Txn) : Keeps s (t.echoFails i x) := by
  unfold echoFails; split_ifs
  · exact h
  · exact keeps_modLine_same h i _
  · exact keeps_completeToGuard h i x _

@[simp] theorem keeps_echoChar (h : Keeps s t) (i : Fin 12) (x : Txn) (c : RxChar) :
    Keeps s (t.echoChar i x c) := by
  simp only [echoChar]
  have k : Keeps s (t.modLine i (fun l => { l with echoed := l.echoed + 1 })) :=
    keeps_modLine_same h i _
  split_ifs
  · exact h
  · exact keeps_enterTurnaround k i
  · exact k
  · exact keeps_echoFails h i x

@[simp] theorem keeps_allSent (h : Keeps s t) (i : Fin 12) : Keeps s (t.allSent i) := by
  simp only [allSent]
  have k : Keeps s (t.modLine i (fun l => { l with deHold := countOf l.applied.deHold })) :=
    keeps_modLine_same h i _
  split_ifs
  · exact k
  · exact keeps_enterTurnaround k i

@[simp] theorem keeps_charSent (h : Keeps s t) (i : Fin 12) (x : Txn) : Keeps s (t.charSent i x) := by
  simp only [charSent]
  have k : Keeps s (t.modLine i (fun l => { l with charOut := none, sent := l.sent + 1 })) :=
    keeps_modLine_same h i _
  split_ifs
  · exact keeps_completeToGuard k i x _
  · exact keeps_completeToGuard k i x _
  · exact keeps_startChar k i
  · exact keeps_allSent k i

/-- A start bit on the receive side moves no transaction state. -/
theorem quietStart_pins (l : Line) : l.quietStart.txn = l.txn ∧ l.quietStart.lde = l.lde := by
  unfold Line.quietStart Line.beginUnsolicited; split <;> exact ⟨rfl, rfl⟩

/-- Nor does it start a timer. -/
theorem quietStart_onTime (l : Line) (n : Nat) : l.onTime n → l.quietStart.onTime n := by
  unfold Line.quietStart Line.beginUnsolicited; split <;> exact id

@[simp] theorem keeps_takeStart (h : Keeps s t) (i : Fin 12) : Keeps s (t.takeStart i) := by
  have q : Keeps s (t.modLine i Line.quietStart) := keeps_modLine_same h i _ quietStart_pins (fun l => quietStart_onTime l _)
  unfold takeStart; split
  · exact h
  · exact q
  · exact q
  · exact q
  · exact q
  · exact keeps_modLine_same h i _
  · exact keeps_earlyAnswer (keeps_modLine_same h i _) i
  · exact keeps_modLine_goto h i _ (ht := fun _ x => ⟨x.1, notPast_none _⟩)
  · exact keeps_modLine_same h i _

@[simp] theorem keeps_quietChar (h : Keeps s t) (i : Fin 12) (c : RxChar) : Keeps s (t.quietChar i c) := by
  unfold quietChar; split <;> simp [h]

@[simp] theorem keeps_takeChar (h : Keeps s t) (i : Fin 12) (c : RxChar) : Keeps s (t.takeChar i c) := by
  simp only [takeChar]
  have k : Keeps s (t.modLine i (fun l => { l with rxBusy := false })) :=
    keeps_modLine_same h i _
  split <;> simp [k]

@[simp] theorem keeps_quietBreak (h : Keeps s t) (i : Fin 12) : Keeps s (t.quietBreak i) := by
  unfold quietBreak; split <;> simp [h]

@[simp] theorem keeps_takeBreak (h : Keeps s t) (i : Fin 12) : Keeps s (t.takeBreak i) := by
  simp only [takeBreak]
  have k : Keeps s ((t.modLine i (fun l => { l with rxBusy := false, brk := true })).bump (.line i .breaks)) :=
    keeps_bump (keeps_modLine_same h i _) _
  split <;> simp [k]

@[simp] theorem keeps_takeGapEnd (h : Keeps s t) (i : Fin 12) : Keeps s (t.takeGapEnd i) := by
  unfold takeGapEnd; split <;> simp [h]

@[simp] theorem keeps_abortUnsolicited (h : Keeps s t) (i : Fin 12) : Keeps s (t.abortUnsolicited i) := by
  unfold abortUnsolicited; split
  next u _ _ =>
    have k : Keeps s (t.modLine i (fun l => { l with unsolicited := some { u with mode := .aborted } })) :=
      keeps_modLine_same h i _
    split <;> simp [k]
  · exact h
  · exact h
  · exact h

theorem keepsB_abortWaiting (h : KeepsB s t) (i : Fin 12) (x : Txn) : KeepsB s (t.abortWaiting i x) := by
  have m : Keeps t (t.modLine i (fun l => { l with hand := none })) := keeps_modLine_same (Keeps.rfl' t) i _
  simp only [abortWaiting]
  split
  · exact (keepsB_replyInPayload (h.then m) _ _ _ _ _).then (keeps_countOutcome (Keeps.rfl' _) i _)
  · split
    next hp => exact h.then (keeps_pollDone (keeps_take (keeps_countOutcome m i _) _ _ hp) _ _ _ _)
    · exact h.then (keeps_pollDone (keeps_countOutcome m i _) _ _ _ _)

@[simp] theorem keeps_abortTxn (h : Keeps s t) (i : Fin 12) (c : AbortCase) : Keeps s (t.abortTxn i c) := by
  unfold abortTxn; split
  · exact h
  · exact keeps_grantAll (keepsB_abortWaiting (keepsB_leaveWait h.toKeepsB _) i _)
  · simp [h]
  · simp [h]
  · exact keeps_modLine_same h i _

@[simp] theorem keeps_flushQueue (h : Keeps s t) (i : Fin 12) : Keeps s (t.flushQueue i) :=
  keeps_refuseAll (keeps_modLine_same h i _) i _ _

@[simp] theorem keeps_lineGranted (h : Keeps s t) (i : Fin 12) : Keeps s (t.lineGranted i) := by
  unfold lineGranted; split
  · split <;> simp [h]
  · exact h

@[simp] theorem keeps_lineActs (h : Keeps s t) (w : WaiterId) : Keeps s (t.lineActs w) := by
  unfold lineActs; split <;> simp [h]

@[simp] theorem keeps_abortLine (h : Keeps s t) (i : Fin 12) (f : Bool) : Keeps s (t.abortLine i f) := by
  simp only [abortLine]
  generalize (t.line i).abortCase = c
  have k := keeps_abortUnsolicited (keeps_abortTxn h i c) i
  have k2 : Keeps s (if f = true then ((t.abortTxn i c).abortUnsolicited i).flushQueue i
      else (t.abortTxn i c).abortUnsolicited i) := by
    split
    · exact keeps_flushQueue k i
    · exact k
  unfold abortMove; split <;> simp [k2]

end Sys2Proof.Machine.State
end

