-- ==== Sys2Proof/Laws/KeepsTrunk.lean ====
section
/-! SUPPORT. `Keeps` for the poll schedule, the trunk interface, the transmitter, the intake unit and the management
commands. -/

set_option Elab.async false

namespace Sys2Proof.Machine

/-! Runs of sequence numbers. -/

/-- A run one longer. -/
theorem seqRun_succ (a : Seq) (n : Nat) : seqRun a (n + 1) = seqRun a n ++ [a + BitVec.ofNat 6 n] := by
  simp [seqRun, List.range_succ]

/-- The end of a run is a run. -/
theorem drop_seqRun (a : Seq) (n k : Nat) : (seqRun a n).drop k = seqRun (a + BitVec.ofNat 6 k) (n - k) := by
  apply List.ext_getElem
  · simp [seqRun]
  · intro i h₁ h₂
    simp [seqRun]
    rw [BitVec.add_assoc, BitVec.ofNat_add]

/-- A run's length. -/
@[simp] theorem length_seqRun (a : Seq) (n : Nat) : (seqRun a n).length = n := by simp [seqRun]

/-- A number and its distance from another. -/
theorem add_ofNat_sub (a b : Seq) : a + BitVec.ofNat 6 (b - a).toNat = b := by
  apply BitVec.eq_of_toNat_eq
  simp only [BitVec.toNat_add, BitVec.toNat_ofNat, BitVec.toNat_sub]
  omega

/-- In UP a window that is right has (NextSeq − PeerAck) mod 64 frames (R151). -/
theorem Trunk.windowOk.length_eq {v : Trunk} (h : v.windowOk) (u : v.up = true) :
    v.retransmits.length = (v.nextSeq - v.peerAck).toNat := by
  have := congrArg List.length (h.1 u).1
  simpa using this

/-- The window after a new frame (R151). -/
theorem Trunk.windowOk.send {v w : Trunk} (h : v.windowOk) (hu : v.up = true)
    (hl : v.retransmits.length < Config.window) (f : SentFrame) (hf : f.seq = v.nextSeq)
    (a : w.up = v.up) (b : w.peerAck = v.peerAck) (c : w.nextSeq = v.nextSeq + 1)
    (d : w.retransmits = v.retransmits ++ [f]) : w.windowOk := by
  have hlen := h.length_eq hu
  have e : v.peerAck + BitVec.ofNat 6 (v.nextSeq - v.peerAck).toNat = v.nextSeq := add_ofNat_sub _ _
  have n : (v.nextSeq + 1 - v.peerAck).toNat = (v.nextSeq - v.peerAck).toNat + 1 := by
    have h8 : (v.nextSeq - v.peerAck).toNat < 8 := by rw [← hlen]; simpa [Config.window] using hl
    have : v.nextSeq + 1 - v.peerAck = (v.nextSeq - v.peerAck) + 1 := by
      rw [BitVec.sub_eq_add_neg, BitVec.sub_eq_add_neg, BitVec.add_assoc, BitVec.add_comm 1,
        ← BitVec.add_assoc]
    rw [this]
    generalize v.nextSeq - v.peerAck = d at h8
    rw [BitVec.toNat_add]
    simp; omega
  refine ⟨fun _ => ⟨?_, ?_⟩, fun hd => absurd (a ▸ hd) (by simp [hu])⟩
  · rw [d, b, c, n, seqRun_succ, List.map_append, (h.1 hu).1]
    rw [e, ← hf]; rfl
  · rw [d]; simp; omega

/-- The window after an acknowledgement (R151). -/
theorem Trunk.windowOk.ack {v w : Trunk} (h : v.windowOk) (ack : Seq) (hv : v.ackValid ack = true)
    (a : w.up = v.up) (b : w.peerAck = ack) (c : w.nextSeq = v.nextSeq)
    (d : w.retransmits = v.retransmits.drop (v.ackCount ack)) : w.windowOk := by
  simp only [Trunk.ackValid, decide_eq_true_eq] at hv
  refine ⟨fun hu => ⟨?_, ?_⟩, fun hd => ?_⟩
  · have hu' : v.up = true := a ▸ hu
    rw [d, b, c, List.map_drop, (h.1 hu').1, drop_seqRun]
    have e : v.peerAck + BitVec.ofNat 6 (v.ackCount ack) = ack := add_ofNat_sub _ _
    have n : (v.nextSeq - ack).toNat = (v.nextSeq - v.peerAck).toNat - v.ackCount ack := by
      have : v.nextSeq - ack = (v.nextSeq - v.peerAck) - (ack - v.peerAck) := by
        apply BitVec.eq_of_toNat_eq
        simp only [BitVec.toNat_sub]
        omega
      rw [this, BitVec.toNat_sub_of_le (by simpa [BitVec.le_def] using hv), Trunk.ackCount]
    rw [e, n]
  · have := (h.1 (a ▸ hu)).2
    rw [d]; simp; omega
  · rw [d, h.2 (a ▸ hd)]; simp

namespace State

variable {s t : State}

/-- A list of frames changed without their sequence numbers. -/
theorem keeps_setTrunk_seqs (h : Keeps s t) (v : Trunk)
    (hr : v.retransmits.map SentFrame.seq = t.trunk.retransmits.map SentFrame.seq)
    (hv : v.up = t.trunk.up ∧ v.linkUpPin = t.trunk.linkUpPin ∧ v.peerAck = t.trunk.peerAck ∧
      v.nextSeq = t.trunk.nextSeq := by exact ⟨rfl, rfl, rfl, rfl⟩)
    (ht : t.trunk.onTime t.clock → v.onTime t.clock := by exact id) : Keeps s (t.setTrunk v) := by
  obtain ⟨a, b, c, d⟩ := hv
  have hl : v.retransmits.length = t.trunk.retransmits.length := by simpa using congrArg List.length hr
  refine keeps_setTrunk h v (by simp [Trunk.pinOk, a, b]) (fun w => ⟨fun hu => ?_, fun hd => ?_⟩) ht
  · rw [hr, hl, c, d]; exact w.1 (a ▸ hu)
  · have := w.2 (a ▸ hd)
    rw [this] at hl
    simpa using hl

/-! The poll schedule. -/

theorem keeps_becomeDue (h : Keeps s t) (id : Fin 128) (p : Poll) (n : Nat)
    (hn : (∀ id, pollOnTime t.clock (t.poll id)) → t.clock ≤ n) : Keeps s (t.becomeDue id p n) :=
  keeps_selectIfIdle (keeps_modLine_same
    (keeps_setPoll h _ _ (fun x => by simpa [Poll.moveOn] using Nat.le_add_right_of_le (hn x))) _ _) _

theorem keeps_reachDue (h : Keeps s t) (id : Fin 128) (p : Poll) (n : Nat)
    (hn : (∀ id, pollOnTime t.clock (t.poll id)) → t.clock ≤ n) : Keeps s (t.reachDue id p n) := by
  have k : ∀ q : Poll, Keeps s (t.setPoll id (some (q.moveOn n))) := fun q =>
    keeps_setPoll h _ _ (fun x => by simpa [Poll.moveOn] using Nat.le_add_right_of_le (hn x))
  unfold reachDue; split
  · split
    · exact k p
    · exact keeps_becomeDue h id p n hn
  all_goals exact k p.overrun

@[simp] theorem keeps_activate (h : Keeps s t) : Keeps s t.activate := by
  refine Keeps.foldl _ _ (fun u id => ?_)
    (h.trans ⟨⟨rfl, rfl, rfl, id, id, id, id, id, id, ⟨id, id, id, fun x q => ?_, id⟩⟩, id⟩)
  · unfold phaseZero; split
    · split
      · exact keeps_reachDue (Keeps.rfl' u) _ _ _ (fun _ => Nat.le_refl _)
      · simp
    · simp
  · have := x q
    simp only [State.poll, get_mapVec] at this ⊢
    cases hp : t.polls.get q with
    | none => simp
    | some p =>
      simp only [hp, pollOnTime_some, Option.map_some, Poll.anchor] at this ⊢
      split
      · exact this
      · simp

@[simp] theorem keeps_deactivate (h : Keeps s t) : Keeps s t.deactivate := by
  refine h.trans ⟨⟨rfl, rfl, rfl, id, id, id, fun e i => ?_, id, id, ⟨id, id, fun e i => ?_, fun _ q => ?_, id⟩⟩, id⟩
  · have := e i
    simp only [Line.pinOk, State.line, deactivate, get_mapVec] at this ⊢
    exact this
  · have := e i
    simp only [Line.onTime, State.line, deactivate, get_mapVec] at this ⊢
    exact this
  · simp only [State.poll, deactivate, get_mapVec]
    cases t.polls.get q <;> simp [Poll.idle]

/-! The trunk interface. -/

@[simp] theorem keeps_releaseFrame (h : Keeps s t) (f : SentFrame) : Keeps s (t.releaseFrame f) :=
  keeps_grantAll (keepsB_release ((keepsB_freeRecordSlots h.toKeepsB _).then (keeps_freeEventSlots (Keeps.rfl' _) _)) _ _)

@[simp] theorem keeps_goBackEnds (h : Keeps s t) : Keeps s t.goBackEnds := by
  simp only [goBackEnds]
  split
  all_goals split
  all_goals first
    | exact h
    | exact keeps_setTrunk_same h _

@[simp] theorem keeps_startGoBack (h : Keeps s t) : Keeps s t.startGoBack := by
  refine keeps_bump (keeps_setTrunk_seqs h _ ?_ (ht := ?_)) _
  · simp [Function.comp_def]
  · exact fun x => ⟨x.1, x.2.1, notPast_none _, x.2.2.2⟩

theorem keeps_takeAck (h : Keeps s t) (ack : Seq) (hv : t.trunk.ackValid ack = true) :
    Keeps s (t.takeAck ack) := by
  refine keeps_goBackEnds (Keeps.foldl _ _ (fun u f => keeps_releaseFrame (Keeps.rfl' u) f) ?_)
  exact keeps_setTrunk h _ id (fun w => w.ack ack hv rfl rfl rfl rfl)

@[simp] theorem keeps_takeHeader (h : Keeps s t) (f : RxFrame) : Keeps s (t.takeHeader f) := by
  simp only [takeHeader]
  split
  next hv =>
    have k : Keeps s (if f.ackSeq = t.trunk.peerAck then t else t.takeAck f.ackSeq) := by
      split
      · exact h
      · exact keeps_takeAck h _ hv
    have k2 : Keeps s ((if f.ackSeq = t.trunk.peerAck then t else t.takeAck f.ackSeq).takeAllow f.allow) :=
      keeps_setTrunk_same k _
    generalize (if f.ackSeq = t.trunk.peerAck then t else t.takeAck f.ackSeq).takeAllow f.allow = u at k2
    unfold takeReject
    split
    · exact keeps_startGoBack k2
    · exact k2
  next => exact keeps_bump h _

@[simp] theorem keeps_goodFrame (h : Keeps s t) : Keeps s t.goodFrame := by
  simp only [goodFrame]
  split
  · exact keeps_setTrunk_same (keeps_bump h _) _
  · exact keeps_bump h _

@[simp] theorem keeps_startAckDelay (h : Keeps s t) : Keeps s t.startAckDelay := by
  unfold startAckDelay; split_ifs
  · exact h
  · exact keeps_setTrunk_same h _
  · exact keeps_setTrunk_same h _

/-- The link leaves UP, or a frame space ends in DOWN (R142). -/
theorem keeps_linkDown (h : Keeps s t) (c : SyncCause) (k : LinkCtr) : Keeps s (t.linkDown c k) := by
  have e : Keeps s (t.endSpace.enterDown c) :=
    h.trans ⟨⟨rfl, rfl, rfl, id, id, id, id, fun _ => rfl,
      fun _ => ⟨fun hu => absurd hu (by simp [endSpace, enterDown]), fun _ => rfl⟩,
      ⟨fun _ => by simp [Trunk.onTime, endSpace, enterDown, timer], id, id, id, id⟩⟩, id⟩
  simp only [linkDown]
  split <;> simp [e]

/-- A sequence reset on an empty retransmit list (R145). -/
theorem keeps_sequenceReset (h : Keeps s t) (hr : t.trunk.windowOk → t.trunk.retransmits = []) :
    Keeps s t.sequenceReset := by
  unfold sequenceReset
  refine keeps_bump ?_ _
  refine keeps_setTrunk h _ ?_ ?_
  · exact id
  intro w
  have := hr w
  exact ⟨fun _ => by simp [this, seqRun], fun _ => this⟩

@[simp] theorem keeps_startUpTimers (h : Keeps s t) : Keeps s t.startUpTimers :=
  keeps_setTrunk_same h _

/-- What a sequence reset leaves. -/
@[simp] theorem sequenceReset_trunk (s : State) :
    s.sequenceReset.trunk.retransmits = s.trunk.retransmits ∧ s.sequenceReset.trunk.nextSeq = 0 ∧
    s.sequenceReset.trunk.peerAck = 0 ∧ s.sequenceReset.trunk.up = s.trunk.up ∧
    s.sequenceReset.trunk.expectSeq = 0 ∧ s.sequenceReset.trunk.peerAllow = 0 := by
  simp [sequenceReset]

/-- The link enters UP just after a sequence reset with nothing outstanding (R146). -/
theorem keeps_enterUp (h : Keeps s t) (hr : t.trunk.windowOk → t.trunk.retransmits = [])
    (hn : t.trunk.nextSeq = 0) (hp : t.trunk.peerAck = 0) : Keeps s t.enterUp := by
  have e : Keeps s ((t.setTrunk { t.trunk with
      up := true, linkUpPin := true, syncPending := false, syncTimer := none, upBefore := true }).startUpTimers) :=
    keeps_startUpTimers (keeps_setTrunk h _ (fun _ => rfl)
      (fun w => ⟨fun _ => by simp [hr w, hn, hp, seqRun], fun hd => absurd hd (by simp)⟩))
  simp only [enterUp]
  split_ifs <;> simp [e]

/-- A controller SYNC taken in UP: the space ends and a new one begins (R144, R145). -/
theorem keeps_newSpace (h : Keeps s t) (c : SyncCause) :
    Keeps s ((t.endSpace.setTrunk { t.endSpace.trunk with cause := c }).sequenceReset) := by
  unfold sequenceReset
  refine keeps_bump ?_ _
  refine h.trans ⟨⟨rfl, rfl, rfl, id, id, id, id, id, ?_,
    ⟨fun x => ⟨x.1, by simp [endSpace]⟩, id, id, id, id⟩⟩, id⟩
  intro _
  exact ⟨fun _ => by simp [endSpace, seqRun], fun _ => rfl⟩

@[simp] theorem keeps_takeSync (h : Keeps s t) (e : Byte) : Keeps s (t.takeSync e) := by
  unfold takeSync
  split
  next hu =>
    dsimp only
    exact keeps_setTrunk_same (keeps_startUpTimers (keeps_newSpace h .peerSync)) _
  next hu =>
    dsimp only
    have hw : t.trunk.windowOk → t.trunk.retransmits = [] := fun w => w.2 (by simpa using hu)
    exact keeps_setTrunk_same (keeps_enterUp (keeps_sequenceReset h hw)
      (fun w => w.2 (by simpa using hu)) (by simp) (by simp)) _

@[simp] theorem keeps_takeSyncAck (h : Keeps s t) (e : Byte) : Keeps s (t.takeSyncAck e) := by
  unfold takeSyncAck
  split
  next hu =>
    have hd : t.trunk.up = false := by simp at hu; exact hu.1
    have hw : t.trunk.windowOk → t.trunk.retransmits = [] := fun w => w.2 hd
    dsimp only
    exact keeps_setTrunk_same (keeps_enterUp (keeps_sequenceReset h hw)
      (fun w => w.2 (by simpa using hd)) (by simp) (by simp)) _
  next => exact h

/-! The transmitter. -/

@[simp] theorem keeps_startFrame (h : Keeps s t) (k : FrameKind) (q : Seq) (p : List Byte) (g : Bool) :
    Keeps s (t.startFrame k q p g) := by
  simp only [startFrame]
  exact keeps_bump (keeps_setTrunk_same h _) _

@[simp] theorem keeps_sendGoBack (h : Keeps s t) (f : SentFrame) : Keeps s (t.sendGoBack f) := by
  refine keeps_bump (keeps_startFrame (keeps_setTrunk_seqs h _ ?_) _ _ _ _) _
  show (resendNext t.trunk.retransmits).map SentFrame.seq = _
  induction t.trunk.retransmits with
  | nil => rfl
  | cons a as ih =>
    unfold resendNext
    split <;> simp [ih]

theorem keeps_sendNew (h : Keeps s t) (hc : t.canAccept = true) : Keeps s t.sendNew := by
  simp only [canAccept, Bool.and_eq_true, Bool.not_eq_true', decide_eq_true_eq] at hc
  unfold sendNew
  dsimp only
  refine keeps_startFrame (keeps_setTrunk (keeps_setUplink h _) _ ?_ ?_) _ _ _ _
  · exact id
  · intro w
    exact Trunk.windowOk.send w hc.1.1 (by have := hc.2; simp only [trunk_setUplink]; omega)
      { seq := t.trunk.nextSeq, records := takeFit Config.maxPayload t.uplink, toResend := false } rfl
      rfl rfl rfl rfl

@[simp] theorem keeps_arbitrate (h : Keeps s t) : Keeps s t.arbitrate := by
  have later : Keeps s t.sendLater := by
    unfold sendLater
    split_ifs
    next ho => exact keeps_sendNew h (by simp [offers] at ho; exact ho.1)
    · exact keeps_startFrame h _ _ _ _
    · exact h
  have up : Keeps s t.sendUp := by
    unfold sendUp
    split
    · exact keeps_startFrame h _ _ _ _
    · split
      · exact keeps_sendGoBack h _
      · exact later
      · exact later
  unfold arbitrate chooseFrame
  split
  · split
    · split
      · exact keeps_startFrame (keeps_setTrunk_same h _) _ _ _ _
      · exact up
    · split
      · exact keeps_startFrame (keeps_setTrunk_same h _) _ _ _ _
      · exact h
  · exact h

/-- The end of a step keeps what every operation keeps. -/
@[simp] theorem keeps_close (h : Keeps s t) : Keeps s t.close :=
  keeps_flushLate (keeps_arbitrate (keeps_flushLate (keeps_goBackEnds h)))

/-! The intake unit. -/

/-- The frames that still have records are no more than all. -/
theorem length_unfinished (fs : List IntakeFrame) : (unfinished fs).length ≤ fs.length := by
  induction fs with
  | nil => exact Nat.le_refl _
  | cons f fs ih => unfold unfinished; split <;> simp; omega

@[simp] theorem keeps_reap (h : Keeps s t) : Keeps s t.reap := by
  simp only [reap]
  have k : Keeps s (t.setIntake { t.intake with frames := unfinished t.intake.frames }) :=
    keeps_setIntake h _ (length_unfinished _)
  split
  · exact keeps_allowRises k
  · exact k

@[simp] theorem keeps_dispatched (h : Keeps s t) (n : Nat) : Keeps s (t.dispatched n) := by
  refine keeps_reap (keeps_setIntake h _ ?_)
  show (moveOffset n t.intake.frames).length ≤ _
  cases t.intake.frames <;> simp [moveOffset]

theorem keeps_intakeAccept (h : Keeps s t) (q : Seq) (p : List Byte) (hf : 0 < t.freeSlots) :
    Keeps s (t.intakeAccept q p) := by
  refine keeps_reap (h.trans ⟨⟨rfl, rfl, rfl, id, id, fun _ => ?_, id, id, id, ⟨id, id, id, id, id⟩⟩, id⟩)
  simp [freeSlots] at hf
  simp [Intake.slotsOk]
  omega

theorem keeps_stallOn (h : Keeps s t) (st : Stall) (n : Need) (tm : Option Nat) (hg : ¬ t.grantsNow n = true)
    (ht : notPast t.clock tm) : Keeps s (t.stallOn st n tm) := by
  refine keeps_joinWait ?_ _ hg
  exact keeps_setIntake h _ (Nat.le_refl _) (fun _ => ht)

/-- The hold timer as a stall starts it (R132). -/
theorem notPast_holdStart (t : State) : notPast t.clock t.holdStart := by
  unfold holdStart; split <;> simp

@[simp] theorem keeps_unstall (h : Keeps s t) : Keeps s t.unstall := by
  unfold unstall
  exact keeps_setIntake h _ (Nat.le_refl _) (fun _ => notPast_none _)

@[simp] theorem keeps_refusalBuilt (h : Keeps s t) (r : LineRequest) (o : TxnOutcome) :
    Keeps s (t.refusalBuilt r o) := by
  refine keeps_dispatched ?_ _
  unfold countRefusal
  split <;> simp [h]

@[simp] theorem keeps_askRefusal (h : Keeps s t) (r : LineRequest) (o : TxnOutcome) :
    Keeps s (t.askRefusal r o) := by
  unfold askRefusal; split
  next hg => exact keeps_refusalBuilt (keeps_take h _ _ (passes_of_grantsNow _ hg)) r o
  next hg => exact keeps_stallOn h _ _ _ hg (notPast_none _)

@[simp] theorem keeps_joinQueue (h : Keeps s t) (i : Fin 12) (r : Request) : Keeps s (t.joinQueue i r) :=
  keeps_selectIfIdle (keeps_bump (keeps_modLine_same h i _) _) i

@[simp] theorem keeps_placePayload (h : Keeps s t) (r : LineRequest) : Keeps s (t.placePayload r) := by
  unfold placePayload; split
  · exact keeps_dispatched h _
  · split
    · exact keeps_dispatched (keeps_refuseOwn h _ _ _) _
    · exact keeps_dispatched (keeps_joinQueue h _ _) _

@[simp] theorem keeps_askPayload (h : Keeps s t) (r : LineRequest) : Keeps s (t.askPayload r) := by
  unfold askPayload; split
  next hg => exact keeps_placePayload (keeps_take h _ _ (passes_of_grantsNow _ hg)) r
  next hg => exact keeps_stallOn h _ _ _ hg (notPast_holdStart _)

@[simp] theorem keeps_dispatchRequest (h : Keeps s t) (r : LineRequest) : Keeps s (t.dispatchRequest r) := by
  unfold dispatchRequest; split <;> simp [h]

@[simp] theorem keeps_dropMalformed (h : Keeps s t) (f : IntakeFrame) : Keeps s (t.dropMalformed f) :=
  keeps_dispatched (keeps_bump (keeps_raiseEvent h _ _ _) _) _

@[simp] theorem keeps_holdExpired (h : Keeps s t) : Keeps s t.holdExpired :=
  keeps_grantAll (((keepsB_leaveWait h.toKeepsB _).then (keeps_unstall (Keeps.rfl' _))).then (keeps_bump (Keeps.rfl' _) _))

@[simp] theorem keeps_dropCommand (h : Keeps s t) (m : MgmtRequest) : Keeps s (t.dropCommand m) :=
  keeps_dispatched (keeps_raiseEvent h _ _ _) _

/-! Received frames and timers. -/

theorem keeps_acceptData (h : Keeps s t) (f : RxFrame) (hf : 0 < t.freeSlots) : Keeps s (t.acceptData f) := by
  unfold acceptData
  refine keeps_intakeAccept (keeps_startAckDelay (keeps_setTrunk_same h _)) _ _ ?_
  unfold startAckDelay
  split_ifs <;> exact hf

@[simp] theorem keeps_takeData (h : Keeps s t) (f : RxFrame) : Keeps s (t.takeData f) := by
  unfold takeData
  split_ifs
  next hf => exact keeps_acceptData h f hf
  · exact keeps_bump h _
  · exact keeps_setTrunk_same (keeps_bump h _) _
  · unfold outOfWindow
    dsimp only
    split
    · exact keeps_bump h _
    · exact keeps_setTrunk_same (keeps_bump h _) _

@[simp] theorem keeps_receiveData (h : Keeps s t) (f : RxFrame) : Keeps s (t.receiveData f) := by
  unfold receiveData; split
  · exact keeps_takeData (keeps_takeHeader (keeps_goodFrame h) f) f
  · exact keeps_goodFrame h

@[simp] theorem keeps_retransmitExpired (h : Keeps s t) : Keeps s t.retransmitExpired := by
  unfold retransmitExpired
  dsimp only
  split
  · exact keeps_startGoBack (keeps_setTrunk_same h _)
  · exact keeps_linkDown (keeps_setTrunk_same h _) _ _

/-! Management commands. -/

@[simp] theorem keeps_rewritePoll (h : Keeps s t) (id : Fin 128) (d : PollDef) : Keeps s (t.rewritePoll id d) := by
  have k : Keeps s (t.setPoll id (some (t.newPoll d))) :=
    keeps_setPoll h _ _ (fun _ => by simp only [newPoll, pollOnTime_some]; split <;> simp)
  unfold rewritePoll; dsimp only; split
  · exact keeps_reachDue k _ _ _ (fun _ => Nat.le_refl _)
  · exact k

@[simp] theorem keeps_leaveDue (h : Keeps s t) (i : Fin 12) (id : Fin 128) : Keeps s (t.leaveDue i id) :=
  keeps_modLine_same h i _

@[simp] theorem keeps_setRun (h : Keeps s t) (b : Bool) : Keeps s (t.setRun b) := by
  unfold setRun; dsimp only; split_ifs <;> simp [h]

@[simp] theorem keeps_clearSet (h : Keeps s t) (c : CounterSet) : Keeps s (t.clearSet c) := by
  unfold clearSet; split
  · simp [h]
  · exact keeps_setPool (keeps_setCtrs h _) _ rfl (Nat.le_refl _) (Nat.le_refl _) id
  · simp [h]

/-- A command keeps what every operation keeps. -/
theorem keeps_runCommand (h : Keeps s t) (m : MgmtRequest) : Keeps s (t.runCommand m).state := by
  unfold runCommand
  split
  · exact h
  · unfold identify; split <;> exact h
  · unfold linkConfig; split_ifs
    next hc => exact keeps_testHold (keeps_setCfg h _ hc)
    · exact h
    · exact h
  · unfold linkRead; split <;> exact h
  · unfold lineConfig; split
    · split
      · unfold configLine; split
        · unfold configNow; split <;> simp [h]
        · dsimp only
          exact keeps_modLine_same h _ _
      · exact h
      · exact h
    · exact h
  · unfold lineRead; split
    · split <;> exact h
    · exact h
  · unfold lineAbort; split
    · split
      · exact keeps_abortLine h _ _
      · exact h
    · exact h
  · unfold knownSet; split
    · split
      · split
        · dsimp only
          exact keeps_modLine_same h _ _
        · exact h
      · exact h
    · exact h
  · unfold pollSet writePoll; split
    · split
      · split
        · split
          · exact keeps_rewritePoll h _ _
          · split
            · exact keeps_rewritePoll h _ _
            · exact keeps_rewritePoll (keeps_leaveDue h _ _) _ _
            all_goals exact h
        · exact h
      all_goals exact h
    · exact h
  · unfold pollClear clearPoll; split
    · split
      · split
        · exact h
        next q hp =>
          have k := fun x : ∀ id, pollOnTime t.clock (t.poll id) => hp ▸ x _
          split
          · exact keeps_setPoll h _ _ (fun _ => pollOnTime_none _)
          · exact keeps_setPoll (keeps_leaveDue h _ _) _ _ (fun _ => pollOnTime_none _)
          · exact keeps_setPoll h _ _ k
          · exact h
      · exact h
    · exact h
  · unfold pollRead; split
    · split <;> exact h
    · exact h
  · unfold pollRunCmd; split
    · split
      · exact keeps_setRun h _
      · exact h
    · exact h
  · unfold counterRead; split
    · split
      · dsimp only; split
        · exact keeps_clearSet h _
        · exact h
      · exact h
    · exact h
  · unfold badRestart; split <;> exact h
  · unfold echoCmd; split <;> exact h

@[simp] theorem keeps_performCommand (h : Keeps s t) (m : MgmtRequest) : Keeps s (t.performCommand m) := by
  have k := keeps_runCommand h m
  unfold performCommand CmdResult.respond
  exact keeps_dispatched (keeps_join (keeps_release k _ _) _ _ _) _

@[simp] theorem keeps_dispatchCommand (h : Keeps s t) (m : MgmtRequest) : Keeps s (t.dispatchCommand m) := by
  unfold dispatchCommand; split
  next hg => exact keeps_performCommand (keeps_take h _ _ (passes_of_grantsNow _ hg)) m
  next hg => exact keeps_stallOn h _ _ _ hg (notPast_holdStart _)

@[simp] theorem keeps_setGranted (h : Keeps s t) (g : List WaiterId) : Keeps s (t.setGranted g) :=
  h.trans ⟨⟨rfl, rfl, rfl, id, id, id, id, id, id, .same⟩, id⟩

@[simp] theorem keeps_grantActs (h : Keeps s t) (w : WaiterId) : Keeps s (t.grantActs w) := by
  unfold grantActs intakeGranted
  split
  · simp [h]
  · split <;> simp [h]

/-- The acts of the granted keep what every operation keeps (R97). -/
@[simp] theorem keeps_actGranted (h : Keeps s t) : Keeps s t.actGranted :=
  Keeps.foldl _ _ (fun u w => keeps_lineActs (Keeps.rfl' u) w)
    (keeps_setGranted (Keeps.foldl _ _ (fun u w => keeps_grantActs (Keeps.rfl' u) w) (keeps_setGranted h _)) _)

/-- The end of a step keeps what every operation keeps. -/
@[simp] theorem keeps_finish (h : Keeps s t) : Keeps s t.finish := keeps_close (keeps_actGranted h)

end State

end Sys2Proof.Machine
end

