-- ==== Sys2Proof/Laws/Stream.lean ====
section
/-! SUPPORT. What the shared operations do to the stream of results, and what the end of a step leaves unchanged. -/

set_option Elab.async false

namespace Sys2Proof.Machine.State

/-- A record joins: a result stands at the end of the stream (R106). -/
@[simp] theorem join_results (s : State) (b : Body) (u : Bool) (n : Nat) :
    (s.join b u n).results = s.results ++ (if (s.stamp b u n).isEvent then [] else [s.stamp b u n]) ∧
    (s.join b u n).lateResults = s.lateResults := by
  constructor
  · simp only [results, stream, join_frame]
    rw [← List.append_assoc, List.filter_append]
    cases h : (s.stamp b u n).isEvent <;> simp [h]
  · simp [lateResults]

@[simp] theorem stamp_event (s : State) (k : EventKind) (l : Byte) (m : Nat) (d : BitVec 32) (u : Bool) (n : Nat) :
    (s.stamp (.event k l m d) u n).isEvent = true := rfl

@[simp] theorem raiseEvent_results (s : State) (k : EventKind) (l : Byte) (d : BitVec 32) :
    (s.raiseEvent k l d).results = s.results ∧ (s.raiseEvent k l d).lateResults = s.lateResults := by
  unfold raiseEvent eventBody
  split <;> simp [results, stream, lateResults, Record.isEvent, stamp]

@[simp] theorem raiseHalf_results (s : State) (c : CtrId) :
    (s.raiseHalf c).results = s.results ∧ (s.raiseHalf c).lateResults = s.lateResults := by
  unfold raiseHalf eventBody
  split <;> simp [results, stream, lateResults, Record.isEvent, stamp]

@[simp] theorem bump_results (s : State) (c : CtrId) :
    (s.bump c).results = s.results ∧ (s.bump c).lateResults = s.lateResults := by
  simp only [bump]
  split
  · simp; simp [results, stream, lateResults]
  · simp [results, stream, lateResults]

@[simp] theorem setPool_results (s : State) (p : Pool) :
    (s.setPool p).results = s.results ∧ (s.setPool p).lateResults = s.lateResults := by
  exact ⟨rfl, rfl⟩

@[simp] theorem setTrunk_lateResults (s : State) (t : Trunk) : (s.setTrunk t).lateResults = s.lateResults := rfl

@[simp] theorem setUplink_lateResults (s : State) (u : List Record) : (s.setUplink u).lateResults = s.lateResults :=
  rfl

/-- An update of the trunk interface outside the retransmit list changes no result. -/
theorem setTrunk_results (s : State) (t : Trunk) (h : t.retransmits = s.trunk.retransmits) :
    (s.setTrunk t).results = s.results := by
  simp [results, stream, h]

@[simp] theorem setIntake_results (s : State) (k : Intake) :
    (s.setIntake k).results = s.results ∧ (s.setIntake k).lateResults = s.lateResults := by
  exact ⟨rfl, rfl⟩

@[simp] theorem setCtrs_results (s : State) (c : Counters) :
    (s.setCtrs c).results = s.results ∧ (s.setCtrs c).lateResults = s.lateResults := by
  exact ⟨rfl, rfl⟩

@[simp] theorem setCfg_results (s : State) (c : LinkConfig) :
    (s.setCfg c).results = s.results ∧ (s.setCfg c).lateResults = s.lateResults := by
  exact ⟨rfl, rfl⟩

@[simp] theorem setPollRun_results (s : State) (b : Bool) :
    (s.setPollRun b).results = s.results ∧ (s.setPollRun b).lateResults = s.lateResults := by
  exact ⟨rfl, rfl⟩

@[simp] theorem setLine_results (s : State) (i : Fin 12) (l : Line) :
    (s.setLine i l).results = s.results ∧ (s.setLine i l).lateResults = s.lateResults := by
  exact ⟨rfl, rfl⟩

@[simp] theorem modLine_results (s : State) (i : Fin 12) (f : Line → Line) :
    (s.modLine i f).results = s.results ∧ (s.modLine i f).lateResults = s.lateResults := by
  exact ⟨rfl, rfl⟩

@[simp] theorem setPoll_results (s : State) (p : Fin 128) (e : Option Poll) :
    (s.setPoll p e).results = s.results ∧ (s.setPoll p e).lateResults = s.lateResults := by
  exact ⟨rfl, rfl⟩

@[simp] theorem allowRises_results (s : State) :
    (s.allowRises).results = s.results ∧ (s.allowRises).lateResults = s.lateResults := by
  unfold allowRises
  split <;> simp [results, stream, lateResults]

@[simp] theorem holdOn_results (s : State) :
    (s.holdOn).results = s.results ∧ (s.holdOn).lateResults = s.lateResults := by
  simp [holdOn]

@[simp] theorem holdOff_results (s : State) :
    (s.holdOff).results = s.results ∧ (s.holdOff).lateResults = s.lateResults := by
  simp only [holdOff]
  split <;> simp

@[simp] theorem testHold_results (s : State) :
    (s.testHold).results = s.results ∧ (s.testHold).lateResults = s.lateResults := by
  unfold testHold
  split_ifs <;> simp

@[simp] theorem freeChanged_results (s : State) :
    (s.freeChanged).results = s.results ∧ (s.freeChanged).lateResults = s.lateResults := by
  simp [freeChanged]

@[simp] theorem take_results (s : State) (n : Need) (into : Into) :
    (s.take n into).results = s.results ∧ (s.take n into).lateResults = s.lateResults := by
  simp [take]

@[simp] theorem fill_results (s : State) (n : Nat) :
    (s.fill n).results = s.results ∧ (s.fill n).lateResults = s.lateResults := by
  simp [fill]

@[simp] theorem unfill_results (s : State) (n : Nat) :
    (s.unfill n).results = s.results ∧ (s.unfill n).lateResults = s.lateResults := by
  simp [unfill]

@[simp] theorem release_results (s : State) (a b : Nat) :
    (s.release a b).results = s.results ∧ (s.release a b).lateResults = s.lateResults := by
  unfold release
  split <;> simp

@[simp] theorem freeRecordSlots_results (s : State) (n : Nat) :
    (s.freeRecordSlots n).results = s.results ∧ (s.freeRecordSlots n).lateResults = s.lateResults := by
  simp [freeRecordSlots]

@[simp] theorem freeEventSlots_results (s : State) (n : Nat) :
    (s.freeEventSlots n).results = s.results ∧ (s.freeEventSlots n).lateResults = s.lateResults := by
  simp [freeEventSlots]

@[simp] theorem settle_results (s : State) (a b c d : Nat) :
    (s.settle a b c d).results = s.results ∧ (s.settle a b c d).lateResults = s.lateResults := by
  simp [settle]

@[simp] theorem joinWait_results (s : State) (w : Waiter) :
    (s.joinWait w).results = s.results ∧ (s.joinWait w).lateResults = s.lateResults := by
  simp [joinWait]

@[simp] theorem leaveWait_results (s : State) (w : WaiterId) :
    (s.leaveWait w).results = s.results ∧ (s.leaveWait w).lateResults = s.lateResults := by
  simp [leaveWait]

/-! The end of a step. -/

@[simp] theorem goBackEnds_results (s : State) :
    s.goBackEnds.results = s.results ∧ s.goBackEnds.lateResults = s.lateResults := by
  unfold goBackEnds
  dsimp only
  split
  all_goals split
  all_goals exact ⟨rfl, rfl⟩

@[simp] theorem flushLate_results (s : State) :
    s.flushLate.results = s.results ++ s.lateResults ∧ s.flushLate.lateResults = [] := by
  constructor
  · simp only [results, stream, lateResults, flushLate_frame, ← List.append_assoc, List.filter_append]
  · simp [lateResults]

@[simp] theorem startFrame_results (s : State) (k : FrameKind) (q : Seq) (p : List Byte) (g : Bool) :
    (s.startFrame k q p g).results = s.results ∧ (s.startFrame k q p g).lateResults = s.lateResults := by
  simp only [startFrame, bump_results]
  simp [results, stream, lateResults, Trunk.clearReasons]

/-- Marking a frame as resent changes no record. -/
theorem resendNext_records (fs : List SentFrame) :
    (resendNext fs).map SentFrame.records = fs.map SentFrame.records := by
  induction fs with
  | nil => rfl
  | cons a as ih => unfold resendNext; split <;> simp [ih]

@[simp] theorem sendGoBack_results (s : State) (f : SentFrame) :
    (s.sendGoBack f).results = s.results ∧ (s.sendGoBack f).lateResults = s.lateResults := by
  simp only [sendGoBack, bump_results, startFrame_results]
  simp [results, stream, lateResults, resendNext_records]

/-- What a frame takes stands at the head of the queue (R114). -/
theorem takeFit_prefix (n : Nat) (q : List Record) : takeFit n q ++ q.drop (takeFit n q).length = q := by
  induction q generalizing n with
  | nil => simp [takeFit]
  | cons r rs ih =>
    unfold takeFit
    split
    · simp [ih]
    · simp

@[simp] theorem sendNew_results (s : State) :
    s.sendNew.results = s.results ∧ s.sendNew.lateResults = s.lateResults := by
  simp only [sendNew, startFrame_results]
  constructor
  · simp only [results, stream, trunk_setTrunk, uplink_setTrunk, uplink_setUplink]
    simp [takeFit_prefix]
  · simp [lateResults]

@[simp] theorem arbitrate_results (s : State) :
    s.arbitrate.results = s.results ∧ s.arbitrate.lateResults = s.lateResults := by
  have later : s.sendLater.results = s.results ∧ s.sendLater.lateResults = s.lateResults := by
    unfold sendLater; split_ifs <;> simp [sendCtrl]
  have up : s.sendUp.results = s.results ∧ s.sendUp.lateResults = s.lateResults := by
    unfold sendUp
    split
    · simp [sendCtrl]
    · split
      · simp
      · exact later
      · exact later
  unfold arbitrate chooseFrame
  split
  · split
    · split
      · simp only [sendSyncAck, startFrame_results]; exact ⟨rfl, rfl⟩
      · exact up
    · split
      · simp only [sendSync, startFrame_results]; exact ⟨rfl, rfl⟩
      · exact ⟨rfl, rfl⟩
  · exact ⟨rfl, rfl⟩

/-- The end of a step sends what it sends: the stream of results is the same, with what was kept back behind it. -/
@[simp] theorem close_results (s : State) : s.close.results = s.results ++ s.lateResults := by
  simp [close]

/-! The whole stream, EVENT records included. -/

@[simp] theorem startFrame_stream (s : State) (k : FrameKind) (q : Seq) (p : List Byte) (g : Bool) :
    (s.startFrame k q p g).stream = s.stream := by
  simp [startFrame, stream, Trunk.clearReasons]

@[simp] theorem goBackEnds_stream (s : State) : s.goBackEnds.stream = s.stream ∧ s.goBackEnds.late = s.late := by
  unfold goBackEnds
  dsimp only
  split
  all_goals split
  all_goals exact ⟨rfl, rfl⟩

@[simp] theorem arbitrate_stream (s : State) : s.arbitrate.stream = s.stream := by
  have again : ∀ f, (s.sendGoBack f).stream = s.stream := by
    intro f
    have : ((s.setTrunk { s.trunk with retransmits := resendNext s.trunk.retransmits }).startFrame .data f.seq
        (payloadOf f.records) true).stream = s.stream := by
      rw [startFrame_stream]
      simp [stream, resendNext_records]
    rw [← this]
    simp [sendGoBack, stream]
  have new : s.sendNew.stream = s.stream := by
    simp only [sendNew, startFrame_stream]
    simp only [stream, trunk_setTrunk, uplink_setTrunk, uplink_setUplink]
    simp [takeFit_prefix]
  have later : s.sendLater.stream = s.stream := by
    unfold sendLater
    split_ifs
    · exact new
    · exact startFrame_stream s _ _ _ _
    · rfl
  have up : s.sendUp.stream = s.stream := by
    unfold sendUp
    split
    · exact startFrame_stream s _ _ _ _
    · split
      · exact again _
      · exact later
      · exact later
  unfold arbitrate chooseFrame
  split
  · split
    · split
      · simp only [sendSyncAck, startFrame_stream]; rfl
      · exact up
    · split
      · simp only [sendSync, startFrame_stream]; rfl
      · rfl
  · rfl

/-- The end of a step keeps the stream and adds what was kept back, then COUNTER_HALF events of its own. -/
theorem close_stream (s : State) : s.stream ++ s.late <+: s.close.stream := by
  have h : ∀ u : State, u.flushLate.stream = u.stream ++ u.late := fun u => by simp [stream]
  refine ⟨s.goBackEnds.flushLate.arbitrate.late, ?_⟩
  rw [close, h, arbitrate_stream, h]; simp

@[simp] theorem goBackEnds_frame (s : State) :
    (s.goBackEnds).granted = s.granted ∧ (s.goBackEnds).clock = s.clock ∧ (s.goBackEnds).cfg = s.cfg ∧ (s.goBackEnds).intake = s.intake ∧
    (s.goBackEnds).lines = s.lines ∧ (s.goBackEnds).polls = s.polls ∧ (s.goBackEnds).pollRun = s.pollRun ∧
    (s.goBackEnds).pending = s.pending ∧ (∀ i, (s.goBackEnds).line i = s.line i) ∧
    (∀ x, (s.goBackEnds).poll x = s.poll x) ∧ (s.goBackEnds).pool.free = s.pool.free ∧
    (s.goBackEnds).pool.reserved = s.pool.reserved ∧ (s.goBackEnds).pool.held = s.pool.held ∧
    (s.goBackEnds).pool.slotsUsed = s.pool.slotsUsed ∧ (s.goBackEnds).pool.waitList = s.pool.waitList ∧
    (s.goBackEnds).pool.hold = s.pool.hold ∧ (s.goBackEnds).pool.minFree = s.pool.minFree ∧
    (s.goBackEnds).trunk.up = s.trunk.up ∧ (s.goBackEnds).trunk.linkUpPin = s.trunk.linkUpPin ∧
    (s.goBackEnds).trunk.epoch = s.trunk.epoch ∧ (s.goBackEnds).trunk.cause = s.trunk.cause ∧
    (s.goBackEnds).trunk.lastAccepted = s.trunk.lastAccepted ∧
    (s.goBackEnds).trunk.anyAccepted = s.trunk.anyAccepted ∧ (s.goBackEnds).trunk.upBefore = s.trunk.upBefore ∧
    (s.goBackEnds).trunk.downSince = s.trunk.downSince ∧ (s.goBackEnds).trunk.peerAck = s.trunk.peerAck ∧
    (s.goBackEnds).trunk.peerAllow = s.trunk.peerAllow ∧ (s.goBackEnds).trunk.expiries = s.trunk.expiries ∧
    (s.goBackEnds).trunk.expectSeq = s.trunk.expectSeq ∧ (s.goBackEnds).trunk.rejectSent = s.trunk.rejectSent ∧
    (s.goBackEnds).trunk.syncTimer = s.trunk.syncTimer ∧
        (s.goBackEnds).trunk.silenceTimer = s.trunk.silenceTimer := by
  unfold goBackEnds
  dsimp only
  split
  all_goals split
  all_goals simp

@[simp] theorem startFrame_frame (s : State) (k : FrameKind) (q : Seq) (p : List Byte) (g : Bool) :
    (s.startFrame k q p g).granted = s.granted ∧ (s.startFrame k q p g).clock = s.clock ∧ (s.startFrame k q p g).cfg = s.cfg ∧
    (s.startFrame k q p g).intake = s.intake ∧ (s.startFrame k q p g).lines = s.lines ∧
    (s.startFrame k q p g).polls = s.polls ∧ (s.startFrame k q p g).pollRun = s.pollRun ∧
    (s.startFrame k q p g).pending = s.pending ∧ (∀ i, (s.startFrame k q p g).line i = s.line i) ∧
    (∀ x, (s.startFrame k q p g).poll x = s.poll x) ∧ (s.startFrame k q p g).pool.free = s.pool.free ∧
    (s.startFrame k q p g).pool.reserved = s.pool.reserved ∧ (s.startFrame k q p g).pool.held = s.pool.held ∧
    (s.startFrame k q p g).pool.slotsUsed = s.pool.slotsUsed ∧
    (s.startFrame k q p g).pool.waitList = s.pool.waitList ∧ (s.startFrame k q p g).pool.hold = s.pool.hold ∧
    (s.startFrame k q p g).pool.minFree = s.pool.minFree ∧ (s.startFrame k q p g).trunk.up = s.trunk.up ∧
    (s.startFrame k q p g).trunk.linkUpPin = s.trunk.linkUpPin ∧
    (s.startFrame k q p g).trunk.epoch = s.trunk.epoch ∧ (s.startFrame k q p g).trunk.cause = s.trunk.cause ∧
    (s.startFrame k q p g).trunk.lastAccepted = s.trunk.lastAccepted ∧
    (s.startFrame k q p g).trunk.anyAccepted = s.trunk.anyAccepted ∧
    (s.startFrame k q p g).trunk.upBefore = s.trunk.upBefore ∧
    (s.startFrame k q p g).trunk.downSince = s.trunk.downSince ∧
    (s.startFrame k q p g).trunk.peerAck = s.trunk.peerAck ∧
    (s.startFrame k q p g).trunk.peerAllow = s.trunk.peerAllow ∧
    (s.startFrame k q p g).trunk.expiries = s.trunk.expiries ∧
    (s.startFrame k q p g).trunk.expectSeq = s.trunk.expectSeq ∧
    (s.startFrame k q p g).trunk.rejectSent = s.trunk.rejectSent ∧
    (s.startFrame k q p g).trunk.syncTimer = s.trunk.syncTimer ∧
    (s.startFrame k q p g).trunk.silenceTimer = s.trunk.silenceTimer := by
  simp [startFrame, Trunk.clearReasons]

@[simp] theorem sendGoBack_frame (s : State) (f : SentFrame) :
    (s.sendGoBack f).granted = s.granted ∧ (s.sendGoBack f).clock = s.clock ∧ (s.sendGoBack f).cfg = s.cfg ∧ (s.sendGoBack f).intake = s.intake ∧
    (s.sendGoBack f).lines = s.lines ∧ (s.sendGoBack f).polls = s.polls ∧ (s.sendGoBack f).pollRun = s.pollRun ∧
    (s.sendGoBack f).pending = s.pending ∧ (∀ i, (s.sendGoBack f).line i = s.line i) ∧
    (∀ x, (s.sendGoBack f).poll x = s.poll x) ∧ (s.sendGoBack f).pool.free = s.pool.free ∧
    (s.sendGoBack f).pool.reserved = s.pool.reserved ∧ (s.sendGoBack f).pool.held = s.pool.held ∧
    (s.sendGoBack f).pool.slotsUsed = s.pool.slotsUsed ∧ (s.sendGoBack f).pool.waitList = s.pool.waitList ∧
    (s.sendGoBack f).pool.hold = s.pool.hold ∧ (s.sendGoBack f).pool.minFree = s.pool.minFree ∧
    (s.sendGoBack f).trunk.up = s.trunk.up ∧ (s.sendGoBack f).trunk.linkUpPin = s.trunk.linkUpPin ∧
    (s.sendGoBack f).trunk.epoch = s.trunk.epoch ∧ (s.sendGoBack f).trunk.cause = s.trunk.cause ∧
    (s.sendGoBack f).trunk.lastAccepted = s.trunk.lastAccepted ∧
    (s.sendGoBack f).trunk.anyAccepted = s.trunk.anyAccepted ∧ (s.sendGoBack f).trunk.upBefore = s.trunk.upBefore ∧
    (s.sendGoBack f).trunk.downSince = s.trunk.downSince ∧ (s.sendGoBack f).trunk.peerAck = s.trunk.peerAck ∧
    (s.sendGoBack f).trunk.peerAllow = s.trunk.peerAllow ∧ (s.sendGoBack f).trunk.expiries = s.trunk.expiries ∧
    (s.sendGoBack f).trunk.expectSeq = s.trunk.expectSeq ∧ (s.sendGoBack f).trunk.rejectSent = s.trunk.rejectSent ∧
    (s.sendGoBack f).trunk.syncTimer = s.trunk.syncTimer ∧
    (s.sendGoBack f).trunk.silenceTimer = s.trunk.silenceTimer := by
  simp [sendGoBack]

@[simp] theorem sendNew_frame (s : State) :
    (s.sendNew).granted = s.granted ∧ (s.sendNew).clock = s.clock ∧ (s.sendNew).cfg = s.cfg ∧ (s.sendNew).intake = s.intake ∧
    (s.sendNew).lines = s.lines ∧ (s.sendNew).polls = s.polls ∧ (s.sendNew).pollRun = s.pollRun ∧
    (s.sendNew).pending = s.pending ∧ (∀ i, (s.sendNew).line i = s.line i) ∧ (∀ x, (s.sendNew).poll x = s.poll x) ∧
    (s.sendNew).pool.free = s.pool.free ∧ (s.sendNew).pool.reserved = s.pool.reserved ∧
    (s.sendNew).pool.held = s.pool.held ∧ (s.sendNew).pool.slotsUsed = s.pool.slotsUsed ∧
    (s.sendNew).pool.waitList = s.pool.waitList ∧ (s.sendNew).pool.hold = s.pool.hold ∧
    (s.sendNew).pool.minFree = s.pool.minFree ∧ (s.sendNew).trunk.up = s.trunk.up ∧
    (s.sendNew).trunk.linkUpPin = s.trunk.linkUpPin ∧ (s.sendNew).trunk.epoch = s.trunk.epoch ∧
    (s.sendNew).trunk.cause = s.trunk.cause ∧ (s.sendNew).trunk.lastAccepted = s.trunk.lastAccepted ∧
    (s.sendNew).trunk.anyAccepted = s.trunk.anyAccepted ∧ (s.sendNew).trunk.upBefore = s.trunk.upBefore ∧
    (s.sendNew).trunk.downSince = s.trunk.downSince ∧ (s.sendNew).trunk.peerAck = s.trunk.peerAck ∧
    (s.sendNew).trunk.peerAllow = s.trunk.peerAllow ∧ (s.sendNew).trunk.expiries = s.trunk.expiries ∧
    (s.sendNew).trunk.expectSeq = s.trunk.expectSeq ∧ (s.sendNew).trunk.rejectSent = s.trunk.rejectSent ∧
    (s.sendNew).trunk.syncTimer = s.trunk.syncTimer ∧ (s.sendNew).trunk.silenceTimer = s.trunk.silenceTimer := by
  simp [sendNew]

@[simp] theorem sendLater_frame (s : State) :
    (s.sendLater).granted = s.granted ∧ (s.sendLater).clock = s.clock ∧ (s.sendLater).cfg = s.cfg ∧ (s.sendLater).intake = s.intake ∧
    (s.sendLater).lines = s.lines ∧ (s.sendLater).polls = s.polls ∧ (s.sendLater).pollRun = s.pollRun ∧
    (s.sendLater).pending = s.pending ∧ (∀ i, (s.sendLater).line i = s.line i) ∧
    (∀ x, (s.sendLater).poll x = s.poll x) ∧ (s.sendLater).pool.free = s.pool.free ∧
    (s.sendLater).pool.reserved = s.pool.reserved ∧ (s.sendLater).pool.held = s.pool.held ∧
    (s.sendLater).pool.slotsUsed = s.pool.slotsUsed ∧ (s.sendLater).pool.waitList = s.pool.waitList ∧
    (s.sendLater).pool.hold = s.pool.hold ∧ (s.sendLater).pool.minFree = s.pool.minFree ∧
    (s.sendLater).trunk.up = s.trunk.up ∧ (s.sendLater).trunk.linkUpPin = s.trunk.linkUpPin ∧
    (s.sendLater).trunk.epoch = s.trunk.epoch ∧ (s.sendLater).trunk.cause = s.trunk.cause ∧
    (s.sendLater).trunk.lastAccepted = s.trunk.lastAccepted ∧
    (s.sendLater).trunk.anyAccepted = s.trunk.anyAccepted ∧ (s.sendLater).trunk.upBefore = s.trunk.upBefore ∧
    (s.sendLater).trunk.downSince = s.trunk.downSince ∧ (s.sendLater).trunk.peerAck = s.trunk.peerAck ∧
    (s.sendLater).trunk.peerAllow = s.trunk.peerAllow ∧ (s.sendLater).trunk.expiries = s.trunk.expiries ∧
    (s.sendLater).trunk.expectSeq = s.trunk.expectSeq ∧ (s.sendLater).trunk.rejectSent = s.trunk.rejectSent ∧
    (s.sendLater).trunk.syncTimer = s.trunk.syncTimer ∧ (s.sendLater).trunk.silenceTimer = s.trunk.silenceTimer := by
  unfold sendLater
  split_ifs <;> simp [sendCtrl]

@[simp] theorem sendUp_frame (s : State) :
    (s.sendUp).granted = s.granted ∧ (s.sendUp).clock = s.clock ∧ (s.sendUp).cfg = s.cfg ∧ (s.sendUp).intake = s.intake ∧
    (s.sendUp).lines = s.lines ∧ (s.sendUp).polls = s.polls ∧ (s.sendUp).pollRun = s.pollRun ∧
    (s.sendUp).pending = s.pending ∧ (∀ i, (s.sendUp).line i = s.line i) ∧ (∀ x, (s.sendUp).poll x = s.poll x) ∧
    (s.sendUp).pool.free = s.pool.free ∧ (s.sendUp).pool.reserved = s.pool.reserved ∧
    (s.sendUp).pool.held = s.pool.held ∧ (s.sendUp).pool.slotsUsed = s.pool.slotsUsed ∧
    (s.sendUp).pool.waitList = s.pool.waitList ∧ (s.sendUp).pool.hold = s.pool.hold ∧
    (s.sendUp).pool.minFree = s.pool.minFree ∧ (s.sendUp).trunk.up = s.trunk.up ∧
    (s.sendUp).trunk.linkUpPin = s.trunk.linkUpPin ∧ (s.sendUp).trunk.epoch = s.trunk.epoch ∧
    (s.sendUp).trunk.cause = s.trunk.cause ∧ (s.sendUp).trunk.lastAccepted = s.trunk.lastAccepted ∧
    (s.sendUp).trunk.anyAccepted = s.trunk.anyAccepted ∧ (s.sendUp).trunk.upBefore = s.trunk.upBefore ∧
    (s.sendUp).trunk.downSince = s.trunk.downSince ∧ (s.sendUp).trunk.peerAck = s.trunk.peerAck ∧
    (s.sendUp).trunk.peerAllow = s.trunk.peerAllow ∧ (s.sendUp).trunk.expiries = s.trunk.expiries ∧
    (s.sendUp).trunk.expectSeq = s.trunk.expectSeq ∧ (s.sendUp).trunk.rejectSent = s.trunk.rejectSent ∧
    (s.sendUp).trunk.syncTimer = s.trunk.syncTimer ∧ (s.sendUp).trunk.silenceTimer = s.trunk.silenceTimer := by
  unfold sendUp
  split
  · simp [sendCtrl]
  · split <;> simp

@[simp] theorem arbitrate_frame (s : State) :
    (s.arbitrate).granted = s.granted ∧ (s.arbitrate).clock = s.clock ∧ (s.arbitrate).cfg = s.cfg ∧ (s.arbitrate).intake = s.intake ∧
    (s.arbitrate).lines = s.lines ∧ (s.arbitrate).polls = s.polls ∧ (s.arbitrate).pollRun = s.pollRun ∧
    (s.arbitrate).pending = s.pending ∧ (∀ i, (s.arbitrate).line i = s.line i) ∧
    (∀ x, (s.arbitrate).poll x = s.poll x) ∧ (s.arbitrate).pool.free = s.pool.free ∧
    (s.arbitrate).pool.reserved = s.pool.reserved ∧ (s.arbitrate).pool.held = s.pool.held ∧
    (s.arbitrate).pool.slotsUsed = s.pool.slotsUsed ∧ (s.arbitrate).pool.waitList = s.pool.waitList ∧
    (s.arbitrate).pool.hold = s.pool.hold ∧ (s.arbitrate).pool.minFree = s.pool.minFree ∧
    (s.arbitrate).trunk.up = s.trunk.up ∧ (s.arbitrate).trunk.linkUpPin = s.trunk.linkUpPin ∧
    (s.arbitrate).trunk.epoch = s.trunk.epoch ∧ (s.arbitrate).trunk.cause = s.trunk.cause ∧
    (s.arbitrate).trunk.lastAccepted = s.trunk.lastAccepted ∧
    (s.arbitrate).trunk.anyAccepted = s.trunk.anyAccepted ∧ (s.arbitrate).trunk.upBefore = s.trunk.upBefore ∧
    (s.arbitrate).trunk.downSince = s.trunk.downSince ∧ (s.arbitrate).trunk.peerAck = s.trunk.peerAck ∧
    (s.arbitrate).trunk.peerAllow = s.trunk.peerAllow ∧ (s.arbitrate).trunk.expiries = s.trunk.expiries ∧
    (s.arbitrate).trunk.expectSeq = s.trunk.expectSeq ∧ (s.arbitrate).trunk.rejectSent = s.trunk.rejectSent ∧
    (s.arbitrate).trunk.syncTimer = s.trunk.syncTimer ∧ (s.arbitrate).trunk.silenceTimer = s.trunk.silenceTimer := by
  unfold arbitrate chooseFrame
  split
  · split
    · split <;> simp [sendSyncAck]
    · split <;> simp [sendSync]
  · simp

/-- The end of a step touches the transmitter, the frames and what waits to be sent, nothing else (R160, R162). -/
@[simp] theorem close_frame (s : State) :
    (s.close).granted = s.granted ∧ (s.close).clock = s.clock ∧ (s.close).cfg = s.cfg ∧ (s.close).intake = s.intake ∧
    (s.close).lines = s.lines ∧ (s.close).polls = s.polls ∧ (s.close).pollRun = s.pollRun ∧
    (s.close).pending = s.pending ∧ (∀ i, (s.close).line i = s.line i) ∧ (∀ x, (s.close).poll x = s.poll x) ∧
    (s.close).pool.free = s.pool.free ∧ (s.close).pool.reserved = s.pool.reserved ∧
    (s.close).pool.held = s.pool.held ∧ (s.close).pool.slotsUsed = s.pool.slotsUsed ∧
    (s.close).pool.waitList = s.pool.waitList ∧ (s.close).pool.hold = s.pool.hold ∧
    (s.close).pool.minFree = s.pool.minFree ∧ (s.close).trunk.up = s.trunk.up ∧
    (s.close).trunk.linkUpPin = s.trunk.linkUpPin ∧ (s.close).trunk.epoch = s.trunk.epoch ∧
    (s.close).trunk.cause = s.trunk.cause ∧ (s.close).trunk.lastAccepted = s.trunk.lastAccepted ∧
    (s.close).trunk.anyAccepted = s.trunk.anyAccepted ∧ (s.close).trunk.upBefore = s.trunk.upBefore ∧
    (s.close).trunk.downSince = s.trunk.downSince ∧ (s.close).trunk.peerAck = s.trunk.peerAck ∧
    (s.close).trunk.peerAllow = s.trunk.peerAllow ∧ (s.close).trunk.expiries = s.trunk.expiries ∧
    (s.close).trunk.expectSeq = s.trunk.expectSeq ∧ (s.close).trunk.rejectSent = s.trunk.rejectSent ∧
    (s.close).trunk.syncTimer = s.trunk.syncTimer ∧ (s.close).trunk.silenceTimer = s.trunk.silenceTimer := by
  simp [close]

/-- After the end of a step no record is kept back. -/
@[simp] theorem close_between (s : State) : s.close.late = [] := by simp [close]

end Sys2Proof.Machine.State
end

