-- ==== Sys2Proof/Laws/Counters.lean ====
section
/-! SUPPORT. Which counters each shared operation can move. -/

set_option Elab.async false

namespace Sys2Proof.Machine

/-- Ids of the LINK set are distinct. -/
theorem LinkCtr.id_inj {c d : LinkCtr} (h : c.id = d.id) : c = d := by cases c <;> cases d <;> first | rfl | cases h
/-- Ids of the POOL set are distinct. -/
theorem PoolCtr.id_inj {c d : PoolCtr} (h : c.id = d.id) : c = d := by cases c <;> cases d <;> first | rfl | cases h
/-- Ids of a LINE set are distinct. -/
theorem LineCtr.id_inj {c d : LineCtr} (h : c.id = d.id) : c = d := by cases c <;> cases d <;> first | rfl | cases h

/-- A counter written is read back, and every other is as before. -/
theorem Counters.read_write (b : Counters) (c d : CtrId) (v : Counter) :
    (b.write c v).read d = if d = c then v else b.read d := by
  cases c with
  | link c =>
    cases d with
    | link d =>
      by_cases h : d = c
      · subst h; simp [Counters.read, Counters.write, get_set]
      · have : d.id ≠ c.id := fun e => h (LinkCtr.id_inj e)
        simp [Counters.read, Counters.write, get_set, this, h]
    | pool d => simp [Counters.read, Counters.write]
    | line j d => simp [Counters.read, Counters.write]
  | pool c =>
    cases d with
    | link d => simp [Counters.read, Counters.write]
    | pool d =>
      by_cases h : d = c
      · subst h; simp [Counters.read, Counters.write, get_set]
      · have : d.id ≠ c.id := fun e => h (PoolCtr.id_inj e)
        simp [Counters.read, Counters.write, get_set, this, h]
    | line j d => simp [Counters.read, Counters.write]
  | line i c =>
    cases d with
    | link d => simp [Counters.read, Counters.write]
    | pool d => simp [Counters.read, Counters.write]
    | line j d =>
      by_cases hj : j = i
      · subst hj
        by_cases h : d = c
        · subst h; simp [Counters.read, Counters.write, get_set]
        · have : d.id ≠ c.id := fun e => h (LineCtr.id_inj e)
          simp [Counters.read, Counters.write, get_set, this, h]
      · simp [Counters.read, Counters.write, get_set, hj]

namespace State

theorem loseEvent_ctrs (s : State) (d : CtrId) (h : d ≠ .pool .eventsMissed) :
    s.loseEvent.ctrs.read d = s.ctrs.read d := by
  unfold loseEvent countMissed
  split <;> simp [Counters.read_write, h]

@[simp] theorem raiseEvent_ctrs (s : State) (k : EventKind) (l : Byte) (v : BitVec 32) (d : CtrId) (h0 : d ≠ .pool .eventsMissed) :
    (s.raiseEvent k l v).ctrs.read d = s.ctrs.read d := by
  unfold raiseEvent
  split
  · simp
  · exact loseEvent_ctrs s d h0

@[simp] theorem raiseHalf_ctrs (s : State) (c : CtrId) (d : CtrId) (h0 : d ≠ .pool .eventsMissed) :
    (s.raiseHalf c).ctrs.read d = s.ctrs.read d := by
  unfold raiseHalf
  split
  · simp
  · exact loseEvent_ctrs s d h0

/-- The counter increased (R190, R191). -/
@[simp] theorem bump_ctrs_same (s : State) (c : CtrId) (h : c ≠ .pool .eventsMissed) :
    (s.bump c).ctrs.read c = (s.ctrs.read c).inc := by
  simp only [bump]
  split <;> simp [Counters.read_write, h]

/-- Every counter but the one increased, and EventsMissed, stands. -/
@[simp] theorem bump_ctrs (s : State) (c d : CtrId) (h : d ≠ c) (h0 : d ≠ .pool .eventsMissed) :
    (s.bump c).ctrs.read d = s.ctrs.read d := by
  simp only [bump]
  split <;> simp [Counters.read_write, h, h0]

@[simp] theorem testHold_ctrs (s : State) (d : CtrId) (h0 : d ≠ .pool .eventsMissed) (h1 : d ≠ .pool .poolLowEpisodes) :
    (s.testHold).ctrs.read d = s.ctrs.read d := by
  unfold testHold holdOff holdOn allowRises
  dsimp only
  split_ifs <;> simp [h0, h1]

@[simp] theorem freeChanged_ctrs (s : State) (d : CtrId) (h0 : d ≠ .pool .eventsMissed) (h1 : d ≠ .pool .poolLowEpisodes) :
    (s.freeChanged).ctrs.read d = s.ctrs.read d := by
  simp [freeChanged, h0, h1]

@[simp] theorem take_ctrs (s : State) (n : Need) (into : Into) (d : CtrId) (h0 : d ≠ .pool .eventsMissed) (h1 : d ≠ .pool .poolLowEpisodes) :
    (s.take n into).ctrs.read d = s.ctrs.read d := by
  simp [take, h0, h1]

@[simp] theorem release_ctrs (s : State) (a b : Nat) (d : CtrId) (h0 : d ≠ .pool .eventsMissed) (h1 : d ≠ .pool .poolLowEpisodes) :
    (s.release a b).ctrs.read d = s.ctrs.read d := by
  unfold release
  split <;> simp [h0, h1]

@[simp] theorem settle_ctrs (s : State) (a b c e : Nat) (d : CtrId) (h0 : d ≠ .pool .eventsMissed) (h1 : d ≠ .pool .poolLowEpisodes) :
    (s.settle a b c e).ctrs.read d = s.ctrs.read d := by
  simp [settle, h0, h1]

@[simp] theorem goBackEnds_ctrs (s : State) : s.goBackEnds.ctrs = s.ctrs := by
  unfold goBackEnds
  dsimp only
  split
  all_goals split
  all_goals rfl

@[simp] theorem startFrame_ctrs (s : State) (k : FrameKind) (q : Seq) (p : List Byte) (g : Bool) (d : CtrId) (h0 : d ≠ .pool .eventsMissed) (h1 : d ≠ .link .framesSent) :
    (s.startFrame k q p g).ctrs.read d = s.ctrs.read d := by
  simp [startFrame, h0, h1]

@[simp] theorem arbitrate_ctrs (s : State) (d : CtrId) (h0 : d ≠ .pool .eventsMissed) (h1 : d ≠ .link .framesSent) (h2 : d ≠ .link .retransmissions) :
    (s.arbitrate).ctrs.read d = s.ctrs.read d := by
  have later : s.sendLater.ctrs.read d = s.ctrs.read d := by
    unfold sendLater
    split_ifs <;> simp [sendCtrl, sendNew, h0, h1]
  have up : s.sendUp.ctrs.read d = s.ctrs.read d := by
    unfold sendUp
    split
    · simp [sendCtrl, h0, h1]
    · split
      · simp [sendGoBack, h0, h1, h2]
      · exact later
      · exact later
  unfold arbitrate chooseFrame
  split
  · split
    · split
      · simp [sendSyncAck, h0, h1]
      · exact up
    · split
      · simp [sendSync, h0, h1]
      · rfl
  · rfl

@[simp] theorem close_ctrs (s : State) (d : CtrId) (h0 : d ≠ .pool .eventsMissed) (h1 : d ≠ .link .framesSent) (h2 : d ≠ .link .retransmissions) :
    (s.close).ctrs.read d = s.ctrs.read d := by
  simp [close, h0, h1, h2]

/-- A grant adds no result, and moves no counter but those a change of FreeCount may (R97, R100). -/
theorem grantOne_told (s : State) (w : Waiter) (ws : List Waiter) :
    (s.grantOne w ws).results = s.results ∧ (s.grantOne w ws).lateResults = s.lateResults ∧
    (s.uplink <+: (s.grantOne w ws).uplink) ∧
    ∀ d, d ≠ .pool .eventsMissed → d ≠ .pool .poolLowEpisodes →
      (s.grantOne w ws).ctrs.read d = s.ctrs.read d := by
  have up : ∀ (u : State) (n : Need) (into : Into), u.uplink <+: (u.take n into).uplink := by
    intro u n into
    unfold take freeChanged testHold holdOn holdOff raiseEvent
    dsimp only
    split_ifs <;> simp
  unfold grantOne
  cases w.who
  · refine ⟨?_, ?_, up ((s.setPool { s.pool with waitList := ws }).setGranted _) _ _, fun d h0 h1 => ?_⟩
    · simp only [giveReservation, modLine_results, take_results]; rfl
    · simp only [giveReservation, modLine_results, take_results]; rfl
    · simp only [giveReservation_frame, take_ctrs _ _ _ d h0 h1]; rfl
  · refine ⟨?_, ?_, up ((s.setPool { s.pool with waitList := ws }).setGranted _) _ _, fun d h0 h1 => ?_⟩
    · simp only [take_results]; rfl
    · simp only [take_results]; rfl
    · simp only [take_ctrs _ _ _ d h0 h1]; rfl

/-- The same of a granting. -/
theorem grantRun_told (ws : List Waiter) (s : State) :
    (grantRun ws s).results = s.results ∧ (grantRun ws s).lateResults = s.lateResults ∧
    (s.uplink <+: (grantRun ws s).uplink) ∧
    ∀ d, d ≠ .pool .eventsMissed → d ≠ .pool .poolLowEpisodes →
      (grantRun ws s).ctrs.read d = s.ctrs.read d := by
  induction ws generalizing s with
  | nil => exact ⟨rfl, rfl, List.prefix_refl _, fun _ _ _ => rfl⟩
  | cons w ws ih =>
    unfold grantRun
    split
    · obtain ⟨a, b, p, c⟩ := ih (s.grantOne w ws)
      obtain ⟨a', b', p', c'⟩ := grantOne_told s w ws
      exact ⟨a.trans a', b.trans b', p'.trans p, fun d h0 h1 => (c d h0 h1).trans (c' d h0 h1)⟩
    · exact ⟨rfl, rfl, List.prefix_refl _, fun _ _ _ => rfl⟩

@[simp] theorem grantAll_results (s : State) :
    s.grantAll.results = s.results ∧ s.grantAll.lateResults = s.lateResults :=
  ⟨(grantRun_told s.pool.waitList s).1, (grantRun_told s.pool.waitList s).2.1⟩

@[simp] theorem grantAll_ctrs (s : State) (d : CtrId) (h0 : d ≠ .pool .eventsMissed)
    (h1 : d ≠ .pool .poolLowEpisodes) : s.grantAll.ctrs.read d = s.ctrs.read d :=
  (grantRun_told s.pool.waitList s).2.2.2 d h0 h1

/-! Steps in which no counter crosses 32768. -/

/-- An increase that does not cross 32768 moves its counter alone (R191, R193). -/
theorem bump_calm (s : State) (c : CtrId) (h : (s.ctrs.read c).crosses = false) :
    s.bump c = s.setCtrs (s.ctrs.write c (s.ctrs.read c).inc) := by
  unfold bump; simp [h]

/-- What the transmitter starts keeps back no record and touches no part of the pool, where FramesSent does not cross. -/
theorem startFrame_calm (s : State) (k : FrameKind) (q : Seq) (p : List Byte) (g : Bool)
    (h : (s.ctrs.read (.link .framesSent)).crosses = false) :
    (s.startFrame k q p g).late = s.late ∧ (s.startFrame k q p g).pool = s.pool ∧
    (s.startFrame k q p g).ctrs = s.ctrs.write (.link .framesSent) (s.ctrs.read (.link .framesSent)).inc := by
  have one : ∀ u : State, u.ctrs = s.ctrs → u.late = s.late → u.pool = s.pool →
      (u.bump (.link .framesSent)).late = s.late ∧ (u.bump (.link .framesSent)).pool = s.pool ∧
      (u.bump (.link .framesSent)).ctrs = s.ctrs.write (.link .framesSent) (s.ctrs.read (.link .framesSent)).inc := by
    intro u e1 e2 e3
    rw [bump_calm _ _ (by rw [e1]; exact h)]
    exact ⟨e2, e3, by rw [← e1]; rfl⟩
  exact one _ rfl rfl rfl

/-- The arbiter likewise, where neither of the counters of its frames crosses. -/
theorem arbitrate_calm (s : State) (h : (s.ctrs.read (.link .framesSent)).crosses = false)
    (h2 : (s.ctrs.read (.link .retransmissions)).crosses = false) :
    s.arbitrate.late = s.late ∧ s.arbitrate.pool = s.pool := by
  have one : ∀ (u : State) k q p g, u.ctrs = s.ctrs → u.late = s.late → u.pool = s.pool →
      (u.startFrame k q p g).late = s.late ∧ (u.startFrame k q p g).pool = s.pool := by
    intro u k q p g e1 e2 e3
    obtain ⟨a, b, _⟩ := startFrame_calm u k q p g (by rw [e1]; exact h)
    exact ⟨a.trans e2, b.trans e3⟩
  have again : ∀ f, (s.sendGoBack f).late = s.late ∧ (s.sendGoBack f).pool = s.pool := by
    intro f
    obtain ⟨u, hu⟩ : ∃ u, u = s.setTrunk { s.trunk with retransmits := resendNext s.trunk.retransmits } := ⟨_, rfl⟩
    have e : u.ctrs = s.ctrs ∧ u.late = s.late ∧ u.pool = s.pool := by rw [hu]; exact ⟨rfl, rfl, rfl⟩
    obtain ⟨a, b, c⟩ := startFrame_calm u .data f.seq (payloadOf f.records) true (by rw [e.1]; exact h)
    have r : s.sendGoBack f = (u.startFrame .data f.seq (payloadOf f.records) true).bump (.link .retransmissions) := by
      rw [hu]; rfl
    rw [r, bump_calm _ _ (by rw [c, Counters.read_write, if_neg (by simp), e.1]; exact h2)]
    exact ⟨a.trans e.2.1, b.trans e.2.2⟩
  have later : s.sendLater.late = s.late ∧ s.sendLater.pool = s.pool := by
    unfold sendLater
    split_ifs
    · exact one _ _ _ _ _ rfl rfl rfl
    · exact one _ _ _ _ _ rfl rfl rfl
    · exact ⟨rfl, rfl⟩
  have up : s.sendUp.late = s.late ∧ s.sendUp.pool = s.pool := by
    unfold sendUp
    split
    · exact one _ _ _ _ _ rfl rfl rfl
    · split
      · exact again _
      · exact later
      · exact later
  unfold arbitrate chooseFrame
  split
  · split
    · split
      · exact one _ _ _ _ _ rfl rfl rfl
      · exact up
    · split
      · exact one _ _ _ _ _ rfl rfl rfl
      · exact ⟨rfl, rfl⟩
  · exact ⟨rfl, rfl⟩

/-- Where nothing is kept back, and a frame is on the line or the counters of the arbiter's frames do not cross, the end of a
step raises no event. -/
theorem close_calm (s : State) (hl : s.late = [])
    (h : s.trunk.tx.isSome = true ∨ (s.ctrs.read (.link .framesSent)).crosses = false ∧
      (s.ctrs.read (.link .retransmissions)).crosses = false) :
    s.close.stream = s.stream ∧ s.close.pool = s.pool := by
  obtain ⟨v, hv⟩ : ∃ v, v = s.goBackEnds.flushLate := ⟨_, rfl⟩
  have g : s.goBackEnds.pool = s.pool ∧ s.goBackEnds.ctrs = s.ctrs ∧ s.goBackEnds.trunk.tx = s.trunk.tx := by
    unfold goBackEnds
    dsimp only
    split
    all_goals split
    all_goals exact ⟨rfl, rfl, rfl⟩
  have vs : v.stream = s.stream := by
    rw [hv, flushLate, (goBackEnds_stream s).2, hl, List.append_nil]
    exact (goBackEnds_stream s).1
  have vl : v.late = [] := by rw [hv]; rfl
  have a : v.arbitrate.late = [] ∧ v.arbitrate.pool = s.pool := by
    rcases h with h | ⟨h1, h2⟩
    · have : v.arbitrate = v := by
        have : v.trunk.tx.isNone = false := by
          rw [hv]; show s.goBackEnds.trunk.tx.isNone = false; rw [g.2.2]; cases e : s.trunk.tx <;> simp_all
        simp [arbitrate, this]
      rw [this]
      exact ⟨vl, by rw [hv]; exact g.1⟩
    · obtain ⟨a1, a2⟩ := arbitrate_calm v (by rw [hv]; show (s.goBackEnds.ctrs.read _).crosses = _; rw [g.2.1]; exact h1)
        (by rw [hv]; show (s.goBackEnds.ctrs.read _).crosses = _; rw [g.2.1]; exact h2)
      exact ⟨a1.trans vl, a2.trans (by rw [hv]; exact g.1)⟩
  rw [close, ← hv, flushLate, a.1, List.append_nil]
  exact ⟨(arbitrate_stream v).trans vs, a.2⟩

end State

end Sys2Proof.Machine
end

