-- ==== Sys2Proof/Laws/Answers.lean ====
section
/-! SUPPORT. From a command's meaning to its answer: the end of a step keeps what it keeps, and counts what it
counts. -/

set_option Elab.async false

namespace Sys2Proof.Machine

/-- A command with an effect answers the state at the end of its step. -/
theorem completes_finish {c : Instr} {s : State} {p : State → Prop} (u : State) (h : exec c s = finished u)
    (hp : p u.finish) : Completes c s p := ⟨u.finish, h, hp⟩

/-- The same where the command has granted no waiter. -/
theorem completes_of {c : Instr} {s : State} {p : State → Prop} (u : State) (h : exec c s = finished u)
    (hg : u.granted = []) (hp : p u.close) : Completes c s p :=
  completes_finish u h (by rwa [State.finish_none hg])

/-- Between steps nothing is kept back. -/
theorem State.between.late {s : State} (h : s.between) : s.lateResults = [] := by
  have h' : s.late = [] := h.1
  simp [State.lateResults, h']

/-- A counter a statement counts is none of those the end of a step may move. -/
theorem sideways_ne {d : CtrId} (h : ¬ d.sideways) :
    d ≠ .pool .eventsMissed ∧ d ≠ .pool .poolLowEpisodes ∧ d ≠ .link .framesSent ∧
    d ≠ .link .retransmissions := by
  unfold CtrId.sideways at h; tauto

/-- The end of a step moves no counter a statement counts. -/
theorem Counted.close {cs : List CtrId} {s u : State} (h : Counted cs s u) : Counted cs s u.close := by
  intro d hd
  obtain ⟨a, _, e, f⟩ := sideways_ne hd
  rw [State.close_ctrs _ _ a e f, h d hd]

/-- One counter rises. -/
theorem Counted.bump (s : State) (c : CtrId) : Counted [c] s (s.bump c) := by
  intro d hd
  obtain ⟨a, _, _, _⟩ := sideways_ne hd
  by_cases h : d = c
  · subst h; simp [a]
  · simp [h, a]

/-- No counter moves. -/
theorem Counted.same {s u : State} (h : u.ctrs = s.ctrs) : Counted [] s u := by
  intro d _; simp [h]

/-- An operation that moves no counter, after others. -/
theorem Counted.step {cs : List CtrId} {s t u : State} (h : Counted cs s t) (k : Counted [] t u) :
    Counted cs s u := by
  intro d hd; rw [k d hd, ← h d hd]; simp

/-- The end of a step keeps the trunk interface apart from the transmitter and the frames. -/
theorem sameLink_close {s u : State} (h : SameLink s u) : SameLink s u.close := by
  unfold SameLink at h ⊢; simpa using h

/-- The end of a step keeps tables, pool, intake and results. -/
theorem sameRest_close {s u : State} (h : SameRest s u) (hl : u.lateResults = []) : SameRest s u.close := by
  unfold SameRest SameTables SamePool at h ⊢; simpa [hl] using h

/-- A trunk interface changed in `allowRose` alone. -/
theorem sameLink_of_calm {s t : State} (h : t.trunk.calm = s.trunk.calm) : SameLink s t :=
  have f : ∀ {α : Type} (g : Trunk → α), g t.trunk.calm = g s.trunk.calm := fun g => congrArg g h
  ⟨f Trunk.up, f Trunk.linkUpPin, f Trunk.epoch, f Trunk.cause, f Trunk.lastAccepted,
   f Trunk.anyAccepted, f Trunk.upBefore, f Trunk.downSince, f Trunk.peerAck, f Trunk.peerAllow,
   f Trunk.expiries, f Trunk.expectSeq, f Trunk.rejectSent, f Trunk.syncTimer⟩

/-- A counter's increase touches none of them. -/
theorem sameLink_bump (s : State) (c : CtrId) : SameLink s (s.bump c) := by simp [SameLink]

/-- A counter's increase touches none of them. -/
theorem sameRest_bump (s : State) (c : CtrId) : SameRest s (s.bump c) := by
  simp [SameRest, SameTables, SamePool]

end Sys2Proof.Machine
end

