-- ==== Sys2Proof/Laws/LineMoves.lean ====
section
/-! SUPPORT. What the moves of a line leave in the line, said once as equations; a prover cites these and does not
unfold the moves. -/

set_option Elab.async false

namespace Sys2Proof.Machine.State

/-- An event-store slot is free (R95). -/
theorem eventSlotFree_iff (s : State) : s.eventSlotFree = true ↔ s.pool.eventsUsed < 16 := decide_eq_true_iff

/-- No event-store slot is free (R95). -/
theorem eventSlotFree_false {s : State} (h : 16 ≤ s.pool.eventsUsed) : s.eventSlotFree = false :=
  decide_eq_false (Nat.not_lt.mpr h)

/-- The class tests (R92). -/
theorem passes_iff (p : Pool) (n : Need) : p.passes n = true ↔
    match n.cls with
    | .line => n.blocks + 16 ≤ p.free ∧ (n.slot = true → p.slotsUsed + 1 + 8 ≤ 256)
    | .response => n.blocks ≤ p.free ∧ (n.slot = true → p.slotsUsed + 1 ≤ 256) := by
  obtain ⟨bl, sl, cl⟩ := n
  cases cl <;> cases sl <;>
    simp [Pool.passes, Config.reserveBlocks, Config.reserveSlots, Config.recordSlots]
  · exact decide_eq_true_iff
  · exact fun _ => decide_eq_true_iff

/-- An allocation that passes finds its blocks free (R92). -/
theorem passes_free {p : Pool} {n : Need} (h : p.passes n = true) : n.blocks ≤ p.free := by
  have := (passes_iff p n).mp h
  split at this <;> omega

/-- `t` is `s` but for line `i`. -/
structure OnlyLine (i : Fin 12) (s t : State) : Prop where
  line : ∀ j, j ≠ i → t.line j = s.line j
  trunk : t.trunk = s.trunk
  cfg : t.cfg = s.cfg
  pool : t.pool = s.pool
  uplink : t.uplink = s.uplink
  late : t.late = s.late
  granted : t.granted = s.granted
  intake : t.intake = s.intake
  polls : t.polls = s.polls
  pollRun : t.pollRun = s.pollRun
  clock : t.clock = s.clock
  ctrs : t.ctrs = s.ctrs
  pending : t.pending = s.pending

theorem onlyLine_rfl (i : Fin 12) (s : State) : OnlyLine i s s :=
  ⟨fun _ _ => rfl, rfl, rfl, rfl, rfl, rfl, rfl, rfl, rfl, rfl, rfl, rfl, rfl⟩

theorem OnlyLine.trans {i : Fin 12} {s t u : State} (h : OnlyLine i s t) (k : OnlyLine i t u) : OnlyLine i s u :=
  ⟨fun j hj => (k.line j hj).trans (h.line j hj), k.trunk.trans h.trunk, k.cfg.trans h.cfg, k.pool.trans h.pool,
   k.uplink.trans h.uplink, k.late.trans h.late, k.granted.trans h.granted, k.intake.trans h.intake, k.polls.trans h.polls,
   k.pollRun.trans h.pollRun, k.clock.trans h.clock, k.ctrs.trans h.ctrs, k.pending.trans h.pending⟩

theorem OnlyLine.poll {i : Fin 12} {s t : State} (h : OnlyLine i s t) (p : Fin 128) : t.poll p = s.poll p := by
  simp [State.poll, h.polls]

theorem OnlyLine.results {i : Fin 12} {s t : State} (h : OnlyLine i s t) : t.results = s.results := by
  simp [State.results, State.stream, h.trunk, h.uplink]

theorem OnlyLine.stream {i : Fin 12} {s t : State} (h : OnlyLine i s t) : t.stream = s.stream := by
  simp [State.stream, h.trunk, h.uplink]

theorem OnlyLine.lateResults {i : Fin 12} {s t : State} (h : OnlyLine i s t) : t.lateResults = s.lateResults := by
  simp [State.lateResults, h.late]

theorem OnlyLine.outside {i : Fin 12} {s t : State} (h : OnlyLine i s t) : SameOutside i s t :=
  ⟨h.line, h.intake, h.cfg, h.pollRun, h.clock, h.pending⟩

theorem onlyLine_modLine (s : State) (i : Fin 12) (f : Line → Line) : OnlyLine i s (s.modLine i f) :=
  ⟨fun j hj => by simp [hj], rfl, rfl, rfl, rfl, rfl, rfl, rfl, rfl, rfl, rfl, rfl, rfl⟩

theorem onlyLine_startChar (s : State) (i : Fin 12) : OnlyLine i s (s.startChar i) := by
  unfold startChar; split
  · exact onlyLine_rfl i s
  · exact onlyLine_modLine s i _

theorem onlyLine_enterSending (s : State) (i : Fin 12) : OnlyLine i s (s.enterSending i) := by
  unfold enterSending; dsimp only; split
  · exact (onlyLine_modLine s i _).trans (onlyLine_startChar _ i)
  · exact onlyLine_modLine s i _

theorem onlyLine_enterReady (s : State) (i : Fin 12) : OnlyLine i s (s.enterReady i) := by
  unfold enterReady; dsimp only; split
  · exact (onlyLine_modLine s i _).trans (onlyLine_enterSending _ i)
  · exact onlyLine_modLine s i _

theorem onlyLine_giveReservation (s : State) (i : Fin 12) (n : Nat) : OnlyLine i s (s.giveReservation i n) :=
  onlyLine_modLine s i _

theorem OnlyLine.workBytes {i : Fin 12} {s t : State} (h : OnlyLine i s t) (w : Work) :
    t.workBytes w = s.workBytes w := by
  cases w <;> simp [State.workBytes, h.poll]

/-- The start bit of the character that is next goes out (R36, R37). -/
theorem startChar_line (s : State) (i : Fin 12) (x : Txn) (h : (s.line i).hand = some x) :
    (s.startChar i).line i = { s.line i with
      deLead := none
      charOut := ((s.workBytes x.work)[(s.line i).sent]?).map (s.line i).applied.onLine } := by
  simp [startChar, h]

/-- A line that enters SENDING (R7, R36). -/
theorem enterSending_line (s : State) (i : Fin 12) (x : Txn) (h : (s.line i).hand = some x) :
    (s.enterSending i).line i = { s.line i with
      txn := .sending, lde := true, hand := some x.fresh, sent := 0, echoed := 0, deHold := none
      deLead := countOf (s.line i).applied.deLead
      charOut := if (s.line i).applied.deLead = 0 then
        ((s.workBytes x.work)[0]?).map (s.line i).applied.onLine else none } := by
  unfold enterSending
  dsimp only
  split
  · next e =>
    rw [startChar_line _ i x.fresh (by simp [Line.goto, h])]
    have w : (s.modLine i (fun l => { l.goto .sending with
        hand := l.hand.map Txn.fresh, sent := 0, echoed := 0, charOut := none, deHold := none
        deLead := countOf l.applied.deLead })).workBytes x.fresh.work = s.workBytes x.work :=
      (onlyLine_modLine s i _).workBytes _
    rw [w]
    simp [Line.goto, h, TxnState.drives, e, countOf]
  · next e => simp [Line.goto, h, TxnState.drives]

/-- A line that enters READY (R6). -/
theorem enterReady_line (s : State) (i : Fin 12) (x : Txn) (h : (s.line i).hand = some x) :
    (s.enterReady i).line i =
      if (s.line i).listen = .quiet then { s.line i with
        txn := .sending, lde := true, hand := some x.fresh, sent := 0, echoed := 0, deHold := none
        deLead := countOf (s.line i).applied.deLead
        charOut := if (s.line i).applied.deLead = 0 then
          ((s.workBytes x.work)[0]?).map (s.line i).applied.onLine else none }
      else { s.line i with txn := .ready, lde := false } := by
  unfold enterReady
  dsimp only
  split
  · next e =>
    rw [enterSending_line _ i x (by simp [Line.goto, h])]
    rw [(onlyLine_modLine s i _).workBytes]
    simp [Line.goto]
  · simp [Line.goto, TxnState.drives]

/-! Guard, completion and the pool's part in it. -/

/-- A line that enters GUARD for a time (R20, R24). -/
theorem onlyLine_enterGuard (s : State) (i : Fin 12) (late : Option Half) (h : (s.line i).applied.guardTime ≠ 0) :
    OnlyLine i s (s.enterGuard i late) := by
  simp only [enterGuard, h, if_false]
  exact onlyLine_modLine s i _

/-- A line that enters GUARD for a time (R20, R24). -/
theorem enterGuard_line (s : State) (i : Fin 12) (late : Option Half) (h : (s.line i).applied.guardTime ≠ 0) :
    (s.enterGuard i late).line i = { (s.line i).fixListen with
      txn := .guard, lde := false, guardEnd := some (s.clock + (s.line i).applied.guardTime), lateMark := late
      window := none, deLead := none, deHold := none, charOut := none } := by
  simp only [enterGuard, h, if_false, line_modLine_same]
  have : (s.line i).fixListen.applied = (s.line i).applied := by
    unfold Line.fixListen Line.beginUnsolicited; split_ifs <;> rfl
  simp [Line.goto, TxnState.drives]

/-- What the fixing of the listen state leaves (R2). -/
theorem fixListen_frame (l : Line) :
    l.fixListen.applied = l.applied ∧ l.fixListen.staged = l.staged ∧ l.fixListen.hand = l.hand ∧
    l.fixListen.queue = l.queue ∧ l.fixListen.due = l.due ∧ l.fixListen.known = l.known ∧
    l.fixListen.sent = l.sent ∧ l.fixListen.echoed = l.echoed ∧ l.fixListen.brk = l.brk ∧
    l.fixListen.rxBusy = l.rxBusy := by
  unfold Line.fixListen Line.beginUnsolicited
  split_ifs with h1 h2 h3 <;> simp_all

/-- The books of a reservation that becomes a record (R17, R91). -/
theorem settle_books (s : State) (n h b extra : Nat) (h1 : h ≤ n) (h2 : b ≤ n) (h3 : n - h ≤ s.pool.reserved)
    (h4 : h + extra ≤ s.pool.held) :
    (s.settle n h b extra).pool.free = s.pool.free + (n - b) + extra ∧
    (s.settle n h b extra).pool.reserved = s.pool.reserved - (n - h) ∧
    (s.settle n h b extra).pool.held + h + extra = s.pool.held + b := by
  unfold settle release
  rcases Nat.le_total b h with k | k
  · have e : max b h = h := by omega
    have e2 : b - h = 0 := by omega
    split
    · next z => simp [fill, e2]; omega
    · simp [fill, e, e2, freeChanged]; omega
  · have e : max b h = b := by omega
    have e2 : h - b = 0 := by omega
    split
    · next z => simp [fill]; omega
    · simp [fill, e, e2, freeChanged]; omega

/-- A counted outcome (R17). -/
theorem countOutcome_frame (s : State) (i : Fin 12) (o : TxnOutcome) :
    (s.countOutcome i o).granted = s.granted ∧ (s.countOutcome i o).clock = s.clock ∧
    (s.countOutcome i o).cfg = s.cfg ∧
    (s.countOutcome i o).intake = s.intake ∧ (s.countOutcome i o).lines = s.lines ∧
    (s.countOutcome i o).polls = s.polls ∧ (s.countOutcome i o).pollRun = s.pollRun ∧
    (s.countOutcome i o).pending = s.pending ∧ (∀ j, (s.countOutcome i o).line j = s.line j) ∧
    (s.countOutcome i o).trunk = s.trunk ∧ (s.countOutcome i o).pool.free = s.pool.free ∧
    (s.countOutcome i o).pool.reserved = s.pool.reserved ∧ (s.countOutcome i o).pool.held = s.pool.held ∧
    (s.countOutcome i o).pool.slotsUsed = s.pool.slotsUsed ∧
    (s.countOutcome i o).pool.waitList = s.pool.waitList ∧ (s.countOutcome i o).uplink = s.uplink ∧
    (s.countOutcome i o).results = s.results ∧ (s.countOutcome i o).lateResults = s.lateResults := by
  unfold countOutcome; split <;> simp

/-- A request completes (R17, R18): its REPLY joins, its reservation and payload are settled, its outcome counted; what that
frees serves no waiter. -/
theorem complete_request (s : State) (i : Fin 12) (x : Txn) (r : Request) (o : TxnOutcome)
    (hw : x.work = .request r)
    (hu : s.unserved (max (x.reservation.getD 0) (filledBlocks 10 x.reply.kept.length) -
      Config.blocksFor (10 + (resultData o x.reply).1.length) + payloadBlocks r.payload) 0) :
    let u := s.complete i x o
    let d := resultData o x.reply
    u.granted = s.granted ∧
    u.line i = { s.line i with hand := none } ∧ (∀ j, j ≠ i → u.line j = s.line j) ∧ u.polls = s.polls ∧
    u.cfg = s.cfg ∧ u.pollRun = s.pollRun ∧ u.clock = s.clock ∧ u.pending = s.pending ∧ u.intake = s.intake ∧
    u.trunk.calm = s.trunk.calm ∧
    u.results = s.results ++ [s.stamp (.reply r.tag (lineByte i) o x.attempts d.2 d.1) r.urgent
      (Config.blocksFor (10 + d.1.length))] ∧
    u.lateResults = s.lateResults ∧ u.pool.slotsUsed = s.pool.slotsUsed ∧ u.pool.waitList = s.pool.waitList ∧
    (∀ c, ¬ c.sideways → some c ≠ o.counter.map (CtrId.line i) → u.ctrs.read c = s.ctrs.read c) ∧
    (∀ c, o.counter = some c → u.ctrs.read (.line i c) = (s.ctrs.read (.line i c)).inc) ∧
    (∀ n, x.reservation = some n → filledBlocks 10 x.reply.kept.length ≤ n →
      Config.blocksFor (10 + d.1.length) ≤ n → n - filledBlocks 10 x.reply.kept.length ≤ s.pool.reserved →
      filledBlocks 10 x.reply.kept.length + payloadBlocks r.payload ≤ s.pool.held →
      u.pool.free = s.pool.free + (n - Config.blocksFor (10 + d.1.length)) + payloadBlocks r.payload ∧
      u.pool.reserved = s.pool.reserved - (n - filledBlocks 10 x.reply.kept.length) ∧
      u.pool.held + filledBlocks 10 x.reply.kept.length + payloadBlocks r.payload =
        s.pool.held + Config.blocksFor (10 + d.1.length)) := by
  intro u d
  set v := s.modLine i (fun l => { l with hand := none }) with hv
  set y := v.replyDone i r x o with hy
  have e : u = y.countOutcome i o := by simp only [u, complete, hw]; rfl
  have f := countOutcome_frame y i o
  set b := Config.blocksFor (10 + d.1.length) with hb
  have ey : y = (v.join (.reply r.tag (lineByte i) o x.attempts d.2 d.1) r.urgent b).settle (x.reservation.getD 0)
      (filledBlocks 10 x.reply.kept.length) b (payloadBlocks r.payload) := by
    have z := settle_free (v.join (.reply r.tag (lineByte i) o x.attempts d.2 d.1) r.urgent b) (x.reservation.getD 0)
      (filledBlocks 10 x.reply.kept.length) b (payloadBlocks r.payload)
    exact hu.grantAll (by simp [hv]) (by simpa [hv] using z) (by simp [hv])
  have ev : (v.stamp (.reply r.tag (lineByte i) o x.attempts d.2 d.1) r.urgent b).isEvent = false := rfl
  have st : v.stamp (.reply r.tag (lineByte i) o x.attempts d.2 d.1) r.urgent b =
      s.stamp (.reply r.tag (lineByte i) o x.attempts d.2 d.1) r.urgent b := rfl
  have yc : ∀ c, ¬ c.sideways → y.ctrs.read c = s.ctrs.read c := by
    intro c hc
    have k : c ≠ .pool .eventsMissed ∧ c ≠ .pool .poolLowEpisodes := by
      unfold CtrId.sideways at hc; tauto
    rw [ey]; simp [k, hv]
  have ys : y.granted = s.granted ∧ y.line i = { s.line i with hand := none } ∧ (∀ j, j ≠ i → y.line j = s.line j) ∧ y.polls = s.polls ∧
      y.cfg = s.cfg ∧ y.pollRun = s.pollRun ∧ y.clock = s.clock ∧ y.pending = s.pending ∧ y.intake = s.intake ∧
      y.trunk.calm = s.trunk.calm ∧ y.lateResults = s.lateResults ∧ y.pool.slotsUsed = s.pool.slotsUsed ∧
      y.pool.waitList = s.pool.waitList := by
    rw [ey]; simp [hv]; intro j hj; simp [hj]
  have yr : y.results = s.results ++ [s.stamp (.reply r.tag (lineByte i) o x.attempts d.2 d.1) r.urgent b] := by
    rw [ey, ← st]; simp [ev]; simp [hv]
  have yb : ∀ n, x.reservation = some n → filledBlocks 10 x.reply.kept.length ≤ n → b ≤ n →
      n - filledBlocks 10 x.reply.kept.length ≤ s.pool.reserved →
      filledBlocks 10 x.reply.kept.length + payloadBlocks r.payload ≤ s.pool.held →
      y.pool.free = s.pool.free + (n - b) + payloadBlocks r.payload ∧
      y.pool.reserved = s.pool.reserved - (n - filledBlocks 10 x.reply.kept.length) ∧
      y.pool.held + filledBlocks 10 x.reply.kept.length + payloadBlocks r.payload = s.pool.held + b := by
    intro n hn h1 h2 h3 h4
    have k := settle_books (v.join (.reply r.tag (lineByte i) o x.attempts d.2 d.1) r.urgent b) n
      (filledBlocks 10 x.reply.kept.length) b (payloadBlocks r.payload) h1 h2 (by simpa [hv] using h3)
      (by simpa [hv] using h4)
    rw [ey, hn]
    simpa [hv] using k
  rw [e]
  clear_value y u
  simp only [f, ys, yr]
  refine ⟨trivial, trivial, ys.2.2.1, trivial, trivial, trivial, trivial, trivial, trivial, trivial, trivial, trivial, trivial,
    trivial, ?_, ?_, yb⟩
  · intro c hc hn
    rw [← yc c hc]
    unfold countOutcome
    split
    · next k hk =>
      have : c ≠ .line i k := by rintro rfl; simp [hk] at hn
      have z : c ≠ .pool .eventsMissed := by unfold CtrId.sideways at hc; tauto
      exact bump_ctrs _ _ _ this z
    · rfl
  · intro c hc
    have q : ¬ (CtrId.line i c).sideways := by simp [CtrId.sideways]
    rw [← yc _ q]
    simp only [countOutcome, hc]
    exact bump_ctrs_same _ _ (by simp)

end Sys2Proof.Machine.State
end

