-- ==== Sys2Proof/Laws/TouchLine.lean ====
section
/-! SUPPORT. One relation, `Touch P s t`, for what the operations of lines and polls reach: the lines in `P`, the poll
table, the pool, the tail of the uplink queue, and the counters of the pool and of those lines; nothing else. -/

set_option Elab.async false

namespace Sys2Proof.Machine

/-- The counters the operations of the lines in `P` may move. A suppressed result is counted at the line its entry
names. -/
def Touch.allows (P : Fin 12 → Prop) : CtrId → Prop
  | .link _ => False
  | .pool _ => True
  | .line i c => P i ∨ c = .pollSuppressed

/-- Who waits for a grant, and who has been granted and has still to act, is a line in `P`. -/
def Waits (P : Fin 12 → Prop) (s : State) : Prop :=
  (∀ w ∈ s.pool.waitList, ∃ j, w.who = .line j ∧ P j) ∧ ∀ w ∈ s.granted, ∃ j, w = .line j ∧ P j

/-- From `s` to `t` only lines in `P`, polls, the pool, the queue's tail and allowed counters change; a line that waits may be
granted, so of lines this holds where none outside `P` waits. -/
structure Touch (P : Fin 12 → Prop) (s t : State) : Prop where
  line : Waits P s → ∀ j, ¬ P j → t.line j = s.line j
  wait : Waits P s → Waits P t
  intake : t.intake = s.intake
  cfg : t.cfg = s.cfg
  pollRun : t.pollRun = s.pollRun
  clock : t.clock = s.clock
  pending : t.pending = s.pending
  calm : t.trunk.calm = s.trunk.calm
  uplink : s.uplink <+: t.uplink
  late : t.lateResults = s.lateResults
  ctrs : ∀ d, ¬ d.sideways → ¬ Touch.allows P d → t.ctrs.read d = s.ctrs.read d

namespace Touch

variable {P : Fin 12 → Prop}

/-- Nothing changed. -/
@[simp] theorem rfl' (s : State) : Touch P s s :=
  ⟨fun _ _ _ => rfl, id, rfl, rfl, rfl, rfl, rfl, rfl, List.prefix_refl _, rfl, fun _ _ _ => rfl⟩

/-- One after another. -/
theorem trans {s t u : State} (h : Touch P s t) (k : Touch P t u) : Touch P s u :=
  ⟨fun w j hj => (k.line (h.wait w) j hj).trans (h.line w j hj), k.wait ∘ h.wait, k.intake.trans h.intake, k.cfg.trans h.cfg,
   k.pollRun.trans h.pollRun, k.clock.trans h.clock, k.pending.trans h.pending, k.calm.trans h.calm,
   h.uplink.trans k.uplink, k.late.trans h.late, fun d a b => (k.ctrs d a b).trans (h.ctrs d a b)⟩

/-- A fold of operations that each touch no more. -/
theorem foldl {α : Type} {s t : State} (f : State → α → State) (l : List α)
    (hf : ∀ u a, Touch P u (f u a)) (h : Touch P s t) : Touch P s (l.foldl f t) := by
  induction l generalizing t with
  | nil => exact h
  | cons a as ih => exact ih (h.trans (hf t a))

end Touch

namespace State

variable {P : Fin 12 → Prop} {s t : State}

/-! Updates and operations of Ops. -/

theorem touch_setPool (h : Touch P s t) (p : Pool) (hw : p.waitList = t.pool.waitList) : Touch P s (t.setPool p) :=
  h.trans ⟨fun _ _ _ => rfl, fun w => ⟨by simpa [hw] using w.1, w.2⟩, rfl, rfl, rfl, rfl, rfl, rfl,
    List.prefix_refl _, rfl, fun _ _ _ => rfl⟩
@[simp] theorem touch_setPoll (h : Touch P s t) (p : Fin 128) (e : Option Poll) : Touch P s (t.setPoll p e) :=
  h.trans ⟨fun _ _ _ => rfl, id, rfl, rfl, rfl, rfl, rfl, rfl, List.prefix_refl _, rfl, fun _ _ _ => rfl⟩
theorem touch_modLine (h : Touch P s t) (i : Fin 12) (f : Line → Line) (hi : P i) : Touch P s (t.modLine i f) := by
  refine h.trans ⟨fun _ j hj => ?_, id, rfl, rfl, rfl, rfl, rfl, rfl, List.prefix_refl _, rfl, fun _ _ _ => rfl⟩
  rw [line_modLine, if_neg]
  rintro e; subst e; exact hj hi
@[simp] theorem touch_modLine_same (h : Touch P s t) (i : Fin 12) (f : Line → Line) [hi : Fact (P i)] :
    Touch P s (t.modLine i f) := touch_modLine h i f hi.out
theorem touch_modLine_goto (h : Touch P s t) (i : Fin 12) (f : Line → Line) [hi : Fact (P i)] :
    Touch P s (t.modLine i f) := touch_modLine h i f hi.out

/-- An operation that leaves lines, intake and queue's head alone. -/
theorem touch_books (h : Touch P s t) (u : State) (l : ∀ j, u.line j = t.line j := by simp)
    (a : u.intake = t.intake := by simp) (b : u.cfg = t.cfg := by simp) (c : u.pollRun = t.pollRun := by simp)
    (d : u.clock = t.clock := by simp) (e : u.pending = t.pending := by simp)
    (f : u.trunk.calm = t.trunk.calm := by simp) (g : t.uplink <+: u.uplink := by simp)
    (m : u.lateResults = t.lateResults := by simp)
    (n : ∀ d, ¬ d.sideways → ¬ Touch.allows P d → u.ctrs.read d = t.ctrs.read d := by simp)
    (w : u.pool.waitList = t.pool.waitList := by simp) (x : u.granted = t.granted := by simp) : Touch P s u :=
  h.trans ⟨fun _ j _ => l j, fun k => ⟨by rw [w]; exact k.1, by rw [x]; exact k.2⟩, a, b, c, d, e, f, g, m, n⟩

@[simp] theorem touch_join (h : Touch P s t) (b : Body) (u : Bool) (n : Nat) : Touch P s (t.join b u n) :=
  touch_books h _
@[simp] theorem touch_raiseEvent (h : Touch P s t) (k : EventKind) (l : Byte) (d : BitVec 32) :
    Touch P s (t.raiseEvent k l d) := by
  refine touch_books h _ (g := ?_) (n := ?_)
  · unfold raiseEvent; split <;> simp
  · intro d hd _
    exact raiseEvent_ctrs _ _ _ _ _ (fun e => hd (Or.inl e))
theorem touch_count (h : Touch P s t) (c : CtrId) (hc : Touch.allows P c) :
    Touch P s (t.bump c) := by
  refine touch_books h _ (n := ?_)
  intro d hd ha
  exact bump_ctrs _ _ _ (fun e => ha (e ▸ hc)) (fun e => hd (Or.inl e))
@[simp] theorem touch_bump (h : Touch P s t) (i : Fin 12) (c : LineCtr) [hi : Fact (P i)] :
    Touch P s (t.bump (.line i c)) := touch_count h _ (Or.inl hi.out)
@[simp] theorem touch_bumpPool (h : Touch P s t) (c : PoolCtr) : Touch P s (t.bump (.pool c)) :=
  touch_count h _ trivial
@[simp] theorem touch_testHold (h : Touch P s t) : Touch P s t.testHold := by
  refine touch_books h _ (g := ?_) (n := ?_)
  · unfold testHold holdOn holdOff raiseEvent; dsimp only; split_ifs <;> simp
  · intro d hd _
    exact testHold_ctrs _ _ (fun e => hd (Or.inl e)) (fun e => hd (Or.inr (Or.inl e)))
@[simp] theorem touch_freeChanged (h : Touch P s t) : Touch P s t.freeChanged :=
  touch_testHold (touch_setPool h _ rfl)
@[simp] theorem touch_fill (h : Touch P s t) (n : Nat) : Touch P s (t.fill n) := touch_setPool h _ rfl
@[simp] theorem touch_unfill (h : Touch P s t) (n : Nat) : Touch P s (t.unfill n) := touch_setPool h _ rfl
@[simp] theorem touch_release (h : Touch P s t) (a b : Nat) : Touch P s (t.release a b) := by
  unfold release; split
  · exact h
  · exact touch_freeChanged (touch_setPool h _ rfl)
@[simp] theorem touch_settle (h : Touch P s t) (a b c d : Nat) : Touch P s (t.settle a b c d) :=
  touch_release (touch_fill h _) _ _
@[simp] theorem touch_freeRecordSlots (h : Touch P s t) (n : Nat) : Touch P s (t.freeRecordSlots n) :=
  touch_setPool h _ rfl
theorem touch_joinWait (h : Touch P s t) (i : Fin 12) (n : Need) [hi : Fact (P i)] :
    Touch P s (t.joinWait { who := .line i, need := n }) := by
  have k : Touch P s (t.setPool { t.pool with waitList := t.pool.waitList ++ [{ who := .line i, need := n }] }) := by
    refine h.trans ⟨fun _ _ _ => rfl, fun w => ⟨fun x hx => ?_, w.2⟩, rfl, rfl, rfl, rfl, rfl, rfl,
      List.prefix_refl _, rfl, fun _ _ _ => rfl⟩
    rcases List.mem_append.mp hx with k | k
    · exact w.1 x k
    · rw [List.mem_singleton.mp k]; exact ⟨i, rfl, hi.out⟩
  exact touch_bumpPool k _
@[simp] theorem touch_leaveWait (h : Touch P s t) (w : WaiterId) : Touch P s (t.leaveWait w) :=
  h.trans ⟨fun _ _ _ => rfl, fun k => ⟨fun x hx => k.1 x (List.mem_of_mem_filter hx), k.2⟩, rfl, rfl, rfl, rfl, rfl, rfl,
    List.prefix_refl _, rfl, fun _ _ _ => rfl⟩
theorem touch_take (h : Touch P s t) (n : Need) (into : Into) (_hp : t.pool.passes n = true) :
    Touch P s (t.take n into) := touch_freeChanged (touch_setPool h _ (by cases into <;> rfl))

/-- A granting touches the lines it grants alone (R97). -/
@[simp] theorem touch_grantAll (h : Touch P s t) : Touch P s t.grantAll := by
  have k : ∀ (ws : List Waiter) (u : State), u.pool.waitList = ws → Touch P u (grantRun ws u) := by
    intro ws
    induction ws with
    | nil => exact fun u _ => Touch.rfl' u
    | cons w ws ih =>
      intro u hu
      unfold grantRun
      split
      · next hp =>
        obtain ⟨b1, b2, b3, b4, b5⟩ := grantOne_books u w ws
        obtain ⟨f1, f2, f3, f4, f5, f6, f7, f8, f9, f10, f11⟩ := grantOne_frame u w ws
        obtain ⟨_, g2, g3, g4⟩ := grantOne_told u w ws
        refine Touch.trans ⟨fun x j hj => f11 j (fun e => ?_), fun x => ⟨fun y hy => ?_, fun y hy => ?_⟩, f3, f2, f5, f1,
          f6, f9, g3, g2, fun d hd _ => g4 d (fun e => hd (Or.inl e)) (fun e => hd (Or.inr (Or.inl e)))⟩ (ih _ b2)
        · obtain ⟨j', e', p'⟩ := x.1 w (by rw [hu]; exact List.mem_cons_self)
          rw [e] at e'; cases e'; exact hj p'
        · rw [b2] at hy
          exact x.1 y (by rw [hu]; exact List.mem_cons_of_mem _ hy)
        · rw [b1] at hy
          rcases List.mem_append.mp hy with q | q
          · exact x.2 y q
          · rw [List.mem_singleton.mp q]
            exact x.1 w (by rw [hu]; exact List.mem_cons_self)
      · exact Touch.rfl' u
  exact h.trans (k _ t rfl)

/-! Poll table. -/

@[simp] theorem touch_dropReservation (h : Touch P s t) (r : Option (Nat × Nat)) :
    Touch P s (t.dropReservation r) := by
  unfold dropReservation; split
  · exact touch_grantAll (touch_freeRecordSlots (touch_settle h _ _ _ _) _)
  · exact h

@[simp] theorem touch_pollReported (h : Touch P s t) (id : Fin 128) (p : Poll) (o : TxnOutcome) (a : Assembly)
    (n k : Nat) : Touch P s (t.pollReported id p o a n k) := by
  simp only [pollReported]
  exact touch_setPoll (touch_grantAll (touch_settle (touch_join h _ _ _) _ _ _ _)) _ _

@[simp] theorem touch_pollSuppressed (h : Touch P s t) (id : Fin 128) (p : Poll) (o : TxnOutcome) (a : Assembly)
    (n k : Nat) : Touch P s (t.pollSuppressed id p o a n k) := by
  simp only [pollSuppressed]
  exact touch_count (touch_setPoll (touch_dropReservation h _) _ _) _ (Or.inr rfl)

@[simp] theorem touch_pollDone (h : Touch P s t) (id : Fin 128) (o : TxnOutcome) (a : Assembly)
    (r : Option (Nat × Nat)) : Touch P s (t.pollDone id o a r) := by
  unfold pollDone pollRunDone; split
  · simp [h]
  · split
    · exact touch_setPoll (touch_dropReservation h _) _ _
    · split
      · split <;> simp [h]
      · simp [h]

@[simp] theorem touch_pollUndue (h : Touch P s t) (id : Fin 128) : Touch P s (t.pollUndue id) := by
  simp [pollUndue, h]

/-! Lines. -/

@[simp] theorem touch_startChar (h : Touch P s t) (i : Fin 12) [hi : Fact (P i)] : Touch P s (t.startChar i) := by
  unfold startChar; split
  · exact h
  · simp [h]

@[simp] theorem touch_enterSending (h : Touch P s t) (i : Fin 12) [hi : Fact (P i)] : Touch P s (t.enterSending i) := by
  simp only [enterSending]
  have k : Touch P s (t.modLine i (fun l =>
      { l.goto .sending with
        hand := l.hand.map Txn.fresh, sent := 0, echoed := 0, charOut := none, deHold := none,
        deLead := countOf l.applied.deLead })) := touch_modLine_goto h i _
  split
  · exact touch_startChar k i
  · exact k

@[simp] theorem touch_enterReady (h : Touch P s t) (i : Fin 12) [hi : Fact (P i)] : Touch P s (t.enterReady i) := by
  simp only [enterReady]
  have k : Touch P s (t.modLine i (fun l => l.goto .ready)) := touch_modLine_goto h i _
  split
  · exact touch_enterSending k i
  · exact k

@[simp] theorem touch_giveReservation (h : Touch P s t) (i : Fin 12) (n : Nat) [hi : Fact (P i)] :
    Touch P s (t.giveReservation i n) := by simp [giveReservation, h]

@[simp] theorem touch_takeInHand (h : Touch P s t) (i : Fin 12) (w : Work) [hi : Fact (P i)] : Touch P s (t.takeInHand i w) := by
  simp only [takeInHand]
  have k : Touch P s (t.modLine i (fun l => { l.goto .waitSpace with hand := some (Txn.start w) })) :=
    touch_modLine_goto h i _
  split
  next hg => exact touch_enterReady (touch_giveReservation (touch_take k _ _ (passes_of_grantsNow _ hg)) i _) i
  next => exact touch_joinWait k i _

@[simp] theorem touch_select (h : Touch P s t) (i : Fin 12) [hi : Fact (P i)] : Touch P s (t.select i) := by
  unfold select; split
  · exact touch_takeInHand (touch_modLine_same h i _) i _
  · exact touch_takeInHand (touch_setPoll (touch_modLine_same h i _) _ _) i _
  · exact h

@[simp] theorem touch_selectIfIdle (h : Touch P s t) (i : Fin 12) [hi : Fact (P i)] : Touch P s (t.selectIfIdle i) := by
  unfold selectIfIdle; split <;> simp [h]

@[simp] theorem touch_replyInPayload (h : Touch P s t) (l : Byte) (g : Half) (u : Bool) (p : List Byte)
    (o : TxnOutcome) : Touch P s (t.replyInPayload l g u p o) := by simp [replyInPayload, h]

@[simp] theorem touch_refuseOwn (h : Touch P s t) (i : Fin 12) (o : TxnOutcome) (r : Request) [hi : Fact (P i)] :
    Touch P s (t.refuseOwn i o r) := by
  simp only [refuseOwn]
  exact touch_join (touch_bump (touch_grantAll (touch_release h _ _)) _ _) _ _ _

@[simp] theorem touch_refuseAll (h : Touch P s t) (i : Fin 12) (o : TxnOutcome) (rs : List Request) [hi : Fact (P i)] :
    Touch P s (t.refuseAll i o rs) := Touch.foldl _ rs (fun u r => touch_refuseOwn (Touch.rfl' u) i o r) h

@[simp] theorem touch_goOffline (h : Touch P s t) (i : Fin 12) [hi : Fact (P i)] : Touch P s (t.goOffline i) :=
  touch_refuseAll (Touch.foldl (fun s (d : DueItem) => s.pollUndue d.poll) _
    (fun u d => touch_pollUndue (Touch.rfl' u) d.poll) (touch_modLine_goto h i _)) i _ _

@[simp] theorem touch_shrinkQueue (h : Touch P s t) (i : Fin 12) [hi : Fact (P i)] : Touch P s (t.shrinkQueue i) :=
  touch_refuseAll (touch_modLine_same h i _) i _ _

@[simp] theorem touch_putProfile (h : Touch P s t) (i : Fin 12) (p : Profile) [hi : Fact (P i)] : Touch P s (t.putProfile i p) := by
  simp only [putProfile]
  have k : Touch P s (t.modLine i (fun l => { l with applied := p })) :=
    touch_modLine_same h i _
  split_ifs
  · exact touch_shrinkQueue (touch_modLine_goto k i _) i
  · exact touch_shrinkQueue k i
  · exact k
  · exact touch_goOffline k i

@[simp] theorem touch_applyStaged (h : Touch P s t) (i : Fin 12) [hi : Fact (P i)] : Touch P s (t.applyStaged i) := by
  unfold applyStaged; split
  · exact h
  · exact touch_putProfile (touch_raiseEvent (touch_modLine_same h i _) _ _ _) i _

@[simp] theorem touch_enterIdle (h : Touch P s t) (i : Fin 12) [hi : Fact (P i)] : Touch P s (t.enterIdle i) := by
  simp only [enterIdle]
  have k : Touch P s (t.modLine i (fun l => l.goto .idle)) := touch_modLine_goto h i _
  split
  · exact touch_selectIfIdle (touch_applyStaged k i) i
  · exact touch_selectIfIdle k i

@[simp] theorem touch_guardOver (h : Touch P s t) (i : Fin 12) [hi : Fact (P i)] : Touch P s (t.guardOver i) := by
  simp only [guardOver]
  have k : Touch P s (t.modLine i (fun l => { l with guardEnd := none, lateMark := none })) :=
    touch_modLine_same h i _
  split
  · exact touch_enterReady (touch_modLine_same k i _) i
  · exact touch_enterIdle k i

@[simp] theorem touch_enterGuard (h : Touch P s t) (i : Fin 12) (late : Option Half) [hi : Fact (P i)] :
    Touch P s (t.enterGuard i late) := by
  simp only [enterGuard]
  have k : Touch P s (t.modLine i (fun l =>
      { l.fixListen.goto .guard with
        guardEnd := some (t.clock + l.applied.guardTime), lateMark := late, window := none, deLead := none,
        deHold := none, charOut := none })) := touch_modLine_goto h i _
  split
  · exact touch_guardOver k i
  · exact k

@[simp] theorem touch_countOutcome (h : Touch P s t) (i : Fin 12) (o : TxnOutcome) [hi : Fact (P i)] :
    Touch P s (t.countOutcome i o) := by unfold countOutcome; split <;> simp [h]

@[simp] theorem touch_replyDone (h : Touch P s t) (i : Fin 12) (r : Request) (x : Txn) (o : TxnOutcome) :
    Touch P s (t.replyDone i r x o) :=
  touch_grantAll (touch_settle (touch_join h _ _ _) _ _ _ _)

@[simp] theorem touch_complete (h : Touch P s t) (i : Fin 12) (x : Txn) (o : TxnOutcome) [hi : Fact (P i)] :
    Touch P s (t.complete i x o) := by
  simp only [complete]
  have k : Touch P s (t.modLine i (fun l => { l with hand := none })) :=
    touch_modLine_same h i _
  split
  · exact touch_countOutcome (touch_replyDone k i _ x o) i o
  · exact touch_pollDone (touch_countOutcome k i o) _ o _ _

@[simp] theorem touch_completeToGuard (h : Touch P s t) (i : Fin 12) (x : Txn) (o : TxnOutcome) [hi : Fact (P i)] :
    Touch P s (t.completeToGuard i x o) := touch_enterGuard (touch_complete h i x o) i _

@[simp] theorem touch_discardReply (h : Touch P s t) (i : Fin 12) (x : Txn) [hi : Fact (P i)] : Touch P s (t.discardReply i x) :=
  touch_unfill (touch_modLine_same h i _) _

@[simp] theorem touch_attemptEnds (h : Touch P s t) (i : Fin 12) (x : Txn) (o : TxnOutcome) [hi : Fact (P i)] :
    Touch P s (t.attemptEnds i x o) := by
  unfold attemptEnds; split
  · exact touch_enterGuard (touch_bump (touch_discardReply h i x) _ _) i _
  · exact touch_completeToGuard h i x o

@[simp] theorem touch_noReplyEnds (h : Touch P s t) (i : Fin 12) (x : Txn) [hi : Fact (P i)] : Touch P s (t.noReplyEnds i x) :=
  touch_attemptEnds (touch_discardReply h i x) i _ _

@[simp] theorem touch_turnaroundOver (h : Touch P s t) (i : Fin 12) [hi : Fact (P i)] : Touch P s (t.turnaroundOver i) := by
  unfold turnaroundOver; split
  · exact h
  · split
    · exact touch_completeToGuard h i _ _
    · exact touch_modLine_goto h i _

@[simp] theorem touch_earlyAnswer (h : Touch P s t) (i : Fin 12) [hi : Fact (P i)] : Touch P s (t.earlyAnswer i) := by
  unfold earlyAnswer; split
  · exact h
  · split
    · exact touch_completeToGuard h i _ _
    · exact touch_modLine_goto h i _

@[simp] theorem touch_enterTurnaround (h : Touch P s t) (i : Fin 12) [hi : Fact (P i)] : Touch P s (t.enterTurnaround i) := by
  simp only [enterTurnaround]
  have k : Touch P s (t.modLine i (fun l => l.goto .turnaround)) := touch_modLine_goto h i _
  split_ifs
  · exact touch_earlyAnswer k i
  · exact touch_turnaroundOver k i
  · exact k

@[simp] theorem touch_forwardFrame (h : Touch P s t) (i : Fin 12) (a : Assembly) (o : TxnOutcome)
    (l : Option Half) (st : Bool) (kn : Option Nat) (n m : Nat) [hi : Fact (P i)] :
    Touch P s (t.forwardFrame i a o l st kn n m) := by
  simp only [forwardFrame]
  exact touch_bump (touch_grantAll (touch_settle (touch_join h _ _ _) _ _ _ _)) _ _

@[simp] theorem touch_dropKept (h : Touch P s t) (i : Fin 12) (n m : Nat) [hi : Fact (P i)] : Touch P s (t.dropKept i n m) :=
  touch_bump (touch_grantAll (touch_freeRecordSlots (touch_settle h _ _ _ _) _)) _ _

@[simp] theorem touch_finishKept (h : Touch P s t) (i : Fin 12) (a : Assembly) (o : TxnOutcome)
    (l : Option Half) (st : Bool) (n m : Nat) [hi : Fact (P i)] : Touch P s (t.finishKept i a o l st n m) := by
  unfold finishKept; split
  · split
    · simp [h]
    · split <;> simp [h]
  · simp [h]
  · simp [h]

@[simp] theorem touch_disposeStray (h : Touch P s t) (i : Fin 12) (a : Assembly) [hi : Fact (P i)] :
    Touch P s (t.disposeStray i a) := by
  simp only [disposeStray]
  split_ifs
  · exact touch_bump h _ _
  next hp => exact touch_finishKept (touch_take h _ _ hp) i a _ _ _ _ _
  · exact touch_bumpPool h _

@[simp] theorem touch_strayFound (h : Touch P s t) (i : Fin 12) (x : Txn) [hi : Fact (P i)] : Touch P s (t.strayFound i x) := by
  simp only [strayFound]
  have k : Touch P s ((t.bump (.line i .strayFrames)).disposeStray i x.reply) :=
    touch_disposeStray (touch_bump h _ _) i _
  split
  · exact touch_noReplyEnds k i x
  · exact touch_modLine_goto (touch_discardReply k i x) i _

@[simp] theorem touch_endReply (h : Touch P s t) (i : Fin 12) (x : Txn) [hi : Fact (P i)] : Touch P s (t.endReply i x) := by
  unfold endReply; split <;> simp [h]

@[simp] theorem touch_replyChar (h : Touch P s t) (i : Fin 12) (x : Txn) (c : RxChar) [hi : Fact (P i)] :
    Touch P s (t.replyChar i x c) := by
  simp only [replyChar]
  split
  · exact touch_endReply (touch_fill (touch_modLine_same h i _) _) i _
  · exact touch_modLine_same (touch_fill (touch_modLine_same h i _) _) i _

@[simp] theorem touch_keepUnsolicited (h : Touch P s t) (i : Fin 12) (u : Unsolicited) (n : Nat) (c : RxChar) [hi : Fact (P i)] :
    Touch P s (t.keepUnsolicited i u n c) := by
  simp only [keepUnsolicited]
  exact touch_fill (touch_modLine_same h i _) _

@[simp] theorem touch_discardUnsolicited (h : Touch P s t) (i : Fin 12) (u : Unsolicited) (m : UnsolMode)
    (c : RxChar) [hi : Fact (P i)] : Touch P s (t.discardUnsolicited i u m c) :=
  touch_modLine_same h i _

@[simp] theorem touch_countLate (h : Touch P s t) (i : Fin 12) (u : Unsolicited) [hi : Fact (P i)] : Touch P s (t.countLate i u) := by
  unfold countLate; split <;> simp [h]

@[simp] theorem touch_firstUnsolicited (h : Touch P s t) (i : Fin 12) (u : Unsolicited) (c : RxChar) [hi : Fact (P i)] :
    Touch P s (t.firstUnsolicited i u c) := by
  simp only [firstUnsolicited]
  have k := touch_countLate h i u
  split_ifs
  · exact touch_discardUnsolicited k i u _ c
  next hp => exact touch_keepUnsolicited (touch_take k _ _ hp) i u _ c
  · exact touch_discardUnsolicited (touch_bumpPool k _) i u _ c

@[simp] theorem touch_unsolicitedChar (h : Touch P s t) (i : Fin 12) (u : Unsolicited) (c : RxChar) [hi : Fact (P i)] :
    Touch P s (t.unsolicitedChar i u c) := by unfold unsolicitedChar; split <;> simp [h]

@[simp] theorem touch_endUnsolicited (h : Touch P s t) (i : Fin 12) (b : Bool) [hi : Fact (P i)] :
    Touch P s (t.endUnsolicited i b) := by
  unfold endUnsolicited finishUnsolicited; split
  · split <;> simp [h]
  · exact h

@[simp] theorem touch_becomeQuiet (h : Touch P s t) (i : Fin 12) [hi : Fact (P i)] : Touch P s (t.becomeQuiet i) := by
  simp only [becomeQuiet]
  have k : Touch P s (t.modLine i (fun l =>
      { l with listen := .quiet, unsolicited := none, gap := none, awaitMark := false, postBreak := none })) :=
    touch_modLine_same h i _
  split <;> simp [k]

@[simp] theorem touch_becomeBreak (h : Touch P s t) (i : Fin 12) [hi : Fact (P i)] : Touch P s (t.becomeBreak i) :=
  touch_modLine_same h i _

@[simp] theorem touch_echoFails (h : Touch P s t) (i : Fin 12) (x : Txn) [hi : Fact (P i)] : Touch P s (t.echoFails i x) := by
  unfold echoFails; split_ifs
  · exact h
  · exact touch_modLine_same h i _
  · exact touch_completeToGuard h i x _

@[simp] theorem touch_echoChar (h : Touch P s t) (i : Fin 12) (x : Txn) (c : RxChar) [hi : Fact (P i)] :
    Touch P s (t.echoChar i x c) := by
  simp only [echoChar]
  have k : Touch P s (t.modLine i (fun l => { l with echoed := l.echoed + 1 })) :=
    touch_modLine_same h i _
  split_ifs
  · exact h
  · exact touch_enterTurnaround k i
  · exact k
  · exact touch_echoFails h i x

@[simp] theorem touch_allSent (h : Touch P s t) (i : Fin 12) [hi : Fact (P i)] : Touch P s (t.allSent i) := by
  simp only [allSent]
  have k : Touch P s (t.modLine i (fun l => { l with deHold := countOf l.applied.deHold })) :=
    touch_modLine_same h i _
  split_ifs
  · exact k
  · exact touch_enterTurnaround k i

@[simp] theorem touch_charSent (h : Touch P s t) (i : Fin 12) (x : Txn) [hi : Fact (P i)] : Touch P s (t.charSent i x) := by
  simp only [charSent]
  have k : Touch P s (t.modLine i (fun l => { l with charOut := none, sent := l.sent + 1 })) :=
    touch_modLine_same h i _
  split_ifs
  · exact touch_completeToGuard k i x _
  · exact touch_completeToGuard k i x _
  · exact touch_startChar k i
  · exact touch_allSent k i

@[simp] theorem touch_takeStart (h : Touch P s t) (i : Fin 12) [hi : Fact (P i)] : Touch P s (t.takeStart i) := by
  have q : Touch P s (t.modLine i Line.quietStart) := touch_modLine_same h i _
  unfold takeStart; split
  · exact h
  · exact q
  · exact q
  · exact q
  · exact q
  · exact touch_modLine_same h i _
  · exact touch_earlyAnswer (touch_modLine_same h i _) i
  · exact touch_modLine_goto h i _
  · exact touch_modLine_same h i _

@[simp] theorem touch_quietChar (h : Touch P s t) (i : Fin 12) (c : RxChar) [hi : Fact (P i)] : Touch P s (t.quietChar i c) := by
  unfold quietChar; split <;> simp [h]

@[simp] theorem touch_takeChar (h : Touch P s t) (i : Fin 12) (c : RxChar) [hi : Fact (P i)] : Touch P s (t.takeChar i c) := by
  simp only [takeChar]
  have k : Touch P s (t.modLine i (fun l => { l with rxBusy := false })) :=
    touch_modLine_same h i _
  split <;> simp [k]

@[simp] theorem touch_quietBreak (h : Touch P s t) (i : Fin 12) [hi : Fact (P i)] : Touch P s (t.quietBreak i) := by
  unfold quietBreak; split <;> simp [h]

@[simp] theorem touch_takeBreak (h : Touch P s t) (i : Fin 12) [hi : Fact (P i)] : Touch P s (t.takeBreak i) := by
  simp only [takeBreak]
  have k : Touch P s ((t.modLine i (fun l => { l with rxBusy := false, brk := true })).bump (.line i .breaks)) :=
    touch_bump (touch_modLine_same h i _) _ _
  split <;> simp [k]

@[simp] theorem touch_takeGapEnd (h : Touch P s t) (i : Fin 12) [hi : Fact (P i)] : Touch P s (t.takeGapEnd i) := by
  unfold takeGapEnd; split <;> simp [h]

@[simp] theorem touch_abortUnsolicited (h : Touch P s t) (i : Fin 12) [hi : Fact (P i)] : Touch P s (t.abortUnsolicited i) := by
  unfold abortUnsolicited; split
  next u _ _ =>
    have k : Touch P s (t.modLine i (fun l => { l with unsolicited := some { u with mode := .aborted } })) :=
      touch_modLine_same h i _
    split <;> simp [k]
  · exact h
  · exact h
  · exact h

@[simp] theorem touch_abortWaiting (h : Touch P s t) (i : Fin 12) (x : Txn) [hi : Fact (P i)] : Touch P s (t.abortWaiting i x) := by
  simp only [abortWaiting]
  have k : Touch P s (t.modLine i (fun l => { l with hand := none })) :=
    touch_modLine_same h i _
  split
  · exact touch_countOutcome (touch_replyInPayload k _ _ _ _ _) i _
  · split
    next hp => exact touch_pollDone (touch_take (touch_countOutcome k i _) _ _ hp) _ _ _ _
    · exact touch_pollDone (touch_countOutcome k i _) _ _ _ _

@[simp] theorem touch_abortTxn (h : Touch P s t) (i : Fin 12) (c : AbortCase) [hi : Fact (P i)] : Touch P s (t.abortTxn i c) := by
  unfold abortTxn; split
  · exact h
  · exact touch_grantAll (touch_abortWaiting (touch_leaveWait h _) i _)
  · simp [h]
  · simp [h]
  · exact touch_modLine_same h i _

@[simp] theorem touch_flushQueue (h : Touch P s t) (i : Fin 12) [hi : Fact (P i)] : Touch P s (t.flushQueue i) :=
  touch_refuseAll (touch_modLine_same h i _) i _ _

/-! The poll schedule: an entry's own line. -/

@[simp] theorem touch_becomeDue (h : Touch P s t) (id : Fin 128) (p : Poll) (n : Nat) [hi : Fact (P p.defn.line)] :
    Touch P s (t.becomeDue id p n) :=
  touch_selectIfIdle (touch_modLine_same (touch_setPoll h _ _) _ _) _

@[simp] theorem touch_reachDue (h : Touch P s t) (id : Fin 128) (p : Poll) (n : Nat) [hi : Fact (P p.defn.line)] :
    Touch P s (t.reachDue id p n) := by
  unfold reachDue; split
  · split <;> simp [h]
  · simp [h]
  · simp [h]
  · simp [h]

@[simp] theorem touch_activate (h : Touch P s t) (hP : ∀ i, P i) : Touch P s t.activate := by
  refine Touch.foldl _ _ (fun u id => ?_)
    (h.trans ⟨fun _ _ _ => rfl, id, rfl, rfl, rfl, rfl, rfl, rfl, List.prefix_refl _, rfl, fun _ _ _ => rfl⟩)
  unfold phaseZero; split
  next p _ =>
    have : Fact (P p.defn.line) := ⟨hP _⟩
    split
    · exact touch_reachDue (Touch.rfl' u) _ _ _
    · exact Touch.rfl' u
  · exact Touch.rfl' u

/-! The acts of the granted. -/

@[simp] theorem touch_setGranted (h : Touch P s t) : Touch P s (t.setGranted []) :=
  h.trans ⟨fun _ _ _ => rfl, fun w => ⟨w.1, fun _ hx => by cases hx⟩, rfl, rfl, rfl, rfl, rfl, rfl,
    List.prefix_refl _, rfl, fun _ _ _ => rfl⟩

@[simp] theorem touch_lineGranted (h : Touch P s t) (i : Fin 12) [hi : Fact (P i)] : Touch P s (t.lineGranted i) := by
  unfold lineGranted; split
  · split
    · exact touch_enterReady h i
    · exact h
  · exact h

/-- Where none but lines in `P` has been granted, none but they act. -/
theorem touch_actGranted (h : Touch P s t) (w : Waits P t) : Touch P s t.actGranted := by
  have k : ∀ (f : State → WaiterId → State) (l : List WaiterId) (u v : State), (∀ x ∈ l, ∃ j, x = .line j ∧ P j) →
      (∀ y j, f y (.line j) = y.lineGranted j) → Touch P u v → Touch P u (l.foldl f v) := by
    intro f l
    induction l with
    | nil => exact fun u v _ _ hv => hv
    | cons x xs ih =>
      intro u v hl hf hv
      obtain ⟨j, rfl, hj⟩ := hl x List.mem_cons_self
      have : Fact (P j) := ⟨hj⟩
      rw [List.foldl_cons, hf]
      exact ih u _ (fun y hy => hl y (List.mem_cons_of_mem _ hy)) hf (touch_lineGranted hv j)
  have a := k grantActs t.granted t (t.setGranted []) w.2 (fun _ _ => rfl) (touch_setGranted (Touch.rfl' t))
  have b := a.wait w
  exact h.trans (k lineActs _ t _ b.2 (fun _ _ => rfl) (touch_setGranted a))

end State

end Sys2Proof.Machine
end

