-- ==== Sys2Proof/Laws/Completion.lean ====
section
/-! SUPPORT. How a transaction leaves the line: what follows the entry into GUARD, also with a GuardTime of 0, and the
whole of a completion and of a retry, in the words of the statements. -/

set_option Elab.async false

namespace Sys2Proof.Machine

/-- The line is out of GUARD. -/
def Line.outOfGuard (l : Line) : Prop := l.txn ≠ .guard ∧ l.guardEnd = none ∧ l.lateMark = none

/-- The counters that what comes after GUARD leaves alone: those of the line but for refusals, and lost frames. -/
def CtrId.steady (i : Fin 12) (d : CtrId) : Prop :=
  d = .pool .unsolicitedLost ∨ ∃ c : LineCtr, c ≠ .requestsRefused ∧ d = .line i c

/-- A steady counter is none of those that move by themselves. -/
theorem CtrId.steady.ne {i : Fin 12} {d : CtrId} (h : d.steady i) :
    ¬ d.sideways ∧ d ≠ .line i .requestsRefused ∧ d ≠ .pool .waitSpaceEntries ∧ d ≠ .pool .eventsMissed ∧
    d ≠ .pool .poolLowEpisodes := by
  rcases h with rfl | ⟨c, hc, rfl⟩ <;> simp_all [CtrId.sideways]

/-- What comes after GUARD keeps the line out of it and counts nothing at the line but refusals. -/
structure Follows (i : Fin 12) (s t : State) : Prop where
  line : (s.line i).outOfGuard → (t.line i).outOfGuard
  ctrs : ∀ d : CtrId, d.steady i → t.ctrs.read d = s.ctrs.read d

namespace Follows

variable {i : Fin 12} {s t u : State}

theorem rfl' (i : Fin 12) (s : State) : Follows i s s := ⟨id, fun _ _ => rfl⟩

theorem trans (h : Follows i s t) (k : Follows i t u) : Follows i s u :=
  ⟨k.line ∘ h.line, fun c hc => (k.ctrs c hc).trans (h.ctrs c hc)⟩

/-- An operation that leaves the line out of GUARD, and of the line's counters moves refusals at most. -/
theorem books' (h : Follows i s t) (l : (t.line i).outOfGuard → (u.line i).outOfGuard)
    (k : ∀ d : CtrId, d.steady i → u.ctrs.read d = t.ctrs.read d) : Follows i s u :=
  h.trans ⟨l, k⟩

/-- An operation that leaves the lines, and of the line's counters moves refusals at most. -/
theorem books (h : Follows i s t) (l : ∀ j, u.line j = t.line j)
    (k : ∀ d : CtrId, d.steady i → u.ctrs.read d = t.ctrs.read d) : Follows i s u :=
  h.trans ⟨fun e => by rw [l i]; exact e, k⟩

theorem modLine (h : Follows i s t) (f : Line → Line) (hf : ∀ l : Line, l.outOfGuard → (f l).outOfGuard) :
    Follows i s (t.modLine i f) :=
  h.trans ⟨fun e => by rw [State.line_modLine_same]; exact hf _ e, fun _ _ => rfl⟩

theorem foldl {α : Type} (f : State → α → State) (l : List α) (hf : ∀ u a, Follows i u (f u a)) (h : Follows i s t) :
    Follows i s (l.foldl f t) := by
  induction l generalizing t with
  | nil => exact h
  | cons a as ih => exact ih (h.trans (hf t a))

end Follows

namespace State

variable {i : Fin 12} {s t : State}

theorem follows_setPoll (h : Follows i s t) (p : Fin 128) (e : Option Poll) : Follows i s (t.setPoll p e) :=
  h.trans ⟨id, fun _ _ => rfl⟩

theorem follows_raiseEvent (h : Follows i s t) (k : EventKind) (l : Byte) (d : BitVec 32) :
    Follows i s (t.raiseEvent k l d) := h.books (by simp) (fun d hd => by simp [hd.ne])

theorem follows_startChar (h : Follows i s t) : Follows i s (t.startChar i) := by
  unfold startChar; split
  · exact h
  · exact h.modLine _ (fun _ => id)

theorem follows_enterSending (h : Follows i s t) : Follows i s (t.enterSending i) := by
  have k : Follows i s (t.modLine i (fun l =>
      { l.goto .sending with
        hand := l.hand.map Txn.fresh, sent := 0, echoed := 0, charOut := none, deHold := none,
        deLead := countOf l.applied.deLead })) := h.modLine _ (fun _ e => ⟨by simp [Line.goto], e.2⟩)
  unfold enterSending; dsimp only; split
  · exact follows_startChar k
  · exact k

theorem follows_enterReady (h : Follows i s t) : Follows i s (t.enterReady i) := by
  have k : Follows i s (t.modLine i (fun l => l.goto .ready)) := h.modLine _ (fun _ e => ⟨by simp [Line.goto], e.2⟩)
  unfold enterReady; dsimp only; split
  · exact follows_enterSending k
  · exact k

theorem follows_takeInHand (h : Follows i s t) (w : Work) : Follows i s (t.takeInHand i w) := by
  have k : Follows i s (t.modLine i (fun l => { l.goto .waitSpace with hand := some (Txn.start w) })) :=
    h.modLine _ (fun _ e => ⟨by simp [Line.goto], e.2⟩)
  unfold takeInHand; dsimp only; split
  · exact follows_enterReady ((k.books (by simp) (fun d hd => by simp [hd.ne])).modLine _ (fun _ => id))
  · exact k.books (by simp) (fun d hd => by simp [joinWait, hd.ne])

theorem follows_select (h : Follows i s t) : Follows i s (t.select i) := by
  unfold select; split
  · next r q _ =>
    exact follows_takeInHand (h.modLine (fun l => { l with queue := q }) (fun _ => id)) _
  · next d ds _ =>
    exact follows_takeInHand (follows_setPoll (h.modLine (fun l => { l with due := ds }) (fun _ => id)) _ _) _
  · exact h

theorem follows_selectIfIdle (h : Follows i s t) : Follows i s (t.selectIfIdle i) := by
  unfold selectIfIdle; split
  · exact follows_select h
  · exact h

theorem follows_refuseAll (h : Follows i s t) (o : TxnOutcome) (rs : List Request) :
    Follows i s (t.refuseAll i o rs) := by
  refine Follows.foldl _ rs (fun u r => ?_) h
  refine (Follows.rfl' i u).books' (fun e => ?_) (fun c hc => ?_)
  · have g := (grantAll_line (u.release 0 (payloadBlocks r.payload - 1)) i).1
    simp only [refuseOwn, join_frame, bump_frame]
    rw [g]; simpa [Line.outOfGuard] using e
  simp [refuseOwn, hc.ne]

theorem follows_goOffline (h : Follows i s t) : Follows i s (t.goOffline i) := by
  refine follows_refuseAll (Follows.foldl (fun s (d : DueItem) => s.pollUndue d.poll) _ (fun u d => ?_)
    (h.modLine (fun l => { (l.goto .offline).rxQuiet with queue := [], due := [] })
      (fun _ e => ⟨by show TxnState.offline ≠ .guard; decide, e.2⟩))) _ _
  exact (Follows.rfl' i u).books (by simp [pollUndue]) (by simp [pollUndue])

theorem follows_shrinkQueue (h : Follows i s t) : Follows i s (t.shrinkQueue i) :=
  follows_refuseAll (h.modLine (fun l => { l with queue := l.queue.take l.applied.queueDepth }) (fun _ => id)) _ _

theorem follows_putProfile (h : Follows i s t) (p : Profile) : Follows i s (t.putProfile i p) := by
  have k : Follows i s (t.modLine i (fun l => { l with applied := p })) := h.modLine _ (fun _ => id)
  unfold putProfile; dsimp only
  split_ifs
  · exact follows_shrinkQueue (k.modLine (fun l => (l.goto .idle).rxQuiet)
      (fun _ e => ⟨by show TxnState.idle ≠ .guard; decide, e.2⟩))
  · exact follows_shrinkQueue k
  · exact k
  · exact follows_goOffline k

theorem follows_applyStaged (h : Follows i s t) : Follows i s (t.applyStaged i) := by
  unfold applyStaged; split
  · exact h
  · exact follows_putProfile (follows_raiseEvent (h.modLine (fun l => { l with staged := none }) (fun _ => id)) _ _ _) _

theorem follows_lineGranted (h : Follows i s t) : Follows i s (t.lineGranted i) := by
  unfold lineGranted; split
  · split
    · exact follows_enterReady h
    · exact h
  · exact h

/-- The acts of the granted, where none but line `i` can have been granted. -/
theorem follows_actGranted (h : Follows i s t) (w : Waits (fun j => j = i) t) : Follows i s t.actGranted := by
  have k : ∀ (f : State → WaiterId → State) (l : List WaiterId) (u v : State), (∀ x ∈ l, x = .line i) →
      (∀ y, f y (.line i) = y.lineGranted i) → Follows i u v → Follows i u (l.foldl f v) := by
    intro f l
    induction l with
    | nil => exact fun u v _ _ hv => hv
    | cons x xs ih =>
      intro u v hl hf hv
      rw [List.foldl_cons, hl x List.mem_cons_self, hf]
      exact ih u _ (fun y hy => hl y (List.mem_cons_of_mem _ hy)) hf (follows_lineGranted hv)
  have q : ∀ v : State, Waits (fun j => j = i) v → ∀ x ∈ v.granted, x = .line i := by
    intro v hv x hx
    obtain ⟨j, e, hj⟩ := hv.2 x hx
    rw [e, hj]
  have tk : Touch (fun j => j = i) t (t.granted.foldl grantActs (t.setGranted [])) := by
    have : Fact ((fun j => j = i) i) := ⟨rfl⟩
    refine (?_ : ∀ (l : List WaiterId) (v : State), (∀ x ∈ l, x = .line i) → Touch (fun j => j = i) t v →
      Touch (fun j => j = i) t (l.foldl grantActs v)) _ _ (q t w) (touch_setGranted (Touch.rfl' t))
    intro l
    induction l with
    | nil => exact fun v _ hv => hv
    | cons x xs ih =>
      intro v hl hv
      rw [List.foldl_cons, hl x List.mem_cons_self]
      exact ih _ (fun y hy => hl y (List.mem_cons_of_mem _ hy)) (touch_lineGranted hv i)
  have r : ∀ v : State, Follows i v (v.setGranted []) := fun v => ⟨id, fun _ _ => rfl⟩
  have a := k grantActs t.granted t _ (q t w) (fun _ => rfl) (r t)
  exact h.trans (k lineActs _ t _ (q _ (tk.wait w)) (fun _ => rfl) (a.trans (r _)))

/-- The line out of GUARD by way of IDLE or READY. -/
theorem guardOver_out (s : State) (i : Fin 12) :
    ((s.guardOver i).line i).outOfGuard ∧
    ∀ d : CtrId, d.steady i → (s.guardOver i).ctrs.read d = s.ctrs.read d := by
  unfold guardOver enterIdle; dsimp only
  split_ifs
  · have k := follows_enterReady (Follows.rfl' i ((s.modLine i (fun l => { l with guardEnd := none, lateMark := none })).modLine
      i (fun l => { l with hand := l.hand.map (fun t => { t with attempts := t.attempts + 1 }) })))
    refine ⟨?_, k.ctrs⟩
    unfold enterReady; dsimp only; split
    · exact (follows_enterSending (Follows.rfl' i _)).line (by simp [Line.outOfGuard, Line.goto])
    · simp [Line.outOfGuard, Line.goto]
  · have k := follows_selectIfIdle (follows_applyStaged (Follows.rfl' i
      ((s.modLine i (fun l => { l with guardEnd := none, lateMark := none })).modLine i (fun l => l.goto .idle))))
    exact ⟨k.line (by simp [Line.outOfGuard, Line.goto]), k.ctrs⟩
  · have k := follows_selectIfIdle (Follows.rfl' i
      ((s.modLine i (fun l => { l with guardEnd := none, lateMark := none })).modLine i (fun l => l.goto .idle)))
    exact ⟨k.line (by simp [Line.outOfGuard, Line.goto]), k.ctrs⟩

end State

/-- A touch leaves the results as a beginning of the new ones. -/
theorem Touch.results {P : Fin 12 → Prop} {s t : State} (h : Touch P s t) : s.results <+: t.results := by
  have c : t.trunk.retransmits = s.trunk.retransmits := by
    have := congrArg Trunk.retransmits h.calm; simpa [Trunk.calm] using this
  unfold State.results State.stream
  rw [c]
  exact List.IsPrefix.filter _ ((List.prefix_append_right_inj _).mpr h.uplink)

/-- Between steps, where nobody waits, no line waits. -/
theorem waits_nobody {P : Fin 12 → Prop} {s : State} (h : s.pool.waitList = []) (g : s.granted = []) : Waits P s :=
  ⟨fun w hw => (by rw [h] at hw; cases hw), fun w hw => (by rw [g] at hw; cases hw)⟩

/-- A touch of line `i` alone, where no other line waits, leaves what is outside. -/
theorem Touch.outside {i : Fin 12} {s t : State} (h : Touch (fun j => j = i) s t) (w : Waits (fun j => j = i) s) :
    SameOutside i s t :=
  ⟨fun j hj => h.line w j hj, h.intake, h.cfg, h.pollRun, h.clock, h.pending⟩

/-- The end of a step leaves what is outside a line. -/
theorem sameOutside_close {i : Fin 12} {s u : State} (h : SameOutside i s u) : SameOutside i s u.close := by
  unfold SameOutside at h ⊢; simpa using h

/-- A move of line `i` alone, to the end of the step. -/
theorem lineMoves_of {i : Fin 12} {s u : State} (h : State.OnlyLine i s u) (b : s.between) : LineMoves i s u.close := by
  refine ⟨sameOutside_close h.outside, by simp [h.polls], ?_, sameLink_close (sameLink_of_calm (by rw [h.trunk])),
    ?_, Counted.close (Counted.same h.ctrs)⟩
  · simp [SamePool, h.pool]
  · simp [h.results, h.lateResults, b.late]

/-- What stands between the state `s` a command finds and the state `w` in which a transaction of line `i` ends; `cs` are
the counters that have risen, `rs` the records that have joined, built in blocks taken before. -/
structure Upto (i : Fin 12) (cs : List CtrId) (rs : List Record) (s w : State) : Prop where
  outside : SameOutside i s w
  calm : w.trunk.calm = s.trunk.calm
  polls : w.polls = s.polls
  results : w.results = s.results ++ rs
  late : w.lateResults = []
  granted : w.granted = []
  line : SameTableOfLine (s.line i) (w.line i)
  slots : w.pool.slotsUsed = s.pool.slotsUsed + rs.length
  wait : w.pool.waitList = s.pool.waitList
  total : w.pool.total = s.pool.total
  free : w.pool.free + (rs.map Record.blocks).sum = s.pool.free
  ctrs : Counted cs s w

/-- Nothing has changed yet. -/
theorem upto_rfl (i : Fin 12) (s : State) (b : s.between) : Upto i [] [] s s :=
  ⟨⟨fun _ _ => rfl, rfl, rfl, rfl, rfl, rfl⟩, rfl, rfl, by simp, b.late, b.2, ⟨rfl, rfl, rfl, rfl, rfl⟩, rfl, rfl, rfl, rfl,
   Counted.same rfl⟩

/-- A move of the line alone that leaves its tables. -/
theorem Upto.only {i : Fin 12} {cs : List CtrId} {rs : List Record} {s w u : State} (h : Upto i cs rs s w) (o : State.OnlyLine i w u)
    (l : SameTableOfLine (w.line i) (u.line i)) : Upto i cs rs s u := by
  obtain ⟨a1, a2, a3, a4, a5, a6⟩ := h.outside
  obtain ⟨b1, b2, b3, b4, b5⟩ := h.line
  obtain ⟨c1, c2, c3, c4, c5⟩ := l
  refine ⟨⟨fun j hj => (o.line j hj).trans (a1 j hj), o.intake.trans a2, o.cfg.trans a3, o.pollRun.trans a4,
    o.clock.trans a5, o.pending.trans a6⟩, by rw [o.trunk, h.calm], o.polls.trans h.polls, o.results.trans h.results,
    o.lateResults.trans h.late, o.granted.trans h.granted, ⟨c1.trans b1, c2.trans b2, c3.trans b3, c4.trans b4, c5.trans b5⟩,
    by rw [o.pool, h.slots], by rw [o.pool, h.wait], by rw [o.pool, h.total], by rw [o.pool, h.free],
    fun c hc => by rw [o.ctrs, h.ctrs c hc]⟩

/-- A counter of the line, or of the pool, that has not risen yet, rises. -/
theorem Upto.bump {i : Fin 12} {cs : List CtrId} {rs : List Record} {s w : State} (h : Upto i cs rs s w) (c : CtrId) (n : c ∉ cs) :
    Upto i (c :: cs) rs s (w.bump c) := by
  refine ⟨by simpa [SameOutside] using h.outside, by simp [h.calm], by simp [h.polls], by simp [h.results],
    by simp [h.late], by simp [h.granted], by simpa [SameTableOfLine] using h.line, by simp [h.slots], by simp [h.wait],
    by have := h.total; simpa [Pool.total] using this, by have := h.free; simpa using this, ?_⟩
  intro d hd
  obtain ⟨a, _, _, _⟩ := sideways_ne hd
  by_cases e : d = c
  · subst e; rw [State.bump_ctrs_same _ _ a, h.ctrs d hd]; simp [n]
  · rw [State.bump_ctrs _ _ _ e a, h.ctrs d hd]; simp [e]

/-- Blocks move between reserved and held. -/
theorem Upto.pool {i : Fin 12} {cs : List CtrId} {rs : List Record} {s w : State} (h : Upto i cs rs s w) (p : Pool)
    (a : p.slotsUsed = w.pool.slotsUsed) (b : p.waitList = w.pool.waitList) (c : p.total = w.pool.total)
    (d : p.free = w.pool.free) : Upto i cs rs s (w.setPool p) :=
  ⟨by simpa [SameOutside] using h.outside, h.calm, h.polls, by simp [h.results], h.late, h.granted,
   by simpa [SameTableOfLine] using h.line, a.trans h.slots, b.trans h.wait, c.trans h.total,
   (congrArg (· + (rs.map Record.blocks).sum) d).trans h.free, h.ctrs⟩

/-- The line in GUARD after an entry for a time (R20). -/
theorem inGuard_of {i : Fin 12} {s w : State} (h : SameTableOfLine (s.line i) (w.line i)) (cl : w.clock = s.clock)
    (hand : Option Txn) (late : Option Half) (g : (s.line i).applied.guardTime ≠ 0) (e : (w.line i).hand = hand) :
    InGuard i hand late s (w.enterGuard i late).close := by
  have ga : (w.line i).applied = (s.line i).applied := h.1
  have gt : (w.line i).applied.guardTime ≠ 0 := by rw [ga]; exact g
  have l := State.enterGuard_line w i late gt
  obtain ⟨f1, f2, f3, f4, f5, f6, _⟩ := State.fixListen_frame (w.line i)
  obtain ⟨b1, b2, b3, b4, b5⟩ := h
  simp only [InGuard, SameTableOfLine, State.close_frame]
  rw [l]
  exact ⟨rfl, rfl, rfl, rfl, by rw [cl, ga], f3.trans e, rfl, f1.trans b1, f2.trans b2, f6.trans b3, f4.trans b4,
    f5.trans b5⟩

/-- The data and ErrorOffset of a result, in the words of the statements. -/
theorem TxnOutcome.resultData_eq (o : TxnOutcome) (a : Assembly) : resultData o a = (o.dataOf a, o.errorOf a) := by
  cases o <;> rfl

/-- The whole of a completion of a request (R17, R18, R20), from the state `w` in which it happens. -/
theorem completedTo_of {s w : State} {i : Fin 12} {x y : Txn} {r : Request} {o : TxnOutcome} {a : Assembly}
    {cs ks : List CtrId} {rs : List Record} (h : Upto i cs rs s w) (hw : y.work = .request r)
    (hd : resultData o y.reply = resultData o a) (h1 : y.attempts = x.attempts) (h2 : y.noReplyLast = x.noReplyLast)
    (h3 : y.reservation = x.reservation)
    (hk : ∀ c, c ∈ ks ↔ c ∈ cs ∨ ∃ k, o.counter = some k ∧ c = .line i k)
    (hn : ∀ k, o.counter = some k → CtrId.line i k ∉ cs)
    (hp : ∀ c, c ∈ ks → c.steady i)
    (hb : ∀ n, Config.blocksFor (10 + (o.dataOf a).length) ≤ n → filledBlocks 10 x.reply.kept.length ≤ n →
      filledBlocks 10 a.kept.length ≤ n →
      n - filledBlocks 10 x.reply.kept.length ≤ s.pool.reserved →
      filledBlocks 10 x.reply.kept.length + payloadBlocks r.payload ≤ s.pool.held →
      filledBlocks 10 y.reply.kept.length ≤ n ∧ n - filledBlocks 10 y.reply.kept.length ≤ w.pool.reserved ∧
      filledBlocks 10 y.reply.kept.length + payloadBlocks r.payload ≤ w.pool.held)
    (hm : max (y.reservation.getD 0) (filledBlocks 10 y.reply.kept.length) - Config.blocksFor (10 + (o.dataOf a).length) ≤
      max (x.reservation.getD 0) (filledBlocks 10 x.reply.kept.length) - Config.blocksFor (10 + (o.dataOf a).length)) :
    CompletedTo i x a r o ks rs s (w.completeToGuard i y o).finish := by
  obtain ⟨d, hd1⟩ : ∃ d, d = o.dataOf a := ⟨_, rfl⟩
  obtain ⟨e, he1⟩ : ∃ e, e = o.errorOf a := ⟨_, rfl⟩
  replace hd : resultData o y.reply = (d, e) := by rw [hd, TxnOutcome.resultData_eq, hd1, he1]
  rw [← hd1] at hm
  simp only [← hd1] at hb
  have uw : ∀ k, s.unserved k 0 →
      max (x.reservation.getD 0) (filledBlocks 10 x.reply.kept.length) - Config.blocksFor (10 + d.length) +
        payloadBlocks r.payload ≤ k → w.unserved (max (y.reservation.getD 0) (filledBlocks 10 y.reply.kept.length) -
      Config.blocksFor (10 + (resultData o y.reply).1.length) + payloadBlocks r.payload) 0 := by
    intro k ku le
    rw [hd]
    have hf := h.free
    exact ku.mono h.wait (by dsimp only; omega) (by rw [h.slots]; omega)
  suffices main : ∀ k, s.unserved k 0 →
      max (x.reservation.getD 0) (filledBlocks 10 x.reply.kept.length) - Config.blocksFor (10 + d.length) +
        payloadBlocks r.payload ≤ k → CompletedTo i x a r o ks rs s (w.completeToGuard i y o).finish from
    ⟨fun g u => (main _ u (by rw [hd1])).1 g u, fun g u => (main _ (State.unserved_nobody u _ _) (Nat.le_refl _)).2 g u⟩
  intro k ku le
  simp only [CompletedTo, ← hd1, ← he1]
  have f := State.complete_request w i y r o hw (uw k ku le)
  dsimp only at f
  rw [hd] at f
  have tk : (w.complete i y o).pool.total = w.pool.total := (State.keeps_complete (Keeps.rfl' w) i y o).total
  obtain ⟨v, hv⟩ : ∃ v, v = w.complete i y o := ⟨_, rfl⟩
  rw [← hv] at f tk
  have e0 : w.completeToGuard i y o = v.enterGuard i y.lateMark := by rw [hv]; rfl
  rw [e0]
  clear hv e0
  obtain ⟨f0, f1, f2, f3, f4, f5, f6, f7, f8, rest⟩ := f
  obtain ⟨f9, f10, f11, f12, f13, f14, f15, f16⟩ := rest
  dsimp only at f10 f16
  obtain ⟨a1, a2, a3, a4, a5, a6⟩ := h.outside
  obtain ⟨b1, b2, b3, b4, b5⟩ := h.line
  have st : ∀ b u n, w.stamp b u n = s.stamp b u n := by intro b u n; simp [State.stamp, a5, a3]
  have cv : Counted ks s v := by
    intro c hc
    by_cases k : ∃ k, o.counter = some k ∧ c = .line i k
    · obtain ⟨k, k1, rfl⟩ := k
      rw [f15 k k1, h.ctrs _ hc]
      simp [hn k k1, (hk (.line i k)).mpr (Or.inr ⟨k, k1, rfl⟩)]
    · have z : some c ≠ o.counter.map (CtrId.line i) := by
        intro z
        cases q : o.counter with
        | none => rw [q] at z; cases z
        | some j => rw [q] at z; exact k ⟨j, q, Option.some.inj z⟩
      rw [f14 c hc z, h.ctrs c hc]
      simp [hk c, k]
  have up : SameOutside i s v :=
    ⟨fun j hj => (f2 j hj).trans (a1 j hj), f8.trans a2, f4.trans a3, f5.trans a4, f6.trans a5, f7.trans a6⟩
  have late : v.lateResults = [] := f11.trans h.late
  have res : v.results = s.results ++ rs ++ [s.stamp (.reply r.tag (lineByte i) o x.attempts e d) r.urgent
      (Config.blocksFor (10 + d.length))] := by rw [f10, h.results, st, h1]
  have ga : (v.line i).applied = (s.line i).applied := by rw [f1]; exact b1
  have lm : y.lateMark = if x.noReplyLast then some r.tag else none := by simp [Txn.lateMark, h2, hw, Work.lateTag]
  have tc : Touch (fun j => j = i) v (v.enterGuard i y.lateMark) := by
    have : Fact ((fun j => j = i) i) := ⟨rfl⟩
    exact State.touch_enterGuard (Touch.rfl' v) i y.lateMark
  refine ⟨fun g _ => ?_, fun g hq => ?_⟩
  · have gt : (v.line i).applied.guardTime ≠ 0 := by rw [ga]; exact g
    have ol := State.onlyLine_enterGuard v i y.lateMark gt
    have l := State.enterGuard_line v i y.lateMark gt
    obtain ⟨g1, g2, g3, g4, g5, g6, _⟩ := State.fixListen_frame (v.line i)
    have us : SameOutside i s (v.enterGuard i y.lateMark) := by
      obtain ⟨c1, c2, c3, c4, c5, c6⟩ := ol.outside
      obtain ⟨d1, d2, d3, d4, d5, d6⟩ := up
      exact ⟨fun j hj => (c1 j hj).trans (d1 j hj), c2.trans d2, c3.trans d3, c4.trans d4, c5.trans d5, c6.trans d6⟩
    rw [State.finish_none (ol.granted.trans (f0.trans h.granted))]
    refine ⟨sameOutside_close us, sameLink_close (sameLink_of_calm (by rw [ol.trunk, f9, h.calm])), ?_, ?_, ?_, ?_, ?_,
      ?_, ?_, ?_⟩
    · simp only [InGuard, SameTableOfLine, State.close_frame]
      rw [l]
      refine ⟨rfl, rfl, rfl, rfl, by rw [f6, a5, ga], by rw [g3, f1], lm, ?_, ?_, ?_, ?_, ?_⟩
      · rw [g1, ga]
      · rw [g2, f1]; exact b2
      · rw [g6, f1]; exact b3
      · rw [g4, f1]; exact b4
      · rw [g5, f1]; exact b5
    · refine Counted.close (fun c hc => ?_)
      rw [ol.ctrs, cv c hc]
    · simp [ol.polls, f3, h.polls]
    · simp [ol.results, ol.lateResults, late, res]
    · simp [ol.pool, f12, h.slots]
    · simp [ol.pool, f13, h.wait]
    · simpa [Pool.total, ol.pool] using tk.trans h.total
    · intro n hn1 hn2 hn3 hn6 hn4 hn5
      obtain ⟨k1, k2, k3⟩ := hb n hn2 hn3 hn6 hn4 hn5
      have := (f16 n (h3.trans hn1) k1 hn2 k2 k3).1
      have hf := h.free
      simp only [State.close_frame, ol.pool]
      rw [this]
      omega
  · have e1 : v.enterGuard i y.lateMark = (v.modLine i (fun l =>
        { l.fixListen.goto .guard with
          guardEnd := some (v.clock + l.applied.guardTime), lateMark := y.lateMark, window := none, deLead := none,
          deHold := none, charOut := none })).guardOver i := by
      have : (v.line i).applied.guardTime = 0 := by rw [ga]; exact g
      simp [State.enterGuard, this]
    have go := State.guardOver_out (v.modLine i (fun l =>
        { l.fixListen.goto .guard with
          guardEnd := some (v.clock + l.applied.guardTime), lateMark := y.lateMark, window := none, deLead := none,
          deHold := none, charOut := none })) i
    rw [← e1] at go
    obtain ⟨go1, go2⟩ := go
    have wv : Waits (fun j => j = i) v := waits_nobody ((f13.trans h.wait).trans hq) (f0.trans h.granted)
    have ta := State.touch_actGranted tc (tc.wait wv)
    have fa := State.follows_actGranted (Follows.rfl' i _) (tc.wait wv)
    obtain ⟨q1, q2, q3⟩ := fa.line go1
    have us : SameOutside i s (v.enterGuard i y.lateMark).actGranted := by
      obtain ⟨c1, c2, c3, c4, c5, c6⟩ := ta.outside wv
      obtain ⟨d1, d2, d3, d4, d5, d6⟩ := up
      exact ⟨fun j hj => (c1 j hj).trans (d1 j hj), c2.trans d2, c3.trans d3, c4.trans d4, c5.trans d5, c6.trans d6⟩
    refine ⟨sameOutside_close us, sameLink_close (sameLink_of_calm (by rw [ta.calm, f9, h.calm])), by simpa [State.finish] using q1,
      by simpa [State.finish] using q2, by simpa [State.finish] using q3, fun c hc => ?_, ?_⟩
    · have k1 := hp c hc
      have z := k1.ne.1
      obtain ⟨z1, _, z2, z3⟩ := sideways_ne z
      rw [State.finish, State.close_ctrs _ _ z1 z2 z3, fa.ctrs c k1, go2 c k1]
      have := cv _ z
      simpa [hc] using this
    · show _ <+: (State.close _).results
      rw [State.close_results, ← res]
      exact ta.results.trans (List.prefix_append _ _)

/-- The whole of a retry (R16, R20), from the state `w` in which the attempt has ended and been counted. -/
theorem retried_of {s w : State} {i : Fin 12} {x y : Txn} {a : Assembly} {nr : Bool} {cs : List CtrId}
    {rs : List Record} (h : Upto i (.line i .retriedAttempts :: cs) rs s w) (hand : (w.line i).hand = some y)
    (hy : y = { x with noReplyLast := nr, reply := Assembly.empty })
    (hb : filledBlocks x.work.header a.kept.length - filledBlocks x.work.header x.reply.kept.length ≤ s.pool.reserved →
      filledBlocks x.work.header x.reply.kept.length ≤ s.pool.held →
      w.pool.held + filledBlocks x.work.header x.reply.kept.length = s.pool.held + (rs.map Record.blocks).sum) :
    Retried i x a nr cs rs s (w.enterGuard i y.lateMark).finish := by
  have lm : y.lateMark = if nr then some x.work.lateTag else none := by rw [hy]; rfl
  rw [lm]
  obtain ⟨late, hl⟩ : ∃ late, late = if nr then some x.work.lateTag else none := ⟨_, rfl⟩
  rw [← hl]
  have ga : (w.line i).applied = (s.line i).applied := h.line.1
  by_cases g : (s.line i).applied.guardTime = 0
  · have g' : (w.line i).applied.guardTime = 0 := by rw [ga]; exact g
    obtain ⟨z, hz⟩ : ∃ z, z = ((w.modLine i (fun l =>
        { l.fixListen.goto .guard with
          guardEnd := some (w.clock + l.applied.guardTime), lateMark := late, window := none, deLead := none,
          deHold := none, charOut := none })).modLine i (fun l => { l with guardEnd := none, lateMark := none })).modLine i
        (fun l => { l with hand := l.hand.map (fun t => { t with attempts := t.attempts + 1 }) }) := ⟨_, rfl⟩
    have e1 : w.enterGuard i late = z.enterReady i := by
      rw [hz]
      have q := (State.fixListen_frame (w.line i)).2.2.1
      simp [State.enterGuard, g', State.guardOver, Line.goto, q, hand]
    have oz : State.OnlyLine i w z := by
      rw [hz]
      exact ((State.onlyLine_modLine _ i _).trans (State.onlyLine_modLine _ i _)).trans (State.onlyLine_modLine _ i _)
    have q := State.fixListen_frame (w.line i)
    have zh : (z.line i).hand = some { y with attempts := y.attempts + 1 } := by
      rw [hz]; simp [Line.goto, q.2.2.1, hand]
    have zt : SameTableOfLine (w.line i) (z.line i) := by
      rw [hz]; simp [SameTableOfLine, Line.goto, q]
    have zg : (z.line i).guardEnd = none ∧ (z.line i).lateMark = none := by rw [hz]; simp
    have lz := State.enterReady_line z i _ zh
    have oe := oz.trans (State.onlyLine_enterReady z i)
    have er : SameTableOfLine (w.line i) ((z.enterReady i).line i) := by
      rw [lz]; split <;> exact zt
    have u := h.only oe er
    rw [e1, State.finish_none u.granted]
    refine ⟨sameOutside_close u.outside, sameLink_close (sameLink_of_calm u.calm), by simp [u.polls],
      Counted.close u.ctrs, by simp [u.results, u.late], by simpa using u.free, by simp [u.slots], by simp [u.wait],
      by simpa [Pool.total] using u.total, fun k1 k2 => by simpa [oe.pool] using hb k1 k2, fun k => absurd g k, fun _ => ?_⟩
    simp only [State.close_frame]
    rw [lz]
    split
    · exact ⟨_, rfl, by rw [hy]; rfl, by rw [hy]; rfl, by rw [hy]; rfl, Or.inl rfl, zg⟩
    · exact ⟨_, zh, by rw [hy], by rw [hy], by rw [hy], Or.inr rfl, zg⟩
  · have g' : (w.line i).applied.guardTime ≠ 0 := by rw [ga]; exact g
    have oe := State.onlyLine_enterGuard w i late g'
    have l := State.enterGuard_line w i late g'
    have q := State.fixListen_frame (w.line i)
    have er : SameTableOfLine (w.line i) ((w.enterGuard i late).line i) := by
      rw [l]; simp [SameTableOfLine, q]
    have u := h.only oe er
    rw [State.finish_none u.granted]
    refine ⟨sameOutside_close u.outside, sameLink_close (sameLink_of_calm u.calm), by simp [u.polls],
      Counted.close u.ctrs, by simp [u.results, u.late], by simpa using u.free, by simp [u.slots], by simp [u.wait],
      by simpa [Pool.total] using u.total, fun k1 k2 => by simpa [oe.pool] using hb k1 k2, fun _ => ?_, fun k => absurd k g⟩
    rw [← hl]
    exact inGuard_of h.line h.outside.2.2.2.2.1 _ _ g (by rw [hand, hy])

/-- A command that moves one line alone. -/
theorem completes_line {c : Instr} {i : Fin 12} {s u : State} {m : Line} (ex : exec c s = finished u)
    (o : State.OnlyLine i s u)
    (b : s.between) (h : u.line i = m) : Completes c s (fun t => LineMoves i s t ∧ t.line i = m) :=
  completes_of u ex (o.granted.trans b.2) ⟨lineMoves_of o b, by simpa using h⟩

/-- A completion from a state in which nothing but the line and counters has moved. -/
theorem completedTo_plain {s w : State} {i : Fin 12} {y : Txn} {r : Request} {o : TxnOutcome} {k : LineCtr} {cs ks : List CtrId} {rs : List Record}
    (h : Upto i cs rs s w) (hp : w.pool.reserved = s.pool.reserved ∧ w.pool.held = s.pool.held) (hw : y.work = .request r)
    (ho : o.counter = some k) (hn : CtrId.line i k ∉ cs) (hk : ∀ c, c ∈ ks ↔ c ∈ cs ∨ c = .line i k)
        (hs : ∀ c, c ∈ cs → c.steady i) :
    CompletedTo i y y.reply r o ks rs s (w.completeToGuard i y o).finish := by
  refine completedTo_of h hw rfl rfl rfl rfl ?_ ?_ ?_ ?_ (Nat.le_refl _)
  · intro c; rw [hk]; simp [ho]
  · intro j hj; rw [ho] at hj; cases hj; exact hn
  · intro c hc
    rcases (hk c).mp hc with q | q
    · exact hs c q
    · subst q; exact Or.inr ⟨k, by cases o <;> cases ho <;> decide, rfl⟩
  · intro n _ h2 _ h4 h5; rw [hp.1, hp.2]; exact ⟨h2, h4, h5⟩

end Sys2Proof.Machine
end

