-- ==== Sys2Proof/Laws/Trunk.lean ====
section
/-! SUPPORT. What taking a frame's header does (R147), and what the arbiter does when the transmitter is busy or
free. -/

set_option Elab.async false

namespace Sys2Proof.Machine

/-- The trunk interface with its send side put aside: what taking a header leaves. -/
def Trunk.rx (t : Trunk) : Trunk :=
  { t with retransmits := [], peerAck := 0, peerAllow := 0, expiries := 0, retransmitTimer := none, goBack := false,
           nextSeq := 0, allowRose := false }

/-- Operations inside the calm part leave the receive side. -/
theorem Trunk.rx_of_calm {t u : Trunk} (h : t.calm = u.calm) : t.rx = u.rx := by
  have : t.calm.rx = u.calm.rx := by rw [h]
  exact this

/-- From `s` to `t` only the send side of the trunk, the pool, the records and the counters may differ. -/
structure SendOnly (s t : State) : Prop where
  clock : t.clock = s.clock
  cfg : t.cfg = s.cfg
  intake : t.intake = s.intake
  lines : t.lines = s.lines
  polls : t.polls = s.polls
  pollRun : t.pollRun = s.pollRun
  pending : t.pending = s.pending
  granted : t.granted = s.granted
  rx : t.trunk.rx = s.trunk.rx

namespace SendOnly

/-- Nothing changed. -/
theorem rfl' (s : State) : SendOnly s s := ⟨rfl, rfl, rfl, rfl, rfl, rfl, rfl, rfl, rfl⟩

/-- One after another. -/
theorem trans {s t u : State} (h : SendOnly s t) (k : SendOnly t u) : SendOnly s u :=
  ⟨k.clock.trans h.clock, k.cfg.trans h.cfg, k.intake.trans h.intake, k.lines.trans h.lines,
   k.polls.trans h.polls, k.pollRun.trans h.pollRun, k.pending.trans h.pending,
   k.granted.trans h.granted, k.rx.trans h.rx⟩

/-- The fields of the receive side. -/
theorem fields {s t : State} (h : SendOnly s t) :
    t.trunk.up = s.trunk.up ∧ t.trunk.linkUpPin = s.trunk.linkUpPin ∧ t.trunk.epoch = s.trunk.epoch ∧
    t.trunk.cause = s.trunk.cause ∧ t.trunk.lastAccepted = s.trunk.lastAccepted ∧
    t.trunk.anyAccepted = s.trunk.anyAccepted ∧ t.trunk.upBefore = s.trunk.upBefore ∧
    t.trunk.downSince = s.trunk.downSince ∧ t.trunk.expectSeq = s.trunk.expectSeq ∧
    t.trunk.rejectSent = s.trunk.rejectSent ∧ t.trunk.rejectPending = s.trunk.rejectPending ∧
    t.trunk.ackPending = s.trunk.ackPending ∧ t.trunk.syncTimer = s.trunk.syncTimer ∧
    t.trunk.ackDelayTimer = s.trunk.ackDelayTimer ∧ t.trunk.silenceTimer = s.trunk.silenceTimer ∧
    t.trunk.tx = s.trunk.tx := by
  have r := h.rx
  simp only [Trunk.rx, Trunk.mk.injEq] at r
  tauto

end SendOnly

namespace State

theorem sendOnly_bump (s : State) (c : CtrId) : SendOnly s (s.bump c) :=
  ⟨by simp, by simp, by simp, by simp, by simp, by simp, by simp, by simp, by simp⟩

/-- A released frame that serves no waiter: its blocks and slots return to the pool (R96, R97, R117). -/
theorem releaseFrame_books (s : State) (f : SentFrame)
    (hu : s.unserved ((f.records.map Record.blocks).sum) ((f.records.filter (fun r => !r.isEvent)).length)) :
    SendOnly s (s.releaseFrame f) ∧ (s.releaseFrame f).pool.waitList = s.pool.waitList ∧
    (s.releaseFrame f).pool.free ≤ s.pool.free + (f.records.map Record.blocks).sum ∧
    (s.releaseFrame f).trunk.calm = s.trunk.calm ∧
    (s.releaseFrame f).pool.reserved = s.pool.reserved ∧ (s.releaseFrame f).pool.total = s.pool.total ∧
    (s.releaseFrame f).pool.held = s.pool.held - (f.records.map Record.blocks).sum ∧
    (s.releaseFrame f).pool.slotsUsed = s.pool.slotsUsed - (f.records.filter (fun r => !r.isEvent)).length ∧
    ∀ d, ¬ d.sideways → (s.releaseFrame f).ctrs.read d = s.ctrs.read d := by
  have h : f.records.length - (f.records.filter Record.isEvent).length
      = (f.records.filter (fun r => !r.isEvent)).length := by
    have := List.length_eq_length_filter_add (l := f.records) Record.isEvent
    omega
  obtain ⟨u, hv⟩ : ∃ u, u = ((s.freeRecordSlots (f.records.length - (f.records.filter Record.isEvent).length)).freeEventSlots
    (f.records.filter Record.isEvent).length).release 0 (f.records.map Record.blocks).sum := ⟨_, rfl⟩
  have e : s.releaseFrame f = u := by
    have : s.releaseFrame f = u.grantAll := by rw [hv]; rfl
    rw [this, hu.grantAll (by rw [hv]; simp) (by rw [hv]; simp) (by rw [hv]; simp [h])]
  rw [e, hv]
  refine ⟨?_, ?_⟩
  · constructor
    case rx => exact Trunk.rx_of_calm (by simp)
    all_goals simp
  iterate 5 refine And.intro (by simp) ?_
  refine ⟨by simp; omega, by simp [h], fun d hd => ?_⟩
  obtain ⟨a, b, _, _⟩ := sideways_ne hd
  simp [a, b]

/-- Frames released one after another, where none serves a waiter. -/
theorem releaseFrames (fs : List SentFrame) (s : State)
    (hu : s.unserved ((((fs.map SentFrame.records).flatten).map Record.blocks).sum)
      ((((fs.map SentFrame.records).flatten).filter (fun r => !r.isEvent)).length)) :
    SendOnly s (fs.foldl releaseFrame s) ∧
    (fs.foldl releaseFrame s).trunk.calm = s.trunk.calm ∧
    (fs.foldl releaseFrame s).pool.waitList = s.pool.waitList ∧
    (fs.foldl releaseFrame s).pool.reserved = s.pool.reserved ∧
    (fs.foldl releaseFrame s).pool.total = s.pool.total ∧
    (fs.foldl releaseFrame s).pool.held
      = s.pool.held - (((fs.map SentFrame.records).flatten).map Record.blocks).sum ∧
    (fs.foldl releaseFrame s).pool.slotsUsed
      = s.pool.slotsUsed - (((fs.map SentFrame.records).flatten).filter (fun r => !r.isEvent)).length ∧
    ∀ d, ¬ d.sideways → (fs.foldl releaseFrame s).ctrs.read d = s.ctrs.read d := by
  induction fs generalizing s with
  | nil => simp [SendOnly.rfl']
  | cons f fs ih =>
    simp only [List.map_cons, List.flatten_cons, List.map_append, List.sum_append, List.filter_append,
      List.length_append] at hu
    obtain ⟨p, q, q1, q2, q3, q4, q5, q6, q7⟩ := releaseFrame_books s f (hu.mono rfl (by omega) (by omega))
    obtain ⟨a, b, c, g, k, l, m, n⟩ := ih (s.releaseFrame f) (hu.mono q (by omega) (by omega))
    refine ⟨p.trans a, b.trans q2, c.trans q, g.trans q3, k.trans q4, ?_, ?_,
      fun d hd => by rw [List.foldl_cons, n d hd, q7 d hd]⟩
    · rw [List.foldl_cons, l, q5]; simp; omega
    · rw [List.foldl_cons, m, q6]; simp; omega

/-- The end of a go-back touches the send side alone. -/
theorem goBackEnds_send (s : State) :
    SendOnly s s.goBackEnds ∧ s.goBackEnds.trunk.retransmits = s.trunk.retransmits ∧
    s.goBackEnds.pool = s.pool ∧ (s.trunk.goBack = false → s.goBackEnds = s) := by
  unfold goBackEnds
  dsimp only
  split
  all_goals split
  all_goals refine ⟨⟨rfl, rfl, rfl, rfl, rfl, rfl, rfl, rfl, rfl⟩, rfl, rfl, fun h => ?_⟩
  all_goals first | rfl | simp_all

theorem sendOnly_startGoBack (s : State) : SendOnly s s.startGoBack := by
  refine SendOnly.trans (t := s.setTrunk _) ?_ (sendOnly_bump _ _)
  exact ⟨rfl, rfl, rfl, rfl, rfl, rfl, rfl, rfl, rfl⟩

/-- What an acknowledgement releases, where it serves no waiter. -/
theorem acked_unserved {s : State} {f : RxFrame} (hu : s.ackServesNone f) (hv : s.trunk.ackValid f.ackSeq = true) :
    (s.acked f.ackSeq).unserved
      (((((s.trunk.retransmits.take (s.trunk.ackCount f.ackSeq)).map SentFrame.records).flatten).map Record.blocks).sum)
      (((((s.trunk.retransmits.take (s.trunk.ackCount f.ackSeq)).map SentFrame.records).flatten).filter
        (fun r => !r.isEvent)).length) := hu hv

/-- Taking a frame's header leaves the receive side (R147). -/
theorem sendOnly_takeHeader (s : State) (f : RxFrame) (hu : s.ackServesNone f) : SendOnly s (s.takeHeader f) := by
  have rej : ∀ (t : State) b, SendOnly t (t.takeReject b) := by
    intro t b; unfold takeReject; split
    · exact sendOnly_startGoBack t
    · exact SendOnly.rfl' t
  simp only [takeHeader]
  split
  · next hv =>
    refine SendOnly.trans ?_ (rej _ _)
    have al : ∀ t : State, SendOnly t (t.takeAllow f.allow) := fun t => ⟨rfl, rfl, rfl, rfl, rfl, rfl, rfl, rfl, rfl⟩
    refine SendOnly.trans ?_ (al _)
    split
    · exact SendOnly.rfl' s
    · refine SendOnly.trans ?_ (goBackEnds_send _).1
      refine SendOnly.trans (t := s.acked f.ackSeq) ?_ (releaseFrames _ _ (acked_unserved hu hv)).1
      exact ⟨rfl, rfl, rfl, rfl, rfl, rfl, rfl, rfl, rfl⟩
  · exact sendOnly_bump s _

/-- An acknowledgement moves no counter a statement counts. -/
theorem takeAck_ctrs (s : State) (a : Seq) (d : CtrId) (h : ¬ d.sideways) :
    (s.takeAck a).ctrs.read d = s.ctrs.read d := by
  have one : ∀ (u : State) (g : SentFrame), (u.releaseFrame g).ctrs.read d = u.ctrs.read d := by
    intro u g
    obtain ⟨x, y, _, _⟩ := sideways_ne h
    simp [releaseFrame, x, y]
  have all : ∀ (fs : List SentFrame) (u : State), (fs.foldl releaseFrame u).ctrs.read d = u.ctrs.read d := by
    intro fs
    induction fs with
    | nil => exact fun _ => rfl
    | cons g gs ih => intro u; rw [List.foldl_cons, ih, one]
  unfold takeAck
  rw [goBackEnds_ctrs, all]
  rfl

/-- The counters a header may move: OutOfWindow when its AckSeq is not valid, GoBacks at a Reject (R147, R155). -/
theorem takeHeader_ctrs (s : State) (f : RxFrame) (d : CtrId) (h : ¬ d.sideways) (hg : d ≠ .link .goBacks) :
    (s.takeHeader f).ctrs.read d =
      if d = .link .outOfWindow ∧ s.trunk.ackValid f.ackSeq = false then (s.ctrs.read d).inc else s.ctrs.read d := by
  obtain ⟨a, _, _, _⟩ := sideways_ne h
  simp only [takeHeader]
  split
  next hv =>
    have r : ∀ (t : State) b, (t.takeReject b).ctrs.read d = t.ctrs.read d := by
      intro t b; unfold takeReject; split
      · simp [startGoBack, hg, a]
      · rfl
    rw [r]
    simp only [hv, Bool.true_eq_false, and_false, if_false, takeAllow, ctrs_setTrunk]
    split
    · rfl
    · exact takeAck_ctrs s _ d h
  next hv =>
    by_cases e : d = .link .outOfWindow
    · subst e; simp [hv]
    · simp [e, a]

/-- A good frame in UP (R140, R157). -/
theorem goodFrame_up (s : State) (h : s.trunk.up = true) :
    s.goodFrame = (s.bump (.link .framesReceived)).setTrunk
      { s.trunk with silenceTimer := some (s.clock + s.cfg.silenceLimit) } := by
  simp [goodFrame, h, timer]

/-- The AckDelay timer's start touches the timer and the ack-only reason alone (R148, R150). -/
@[simp] theorem startAckDelay_frame (s : State) :
    s.startAckDelay.granted = s.granted ∧ s.startAckDelay.clock = s.clock ∧ s.startAckDelay.cfg = s.cfg ∧ s.startAckDelay.pool = s.pool ∧
    s.startAckDelay.ctrs = s.ctrs ∧ s.startAckDelay.lines = s.lines ∧ s.startAckDelay.polls = s.polls ∧
    s.startAckDelay.intake = s.intake ∧ s.startAckDelay.pollRun = s.pollRun ∧
    s.startAckDelay.pending = s.pending ∧
    s.startAckDelay.trunk.expectSeq = s.trunk.expectSeq ∧ s.startAckDelay.trunk.tx = s.trunk.tx ∧
    s.startAckDelay.trunk.anyAccepted = s.trunk.anyAccepted ∧
    s.startAckDelay.trunk.rejectSent = s.trunk.rejectSent ∧
    s.startAckDelay.trunk.ackPending = s.trunk.ackPending ∧
    s.startAckDelay.trunk.silenceTimer = s.trunk.silenceTimer ∧
    s.startAckDelay.trunk.ackDelayTimer = (if s.trunk.ackDelayTimer.isSome then s.trunk.ackDelayTimer
      else if s.cfg.ackDelay = 0 then none else some (s.clock + s.cfg.ackDelay)) ∧
    s.startAckDelay.trunk.ackOnly = (s.trunk.ackOnly ||
      (s.trunk.ackDelayTimer.isNone && s.cfg.ackDelay == 0)) := by
  unfold startAckDelay timer
  cases h : s.trunk.ackDelayTimer <;> by_cases g : s.cfg.ackDelay = 0 <;> simp [h, g]

/-- Finished frames leaving touch the intake list, and Allow's rise, alone. -/
@[simp] theorem reap_frame (s : State) :
    s.reap.granted = s.granted ∧ s.reap.clock = s.clock ∧ s.reap.cfg = s.cfg ∧ s.reap.pool = s.pool ∧ s.reap.ctrs = s.ctrs ∧
    s.reap.lines = s.lines ∧ s.reap.polls = s.polls ∧ s.reap.pollRun = s.pollRun ∧
    s.reap.pending = s.pending ∧ s.reap.trunk.calm = s.trunk.calm ∧ s.reap.uplink = s.uplink ∧
    s.reap.late = s.late ∧ s.reap.trunk.retransmits = s.trunk.retransmits ∧
    (∀ i, s.reap.line i = s.line i) ∧ (∀ p, s.reap.poll p = s.poll p) ∧
    s.reap.intake = { s.intake with frames := unfinished s.intake.frames } := by
  simp only [reap]
  split <;> simp

/-- An accepted DATA frame (R123, R148). -/
theorem acceptData_frame (s : State) (f : RxFrame) :
    SameTables s (s.acceptData f) ∧ (s.acceptData f).ctrs = s.ctrs ∧
    (s.acceptData f).intake = { s.intake with
      frames := unfinished (s.intake.frames ++ [{ seq := f.seq, payload := f.payload, offset := 0 }]) } ∧
    (s.acceptData f).trunk.expectSeq = s.trunk.expectSeq + 1 ∧ (s.acceptData f).trunk.anyAccepted = true ∧
    (s.acceptData f).trunk.rejectSent = false ∧ (s.acceptData f).trunk.ackPending = true ∧
    (s.acceptData f).trunk.tx = s.trunk.tx ∧ (s.acceptData f).trunk.silenceTimer = s.trunk.silenceTimer ∧
    (s.acceptData f).trunk.ackDelayTimer = (if s.trunk.ackDelayTimer.isSome then s.trunk.ackDelayTimer
      else if s.cfg.ackDelay = 0 then none else some (s.clock + s.cfg.ackDelay)) ∧
    (s.acceptData f).trunk.ackOnly = (s.trunk.ackOnly ||
      (s.trunk.ackDelayTimer.isNone && s.cfg.ackDelay == 0)) := by
  have c : (s.acceptData f).trunk.calm = ((s.setTrunk { s.trunk with
    expectSeq := s.trunk.expectSeq + 1, anyAccepted := true, rejectSent := false, ackPending := true
    }).startAckDelay).trunk.calm := by simp [acceptData, intakeAccept]
  simp only [Trunk.calm, Trunk.mk.injEq] at c
  obtain ⟨y1, y2, y3, y4, y5, y6, y7, y8, y9, rest⟩ := c
  obtain ⟨y10, y11, y12, y13, y14, y15, y16, y17, y18, rest⟩ := rest
  obtain ⟨y19, y20, y21, y22, y23, y24, y25, y26, y27, rest⟩ := rest
  obtain ⟨y28, y29, y30, y31⟩ := rest
  rw [y15, y6, y16, y18, y31, y22, y20, y29]
  simp [acceptData, intakeAccept, SameTables]
  rfl

/-- While a frame is on the line the end of a step sends nothing (R160). -/
theorem close_busy (s : State) (h : s.trunk.tx.isSome = true) :
    s.close = s.goBackEnds.flushLate.flushLate := by
  have : s.goBackEnds.trunk.tx = s.trunk.tx := (SendOnly.fields (goBackEnds_send s).1).2.2.2.2.2.2.2.2.2.2.2.2.2.2.2
  have : s.goBackEnds.flushLate.arbitrate = s.goBackEnds.flushLate := by
    simp [arbitrate, this, Option.ne_none_iff_isSome, h]
  rw [close, this]

/-- While a frame is on the line the end of a step leaves the receive side. -/
theorem close_busy_rx (s : State) (h : s.trunk.tx.isSome = true) : s.close.trunk.rx = s.trunk.rx := by
  rw [close_busy s h]; simpa using (goBackEnds_send s).1.rx

/-- With no go-back and a frame on the line the end of a step leaves the trunk. -/
theorem close_busy_trunk (s : State) (h : s.trunk.tx.isSome = true) (g : s.trunk.goBack = false) :
    s.close.trunk = s.trunk := by
  rw [close_busy s h, (goBackEnds_send s).2.2.2 g]; simp

/-- The end of a step with the transmitter free and no go-back. -/
theorem close_free (s : State) (h : s.trunk.tx = none) (g : s.trunk.goBack = false) :
    s.close = s.flushLate.chooseFrame.flushLate := by
  rw [close, (goBackEnds_send s).2.2.2 g, arbitrate]
  simp [h]

/-- Marking a frame as resent changes no sequence number. -/
theorem resendNext_seqs (fs : List SentFrame) : (resendNext fs).map SentFrame.seq = fs.map SentFrame.seq := by
  induction fs with
  | nil => rfl
  | cons a as ih => unfold resendNext; split <;> simp [ih]

/-- The end of a step adds a frame behind those outstanding, or none (R151). -/
theorem close_frames (s : State) :
    s.trunk.retransmits.map SentFrame.seq <+: s.close.trunk.retransmits.map SentFrame.seq ∧
    s.trunk.retransmits.map SentFrame.records <+: s.close.trunk.retransmits.map SentFrame.records := by
  have sf : ∀ (u : State) k q p g, (u.startFrame k q p g).trunk.retransmits = u.trunk.retransmits := by
    intro u k q p g; simp [startFrame, Trunk.clearReasons]
  have arb : ∀ u : State, u.trunk.retransmits.map SentFrame.seq <+: u.arbitrate.trunk.retransmits.map SentFrame.seq ∧
      u.trunk.retransmits.map SentFrame.records <+: u.arbitrate.trunk.retransmits.map SentFrame.records := by
    intro u
    have later : u.trunk.retransmits.map SentFrame.seq <+: u.sendLater.trunk.retransmits.map SentFrame.seq ∧
      u.trunk.retransmits.map SentFrame.records <+: u.sendLater.trunk.retransmits.map SentFrame.records := by
      unfold sendLater; split_ifs <;> simp [sendCtrl, sendNew, sf]
    have up : u.trunk.retransmits.map SentFrame.seq <+: u.sendUp.trunk.retransmits.map SentFrame.seq ∧
      u.trunk.retransmits.map SentFrame.records <+: u.sendUp.trunk.retransmits.map SentFrame.records := by
      unfold sendUp
      split
      · simp [sendCtrl, sf]
      · split
        · simp [sendGoBack, sf, resendNext_seqs, resendNext_records]
        · exact later
        · exact later
    unfold arbitrate chooseFrame
    split
    · split
      · split
        · simp [sendSyncAck, sf]
        · exact up
      · split
        · simp [sendSync, sf]
        · simp
    · simp
  have h := arb s.goBackEnds.flushLate
  simpa [close, (goBackEnds_send s).2.1] using h

/-- What a header with a valid AckSeq does to the send side and to the pool (R147, R151, R155). -/
theorem takeHeader_valid (s : State) (f : RxFrame) (hv : s.trunk.ackValid f.ackSeq = true)
    (hu : s.ackServesNone f) :
    (s.takeHeader f).trunk.peerAck = f.ackSeq ∧ (s.takeHeader f).trunk.peerAllow = min 8 f.allow ∧
    (s.takeHeader f).trunk.expiries = (if f.ackSeq = s.trunk.peerAck then s.trunk.expiries else 0) ∧
    (s.takeHeader f).trunk.retransmits.map SentFrame.seq
      = (s.trunk.retransmits.drop (f.ackSeq - s.trunk.peerAck).toNat).map SentFrame.seq ∧
    (s.takeHeader f).trunk.retransmits.map SentFrame.records
      = (s.trunk.retransmits.drop (f.ackSeq - s.trunk.peerAck).toNat).map SentFrame.records ∧
    (s.takeHeader f).pool.held = s.pool.held - ((((s.trunk.retransmits.take
      (f.ackSeq - s.trunk.peerAck).toNat).map SentFrame.records).flatten).map Record.blocks).sum ∧
    (s.takeHeader f).pool.reserved = s.pool.reserved ∧ (s.takeHeader f).pool.total = s.pool.total ∧
    (s.takeHeader f).pool.slotsUsed = s.pool.slotsUsed - ((((s.trunk.retransmits.take
      (f.ackSeq - s.trunk.peerAck).toNat).map SentFrame.records).flatten).filter (fun r => !r.isEvent)).length ∧
    (s.trunk.goBack = false → (s.takeHeader f).ctrs.read (.link .goBacks) =
      if f.reject = true ∧ s.trunk.retransmits.drop (f.ackSeq - s.trunk.peerAck).toNat ≠ []
      then (s.ctrs.read (.link .goBacks)).inc else s.ctrs.read (.link .goBacks)) := by
  have core : ∃ u : State, s.takeHeader f = (u.takeAllow f.allow).takeReject f.reject ∧
      u.trunk.peerAck = f.ackSeq ∧
      u.trunk.expiries = (if f.ackSeq = s.trunk.peerAck then s.trunk.expiries else 0) ∧
      u.trunk.retransmits = s.trunk.retransmits.drop (f.ackSeq - s.trunk.peerAck).toNat ∧
      u.pool.held = s.pool.held - ((((s.trunk.retransmits.take
        (f.ackSeq - s.trunk.peerAck).toNat).map SentFrame.records).flatten).map Record.blocks).sum ∧
      u.pool.reserved = s.pool.reserved ∧ u.pool.total = s.pool.total ∧
      u.pool.slotsUsed = s.pool.slotsUsed - ((((s.trunk.retransmits.take
        (f.ackSeq - s.trunk.peerAck).toNat).map SentFrame.records).flatten).filter
          (fun r => !r.isEvent)).length ∧
      (s.trunk.goBack = false → u.trunk.goBack = false) ∧
      u.ctrs.read (.link .goBacks) = s.ctrs.read (.link .goBacks) := by
    refine ⟨if f.ackSeq = s.trunk.peerAck then s else s.takeAck f.ackSeq, by simp [takeHeader, hv], ?_⟩
    split
    next h => simp [h]
    next h =>
      obtain ⟨_, cm, _, e, e1, e2, e3, e4⟩ := releaseFrames (s.trunk.retransmits.take (s.trunk.ackCount f.ackSeq))
        (s.acked f.ackSeq) (acked_unserved hu hv)
      have cf : ∀ {α : Type} (g : Trunk → α), g _ = g _ := fun g => congrArg g cm
      obtain ⟨_, g1, g2, _⟩ := goBackEnds_send ((s.trunk.retransmits.take (s.trunk.ackCount f.ackSeq)).foldl releaseFrame (s.acked f.ackSeq))
      refine ⟨?_, ?_, ?_, ?_, ?_, ?_, ?_, fun hg => ?_, takeAck_ctrs s _ _ (by simp [CtrId.sideways])⟩
      · rw [takeAck]; simp only [goBackEnds_frame]; exact cf Trunk.peerAck
      · rw [takeAck]; simp only [goBackEnds_frame]; exact cf Trunk.expiries
      · rw [takeAck, g1]; exact cf Trunk.retransmits
      · rw [takeAck, g2, e2]; rfl
      · rw [takeAck, g2, e]; rfl
      · rw [takeAck, g2, e1]; rfl
      · rw [takeAck, g2, e3]; rfl
      · have d2 := cf Trunk.goBack
        have d3 : (s.acked f.ackSeq).trunk.calm.goBack = s.trunk.goBack := rfl
        rw [d3, hg] at d2
        rw [takeAck, (goBackEnds_send _).2.2.2 d2]; exact d2
  obtain ⟨u, h0, h1, h2, h3, h4, h5, h6, h7, h8, h9⟩ := core
  rw [h0]
  unfold takeReject
  by_cases c : (f.reject && !(u.takeAllow f.allow).trunk.goBack && !(u.takeAllow f.allow).trunk.retransmits.isEmpty) = true
  · rw [if_pos c]
    simp [takeAllow, h3] at c
    have h6' : ((u.takeAllow f.allow).startGoBack).pool.total = s.pool.total := by
      simpa [startGoBack, takeAllow] using h6
    simp only [h6']
    simp [startGoBack, takeAllow, countedAllow, Function.comp_def, *]
  · rw [if_neg c]
    refine ⟨by simp [takeAllow, *], by simp [takeAllow, countedAllow], by simp [takeAllow, *], by simp [takeAllow,
        *], by simp [takeAllow, *], h4, h5, h6, h7, fun hg => ?_⟩
    simp [takeAllow, h3, h8 hg] at c
    have : ¬ (f.reject = true ∧ s.trunk.retransmits.drop (f.ackSeq - s.trunk.peerAck).toNat ≠ []) := by
      rintro ⟨x, y⟩; exact y (by simpa using c x)
    rw [if_neg this]; exact h9

end State

end Sys2Proof.Machine
end

