-- ==== Sys2Proof/Laws/Dispatch.lean ====
section
/-! SUPPORT. What the operations of the intake unit and the grants leave, said once. -/

set_option Elab.async false

namespace Sys2Proof.Machine.State

/-- A record is dispatched: the intake list moves on, Allow may rise, nothing else changes (R124, R136). -/
@[simp] theorem dispatched_frame (s : State) (n : Nat) :
    (s.dispatched n).granted = s.granted ∧ (s.dispatched n).clock = s.clock ∧ (s.dispatched n).cfg = s.cfg ∧ (s.dispatched n).pool = s.pool ∧
    (s.dispatched n).ctrs = s.ctrs ∧ (s.dispatched n).lines = s.lines ∧ (s.dispatched n).polls = s.polls ∧
    (s.dispatched n).pollRun = s.pollRun ∧ (s.dispatched n).pending = s.pending ∧
    (s.dispatched n).trunk.calm = s.trunk.calm ∧ (s.dispatched n).uplink = s.uplink ∧
    (s.dispatched n).late = s.late ∧ (s.dispatched n).trunk.retransmits = s.trunk.retransmits ∧
    (∀ i, (s.dispatched n).line i = s.line i) ∧ (∀ p, (s.dispatched n).poll p = s.poll p) ∧
    (s.dispatched n).intake = { s.intake with frames := unfinished (moveOffset n s.intake.frames) } := by
  simp [dispatched]

@[simp] theorem dispatched_stream (s : State) (n : Nat) :
    (s.dispatched n).stream = s.stream ∧ (s.dispatched n).results = s.results ∧
    (s.dispatched n).lateResults = s.lateResults := by
  simp [stream, results, lateResults]

/-- An allocation that is granted (R91, R92). -/
theorem take_granted (s : State) (n : Need) (into : Into) (h : s.pool.passes n = true) :
    (s.take n into).pool.free = s.pool.free - n.blocks ∧
    (s.take n into).pool.reserved = s.pool.reserved + (if into = .reserved then n.blocks else 0) ∧
    (s.take n into).pool.held = s.pool.held + (if into = .held then n.blocks else 0) ∧
    (s.take n into).pool.minFree = min s.pool.minFree (s.pool.free - n.blocks) := by
  have := passes_free h
  cases into <;> simp [take, Pool.taken, this, freeChanged]

/-- A counter the pool's own operations do not move. -/
theorem release_quiet (s : State) (a b : Nat) (d : CtrId) (h : ¬ d.sideways) :
    (s.release a b).ctrs.read d = s.ctrs.read d := by
  obtain ⟨x, y, _, _⟩ := sideways_ne h
  exact release_ctrs _ _ _ _ x y

/-- A counter the pool's own operations do not move. -/
theorem take_quiet (s : State) (n : Need) (into : Into) (d : CtrId) (h : ¬ d.sideways) :
    (s.take n into).ctrs.read d = s.ctrs.read d := by
  obtain ⟨x, y, _, _⟩ := sideways_ne h
  exact take_ctrs _ _ _ _ x y

/-- Blocks of a response. -/
def used (d : List Byte) : Nat := Config.blocksFor (8 + d.length)

/-- A command's response is built, its spare blocks freed, serving no waiter, and the request dispatched (R129, R166). -/
theorem performCommand_frame (w v : State) (m : MgmtRequest) (st : Status) (d : List Byte)
    (h : w.runCommand m = ⟨v, st, d⟩) (hu : v.unserved (m.blocks - used d) 0) :
    let u := w.performCommand m
    u.granted = v.granted ∧
    u.lines = v.lines ∧ u.polls = v.polls ∧ u.cfg = v.cfg ∧ u.pollRun = v.pollRun ∧ u.clock = v.clock ∧
    u.pending = v.pending ∧ (∀ i, u.line i = v.line i) ∧ (∀ p, u.poll p = v.poll p) ∧
    u.trunk.calm = v.trunk.calm ∧ u.trunk.tx = v.trunk.tx ∧
    u.intake = { v.intake with frames := unfinished (moveOffset m.size v.intake.frames) } ∧
    u.results = v.results ++ [v.stamp (.response m.tag m.code st d) true (used d)] ∧
    u.lateResults = v.lateResults ∧ (∀ c, ¬ c.sideways → u.ctrs.read c = v.ctrs.read c) ∧
    u.pool.slotsUsed = v.pool.slotsUsed ∧ u.pool.waitList = v.pool.waitList ∧ u.pool.reserved = v.pool.reserved ∧
    (m.blocks - used d ≤ v.pool.held →
      u.pool.held = v.pool.held - (m.blocks - used d) ∧ u.pool.free = v.pool.free + (m.blocks - used d)) := by
  intro u
  have e : u = ((v.release 0 (m.blocks - used d)).join (.response m.tag m.code st d) true (used d)).dispatched
      m.size := by
    have g : (v.release 0 (m.blocks - used d)).grantAll = v.release 0 (m.blocks - used d) :=
      hu.grantAll (by simp) (by simp) (by simp)
    simp only [used] at g
    simp only [u, performCommand, h, CmdResult.respond, used, g]
  have tx : ∀ y : State, (y.dispatched m.size).trunk.tx = y.trunk.tx := by
    intro y
    have : (y.dispatched m.size).trunk.calm = y.trunk.calm := by simp
    have f : ∀ {α : Type} (g : Trunk → α), g (y.dispatched m.size).trunk.calm = g y.trunk.calm :=
      fun g => congrArg g this
    exact f Trunk.tx
  have st' : (v.release 0 (m.blocks - used d)).stamp (.response m.tag m.code st d) true (used d) =
      v.stamp (.response m.tag m.code st d) true (used d) := by simp [stamp]
  have ev : (v.stamp (.response m.tag m.code st d) true (used d)).isEvent = false := rfl
  rw [e]
  clear_value u
  iterate 12 refine And.intro (by simp [tx]) ?_
  refine ⟨?_, by simp, ?_, by simp, by simp, ?_, ?_⟩
  · simp [st', ev]
  · intro c hc; simp [release_quiet _ _ _ _ hc]
  · simp only [dispatched_frame, join_frame]; unfold release; split <;> simp [freeChanged]
  · intro hh
    simp only [dispatched_frame, join_frame]; unfold release
    split
    · next k => simp at k; simp [k]
    · simp [freeChanged, hh]

/-- A refusal REPLY is built in its allocation and the request dispatched (R127, R134). -/
theorem refusalBuilt_frame (w : State) (r : LineRequest) (o : TxnOutcome) :
    (w.refusalBuilt r o).results = w.results ++ [w.stamp (.reply r.tag r.line o 0 none []) r.urgent 1] ∧
    (w.refusalBuilt r o).granted = w.granted ∧
    (w.refusalBuilt r o).lateResults = w.lateResults ∧ SameTables w (w.refusalBuilt r o) ∧
    (w.refusalBuilt r o).pool.free = w.pool.free ∧ (w.refusalBuilt r o).pool.held = w.pool.held ∧
    (w.refusalBuilt r o).pool.reserved = w.pool.reserved ∧ (w.refusalBuilt r o).pool.slotsUsed = w.pool.slotsUsed ∧
    (w.refusalBuilt r o).pool.waitList = w.pool.waitList ∧
    (w.refusalBuilt r o).intake = { w.intake with frames := unfinished (moveOffset r.size w.intake.frames) } ∧
    (w.refusalBuilt r o).trunk.calm = w.trunk.calm := by
  have cr : ∀ u : State, u.countRefusal r.line = u ∨ ∃ i,
      u.countRefusal r.line = u.bump (.line i .requestsRefused) := by
    intro u; unfold State.countRefusal; split
    · exact Or.inr ⟨_, rfl⟩
    · exact Or.inl rfl
  set j := w.join (.reply r.tag r.line o 0 none []) r.urgent 1 with hj
  have e : w.refusalBuilt r o = (j.countRefusal r.line).dispatched r.size := rfl
  have ev : (w.stamp (.reply r.tag r.line o 0 none []) r.urgent 1).isEvent = false := rfl
  rw [e]
  rcases cr j with h | ⟨i, h⟩ <;> rw [h] <;> simp [hj, SameTables, ev]

/-- A command that is dispatched with its space granted at once (R129). -/
theorem dispatchHead_granted (s : State) (m : MgmtRequest) (c : Option Command) (hr : s.headRecord = some (.command m))
    (hc : commandOf m.code = c) (hw : s.pool.waitList = []) (hf : m.blocks ≤ s.pool.free)
    (hs : s.pool.slotsUsed + 1 ≤ 256) :
    s.dispatchHead c = finished ((s.take m.need .held).performCommand m) := by
  have gn : s.grantsNow m.need = true := by
    simp only [grantsNow, hw, Bool.and_eq_true]
    exact ⟨rfl, (passes_iff _ _).mpr ⟨hf, fun _ => hs⟩⟩
  simp [dispatchHead, headCommand, hr, hc, dispatchCommand, gn]

/-- A request that finds its space is performed, whatever its command; a RESTART that is executed apart. -/
theorem exec_granted (s : State) (m : MgmtRequest) (c : Option Command) (h : RequestReady m s)
    (hc : commandOf m.code = c) (hr : c = some .restart → restartFlag m.params = none) :
    exec (instrOf c) s = finished ((s.take m.need .held).performCommand m) := by
  obtain ⟨h1, h2, h3, h4, _⟩ := h
  have d := dispatchHead_granted s m c h1 hc h2 h3 h4
  cases c with
  | none => exact d
  | some c =>
    cases c
    case restart =>
      have hd : s.headCommand (some .restart) = some m := by simp [headCommand, h1, hc]
      have : s.dispatchHead (some .restart) = finished (s.dispatchCommand m) := by simp [dispatchHead, hd]
      simp only [instrOf, exec, execRestart, hd, hr rfl]
      rw [← this]; exact d
    all_goals exact d

/-- A code's command is read back. -/
theorem commandOf_code (c : Command) : commandOf c.code = some c := by cases c <;> rfl

/-- An unknown code names no command. -/
theorem commandOf_none {b : Byte} (h : ∀ c : Command, b ≠ c.code) : commandOf b = none := by
  unfold commandOf
  rw [if_neg (show b ≠ 0x01 from h .identify),
    if_neg (show b ≠ 0x02 from h .linkConfig),
    if_neg (show b ≠ 0x03 from h .linkRead),
    if_neg (show b ≠ 0x10 from h .lineConfig),
    if_neg (show b ≠ 0x11 from h .lineRead),
    if_neg (show b ≠ 0x12 from h .lineAbort),
    if_neg (show b ≠ 0x13 from h .knownSet),
    if_neg (show b ≠ 0x20 from h .pollSet),
    if_neg (show b ≠ 0x21 from h .pollClear),
    if_neg (show b ≠ 0x22 from h .pollRead),
    if_neg (show b ≠ 0x23 from h .pollRun),
    if_neg (show b ≠ 0x30 from h .counterRead),
    if_neg (show b ≠ 0x40 from h .restart),
    if_neg (show b ≠ 0x41 from h .echo)]

/-- The state in which a command executes, its response space taken (R129). -/
theorem take_need (s : State) (m : MgmtRequest) (h : RequestReady m s) :
    (s.take m.need .held).pool.free = s.pool.free - m.blocks ∧
    (s.take m.need .held).pool.held = s.pool.held + m.blocks ∧
    (s.take m.need .held).pool.reserved = s.pool.reserved ∧
    (s.take m.need .held).pool.slotsUsed = s.pool.slotsUsed + 1 ∧
    (s.take m.need .held).pool.waitList = [] ∧
    (s.take m.need .held).pool.minFree = min s.pool.minFree (s.pool.free - m.blocks) ∧
    (s.take m.need .held).results = s.results ∧ (s.take m.need .held).lateResults = [] := by
  obtain ⟨_, h2, h3, h4, h5⟩ := h
  have g := take_granted s m.need .held ((passes_iff _ _).mpr ⟨h3, fun _ => h4⟩)
  have h6 := h5.late
  refine ⟨g.1, g.2.2.1, g.2.1, ?_, by simp [h2], g.2.2.2, by simp, by simp [h6]⟩
  simp [MgmtRequest.need]

/-- A command whose effect leaves pool, intake and results answers one response (R129, R166). -/
theorem answered_of (s v : State) (m : MgmtRequest) (c : Option Command) (st : Status) (d : List Byte)
    (h : RequestReady m s) (hc : commandOf m.code = c) (hr : c = some .restart → restartFlag m.params = none)
    (hv : (s.take m.need .held).runCommand m = ⟨v, st, d⟩) (hd : (8 + d.length + 31) / 32 ≤ m.blocks)
    (v1 : v.results = s.results) (v2 : v.lateResults = []) (v3 : v.intake = s.intake)
    (v4 : v.pool.free = s.pool.free - m.blocks) (v5 : v.pool.held = s.pool.held + m.blocks)
    (v6 : v.pool.reserved = s.pool.reserved) (v7 : v.pool.slotsUsed = s.pool.slotsUsed + 1)
    (v8 : v.pool.waitList = []) (v9 : v.granted = []) :
    (exec (instrOf c) s = finished ((s.take m.need .held).performCommand m) ∧
      ((s.take m.need .held).performCommand m).granted = []) ∧
    Answered m st d s ((s.take m.need .held).performCommand m).close := by
  have k := performCommand_frame (s.take m.need .held) v m st d hv (unserved_nobody v8 _ _)
  refine ⟨⟨exec_granted s m c h hc hr, k.1.trans v9⟩, ?_⟩
  set u := (s.take m.need .held).performCommand m with hu
  clear_value u
  dsimp only at k
  obtain ⟨_, k1, k2, k3, k4, k5, k6, k7, k8, rest⟩ := k
  obtain ⟨k9, k10, k11, k12, k13, k14, k15, k16, k17, k18⟩ := rest
  have us : used d = (8 + d.length + 31) / 32 := rfl
  have st' : u.close.stamp (.response m.tag m.code st d) true ((8 + d.length + 31) / 32) =
      v.stamp (.response m.tag m.code st d) true (used d) := by simp [stamp, k3, k5, us]
  have hs : s.intake.stall = none := by
    have := h.1
    unfold headRecord at this; split at this <;> simp_all
  obtain ⟨k19, k20⟩ := k18 (by omega)
  refine ⟨?_, ?_, ?_, ?_, ?_, ?_, ?_, ?_⟩
  · rw [st', close_results, k12, k13, v1, v2]; simp
  · simp only [close_frame]; have := h.2.2.1; omega
  · simp only [close_frame]; omega
  · simp only [close_frame]; omega
  · simp only [close_frame]; omega
  · simp only [close_frame]; rw [k16, v8]
  · simp [Dispatched, k11, v3, hs]
  · simp [k11, v3]

end Sys2Proof.Machine.State

namespace Sys2Proof.Machine

/-- A line is read back from its number. -/
theorem lineOf_lineByte (i : Fin 12) : lineOf (lineByte i) = some i := by revert i; decide

/-- A Line byte names a line only when it is that line's number. -/
theorem lineOf_some {b : Byte} {i : Fin 12} (h : lineOf b = some i) : b = lineByte i := by
  unfold lineOf at h
  split at h
  · next k =>
    cases h
    apply BitVec.eq_of_toNat_eq
    simp [lineByte]; omega
  · cases h

/-- A Line byte that is no line's number names none. -/
theorem lineOf_none {b : Byte} (h : ∀ i, b ≠ lineByte i) : lineOf b = none := by
  cases k : lineOf b with
  | none => rfl
  | some i => exact absurd (lineOf_some k) (h i)

/-- A counter rises beside those already counted. -/
theorem Counted.cons {cs : List CtrId} {s t : State} (h : Counted cs s t) (c : CtrId) (hc : c ∉ cs) :
    Counted (c :: cs) s (t.bump c) := by
  intro d hd
  obtain ⟨a, _, _, _⟩ := sideways_ne hd
  by_cases e : d = c
  · subst e; simp [a, h d hd, hc]
  · rw [State.bump_ctrs _ _ _ e a, h d hd]; simp [e]

/-- The counters counted, in another order. -/
theorem Counted.swap {c d : CtrId} {s t : State} (h : Counted [c, d] s t) : Counted [d, c] s t := by
  intro x hx; rw [h x hx]; simp [or_comm]

/-- An operation that moves only sideways counters. -/
theorem Counted.quiet {s u : State} (h : ∀ d, ¬ d.sideways → u.ctrs.read d = s.ctrs.read d) : Counted [] s u := by
  intro d hd; simp [h d hd]

end Sys2Proof.Machine
end

