-- ==== Sys2Proof/Laws/Told.lean ====
section
/-! SUPPORT. What is told to the host beside one line: a record joins, counters rise, blocks move inside the pool; and the unsolicited
frames, whose whole effect is of that kind (R22, R52). -/

set_option Elab.async false

namespace Sys2Proof.Machine

open Sys2Proof

/-- `u` is `s` but for results that joined, counters that rose and blocks that moved inside the pool: nothing of a line,
a poll, the intake queue or the link. -/
structure Told (cs : List CtrId) (rs : List Record) (s u : State) : Prop where
  lines : u.lines = s.lines
  polls : u.polls = s.polls
  intake : u.intake = s.intake
  cfg : u.cfg = s.cfg
  pollRun : u.pollRun = s.pollRun
  clock : u.clock = s.clock
  pending : u.pending = s.pending
  calm : u.trunk.calm = s.trunk.calm
  results : u.results = s.results ++ rs
  late : u.lateResults = s.lateResults
  granted : u.granted = s.granted
  wait : u.pool.waitList = s.pool.waitList
  total : u.pool.total = s.pool.total
  ctrs : ∀ c, ¬ c.sideways → u.ctrs.read c = if c ∈ cs then (s.ctrs.read c).inc else s.ctrs.read c

/-- Told keeps each line. -/
theorem Told.line {cs rs s u} (h : Told cs rs s u) (i : Fin 12) : u.line i = s.line i := by simp only [State.line,
    h.lines]

/-- A counter of a line rises. -/
theorem told_lineCounter (s : State) (i : Fin 12) (c : LineCtr) : Told [.line i c] [] s (s.bump (.line i c)) := by
  constructor
  case ctrs => exact Counted.bump s _
  all_goals simp [Pool.total]

/-- A counter of the pool rises. -/
theorem told_poolCounter (s : State) (c : PoolCtr) : Told [.pool c] [] s (s.bump (.pool c)) := by
  constructor
  case ctrs => exact Counted.bump s _
  all_goals simp [Pool.total]

/-- Nothing happens. -/
theorem told_rfl (s : State) : Told [] [] s s := by
  constructor <;> simp

/-- Two told changes in turn. -/
theorem Told.trans {cs ds rs qs s t u} (h : Told cs rs s t) (k : Told ds qs t u) (hn : ∀ c, c ∈ cs →
    c ∉ ds) : Told (cs ++ ds) (rs ++ qs) s u := by
  refine ⟨k.lines.trans h.lines, k.polls.trans h.polls, k.intake.trans h.intake, k.cfg.trans h.cfg,
      k.pollRun.trans h.pollRun, k.clock.trans h.clock, k.pending.trans h.pending, k.calm.trans h.calm,
      by rw [k.results, h.results, List.append_assoc], k.late.trans h.late, k.granted.trans h.granted, k.wait.trans h.wait,
      k.total.trans h.total, fun c hc => ?_⟩
  rw [k.ctrs c hc, h.ctrs c hc]
  by_cases a : c ∈ cs <;> by_cases b : c ∈ ds <;> simp [a, b]
  exact absurd b (hn c a)

/-- An unsolicited frame is forwarded: its record joins, its counter rises, the rest of its reservation is freed (R22). -/
theorem told_forward (s : State) (i : Fin 12) (a : Assembly) (o : TxnOutcome) (late : Option Half) (stray : Bool)
    (known : Option Nat) (n h : Nat) (hu : s.unserved (max n h) 1) :
    let b := Config.blocksFor (10 + a.kept.length)
    let u := s.forwardFrame i a o late stray known n h
    Told [.line i .unsolicitedForwarded] [s.stamp (.unsolicited i o late stray known a.errorAt a.kept) false b] s u ∧
    u.pool.slotsUsed = s.pool.slotsUsed ∧
    (h ≤ n → b ≤ n → n - h ≤ s.pool.reserved → h ≤ s.pool.held →
      u.pool.free = s.pool.free + (n - b) ∧ u.pool.reserved = s.pool.reserved - (n - h) ∧
      u.pool.held + h = s.pool.held + b) := by
  intro b u
  obtain ⟨v, hv⟩ : ∃ v, v = s.join (.unsolicited i o late stray known a.errorAt a.kept) false b := ⟨_, rfl⟩
  have ev : (s.stamp (.unsolicited i o late stray known a.errorAt a.kept) false b).isEvent = false := rfl
  have e : u = (v.settle n h b 0).bump (.line i .unsolicitedForwarded) := by
    have z := State.settle_free v n h b 0
    rw [hv] at z ⊢
    simp only [u, State.forwardFrame]
    rw [show Config.blocksFor (10 + a.kept.length) = b from rfl, hu.grantAll (by simp) (by simp only [State.join_frame] at z; omega) (by simp)]
  refine ⟨?_, by simp [e, hv], fun h1 h2 h3 h4 => ?_⟩
  · constructor
    case total => exact (State.keeps_forwardFrame (Keeps.rfl' s) i a o late stray known n h).total
    case ctrs =>
      intro c hc
      obtain ⟨a1, a2, _, _⟩ := sideways_ne hc
      by_cases q : c = .line i .unsolicitedForwarded
      · subst q; simp [e, hv]
      · simp [e, hv, a1, a2, q]
    case results => simp [e, hv, ev]
    all_goals simp [e, hv]
  · obtain ⟨k1, k2, k3⟩ := State.settle_books v n h b 0 h1 h2 (by simpa [hv] using h3) (by simpa [hv] using h4)
    rw [e]
    simp only [State.bump_frame]
    rw [k1, k2]
    refine ⟨by simp [hv], by simp [hv], ?_⟩
    simpa [hv] using k3

/-- A kept unsolicited frame is dropped, its reservation freed (R22). -/
theorem told_drop (s : State) (i : Fin 12) (n h : Nat) (hu : s.unserved (max n h) 1) :
    let u := s.dropKept i n h
    Told [.line i .unsolicitedDropped] [] s u ∧ u.pool.slotsUsed = s.pool.slotsUsed - 1 ∧
    (h ≤ n → n - h ≤ s.pool.reserved → h ≤ s.pool.held →
      u.pool.free = s.pool.free + n ∧ u.pool.reserved = s.pool.reserved - (n - h) ∧ u.pool.held + h = s.pool.held) := by
  intro u
  have e : u = ((s.settle n h 0 0).freeRecordSlots 1).bump (.line i .unsolicitedDropped) := by
    have z := State.settle_free s n h 0 0
    simp only [u, State.dropKept]
    rw [hu.grantAll (by simp) (by simp only [State.freeRecordSlots_frame]; omega) (by simp)]
  refine ⟨?_, by simp [e], fun h1 h2 h3 => ?_⟩
  · constructor
    case total => exact (State.keeps_dropKept (Keeps.rfl' s) i n h).total
    case ctrs =>
      intro c hc
      obtain ⟨a1, a2, _, _⟩ := sideways_ne hc
      by_cases q : c = .line i .unsolicitedDropped
      · subst q; simp [e]
      · simp [e, a1, a2, q]
    all_goals simp [e]
  · obtain ⟨k1, k2, k3⟩ := State.settle_books s n h 0 0 h1 (by omega) h2 h3
    rw [e]
    simp only [State.bump_frame, State.freeRecordSlots_frame]
    exact ⟨by simpa using k1, k2, k3⟩

/-- The first entry that matches on the line names the index (R52). -/
theorem known_hit (p : Profile) (l : List Byte) (b : Byte) (k : Nat) (h : (l.map p.onLine)[k]? = some (p.onLine b))
    (hn : ∀ j, j < k → (l.map p.onLine)[j]? ≠ some (p.onLine b)) : knownIndex p l b = some k := by
  unfold knownIndex
  rw [List.findIdx?_eq_some_iff_getElem]
  rw [List.getElem?_map] at h
  obtain ⟨x, hx, hx2⟩ := Option.map_eq_some_iff.mp h
  obtain ⟨hk, hx3⟩ := List.getElem?_eq_some_iff.mp hx
  refine ⟨hk, by rw [hx3, hx2]; simp, fun j hj => ?_⟩
  have := hn j hj
  rw [List.getElem?_map, List.getElem?_eq_getElem (by omega)] at this
  simpa using this

/-- No entry matches (R52). -/
theorem known_miss (p : Profile) (l : List Byte) (b : Byte) (h : p.onLine b ∉ l.map p.onLine) : knownIndex p l b = none := by
  unfold knownIndex
  rw [List.findIdx?_eq_none_iff]
  intro x hx
  have : p.onLine x ≠ p.onLine b := fun e => h (e ▸ List.mem_map_of_mem hx)
  simpa using this

/-- What the policy does with a kept frame, as the statements say it (R14, R22, R52). -/
theorem KeptEnds.told {s : State} {i : Fin 12} {a : Assembly} {o : TxnOutcome} {late : Option Half} {stray : Bool}
    {cs : List CtrId} {rs : List Record} (k : KeptEnds i a o late stray cs rs s) (n h : Nat)
    (hu : s.unserved (max n h) 1) :
    let u := s.finishKept i a o late stray n h
    Told cs rs s u ∧ u.pool.slotsUsed = s.pool.slotsUsed + rs.length - 1 ∧
    (h ≤ n → (rs.map Record.blocks).sum ≤ n → n - h ≤ s.pool.reserved → h ≤ s.pool.held →
      u.pool.free + (rs.map Record.blocks).sum = s.pool.free + n ∧ u.pool.reserved = s.pool.reserved - (n - h) ∧
      u.pool.held + h = s.pool.held + (rs.map Record.blocks).sum) := by
  intro u
  have fw : ∀ known, u = s.forwardFrame i a o late stray known n h → cs = [.line i .unsolicitedForwarded] →
      rs = [s.stamp (.unsolicited i o late stray known a.errorAt a.kept) false (Config.blocksFor (10 + a.kept.length))] →
      Told cs rs s u ∧ u.pool.slotsUsed = s.pool.slotsUsed + rs.length - 1 ∧
      (h ≤ n → (rs.map Record.blocks).sum ≤ n → n - h ≤ s.pool.reserved → h ≤ s.pool.held →
        u.pool.free + (rs.map Record.blocks).sum = s.pool.free + n ∧ u.pool.reserved = s.pool.reserved - (n - h) ∧
        u.pool.held + h = s.pool.held + (rs.map Record.blocks).sum) := by
    rintro known e rfl rfl
    obtain ⟨t1, t2, t3⟩ := told_forward s i a o late stray known n h hu
    rw [e]
    refine ⟨t1, by simpa using t2, fun h1 h2 h3 h4 => ?_⟩
    obtain ⟨k1, k2, k3⟩ := t3 h1 (by simpa [State.stamp] using h2) h3 h4
    have h2 : Config.blocksFor (10 + a.kept.length) ≤ n := by simpa [State.stamp] using h2
    exact ⟨by simp [k1, State.stamp]; omega, k2, by simpa [State.stamp] using k3⟩
  rcases k with ⟨e, e1, e2⟩ | ⟨e, b, bs, ek, ⟨k, ⟨h1, h2⟩, e1, e2⟩ | ⟨h1, rfl, rfl⟩⟩
  · exact fw none (by simp only [u, State.finishKept, e]) e1 e2
  · refine fw (some k) ?_ e1 e2
    have := known_hit _ _ _ k h1 h2
    simp only [u, State.finishKept, e, ek]; rw [this]
  · have eu : u = s.dropKept i n h := by
      have := known_miss _ _ _ h1
      simp only [u, State.finishKept, e, ek]; rw [this]
    obtain ⟨t1, t2, t3⟩ := told_drop s i n h hu
    rw [eu]
    refine ⟨t1, by simpa using t2, fun h1 _ h3 h4 => ?_⟩
    obtain ⟨k1, k2, k3⟩ := t3 h1 h3 h4
    exact ⟨by simpa using k1, k2, by simpa using k3⟩

/-- A reservation taken tells nothing. -/
theorem told_take (s : State) (n : Need) (hp : s.pool.passes n = true) : Told [] [] s (s.take n .reserved) := by
  constructor
  case total => exact (State.keeps_take (Keeps.rfl' s) n .reserved hp).total
  case ctrs => exact fun c hc => by rw [State.take_quiet _ _ _ _ hc]; simp
  all_goals simp

/-- A disposal is the same in a state with the same line, pool counts and stamps. -/
theorem Disposal.congr {s u : State} {i : Fin 12} {a : Assembly} {cs : List CtrId} {rs : List Record}
    (d : Disposal i a cs rs s) (h1 : (u.line i).applied = (s.line i).applied) (h2 : (u.line i).known = (s.line i).known)
    (h3 : u.pool.free = s.pool.free) (h4 : u.pool.slotsUsed = s.pool.slotsUsed) (h5 : u.clock = s.clock)
    (h6 : u.cfg = s.cfg) : Disposal i a cs rs u := by
  have st : ∀ b q n, u.stamp b q n = s.stamp b q n := by intro b q n; simp [State.stamp, h5, h6]
  simpa only [Disposal, KeptEnds, Line.knownAt, h1, h2, h3, h4, st] using d

/-- A stray is disposed of, in the words of the statements (R14). -/
theorem Disposal.told {s : State} {i : Fin 12} {a : Assembly} {cs : List CtrId} {rs : List Record}
    (d : Disposal i a cs rs s) (hw : s.headWaits) :
    let u := s.disposeStray i a
    Told cs rs s u ∧ u.pool.slotsUsed = s.pool.slotsUsed + rs.length ∧
    u.pool.free + (rs.map Record.blocks).sum = s.pool.free ∧ u.pool.reserved = s.pool.reserved ∧
    u.pool.held = s.pool.held + (rs.map Record.blocks).sum := by
  intro u
  have fits : s.mayTake (unsolicitedNeed (s.line i).applied) = true ↔
      Config.blocksFor (10 + (s.line i).applied.maxReply) + 16 ≤ s.pool.free ∧ s.pool.slotsUsed + 9 ≤ 256 := by
    rw [State.mayTake, State.passes_iff]
    simp [unsolicitedNeed]
  rcases d with ⟨pl, rfl, rfl⟩ | ⟨pl, nf, rfl, rfl⟩ | ⟨ft, kl, ke⟩
  · have e : u = s.bump (.line i .unsolicitedDropped) := by simp only [u, State.disposeStray, pl, if_true]
    rw [e]
    exact ⟨told_lineCounter s i _, by simp, by simp, by simp, by simp⟩
  · have e : u = s.bump (.pool .unsolicitedLost) := by
      simp only [u, State.disposeStray, pl, if_false, fits, nf]
    rw [e]
    exact ⟨told_poolCounter s _, by simp, by simp, by simp, by simp⟩
  · have pl : (s.line i).applied.policy ≠ .drop := by
      rcases ke with ⟨e, _⟩ | ⟨e, _⟩ <;> simp [e]
    obtain ⟨nd, hnd⟩ : ∃ nd, nd = unsolicitedNeed (s.line i).applied := ⟨_, rfl⟩
    have mt := fits.mpr ft
    obtain ⟨w, hw0⟩ : ∃ w, w = s.take nd .reserved := ⟨_, rfl⟩
    have e : u = w.finishKept i a (a.outcome false) none true nd.blocks 0 := by
      simp only [u, State.disposeStray, pl, if_false, mt, if_true, hw0, hnd]
    have tk : Told [] [] s w := by rw [hw0, hnd]; exact told_take s _ mt
    have nb : nd.blocks = Config.blocksFor (10 + (s.line i).applied.maxReply) := by rw [hnd]; rfl
    have ns : nd.slot = true := by rw [hnd]; rfl
    have wf : w.pool.free = s.pool.free - nd.blocks ∧ w.pool.reserved = s.pool.reserved + nd.blocks ∧
        w.pool.held = s.pool.held ∧ w.pool.slotsUsed = s.pool.slotsUsed + 1 := by
      have : min nd.blocks s.pool.free = nd.blocks := by omega
      rw [hw0]
      refine ⟨by simp [this], ?_, ?_, by simp [ns]⟩ <;> simp [State.take, Pool.taken, this]
    have ke' : KeptEnds i a (a.outcome false) none true cs rs w := by
      have st : ∀ b q n, w.stamp b q n = s.stamp b q n := by
        intro b q n; simp only [State.stamp, tk.clock, tk.cfg]
      simpa only [KeptEnds, Line.knownAt, tk.line, st] using ke
    have hu : w.unserved (max nd.blocks 0) 1 := by
      intro v vs hv
      rw [tk.wait] at hv
      exact Pool.passes_anti v.need (by simp [wf]; omega) (by simp [wf]) (hw v vs hv)
    obtain ⟨t1, t2, t3⟩ := ke'.told nd.blocks 0 hu
    have bl : Config.blocksFor (10 + a.kept.length) ≤ nd.blocks := by
      rw [nb]; unfold Config.blocksFor ceilDiv; exact Nat.div_le_div_right (by omega)
    have bl : (rs.map Record.blocks).sum ≤ nd.blocks := by
      rcases ke with ⟨_, _, rfl⟩ | ⟨_, _, _, _, ⟨_, _, _, rfl⟩ | ⟨_, _, rfl⟩⟩ <;> simp [State.stamp, bl]
    obtain ⟨k1, k2, k3⟩ := t3 (by omega) bl (by omega) (by omega)
    rw [e]
    refine ⟨by simpa using tk.trans t1 (by simp), by rw [t2]; omega, by omega, by omega, by omega⟩

/-- A told change, then a change of one line alone, then the end of the step. -/
theorem told_only {i : Fin 12} {cs rs} {s u w : State} (h : Told cs rs s u) (o : State.OnlyLine i u w) (b : s.between) :
    SameOutside i s w.finish ∧ w.finish.polls = s.polls ∧ SameLink s w.finish ∧
        w.finish.pool.total = s.pool.total ∧ w.finish.pool.waitList = s.pool.waitList ∧
        w.finish.results = s.results ++ rs ∧ Counted cs s w.finish := by
  rw [State.finish_none (o.granted.trans (h.granted.trans b.2))]
  refine ⟨sameOutside_close ?_, by simp [o.polls, h.polls], sameLink_close (sameLink_of_calm (by rw [o.trunk,
      h.calm])), by simpa [Pool.total, o.pool] using h.total, by simp [o.pool, h.wait], by simp [o.results,
      o.lateResults, h.results, h.late, b.late], Counted.close (fun c hc => by rw [o.ctrs, h.ctrs c hc])⟩
  exact ⟨fun j hj => (o.line j hj).trans (h.line j), o.intake.trans h.intake, o.cfg.trans h.cfg,
      o.pollRun.trans h.pollRun, o.clock.trans h.clock, o.pending.trans h.pending⟩

/-- A told change is a beginning of what ends a transaction. -/
theorem Told.upto {cs rs} {s u : State} (h : Told cs rs s u) (b : s.between) (i : Fin 12)
    (hs : u.pool.slotsUsed = s.pool.slotsUsed + rs.length)
    (hf : u.pool.free + (rs.map Record.blocks).sum = s.pool.free) : Upto i cs rs s u :=
  ⟨⟨fun j _ => h.line j, h.intake, h.cfg, h.pollRun, h.clock, h.pending⟩, h.calm, h.polls, h.results, h.late.trans b.late,
   h.granted.trans b.2, by rw [h.line i]; exact ⟨rfl, rfl, rfl, rfl, rfl⟩, hs, h.wait, h.total, hf, h.ctrs⟩

/-- Blocks of a partial reply go back to its reservation. -/
theorem State.unfill_books (w : State) (n : Nat) :
    let u := w.unfill n
    u.pool.total = w.pool.total ∧ (n ≤ w.pool.held → u.pool.held = w.pool.held - n ∧
        u.pool.reserved = w.pool.reserved + n) := by
  refine ⟨?_, fun h => ?_⟩
  · simp [State.unfill, Pool.total]; omega
  · simp [State.unfill, h]

/-- A partial reply is discarded. -/
theorem Upto.discard {i : Fin 12} {cs : List CtrId} {rs : List Record} {s w : State} (h : Upto i cs rs s w) (x : Txn) :
    Upto i cs rs s (w.discardReply i x) := by
  have k := h.only (State.onlyLine_modLine w i (fun l => { l with hand := some { x with reply := Assembly.empty } })) (by simp [SameTableOfLine])
  exact k.pool _ rfl rfl (State.unfill_books _ _).1 rfl

/-- Blocks going back to a reservation tell nothing. -/
theorem told_unfill (s : State) (n : Nat) : Told [] [] s (s.unfill n) := by
  refine ⟨rfl, rfl, rfl, rfl, rfl, rfl, rfl, rfl, by simp, rfl, rfl, rfl, (State.unfill_books s n).1, fun c _ => by simp⟩

/-- Payload grows, its blocks do not shrink. -/
theorem filledBlocks_mono (h m n : Nat) (k : m ≤ n) : filledBlocks h m ≤ filledBlocks h n := by
  unfold filledBlocks Config.blocksFor ceilDiv; split_ifs
  · exact Nat.le_refl _
  · exact Nat.zero_le _
  · omega
  · exact Nat.div_le_div_right (by omega)

/-- The blocks of a payload are within those of its record. -/
theorem filledBlocks_le (h k : Nat) : filledBlocks h k ≤ Config.blocksFor (h + k) := by
  unfold filledBlocks; split
  · omega
  · exact Nat.le_refl _

/-- A character taken never shortens what is kept. -/
theorem Assembly.take_length (a : Assembly) (m : Nat) (c : RxChar) : a.kept.length ≤ (a.take m c).kept.length := by
  unfold Assembly.take; split <;> simp

/-- The parity function counts the one bits (R35). -/
theorem oddOnes_count : ∀ v : Byte,
    oddOnes v = decide (((List.range 8).filter (fun k => v.getLsbD k)).length % 2 = 1) := by
  decide +kernel

/-- Blocks of a reservation filled with payload. -/
theorem State.fill_books (w : State) (n : Nat) :
    let u := w.fill n
    u.lines = w.lines ∧ u.polls = w.polls ∧ u.intake = w.intake ∧ u.cfg = w.cfg ∧ u.pollRun = w.pollRun ∧
        u.clock = w.clock ∧ u.pending = w.pending ∧ u.trunk = w.trunk ∧ u.results = w.results ∧
        u.lateResults = w.lateResults ∧ u.ctrs = w.ctrs ∧ u.pool.slotsUsed = w.pool.slotsUsed ∧
        u.pool.waitList = w.pool.waitList ∧ u.pool.total = w.pool.total ∧ u.pool.free = w.pool.free ∧
        (n ≤ w.pool.reserved → u.pool.held = w.pool.held + n ∧ u.pool.reserved = w.pool.reserved - n) := by
  refine ⟨rfl, rfl, rfl, rfl, rfl, rfl, rfl, rfl, by simp, rfl, rfl, rfl, rfl, ?_, rfl, fun h => ?_⟩
  · simp [State.fill, Pool.total]; omega
  · simp [State.fill, h]

/-- Filling a reservation keeps to one line. -/
theorem Upto.fill {i : Fin 12} {cs : List CtrId} {rs : List Record} {s w : State} (h : Upto i cs rs s w) (n : Nat) :
    Upto i cs rs s (w.fill n) :=
  h.pool _ rfl rfl (State.fill_books w n).2.2.2.2.2.2.2.2.2.2.2.2.2.1 rfl

end Sys2Proof.Machine
end

