-- ==== Sys2Proof/Laws/Ending.lean ====
section
/-! SUPPORT. How an attempt ends, and what a poll's completion tells the host. -/

set_option Elab.async false

namespace Sys2Proof.Machine

open Sys2Proof

/-- An assembly that ends without a break ends one of three ways. -/
theorem Assembly.outcome_cases (a : Assembly) : a.outcome false = .ok ∨ a.outcome false = .charError ∨ a.outcome false = .overlength := by
  unfold Assembly.outcome; split_ifs <;> simp_all

/-- A reply that is no stray, as the model tests it (R13). -/
theorem isStray_iff (x : Txn) (i : Fin 12) (s : State) :
    isStray (s.line i).applied (s.workBytes x.work) x.reply = true ↔ strayReply x i s := by
  simp [isStray, strayReply]

/-- What a terminator and an ExpectLen end (R48, R49). -/
theorem reachesEnd_iff (e : Option Nat) (n : Nat) (p : Profile) (c : RxChar) :
    (expectReached e n || isTerminator p c) = true ↔
      (∃ k, e = some k ∧ k ≤ n) ∨ (p.termChar = true ∧ c.bad = false ∧ c.value = p.onLine p.termValue) := by
  cases e <;> simp [expectReached, isTerminator, and_assoc]

/-- A character taken counts. -/
theorem Assembly.take_count (a : Assembly) (m : Nat) (c : RxChar) : (a.take m c).count = a.count + 1 := by
  unfold Assembly.take; split <;> rfl

/-- The end of a reply other than by a break, up to the test for a stray. -/
structure Replied (c : Instr) (i : Fin 12) (x : Txn) (a : Assembly) (s w : State) : Prop where
  run : exec c s = finished (w.endReply i { x with reply := a })
  upto : Upto i [] [] s w
  line : w.line i = { s.line i with
    rxBusy := if c = .gapCountEnd i then (s.line i).rxBusy else false, hand := some { x with reply := a } }
  more : x.reply.kept.length ≤ a.kept.length
  books : filledBlocks x.work.header a.kept.length - filledBlocks x.work.header x.reply.kept.length ≤ s.pool.reserved →
    w.pool.held = s.pool.held +
      (filledBlocks x.work.header a.kept.length - filledBlocks x.work.header x.reply.kept.length) ∧
    w.pool.reserved = s.pool.reserved -
      (filledBlocks x.work.header a.kept.length - filledBlocks x.work.header x.reply.kept.length)

/-- Every end of a reply other than by a break comes to the test for a stray. -/
theorem ReplyEnds.replied {c : Instr} {i : Fin 12} {x : Txn} {a : Assembly} {s : State} (h : ReplyEnds c i x a s)
    (b : s.between) : ∃ w, Replied c i x a s w := by
  obtain ⟨hx, ht, ⟨rfl, hg, rfl⟩ | ⟨data, parity, stop, rfl, hb, rfl, he⟩⟩ := h
  · refine ⟨s, ?_, upto_rfl i s b, ?_, Nat.le_refl _, fun _ => by omega⟩
    · show execGapCountEnd i s = _
      simp only [execGapCountEnd, hg, if_true, State.takeGapEnd, ht, hx]
    · rw [if_pos rfl]
      have : ({ x with reply := x.reply } : Txn) = x := rfl
      rw [this, ← hx]
  · obtain ⟨ch, hch⟩ : ∃ ch, ch = rxChar (s.line i).applied data parity stop := ⟨_, rfl⟩
    rw [← hch] at he ⊢
    obtain ⟨a, ha⟩ : ∃ a, a = x.reply.take (s.line i).applied.maxReply ch := ⟨_, rfl⟩
    rw [← ha]
    obtain ⟨w0, hw0⟩ : ∃ w0, w0 = (s.modLine i (fun l => { l with rxBusy := false })).modLine i
      (fun l => { l with hand := some { x with reply := a } }) := ⟨_, rfl⟩
    have o0 : State.OnlyLine i s w0 := by
      rw [hw0]; exact (State.onlyLine_modLine s i _).trans (State.onlyLine_modLine _ i _)
    have p0 : w0.pool = s.pool := o0.pool
    refine ⟨w0.fill (filledBlocks x.work.header a.kept.length - filledBlocks x.work.header x.reply.kept.length), ?_, ?_,
      ?_, by rw [ha]; exact Assembly.take_length _ _ _, fun q => ?_⟩
    · show execCharacterComplete i data parity stop s = _
      have rx : (s.line i).receives = true := by simp [Line.receives, Line.examines, ht, hb]
      have le : ((s.modLine i (fun l => { l with rxBusy := false })).line i).applied = (s.line i).applied := by simp
      have ex : (s.modLine i (fun l => { l with rxBusy := false })).workExpect x.work = s.workExpect x.work := by
        cases x.work <;> rfl
      simp only [execCharacterComplete, rx, if_true, State.takeChar, ht, hx, State.replyChar, le, ← hch, ← ha, ex, ← hw0]
      have re : (expectReached (s.workExpect x.work) a.count || isTerminator (s.line i).applied ch) = true := by
        rw [reachesEnd_iff, ha, Assembly.take_count]; exact he
      rw [if_pos re]
    · exact ((upto_rfl i s b).only o0 (by rw [hw0]; simp [SameTableOfLine])).fill _
    · rw [if_neg (by simp)]
      have : ∀ n, (w0.fill n).line i = w0.line i := fun n => by simp
      rw [this, hw0]; simp
    · have f := State.fill_books w0 (filledBlocks x.work.header a.kept.length - filledBlocks x.work.header x.reply.kept.length)
      rw [p0] at f
      exact f.2.2.2.2.2.2.2.2.2.2.2.2.2.2.2 q

/-- The command `c` ends the attempt `x` of line `i`, of which `a` was received, with outcome `o`: what is left to do is the
completion from `w`; `ks` are the counters that have risen by then. -/
structure Ended (c : Instr) (i : Fin 12) (x : Txn) (a : Assembly) (o : TxnOutcome) (cs ks : List CtrId) (rs : List Record)
    (s w : State) (y : Txn) : Prop where
  run : exec c s = finished (w.completeToGuard i y o)
  upto : Upto i ks rs s w
  counts : ∀ d, d ∈ cs ↔ d ∈ ks ∨ (o ≠ .brk ∧ d = .line i (outcomeCounter o))
  fresh : o ≠ .brk → CtrId.line i (outcomeCounter o) ∉ ks
  steady : ∀ d, d ∈ cs → d.steady i
  work : y.work = x.work
  attempts : y.attempts = x.attempts
  late : y.noReplyLast = (x.noReplyLast || decide (o = .noReply))
  res : y.reservation = x.reservation
  data : resultData o y.reply = resultData o a
  books : ∀ n k, filledBlocks x.work.header x.reply.kept.length ≤ n → filledBlocks x.work.header a.kept.length ≤ n →
    n - filledBlocks x.work.header x.reply.kept.length ≤ s.pool.reserved →
    filledBlocks x.work.header x.reply.kept.length + k ≤ s.pool.held →
    filledBlocks x.work.header y.reply.kept.length ≤ n ∧
    n - filledBlocks x.work.header y.reply.kept.length ≤ w.pool.reserved ∧
    filledBlocks x.work.header y.reply.kept.length + k ≤ w.pool.held
  most : ∀ n, max n (filledBlocks x.work.header y.reply.kept.length) -
      Config.blocksFor (x.work.header + (o.dataOf a).length) ≤
    max n (filledBlocks x.work.header x.reply.kept.length) - Config.blocksFor (x.work.header + (o.dataOf a).length)
  fins : o = .ok ∨ o = .charError ∨ o = .overlength ∨ o = .brk ∨ o = .noReply ∨ o = .collision ∨ o = .aborted

/-- The counter of a final outcome is steady (R17). -/
theorem steady_outcome (i : Fin 12) {o : TxnOutcome}
    (h : o = .ok ∨ o = .charError ∨ o = .overlength ∨ o = .brk ∨ o = .noReply ∨ o = .collision ∨ o = .aborted) :
    (CtrId.line i (outcomeCounter o)).steady i :=
  Or.inr ⟨_, by rcases h with q | q | q | q | q | q | q <;> simp [q, outcomeCounter], rfl⟩

/-- What a stray's disposal counts is steady. -/
theorem Disposal.steady {i : Fin 12} {a : Assembly} {cs : List CtrId} {rs : List Record} {s : State}
    (d : Disposal i a cs rs s) : ∀ c, c ∈ cs → c.steady i ∧ c ≠ .line i .strayFrames ∧ c ≠ .line i .noReplies ∧
      c ≠ .line i .retriedAttempts := by
  rcases d with ⟨p, rfl, q⟩ | ⟨p, q, rfl, u⟩ | ⟨p, q, ⟨u, rfl, v⟩ | ⟨x, y, z, w, ⟨j, k, rfl, l⟩ | ⟨m, rfl, n⟩⟩⟩ <;>
    simp [CtrId.steady]

/-- A stray is found in `w`: StrayFrames has risen and the stray has been disposed of (R13, R14). -/
theorem Replied.stray {c : Instr} {i : Fin 12} {x : Txn} {a : Assembly} {s w : State} (r : Replied c i x a s w)
    (hst : strayReply { x with reply := a } i s) (hw : s.headWaits) {ds : List CtrId} {rs : List Record}
    (d : Disposal i a ds rs s) : ∃ v, exec c s = finished
        (if x.windowLeft = 0 then v.noReplyEnds i { x with reply := a }
         else (v.discardReply i { x with reply := a }).modLine i (fun l =>
          { l.goto .awaiting with window := some (s.clock + x.windowLeft), gap := none, awaitMark := false })) ∧
      Upto i (.line i .strayFrames :: ds) rs s v ∧ v.line i = w.line i ∧ v.pool.reserved = w.pool.reserved ∧
      v.pool.held = w.pool.held + (rs.map Record.blocks).sum := by
  have la : (w.line i).applied = (s.line i).applied := by rw [r.line]
  have lk : (w.line i).known = (s.line i).known := by rw [r.line]
  have wb : w.workBytes x.work = s.workBytes x.work := by
    cases x.work with
    | request r => rfl
    | poll id _ => simp [State.workBytes, State.poll, r.upto.polls]
  have is : isStray (w.line i).applied (w.workBytes ({ x with reply := a } : Txn).work) a = true := by
    rw [la]; show isStray _ (w.workBytes x.work) a = true
    rw [wb]; exact (isStray_iff { x with reply := a } i s).mpr hst
  obtain ⟨v0, hv0⟩ : ∃ v0, v0 = w.bump (.line i .strayFrames) := ⟨_, rfl⟩
  have u0 : Upto i [.line i .strayFrames] [] s v0 := by rw [hv0]; exact r.upto.bump _ (by simp)
  have f0 : v0.line i = w.line i := by rw [hv0]; simp
  have dv : Disposal i a ds rs v0 := by
    have h3 := u0.free
    have h4 := u0.slots
    exact d.congr (by rw [f0, la]) (by rw [f0, lk]) (by simpa using h3) (by simpa using h4) u0.outside.2.2.2.2.1
      u0.outside.2.2.1
  have hv : v0.headWaits := by
    intro z zs hz
    have h3 := u0.free
    have h4 := u0.slots
    simp at h3 h4
    rw [u0.wait] at hz
    exact Pool.passes_anti z.need (by omega) (by omega) (hw z zs hz)
  obtain ⟨t1, t2, t3, t4, t5⟩ := dv.told hv
  obtain ⟨v, hvv⟩ : ∃ v, v = v0.disposeStray i a := ⟨_, rfl⟩
  rw [← hvv] at t1 t2 t3 t4 t5
  have cl : w.clock = s.clock := r.upto.outside.2.2.2.2.1
  refine ⟨v, ?_, ?_, by rw [t1.line, f0], by rw [t4, hv0]; simp, by rw [t5, hv0]; simp⟩
  · have e : w.endReply i { x with reply := a } = (if x.windowLeft = 0 then v.noReplyEnds i { x with reply := a }
         else (v.discardReply i { x with reply := a }).modLine i (fun l =>
          { l.goto .awaiting with window := some (w.clock + x.windowLeft), gap := none, awaitMark := false })) := by
      simp only [State.endReply, is, if_true, State.strayFound, ← hv0, ← hvv]
    rw [r.run, e, cl]
  · have st := d.steady
    have q := t1
    obtain ⟨a1, a2, a3, a4, a5, a6⟩ := u0.outside
    refine ⟨⟨fun j hj => (t1.line j).trans (a1 j hj), t1.intake.trans a2, t1.cfg.trans a3, t1.pollRun.trans a4,
      t1.clock.trans a5, t1.pending.trans a6⟩, t1.calm.trans u0.calm, t1.polls.trans u0.polls, ?_, t1.late.trans u0.late,
      t1.granted.trans u0.granted, by rw [t1.line]; exact u0.line, ?_, t1.wait.trans u0.wait, t1.total.trans u0.total, ?_,
      fun c hc => ?_⟩
    · rw [t1.results, u0.results]; simp
    · rw [t2, u0.slots]; simp
    · have := u0.free; simp at this; omega
    · rw [t1.ctrs c hc, u0.ctrs c hc]
      by_cases h1 : c ∈ ds
      · simp [h1, (st c h1).2.1]
      · simp [h1]

/-- Every end of an attempt that is not retried is one completion; a stray's disposal is as it is said where the head of the
wait list fails its test. -/
theorem Ends.ended {c : Instr} {i : Fin 12} {x : Txn} {a : Assembly} {o : TxnOutcome} {cs : List CtrId} {rs : List Record}
    {s : State} (h : Ends c i x a o cs rs s) (b : s.between) (hw : s.headWaits) :
    ∃ w y ks, Ended c i x a o cs ks rs s w y := by
  have mostA : ∀ (o : TxnOutcome) (n : Nat), (o = .ok ∨ o = .charError ∨ o = .overlength) →
      max n (filledBlocks x.work.header a.kept.length) - Config.blocksFor (x.work.header + (o.dataOf a).length) ≤
      max n (filledBlocks x.work.header x.reply.kept.length) - Config.blocksFor (x.work.header + (o.dataOf a).length) := by
    intro o n ho
    have : o.dataOf a = a.kept := by rcases ho with q | q | q <;> simp [q, TxnOutcome.dataOf]
    have := filledBlocks_le x.work.header a.kept.length
    simp_all only
    omega
  have most0 : ∀ (o : TxnOutcome) (n : Nat), max n (filledBlocks x.work.header Assembly.empty.kept.length) -
      Config.blocksFor (x.work.header + (o.dataOf a).length) ≤
      max n (filledBlocks x.work.header x.reply.kept.length) - Config.blocksFor (x.work.header + (o.dataOf a).length) := by
    intro o n
    have : filledBlocks x.work.header Assembly.empty.kept.length = 0 := rfl
    omega
  obtain ⟨hx, ⟨h1, h2, rfl, h4, rfl, rfl⟩ | ⟨h1, h2, h3, rfl, h5, ds, hd, rfl⟩ | ⟨rfl, rfl, h⟩⟩ := h
  · -- a reply that is no stray
    obtain ⟨w, r⟩ := h1.replied b
    have oc := Assembly.outcome_cases a
    have fin : a.outcome false = .ok ∨ a.outcome false = .charError ∨ a.outcome false = .overlength ∨
        a.outcome false = .brk ∨ a.outcome false = .noReply ∨ a.outcome false = .collision ∨
        a.outcome false = .aborted := by tauto
    have nb : a.outcome false ≠ .brk := by rcases oc with q | q | q <;> simp [q]
    have nn : a.outcome false ≠ .noReply := by rcases oc with q | q | q <;> simp [q]
    have la : (w.line i).applied = (s.line i).applied := by rw [r.line]
    have wb : w.workBytes x.work = s.workBytes x.work := by
      cases x.work with
      | request r => rfl
      | poll id _ => simp [State.workBytes, State.poll, r.upto.polls]
    refine ⟨w, { x with reply := a }, [], ?_, r.upto, by simp [nb], by simp, fun d hd => ?_, rfl, rfl, by simp [nn], rfl, rfl,
      fun n k k1 k2 k3 k4 => ?_, fun n => mostA _ n oc, fin⟩
    · have is : isStray (w.line i).applied (w.workBytes ({ x with reply := a } : Txn).work) a = false := by
        rw [la]; show isStray _ (w.workBytes x.work) a = false
        rw [wb]
        by_contra q
        exact h2 ((isStray_iff { x with reply := a } i s).mp (by simpa using q))
      have rt : ({ x with reply := a } : Txn).retried (w.line i).applied (a.outcome false) = false := by rw [la]; exact h4
      rw [r.run]
      simp only [State.endReply, is, Bool.false_eq_true, if_false, State.attemptEnds, rt]
    · simp at hd; subst hd; exact steady_outcome i fin
    · have mono := filledBlocks_mono x.work.header _ _ r.more
      obtain ⟨q1, q2⟩ := r.books (by omega)
      show filledBlocks x.work.header a.kept.length ≤ n ∧ n - filledBlocks x.work.header a.kept.length ≤ _ ∧
        filledBlocks x.work.header a.kept.length + k ≤ _
      omega
  · -- a stray with no window left
    obtain ⟨w, r⟩ := h1.replied b
    obtain ⟨v, run, u, lv, v1, v2⟩ := r.stray h2 hw hd
    obtain ⟨y0, hy0⟩ : ∃ y0 : Txn, y0 = { x with reply := a } := ⟨_, rfl⟩
    obtain ⟨y, hy⟩ : ∃ y : Txn, y = { x with noReplyLast := true, reply := Assembly.empty } := ⟨_, rfl⟩
    have yy : ({ y0 with noReplyLast := true, reply := Assembly.empty } : Txn) = y := by rw [hy0, hy]
    have st := hd.steady
    refine ⟨v.discardReply i y0, y, _, ?_, Upto.discard u y0, fun d => by simp [outcomeCounter]; tauto, fun _ q => ?_,
      fun d hd' => ?_, by rw [hy], by rw [hy], by rw [hy]; simp, by rw [hy], rfl, fun n k k1 k2 k3 k4 => ?_,
      fun n => by rw [hy]; exact most0 _ n, by simp⟩
    · rw [run, if_pos h3]
      have rt : y.retried ((v.discardReply i y0).line i).applied .noReply = false := by
        have : ((v.discardReply i y0).line i).applied = (s.line i).applied := by
          simp [State.discardReply, lv, r.line]
        rw [this, hy]; exact h5
      have e1 : v.noReplyEnds i y0 = (v.discardReply i y0).completeToGuard i y .noReply := by
        simp only [State.noReplyEnds, yy, State.attemptEnds, rt]; rfl
      rw [← hy0, e1]
    · simp [outcomeCounter] at q
      exact (st _ q).2.2.1 rfl
    · simp only [List.cons_append, List.mem_cons, List.mem_append, List.not_mem_nil, or_false] at hd'
      rcases hd' with rfl | q | rfl
      · exact Or.inr ⟨_, by simp, rfl⟩
      · exact (st d q).1
      · exact steady_outcome i (by simp)
    · have mono := filledBlocks_mono x.work.header _ _ r.more
      obtain ⟨q1, q2⟩ := r.books (by omega)
      have e0 : filledBlocks x.work.header y.reply.kept.length = 0 := by rw [hy]; rfl
      have ew : filledBlocks y0.work.header y0.reply.kept.length = filledBlocks x.work.header a.kept.length := by rw [hy0]
      have f := (State.unfill_books (v.modLine i (fun l => { l with hand := some { y0 with reply := Assembly.empty } }))
        (filledBlocks y0.work.header y0.reply.kept.length)).2 (by rw [ew]; simp; omega)
      rw [ew] at f
      rw [e0]
      simp only [State.discardReply, ew, f]
      simp only [State.pool_modLine]
      omega
  · rcases h with ⟨rfl, h1, h2, rfl, rfl⟩ | ⟨rfl, h1, ⟨d, h2, h3⟩, rfl, h5, rfl⟩ | ⟨rfl, h1, h2, rfl, h3⟩ |
      ⟨rfl, ⟨h1, h2, h3, h4, h5, rfl⟩, h7, rfl⟩ | ⟨rfl, ⟨h1, h2, h3, h4, h5, rfl⟩, h7, rfl⟩ |
      ⟨data, parity, stop, rfl, ⟨h1, h2, h3, h4, h5, rfl⟩, h7, h8, rfl⟩
    · -- a break in the reply
      obtain ⟨w0, hw0⟩ : ∃ w0, w0 = s.modLine i (fun l => { l with rxBusy := false, brk := true }) := ⟨_, rfl⟩
      have u0 : Upto i [] [] s w0 := (upto_rfl i s b).only (by rw [hw0]; exact State.onlyLine_modLine s i _) (by rw [hw0]; simp [SameTableOfLine])
      refine ⟨w0.bump (.line i .breaks), x, _, ?_, u0.bump _ (by simp), by simp [outcomeCounter], by simp,
        fun d hd => ?_, rfl, rfl, by simp, rfl, rfl, fun n k k1 k2 k3 k4 => ?_, fun n => Nat.le_refl _, by simp⟩
      · show execBreakStart i s = _
        have rx : (s.line i).receives = true := by simp [Line.receives, Line.examines, h1, h2]
        simp only [execBreakStart, rx, if_true, State.takeBreak, h1, hx]
        rw [hw0]
      · simp at hd; subst hd; exact steady_outcome i (by simp)
      · have p0 : w0.pool = s.pool := by rw [hw0]; rfl
        simp [p0]; omega
    · -- the window
      obtain ⟨y, hy⟩ : ∃ y : Txn, y = { x with noReplyLast := true, reply := Assembly.empty } := ⟨_, rfl⟩
      refine ⟨s.discardReply i x, y, _, ?_, Upto.discard (upto_rfl i s b) x, by simp, by simp, fun d hd => ?_, by rw [hy],
        by rw [hy], by rw [hy]; simp, by rw [hy], rfl, fun n k k1 k2 k3 k4 => ?_, fun n => by rw [hy]; exact most0 _ n,
        by simp⟩
      · show execReplyWindowExpiry i s = _
        have rt : y.retried ((s.discardReply i x).line i).applied .noReply = false := by
          have : ((s.discardReply i x).line i).applied = (s.line i).applied := by simp [State.discardReply]
          rw [this, hy]; exact h5
        simp only [execReplyWindowExpiry, hx, h1, h2, State.expired]
        have : decide (d ≤ s.clock) = true := by simpa using h3
        simp only [this, and_self, if_true, State.noReplyEnds, ← hy, State.attemptEnds, rt]
        rfl
      · simp at hd; subst hd; exact steady_outcome i (by simp)
      · have f := (State.unfill_books (s.modLine i (fun l => { l with hand := some { x with reply := Assembly.empty } })) (filledBlocks x.work.header x.reply.kept.length)).2 (by simp; omega)
        have e0 : filledBlocks x.work.header y.reply.kept.length = 0 := by rw [hy]; rfl
        rw [e0]
        simp only [State.discardReply, f]
        simp only [State.pool_modLine]
        omega
    · -- an abort or an echo failure pending
      obtain ⟨w0, hw0⟩ : ∃ w0, w0 = s.modLine i (fun l => { l with charOut := none, sent := l.sent + 1 }) := ⟨_, rfl⟩
      have u0 : Upto i [] [] s w0 := (upto_rfl i s b).only (by rw [hw0]; exact State.onlyLine_modLine s i _) (by rw [hw0]; simp [SameTableOfLine])
      obtain ⟨ch, hc⟩ := Option.isSome_iff_exists.mp h2
      have ex : exec (.characterSent i) s = finished (s.charSent i x) := by
        show execCharacterSent i s = _
        simp [execCharacterSent, Line.sendingTxn, h1, hx, hc]
      have p0 : w0.pool = s.pool := by rw [hw0]; rfl
      have fin : o = .aborted ∨ o = .collision := by tauto
      refine ⟨w0, x, _, ?_, u0, ?_, by simp, fun d hd => ?_, rfl, rfl, ?_, rfl, rfl,
        fun n k k1 k2 k3 k4 => by rw [p0]; exact ⟨k1, k3, k4⟩, fun n => Nat.le_refl _, by tauto⟩
      · rw [ex, hw0]
        rcases h3 with ⟨a1, rfl⟩ | ⟨a1, a2, rfl⟩
        · simp [State.charSent, a1]
        · simp [State.charSent, a1, a2]
      · rcases fin with rfl | rfl <;> simp
      · simp at hd; subst hd; exact steady_outcome i (by tauto)
      · rcases fin with rfl | rfl <;> simp
    · -- the echo deadline
      refine ⟨s, x, _, ?_, upto_rfl i s b, by simp, by simp, fun d hd => ?_, rfl, rfl, by simp, rfl, rfl,
        fun n k k1 k2 k3 k4 => ⟨k1, k3, k4⟩, fun n => Nat.le_refl _, by simp⟩
      · show execEchoDeadline i s = _
        simp [execEchoDeadline, Line.sendingTxn, h1, hx, h2, State.echoFails, h4, h5, h7, h3]
      · simp at hd; subst hd; exact steady_outcome i (by simp)
    · -- a break in the echo
      obtain ⟨w0, hw0⟩ : ∃ w0, w0 = s.modLine i (fun l => { l with rxBusy := false, brk := true }) := ⟨_, rfl⟩
      have u0 : Upto i [] [] s w0 := (upto_rfl i s b).only (by rw [hw0]; exact State.onlyLine_modLine s i _) (by rw [hw0]; simp [SameTableOfLine])
      refine ⟨w0.bump (.line i .breaks), x, _, ?_, u0.bump _ (by simp), by simp, by simp [outcomeCounter],
        fun d hd => ?_, rfl, rfl, by simp, rfl, rfl, fun n k k1 k2 k3 k4 => ?_, fun n => Nat.le_refl _, by simp⟩
      · show execBreakStart i s = _
        have rx : (s.line i).receives = true := by simp [Line.receives, Line.examines, h1, h2, h7]
        have co : ((w0.bump (.line i .breaks)).line i).charOut = none := by rw [hw0]; simp [h3]
        simp only [execBreakStart, rx, if_true, State.takeBreak, h1, hx, ← hw0, State.echoFails, h4, h5, co]
        rfl
      · simp at hd
        rcases hd with rfl | rfl
        · exact Or.inr ⟨_, by simp, rfl⟩
        · exact steady_outcome i (by simp)
      · have p0 : w0.pool = s.pool := by rw [hw0]; rfl
        simp [p0]; omega
    · -- a wrong echo
      obtain ⟨w0, hw0⟩ : ∃ w0, w0 = s.modLine i (fun l => { l with rxBusy := false }) := ⟨_, rfl⟩
      have u0 : Upto i [] [] s w0 := (upto_rfl i s b).only (by rw [hw0]; exact State.onlyLine_modLine s i _) (by rw [hw0]; simp [SameTableOfLine])
      have p0 : w0.pool = s.pool := by rw [hw0]; rfl
      refine ⟨w0, x, _, ?_, u0, by simp, by simp, fun d hd => ?_, rfl, rfl, by simp, rfl, rfl,
        fun n k k1 k2 k3 k4 => by rw [p0]; exact ⟨k1, k3, k4⟩, fun n => Nat.le_refl _, by simp⟩
      · show execCharacterComplete i data parity stop s = _
        have rx : (s.line i).receives = true := by simp [Line.receives, Line.examines, h1, h2, h7]
        have l0 : w0.line i = { s.line i with rxBusy := false } := by rw [hw0]; simp
        have wb : w0.workBytes x.work = s.workBytes x.work := by rw [hw0]; exact (State.onlyLine_modLine s i _).workBytes _
        have st : (w0.line i).started = (s.line i).sent + (if (s.line i).charOut.isSome then 1 else 0) := by
          rw [l0]; rfl
        simp only [execCharacterComplete, rx, if_true, State.takeChar, h1, hx, ← hw0, State.echoChar, h4, h5,
          Bool.or_self, Bool.false_eq_true, if_false]
        rw [if_neg ?_]
        · simp only [State.echoFails, h4, h5, l0, h3]
          rfl
        · intro q
          apply h8
          rw [st, wb, l0] at q
          simp only [Bool.and_eq_true, decide_eq_true_eq, Bool.not_eq_true', beq_iff_eq] at q
          exact ⟨q.1.1, q.1.2, q.2⟩
      · simp at hd; subst hd; exact steady_outcome i (by simp)

/-- A poll's reservation given back (R81). -/
theorem State.dropReservation_frame (s : State) (n h : Nat) (hu : s.unserved (max n h) 1) :
    let u := s.dropReservation (some (n, h))
    u.granted = s.granted ∧
    u.lines = s.lines ∧ u.polls = s.polls ∧ u.results = s.results ∧ u.lateResults = s.lateResults ∧
        u.pool.slotsUsed = s.pool.slotsUsed - 1 ∧ u.pool.waitList = s.pool.waitList ∧ u.clock = s.clock ∧
    (∀ c, ¬ c.sideways → u.ctrs.read c = s.ctrs.read c) ∧
    (h ≤ n → n - h ≤ s.pool.reserved → h ≤ s.pool.held → u.pool.free = s.pool.free + n ∧
      u.pool.reserved = s.pool.reserved - (n - h) ∧ u.pool.held + h = s.pool.held) := by
  intro u
  have e : u = (s.settle n h 0 0).freeRecordSlots 1 := by
    have z := State.settle_free s n h 0 0
    simp only [u, State.dropReservation]
    exact hu.grantAll (by simp) (by simp only [State.freeRecordSlots_frame]; omega) (by simp)
  iterate 8 refine And.intro (by simp [e]) ?_
  refine ⟨fun c hc => ?_, fun h1 h2 h3 => ?_⟩
  · obtain ⟨a, b, _, _⟩ := sideways_ne hc
    simp [e, a, b]
  · obtain ⟨k1, k2, k3⟩ := State.settle_books s n h 0 0 h1 (by omega) h2 (by omega)
    rw [e]
    simp only [State.freeRecordSlots_frame]
    exact ⟨by simpa using k1, k2, k3⟩

/-- What a poll's completion does beside its line: of its reservation of `n` blocks, `h` of them filled, `b` stay held. -/
structure Handed (i : Fin 12) (id : Fin 128) (e : Option Poll) (rs : List Record) (k : Nat) (cs : List CtrId) (n h b : Nat)
    (s u : State) : Prop where
  lines : u.lines = s.lines
  polls : ∀ x, u.poll x = if x = id then e else s.poll x
  results : u.results = s.results ++ rs
  late : u.lateResults = s.lateResults
  granted : u.granted = s.granted
  slots : u.pool.slotsUsed = s.pool.slotsUsed - k
  wait : u.pool.waitList = s.pool.waitList
  clock : u.clock = s.clock
  ctrs : ∀ c, ¬ c.sideways → u.ctrs.read c = if c ∈ cs then (s.ctrs.read c).inc else s.ctrs.read c
  books : h ≤ n → b ≤ n → n - h ≤ s.pool.reserved → h ≤ s.pool.held → u.pool.free = s.pool.free + (n - b) ∧
    u.pool.reserved = s.pool.reserved - (n - h) ∧ u.pool.held + h = s.pool.held + b

/-- A poll that is not retiring either reports or is suppressed (R78 to R82). -/
theorem State.pollDone_handed (s : State) (id : Fin 128) (p : Poll) (o : TxnOutcome) (a : Assembly) (n h : Nat) (hp : s.poll id = some p)
    (hn : p.state ≠ .retiring) (d) (e) (hd : resultData o a = (d, e)) (hu : s.unserved (max n h) 1) :
    (p.reports o d = true → Handed p.defn.line id (some { p.ran o d with missed := 0, suppressed := 0 }) [s.stamp (.pollResult id p.defn.line p.pollSeq o p.missed (p.forcedFlag o d) e d) false (Config.blocksFor (11 + d.length))] 0 [] n h
      (Config.blocksFor (11 + d.length)) s (s.pollDone id o a (some (n, h)))) ∧
    (p.reports o d = false → Handed p.defn.line id (some { p.ran o d with suppressed := min 255 (p.suppressed + 1) }) [] 1 [.line p.defn.line .pollSuppressed] n h 0 s (s.pollDone id o a (some (n, h)))) := by
  have e0 : s.pollDone id o a (some (n, h)) = s.pollRunDone id p o a (some (n, h)) := by
    simp [State.pollDone, hp, hn]
  refine ⟨fun r => ?_, fun r => ?_⟩
  · have e1 : s.pollRunDone id p o a (some (n, h)) = s.pollReported id p o a n h := by
      simp [State.pollRunDone, hd, r]
    rw [e0, e1]
    have e2 : s.pollReported id p o a n h = ((s.join (.pollResult id p.defn.line p.pollSeq o p.missed (p.forcedFlag o d) e d) false (Config.blocksFor (11 + d.length))).settle n h (Config.blocksFor (11 + d.length)) 0).setPoll id (some { p.ran o d with missed := 0, suppressed := 0 }) := by
      have z := State.settle_free (s.join (.pollResult id p.defn.line p.pollSeq o p.missed (p.forcedFlag o d) e d) false (Config.blocksFor (11 + d.length))) n h (Config.blocksFor (11 + d.length)) 0
      simp only [State.pollReported, hd]
      rw [hu.grantAll (by simp) (by simp only [State.join_frame] at z; omega) (by simp)]
    rw [e2]
    have ev : (s.stamp (.pollResult id p.defn.line p.pollSeq o p.missed (p.forcedFlag o d) e d) false (Config.blocksFor (11 + d.length))).isEvent = false := rfl
    refine ⟨by simp, fun x => ?_, by simp [ev], by simp, by simp, by simp, by simp, by simp, fun c hc => ?_,
      fun h1 h2 h3 h4 => ?_⟩
    · by_cases q : x = id
      · subst q; simp
      · simp [q]
    · obtain ⟨a1, a2, _, _⟩ := sideways_ne hc
      simp [a1, a2]
    · obtain ⟨k1, k2, k3⟩ := State.settle_books (s.join (.pollResult id p.defn.line p.pollSeq o p.missed (p.forcedFlag o d) e d) false
        (Config.blocksFor (11 + d.length))) n h (Config.blocksFor (11 + d.length)) 0 h1 h2 (by simpa using h3) (by simpa using h4)
      exact ⟨by simpa using k1, by simpa using k2, by simpa using k3⟩
  · have e1 : s.pollRunDone id p o a (some (n, h)) = s.pollSuppressed id p o a n h := by
      simp [State.pollRunDone, hd, r]
    rw [e0, e1]
    have e2 : s.pollSuppressed id p o a n h = ((s.dropReservation (some (n, h))).setPoll id
    (some { p.ran o d with suppressed := min 255 (p.suppressed + 1) })).bump (.line p.defn.line .pollSuppressed) := by
      simp only [State.pollSuppressed, hd]
    rw [e2]
    obtain ⟨f0, f1, f2, f3, f4, f5, f6, f7, f8, f9⟩ := State.dropReservation_frame s n h hu
    refine ⟨by simp [f1], fun x => ?_, by simp [f3], by simp [f4], by simp [f0], by simp [f5], by simp [f6], by simp [f7],
        fun c hc => ?_, fun h1 _ h3 h4 => by simpa using f9 h1 h3 h4⟩
    · by_cases q : x = id
      · subst q; simp
      · simp [q]; simp only [State.poll, f2]
    · obtain ⟨a1, a2, _, _⟩ := sideways_ne hc
      by_cases q : c = .line p.defn.line .pollSuppressed
      · subst q; simp [f8 _ hc]
      · simp [a1, q, f8 c hc]

/-- A RETIRING poll is removed and reports nothing (R87). -/
theorem State.pollDone_retiring (s : State) (id : Fin 128) (p : Poll) (o : TxnOutcome) (a : Assembly) (n h : Nat) (hp : s.poll id = some p)
    (hn : p.state = .retiring) (hu : s.unserved (max n h) 1) : Handed p.defn.line id none [] 1 [] n h 0 s (s.pollDone id o a (some (n, h))) := by
  have e0 : s.pollDone id o a (some (n, h)) = (s.dropReservation (some (n, h))).setPoll id none := by
    simp [State.pollDone, hp, hn]
  rw [e0]
  obtain ⟨f0, f1, f2, f3, f4, f5, f6, f7, f8, f9⟩ := State.dropReservation_frame s n h hu
  refine ⟨by simp [f1], fun x => ?_, by simp [f3], by simp [f4], by simp [f0], by simp [f5], by simp [f6], by simp [f7],
      fun c hc => ?_, fun h1 _ h3 h4 => by simpa using f9 h1 h3 h4⟩
  · by_cases q : x = id
    · subst q; simp
    · simp [q]; simp only [State.poll, f2]
  · simp [f8 c hc]

/-- The outcome's counter, a break's having been counted when it began. -/
theorem State.countOutcome_counts (s : State) (i : Fin 12) (o : TxnOutcome) (hf : o = .ok ∨ o = .charError ∨ o = .overlength ∨ o = .brk ∨ o = .noReply ∨ o = .collision ∨ o = .aborted) :
    ∀ c, ¬ c.sideways → (s.countOutcome i o).ctrs.read c = if o ≠ .brk ∧
        c = .line i (outcomeCounter o) then (s.ctrs.read c).inc else s.ctrs.read c := by
  intro c hc
  obtain ⟨a1, _, _, _⟩ := sideways_ne hc
  by_cases b : o = .brk
  · subst b; simp [State.countOutcome, TxnOutcome.counter]
  · have e0 : o.counter = some (outcomeCounter o) := by
      rcases hf with q | q | q | q | q | q | q <;> subst q <;> first | rfl | exact absurd rfl b
    simp only [State.countOutcome, e0]
    by_cases e : c = .line i (outcomeCounter o)
    · rw [if_pos ⟨b, e⟩]; subst e; exact State.bump_ctrs_same _ _ a1
    · rw [if_neg (fun z => e z.2)]; exact State.bump_ctrs _ _ _ e a1

end Sys2Proof.Machine
end

