-- ==== Sys2Proof/Laws/Bytes.lean ====
section
/-! SUPPORT. Fields written as bytes and read back: the primitives of the byte layouts of chapter 11. -/

set_option Elab.async false

namespace Sys2Proof.Machine

/-- A two-byte field is read back as it was written (R204). -/
theorem half_join (w : Half) : (w.extractLsb' 8 8 ++ w.extractLsb' 0 8 : BitVec (8 + 8)) = w := by
  apply BitVec.eq_of_getLsbD_eq
  intro i hi
  rw [BitVec.getLsbD_append, BitVec.getLsbD_extractLsb', BitVec.getLsbD_extractLsb']
  by_cases h8 : i < 8
  · simp [h8]
  · have : 8 + (i - 8) = i := by omega
    simp [h8, this]; omega

/-- A number in a two-byte field is read back. -/
theorem half_num {n : Nat} (h : n ≤ 65535) :
    ((BitVec.ofNat 16 n).extractLsb' 8 8 ++ (BitVec.ofNat 16 n).extractLsb' 0 8 : BitVec (8 + 8)).toNat = n := by
  rw [half_join]; simp; omega

/-- A number in a one-byte field is read back. -/
theorem byte_num {n : Nat} (h : n ≤ 255) : (natByte n).toNat = n := by simp [natByte]; omega

theorem boolOf_byte (b : Bool) : boolOf (boolByte b) = some b := by cases b <;> decide
theorem parityOf_code (p : Parity) : parityOf p.code = some p := by cases p <;> decide
theorem retryOnOf_code (p : RetryOn) : retryOnOf p.code = some p := by cases p <;> decide
theorem policyOf_code (p : Policy) : policyOf p.code = some p := by cases p <;> decide
theorem modeOf_code (p : ReportMode) : modeOf p.code = some p := by cases p <;> decide

/-- A PollId is read back. -/
theorem pollOf_byte : ∀ id : Fin 128, pollOf (natByte id.val) = some id := by decide

/-- The model's test for a list without repetition (R51). -/
theorem distinct_iff (l : List Byte) : distinct l = true ↔ l.Nodup := by
  induction l with
  | nil => simp [distinct]
  | cons a as ih => simp [distinct, ih]

/-- A character takes as many bit times as its length in bits (R35). -/
theorem Profile.charLevels_length (p : Profile) (b : Byte) : (p.charLevels b).length = p.charBits := by
  unfold Profile.charLevels Profile.charBits
  split <;> simp <;> omega

end Sys2Proof.Machine
end

