-- ==== Sys2Proof/Laws/Management.lean ====
section
/-! SUPPORT. The shared shapes of the management commands' effects, and the small facts their parsing rests on. -/

set_option Elab.async false

namespace Sys2Proof.Machine

open Sys2Proof

/-- A request's code names its command. -/
theorem commandOf_of_code {m : MgmtRequest} (c : Command) (h : m.code = c.code) : commandOf m.code = some c := by
  rw [h]; exact State.commandOf_code c

/-- A command with no effect but its response. -/
theorem State.answers_quiet (s : State) (m : MgmtRequest) (c : Option Command) (st : Status) (d : List Byte)
    (h : RequestReady m s) (hc : commandOf m.code = c) (hr : c = some .restart → restartFlag m.params = none)
    (hv : (s.take m.need .held).runCommand m = ⟨s.take m.need .held, st,
        d⟩) (hd : (8 + d.length + 31) / 32 ≤ m.blocks) :
    Completes (instrOf c) s (fun t => Answered m st d s t ∧ Counted [] s t ∧ SameTables s t ∧ SameLink s t ∧
        (m.blocks = (8 + d.length + 31) / 32 → t.pool.hold = (s.take m.need .held).pool.hold)) := by
  have n := State.take_need s m h
  obtain ⟨n1, n2, n3, n4, n5, n6, n7, n8⟩ := n
  have a := State.answered_of s (s.take m.need .held) m c st d h hc hr hv hd n7 n8 (by simp) n1 n2 n3 n4 n5
    (by simp [h.2.2.2.2.2])
  have k := State.performCommand_frame (s.take m.need .held) _ m st d hv (State.unserved_nobody n5 _ _)
  dsimp only at k
  obtain ⟨_, k1, k2, k3, k4, k5, k6, k7, k8, rest⟩ := k
  obtain ⟨k9, k10, k11, k12, k13, k14, k15, k16, k17, k18⟩ := rest
  refine completes_of _ a.1.1 a.1.2 ⟨a.2, ?_, ?_, ?_, ?_⟩
  · refine Counted.close (Counted.quiet (fun d hd => ?_))
    rw [k14 d hd, State.take_quiet _ _ _ _ hd]
  · simp [SameTables, k1, k2, k3, k4, k5, k6]
  · refine sameLink_close (sameLink_of_calm ?_)
    rw [k9]; simp
  · intro e
    have : State.used d = m.blocks := by rw [e]; rfl
    simp only [State.close_frame, State.performCommand, hv, CmdResult.respond]
    simp [State.used] at this
    simp [this, State.release, State.grantAll_nobody n5]

/-- A command that replaces tables, and answers in one block. -/
theorem State.answers_acting (s v : State) (m : MgmtRequest) (c : Command) (st : Status) (h : RequestReady m s)
    (hc : m.code = c.code) (hr : c ≠ .restart) (hb : m.blocks = 1)
    (hv : (s.take m.need .held).runCommand m = ⟨v, st, []⟩)
    (v1 : v.results = (s.take m.need .held).results) (v2 : v.lateResults = (s.take m.need .held).lateResults) (v3 : v.intake = (s.take m.need .held).intake) (v4 : v.pool = (s.take m.need .held).pool) (v5 : v.ctrs = (s.take m.need .held).ctrs) (v6 : v.trunk = (s.take m.need .held).trunk)
    (v7 : v.granted = (s.take m.need .held).granted) (P : State → Prop)
    (hP : ∀ t : State, Answered m st [] s t → Counted [] s t → SameLink s t → t.lines = v.lines →
        t.polls = v.polls → t.cfg = v.cfg → t.pollRun = v.pollRun → t.clock = v.clock → t.pending = v.pending →
        (∀ i, t.line i = v.line i) → (∀ i, t.poll i = v.poll i) → P t) : Completes (instrOf (some c)) s P := by
  have k := commandOf_of_code c hc
  obtain ⟨n1, n2, n3, n4, n5, n6, n7, n8⟩ := State.take_need s m h
  have a := State.answered_of s v m (some c) st [] h k (fun e => absurd (Option.some.inj e) hr) hv (by rw [hb]; decide) (by rw [v1, n7]) (by rw [v2, n8]) (by rw [v3]; simp) (by rw [v4, n1]) (by rw [v4, n2]) (by rw [v4, n3]) (by rw [v4, n4]) (by rw [v4, n5]) (by rw [v7]; simp [h.2.2.2.2.2])
  have f := State.performCommand_frame (s.take m.need .held) v m st [] hv (State.unserved_nobody (by rw [v4, n5]) _ _)
  dsimp only at f
  obtain ⟨_, f⟩ := f
  refine completes_of _ a.1.1 a.1.2 ?_
  apply hP _ a.2
  case _ =>
    refine Counted.close (Counted.quiet (fun d hd => ?_))
    rw [f.2.2.2.2.2.2.2.2.2.2.2.2.2.1 d hd, v5, State.take_quiet _ _ _ _ hd]
  case _ =>
    refine sameLink_close (sameLink_of_calm ?_)
    rw [f.2.2.2.2.2.2.2.2.1, v6]; simp
  all_goals simp [f]

/-- A command that may move anything, and answers in one block. -/
theorem State.answers_performing (s v : State) (m : MgmtRequest) (c : Command) (st : Status) (d : List Byte) (h : RequestReady m s)
    (hc : m.code = c.code) (hr : c ≠ .restart) (hb : m.blocks = 1) (hd : State.used d = 1)
    (hv : (s.take m.need .held).runCommand m = ⟨v, st, d⟩) (hw : v.headWaits) :
    ∃ u : State, exec (instrOf (some c)) s = finished u ∧ u.granted = v.granted ∧ u.lines = v.lines ∧ u.polls = v.polls ∧ u.cfg = v.cfg ∧
        u.pollRun = v.pollRun ∧ u.clock = v.clock ∧
    u.pending = v.pending ∧ (∀ i, u.line i = v.line i) ∧
    u.trunk.calm = v.trunk.calm ∧
    u.intake = { v.intake with frames := unfinished (moveOffset m.size v.intake.frames) } ∧
    u.close.results = v.results ++ v.lateResults.take 0 ++ [v.stamp (.response m.tag m.code st d) true 1] ++ v.lateResults ∧
    (∀ c, ¬ c.sideways → u.ctrs.read c = v.ctrs.read c) ∧
    u.pool.slotsUsed = v.pool.slotsUsed ∧ u.pool.waitList = v.pool.waitList ∧ u.pool.reserved = v.pool.reserved ∧
        u.pool.held = v.pool.held ∧ u.pool.free = v.pool.free := by
  have k := commandOf_of_code c hc
  have f := State.performCommand_frame (s.take m.need .held) v m st d hv
    (by rw [hb, hd]; exact fun w ws e => hw w ws e)
  dsimp only at f
  obtain ⟨k0, k1, k2, k3, k4, k5, k6, k7, k8, rest⟩ := f
  obtain ⟨k9, k10, k11, k12, k13, k14, k15, k16, k17, k18⟩ := rest
  obtain ⟨k19, k20⟩ := k18 (by omega)
  refine ⟨_, State.exec_granted s m (some c) h k (fun e => absurd (Option.some.inj e) hr), k0, k1, k2, k3, k4, k5, k6,
      k7, k9, k11, ?_, k14, k15, k16, k17, by rw [k19, hb, hd]; rfl, by rw [k20, hb, hd]; rfl⟩
  rw [State.close_results, k12, k13, hd]; simp

/-- A record's stamp depends on the clock and the configuration alone. -/
theorem State.stamp_congr (t s : State) (h : t.clock = s.clock) (k : t.cfg = s.cfg) (b : Body) (u : Bool) (n : Nat) : t.stamp b u n = s.stamp b u n := by
  simp [State.stamp, h, k]

/-- One request refused in its own payload, serving no waiter (R54). -/
theorem State.refuseOwn_frame (s : State) (i : Fin 12) (o : TxnOutcome) (r : Request)
    (hu : s.unserved (payloadBlocks r.payload - 1) 0) :
    let u := s.refuseOwn i o r
    u.lines = s.lines ∧ u.polls = s.polls ∧ u.cfg = s.cfg ∧ u.pollRun = s.pollRun ∧ u.clock = s.clock ∧
    u.pending = s.pending ∧ u.intake = s.intake ∧ u.trunk.calm = s.trunk.calm ∧
    u.pool.slotsUsed = s.pool.slotsUsed ∧ u.pool.waitList = s.pool.waitList ∧ u.lateResults = s.lateResults ∧
    u.granted = s.granted ∧ u.pool.reserved = s.pool.reserved ∧ u.pool.total = s.pool.total ∧
    u.pool.free = s.pool.free + min (payloadBlocks r.payload - 1) s.pool.held ∧
    u.pool.held = s.pool.held - min (payloadBlocks r.payload - 1) s.pool.held ∧
    u.results = s.results ++ [s.stamp (.reply r.tag (lineByte i) o 0 none []) r.urgent 1] ∧
    ∀ c, ¬ c.sideways → u.ctrs.read c =
      if c = .line i .requestsRefused then (s.ctrs.read c).inc else s.ctrs.read c := by
  intro u
  have e : u = ((s.release 0 (payloadBlocks r.payload - 1)).bump (.line i .requestsRefused)).join
      (.reply r.tag (lineByte i) o 0 none []) r.urgent 1 := by
    simp only [u, State.refuseOwn]
    rw [hu.grantAll (by simp) (by simp) (by simp)]
  have ev : ∀ v : State, (v.stamp (.reply r.tag (lineByte i) o 0 none []) r.urgent 1).isEvent = false := fun _ => rfl
  rw [e]
  clear_value u
  iterate 16 refine And.intro (by simp) ?_
  refine ⟨?_, fun c hc => ?_⟩
  · simp [ev]; simp [State.stamp]
  · obtain ⟨a, b, _, _⟩ := sideways_ne hc
    by_cases q : c = .line i .requestsRefused
    · subst q; simp
    · simp [a, b, q]

/-- Every request of a list refused, in order, serving no waiter: each counted, the blocks of its payload but one freed
(R28, R31, R32, R54). -/
theorem State.refuseAll_frame (s : State) (i : Fin 12) (o : TxnOutcome) (q : List Request)
    (hu : s.unserved ((q.map (fun r => payloadBlocks r.payload - 1)).sum) 0) :
    let u := s.refuseAll i o q
    u.lines = s.lines ∧ u.polls = s.polls ∧ u.cfg = s.cfg ∧ u.pollRun = s.pollRun ∧ u.clock = s.clock ∧
        u.pending = s.pending ∧ u.intake = s.intake ∧ u.trunk.calm = s.trunk.calm ∧
        u.pool.slotsUsed = s.pool.slotsUsed ∧ u.pool.waitList = s.pool.waitList ∧ u.lateResults = s.lateResults ∧
    u.granted = s.granted ∧ u.pool.reserved = s.pool.reserved ∧ u.pool.total = s.pool.total ∧
    u.results = s.results ++ q.map (fun r => s.stamp (.reply r.tag (lineByte i) o 0 none []) r.urgent 1) ∧
    ((q.map (fun r => payloadBlocks r.payload - 1)).sum ≤ s.pool.held →
      u.pool.free = s.pool.free + (q.map (fun r => payloadBlocks r.payload - 1)).sum ∧
      u.pool.held = s.pool.held - (q.map (fun r => payloadBlocks r.payload - 1)).sum) ∧
    ∀ c, ¬ c.sideways → u.ctrs.read c =
      if c = .line i .requestsRefused then Counter.inc^[q.length] (s.ctrs.read c) else s.ctrs.read c := by
  induction q generalizing s with
  | nil => simp [State.refuseAll]
  | cons r q ih =>
    have e : s.refuseAll i o (r :: q) = (s.refuseOwn i o r).refuseAll i o q := rfl
    simp only [List.map_cons, List.sum_cons] at hu
    have f := State.refuseOwn_frame s i o r (hu.mono rfl (by omega) (by omega))
    obtain ⟨v, hv⟩ : ∃ v, v = s.refuseOwn i o r := ⟨_, rfl⟩
    rw [← hv] at f
    dsimp only at f
    obtain ⟨f1, f2, f3, f4, f5, f6, f7, f8, f9, rest⟩ := f
    obtain ⟨f10, f11, f12, f13, f14, f15, f16, f17, f18⟩ := rest
    have k := ih v (hu.mono f10 (by omega) (by omega))
    rw [e, ← hv]
    obtain ⟨w, hw⟩ : ∃ w, w = v.refuseAll i o q := ⟨_, rfl⟩
    rw [← hw] at k
    dsimp only at k ⊢
    rw [← hw]
    obtain ⟨k1, k2, k3, k4, k5, k6, k7, k8, k9, rest⟩ := k
    obtain ⟨k10, k11, k12, k13, k14, k15, k16, k17⟩ := rest
    have st : ∀ b u n, v.stamp b u n = s.stamp b u n := fun b u n => State.stamp_congr _ _ f5 f3 b u n
    refine ⟨k1.trans f1, k2.trans f2, k3.trans f3, k4.trans f4, k5.trans f5, k6.trans f6, k7.trans f7, k8.trans f8,
      k9.trans f9, k10.trans f10, k11.trans f11, k12.trans f12, k13.trans f13, k14.trans f14, ?_, fun hs => ?_,
      fun c hc => ?_⟩
    · rw [k15, f17]; simp only [st, List.map_cons, List.append_assoc, List.singleton_append]
    · simp only [List.map_cons, List.sum_cons] at hs ⊢
      have := k16 (by omega)
      omega
    · rw [k17 c hc, f18 c hc]
      split
      · rfl
      · rfl

/-- A kept unsolicited frame dropped: everything else stays (R22). -/
theorem State.dropKept_frame (s : State) (i : Fin 12) (n h : Nat) (hu : s.unserved (max n h) 1) :
    let u := s.dropKept i n h
    u.granted = s.granted ∧
    u.lines = s.lines ∧ u.polls = s.polls ∧ u.cfg = s.cfg ∧ u.pollRun = s.pollRun ∧ u.clock = s.clock ∧
        u.pending = s.pending ∧ u.intake = s.intake ∧ u.trunk.calm = s.trunk.calm ∧
        u.pool.slotsUsed = s.pool.slotsUsed - 1 ∧ u.pool.waitList = s.pool.waitList ∧
        u.lateResults = s.lateResults ∧ u.results = s.results ∧
    u.ctrs.read (.line i .unsolicitedDropped) = (s.ctrs.read (.line i .unsolicitedDropped)).inc ∧
    ∀ c, ¬ c.sideways → c ≠ .line i .unsolicitedDropped → u.ctrs.read c = s.ctrs.read c := by
  intro u
  have e : u = ((s.settle n h 0 0).freeRecordSlots 1).bump (.line i .unsolicitedDropped) := by
    have z := State.settle_free s n h 0 0
    simp only [u, State.dropKept]
    rw [hu.grantAll (by simp) (by simp only [State.freeRecordSlots_frame]; omega) (by simp)]
  iterate 14 refine And.intro (by simp [e]) ?_
  intro c hc hn
  have z1 : c ≠ .pool .eventsMissed ∧ c ≠ .pool .poolLowEpisodes := by unfold CtrId.sideways at hc; tauto
  simp [e, hn, z1]

/-- Parameters that are no restart flag. -/
theorem restartFlag_none {p : List Byte} (h1 : p ≠ [0]) (h2 : p ≠ [1]) : restartFlag p = none := by
  unfold restartFlag
  split
  · next hl =>
    obtain ⟨x, hx⟩ := List.length_eq_one_iff.mp hl
    have : x ≠ 0 ∧ x ≠ 1 := by constructor <;> rintro rfl <;> simp_all
    have e : byteAt [x] 0 = x := rfl
    rw [hx, e, boolOf, if_neg this.1, if_neg this.2]
  · rfl

/-- A response holds at least one block. -/
theorem MgmtRequest.blocks_pos (m : MgmtRequest) : 1 ≤ m.blocks := by
  unfold MgmtRequest.blocks
  split <;> (try split) <;> simp [Config.blocksFor, ceilDiv, Config.blockSize]
  omega

/-- The hold after FreeCount changes (R100). -/
theorem State.freeChanged_hold (s : State) : s.freeChanged.pool.hold = holdAfter s.pool.hold s.pool.free s.cfg.lowMark s.cfg.highMark := by
  simp only [State.freeChanged, State.testHold, holdAfter]
  by_cases h : s.pool.hold = true
  · by_cases k : s.cfg.highMark ≤ s.pool.free
    · simp [h, k, State.holdOff]; split_ifs <;> simp [k]
    · simp [h, k]; omega
  · by_cases k : s.pool.free < s.cfg.lowMark
    · simp [h, k, State.holdOn]
    · simp [h, k]

/-- The hold after the marks change (R101). -/
theorem State.testHold_hold (s : State) : s.testHold.pool.hold = holdAfter s.pool.hold s.pool.free s.cfg.lowMark s.cfg.highMark := by
  simp only [State.testHold, holdAfter]
  by_cases h : s.pool.hold = true
  · by_cases k : s.cfg.highMark ≤ s.pool.free
    · simp [h, k, State.holdOff]; split_ifs <;> simp [k]
    · simp [h, k]; omega
  · by_cases k : s.pool.free < s.cfg.lowMark
    · simp [h, k, State.holdOn]
    · simp [h, k]

/-- One entry of the poll table set. -/
theorem State.setPoll_poll (s : State) (id k : Fin 128) (e : Option Poll) : (s.setPoll id e).poll k = if k = id then e else s.poll k := by
  simp [State.poll, State.setPoll, get_set]

/-- A fold that changes nothing. -/
theorem foldl_fixed {α β : Type} (f : β → α → β) (l : List α) (b : β) (h : ∀ a ∈ l, f b a = b) : l.foldl f b = b := by
  induction l with
  | nil => rfl
  | cons a as ih => rw [List.foldl_cons, h a (by simp)]; exact ih (fun x hx => h x (by simp [hx]))

/-- A vector is its entries. -/
theorem vector_ext_get {n : Nat} {a b : Vector Counter n} (h : ∀ i : Fin n, a.get i = b.get i) : a = b := by
  ext i hi
  exact h ⟨i, hi⟩

/-- Every number of a link counter is one (R190). -/
theorem LinkCtr.id_surj : ∀ i : Fin 14, ∃ c : LinkCtr, c.id = i := by
  intro i
  fin_cases i
  exacts [⟨.framesReceived, rfl⟩, ⟨.crcErrors, rfl⟩, ⟨.malformedFrames, rfl⟩, ⟨.duplicates, rfl⟩, ⟨.outOfWindow,
      rfl⟩, ⟨.overAllow, rfl⟩, ⟨.framesSent, rfl⟩, ⟨.retransmissions, rfl⟩, ⟨.goBacks, rfl⟩, ⟨.resyncs, rfl⟩,
      ⟨.silenceDowns, rfl⟩, ⟨.retryFailDowns, rfl⟩, ⟨.holdTimeouts, rfl⟩, ⟨.badRecords, rfl⟩]

/-- Every number of a line counter is one (R190). -/
theorem LineCtr.id_surj : ∀ i : Fin 15, ∃ c : LineCtr, c.id = i := by
  intro i
  fin_cases i
  exacts [⟨.requestsAccepted, rfl⟩, ⟨.requestsRefused, rfl⟩, ⟨.txnOk, rfl⟩, ⟨.noReplies, rfl⟩, ⟨.charErrors, rfl⟩,
      ⟨.overlength, rfl⟩, ⟨.breaks, rfl⟩, ⟨.collisions, rfl⟩, ⟨.aborted, rfl⟩, ⟨.retriedAttempts, rfl⟩,
      ⟨.unsolicitedForwarded, rfl⟩, ⟨.unsolicitedDropped, rfl⟩, ⟨.strayFrames, rfl⟩, ⟨.lateFrames, rfl⟩,
      ⟨.pollSuppressed, rfl⟩]

/-- Two bytes a value. -/
theorem counterValues_length (l : List Counter) : (counterValues l).length = 2 * l.length := by
  induction l with
  | nil => rfl
  | cons a as ih => simp [counterValues, halfBytes] at ih ⊢; omega

/-- After a restart every counter is zero. -/
theorem Counters.read_reset (c : CtrId) : Counters.reset.read c = Counter.zero := by
  cases c with
  | link c => cases c <;> rfl
  | pool c => cases c <;> rfl
  | line i c => revert i c; intro i c; cases c <;> revert i <;> decide

/-- A stall leaves no record at the head to dispatch. -/
theorem State.headRecord_stall {s : State} {p : Parsed} (h : s.headRecord = some p) : s.intake.stall = none := by
  unfold State.headRecord at h; split at h <;> simp_all

/-- A refused request: its REPLY joins, its counter rises, its record leaves the frame (R127). -/
theorem State.refusalBuilt_told (w : State) (r : LineRequest) (o : TxnOutcome) (_hs : w.intake.stall = none) :
    (w.refusalBuilt r o).results = w.results ++ [w.stamp (.reply r.tag r.line o 0 none []) r.urgent 1] ∧
    (w.refusalBuilt r o).granted = w.granted ∧
    (w.refusalBuilt r o).lateResults = w.lateResults ∧ SameTables w (w.refusalBuilt r o) ∧
    (w.refusalBuilt r o).pool.free = w.pool.free ∧ (w.refusalBuilt r o).pool.held = w.pool.held ∧
    (w.refusalBuilt r o).pool.reserved = w.pool.reserved ∧ (w.refusalBuilt r o).pool.slotsUsed = w.pool.slotsUsed ∧
    (w.refusalBuilt r o).pool.waitList = w.pool.waitList ∧
    (w.refusalBuilt r o).intake = { w.intake with frames := unfinished (moveOffset r.size w.intake.frames) } ∧
    (w.refusalBuilt r o).trunk.calm = w.trunk.calm ∧
    ∀ cs s, Counted cs s w → (∀ i, r.line = lineByte i → CtrId.line i .requestsRefused ∉ cs →
      Counted (CtrId.line i .requestsRefused :: cs) s (w.refusalBuilt r o)) := by
  set j := w.join (.reply r.tag r.line o 0 none []) r.urgent 1 with hj
  have cr : ∀ u : State, u.countRefusal r.line = u ∨ ∃ i,
      u.countRefusal r.line = u.bump (.line i .requestsRefused) := by
    intro u; unfold State.countRefusal; split
    · exact Or.inr ⟨_, rfl⟩
    · exact Or.inl rfl
  have js : j.results = w.results ++ [w.stamp (.reply r.tag r.line o 0 none []) r.urgent 1] ∧
      j.granted = w.granted ∧ j.lateResults = w.lateResults ∧ SameTables w j ∧ j.pool = w.pool ∧ j.intake = w.intake ∧
      j.trunk.calm = w.trunk.calm := by
    simp [hj, SameTables, Record.isEvent, State.stamp]
  have cs' : (j.countRefusal r.line).results = j.results ∧ (j.countRefusal r.line).granted = j.granted ∧ (j.countRefusal r.line).lateResults = j.lateResults ∧
      SameTables j (j.countRefusal r.line) ∧ (j.countRefusal r.line).pool.free = j.pool.free ∧
      (j.countRefusal r.line).pool.held = j.pool.held ∧ (j.countRefusal r.line).pool.reserved = j.pool.reserved ∧
      (j.countRefusal r.line).pool.slotsUsed = j.pool.slotsUsed ∧ (j.countRefusal r.line).intake = j.intake ∧
      (j.countRefusal r.line).trunk = j.trunk ∧ (j.countRefusal r.line).pool.waitList = j.pool.waitList := by
    rcases cr j with h | ⟨i, h⟩ <;> rw [h] <;> simp [SameTables]
  have e : w.refusalBuilt r o = (j.countRefusal r.line).dispatched r.size := rfl
  have jc : ∀ cs s, Counted cs s w → Counted cs s j := fun cs s h => h.step (Counted.same (by simp [hj]))
  have jr : ∀ i, r.line = lineByte i → j.countRefusal r.line = j.bump (.line i .requestsRefused) := by
    intro i hi; simp [State.countRefusal, hi, lineOf_lineByte]
  rw [e]
  clear_value j
  iterate 3 refine And.intro (by simp [cs', js]) ?_
  refine ⟨?_, ?_⟩
  · simp only [SameTables] at cs' js ⊢; simp [cs', js]
  iterate 7 refine And.intro (by simp [cs', js]) ?_
  intro cs s h i hi hn
  rw [jr i hi]
  exact ((jc cs s h).cons _ hn).step (Counted.same (by simp))

end Sys2Proof.Machine
end

