-- ==== Sys2Proof/Laws/Aborts.lean ====
section
/-! SUPPORT. LINE_ABORT: what it completes, flushes and answers (R26 to R28). -/

set_option Elab.async false

namespace Sys2Proof.Machine

open Sys2Proof

/-- What a line's abort has done from `w` to `v`, beside the line and the poll table: `n` requests refused. -/
structure Gone (i : Fin 12) (n : Nat) (ks : List CtrId) (rs : List Record) (w v : State) : Prop where
  cfg : v.cfg = w.cfg
  pollRun : v.pollRun = w.pollRun
  clock : v.clock = w.clock
  pending : v.pending = w.pending
  intake : v.intake = w.intake
  calm : v.trunk.calm = w.trunk.calm
  lines : ∀ j, j ≠ i → v.line j = w.line j
  late : v.lateResults = w.lateResults
  granted : v.granted = w.granted
  wait : v.pool.waitList = []
  results : v.results = w.results ++ rs
  ctrs : CountedTimes n (.line i .requestsRefused) ks w v

/-- A counter that does not rise. -/
theorem CountedTimes.zero {c : CtrId} {ks : List CtrId} {w v : State} (h : Counted ks w v)
    (hc : c ∉ ks) : CountedTimes 0 c ks w v := by
  intro d hd
  rw [h d hd]
  by_cases e : d = c
  · subst e; simp [hc]
  · simp [e]

/-- Nothing has been done yet. -/
theorem Gone.rfl' (i : Fin 12) (w : State) (h : w.pool.waitList = []) : Gone i 0 [] [] w w :=
  ⟨rfl, rfl, rfl, rfl, rfl, rfl, fun _ _ => rfl, rfl, rfl, h, by simp, CountedTimes.zero (Counted.same rfl) (by simp)⟩

/-- A touch of one line, where no waiter waits, is of that kind. -/
theorem Gone.of_touch {i : Fin 12} {ks rs} {w v : State} (T : Touch (fun j => j = i) w v)
    (hw : w.pool.waitList = []) (hg : w.granted = [])
    (g : v.granted = w.granted) (wt : v.pool.waitList = w.pool.waitList) (r : v.results = w.results ++ rs)
        (c : Counted ks w v)
    (hk : CtrId.line i .requestsRefused ∉ ks) : Gone i 0 ks rs w v :=
  ⟨T.cfg, T.pollRun, T.clock, T.pending, T.intake, T.calm, fun j hj => T.line (waits_nobody hw hg) j hj, T.late, g,
      wt.trans hw, r, CountedTimes.zero c hk⟩

/-- The line itself may move besides. -/
theorem Gone.only {i n ks rs} {w v u : State} (g : Gone i n ks rs w v) (o : State.OnlyLine i v u) : Gone i n ks rs w u :=
  ⟨o.cfg.trans g.cfg, o.pollRun.trans g.pollRun, o.clock.trans g.clock, o.pending.trans g.pending,
      o.intake.trans g.intake,
   by rw [o.trunk, g.calm], fun j hj => (o.line j hj).trans (g.lines j hj), o.lateResults.trans g.late,
       o.granted.trans g.granted,
   by rw [o.pool, g.wait], o.results.trans g.results, fun d hd => by rw [o.ctrs, g.ctrs d hd]⟩

/-- Flush: every queued request completes FLUSHED, oldest first (R28). -/
theorem Gone.flush {i ks rs} {w v : State} (g : Gone i 0 ks rs w v) (fl : Bool) :
    let u := if fl then v.flushQueue i else v
    let q := if fl then (v.line i).queue else []
    Gone i q.length ks (rs ++ refusals i .flushed q w) w u ∧
    u.line i = { v.line i with queue := if fl then [] else (v.line i).queue } ∧ u.polls = v.polls ∧
    u.pool.slotsUsed = v.pool.slotsUsed ∧ u.pool.reserved = v.pool.reserved ∧
    (spareBlocks q ≤ v.pool.held → u.pool.free = v.pool.free + spareBlocks q ∧
        u.pool.held = v.pool.held - spareBlocks q) := by
  cases fl with
  | false => exact ⟨by simpa [refusals] using g, rfl, rfl, rfl, rfl, fun _ => ⟨rfl, rfl⟩⟩
  | true =>
    intro u q
    obtain ⟨z, hz⟩ : ∃ z, z = v.modLine i (fun l => { l with queue := [] }) := ⟨_, rfl⟩
    have e : u = z.refuseAll i .flushed q := by rw [hz]; rfl
    have zo : State.OnlyLine i v z := by rw [hz]; exact State.onlyLine_modLine v i _
    have f := State.refuseAll_frame z i .flushed q (State.unserved_nobody (by rw [zo.pool, g.wait]) _ _)
    dsimp only at f
    rw [← e] at f
    obtain ⟨f1, f2, f3, f4, f5, f6, f7, f8, f9, rest⟩ := f
    obtain ⟨f10, f11, f12, f13, f14, f15, f16, f17⟩ := rest
    have fl : ∀ j, u.line j = z.line j := fun j => by simp only [State.line, f1]
    have st : ∀ b k n, z.stamp b k n = w.stamp b k n := fun b k n => State.stamp_congr _ _ (zo.clock.trans g.clock) (zo.cfg.trans g.cfg) b k n
    refine ⟨⟨f3.trans (zo.cfg.trans g.cfg), f4.trans (zo.pollRun.trans g.pollRun), f5.trans (zo.clock.trans g.clock),
      f6.trans (zo.pending.trans g.pending), f7.trans (zo.intake.trans g.intake), by rw [f8, zo.trunk, g.calm],
      fun j hj => by rw [fl, zo.line j hj, g.lines j hj], by rw [f11, zo.lateResults, g.late],
          by rw [f12, zo.granted, g.granted],
      by rw [f10, zo.pool, g.wait], ?_, fun c hc => ?_⟩, by rw [fl, hz]; simp, f2.trans zo.polls, by rw [f9, zo.pool],
          by rw [f13, zo.pool],
      fun h => ?_⟩
    · rw [f15, zo.results, g.results]; simp only [st, refusals, List.append_assoc]
    · rw [f17 c hc, zo.ctrs, g.ctrs c hc]
      by_cases q : c = .line i .requestsRefused <;> simp [q]
    · have := f16 (by rw [zo.pool]; exact h)
      rw [zo.pool] at this; exact this

/-- Of the counters an abort moves, the unsolicited frame moves its own. -/
theorem FrameDiscarded.apart {i : Fin 12} {cs : List CtrId} {n f k : Nat} {o : Option Unsolicited} {s : State}
    (h : FrameDiscarded i cs n f k o s) : CtrId.line i .aborted ∉ cs ∧ CtrId.line i .requestsRefused ∉ cs := by
  rcases h with ⟨_, rfl, _⟩ | ⟨u, _, _, _, ⟨_, rfl, _⟩ | ⟨_, rfl, _⟩ | ⟨_, rfl, _⟩ | ⟨_, _, rfl, _⟩⟩ <;> simp

/-- The unsolicited frame is discarded (R26): what rises, what goes back to the pool, and the line. -/
theorem Gone.discard {i : Fin 12} {ks cs : List CtrId} {rs : List Record} {n f k : Nat} {o : Option Unsolicited}
    {s w v : State} (g : Gone i 0 ks rs w v) (h : FrameDiscarded i cs n f k o s) (hk : ∀ c ∈ cs, c ∉ ks)
    (hl : (v.line i).listen = (s.line i).listen) (hu : (v.line i).unsolicited = (s.line i).unsolicited) :
    let u := v.abortUnsolicited i
    Gone i 0 (ks ++ cs) rs w u ∧ u.line i = { v.line i with unsolicited := o } ∧ u.polls = v.polls ∧
    u.pool.slotsUsed = v.pool.slotsUsed - k ∧
    (f ≤ n → n - f ≤ v.pool.reserved → f ≤ v.pool.held →
      u.pool.free = v.pool.free + n ∧ u.pool.reserved = v.pool.reserved - (n - f) ∧ u.pool.held + f = v.pool.held) := by
  intro u
  have ap := h.apart.2
  rw [FrameDiscarded, ← hl, ← hu] at h
  -- the line, then what is told beside it
  have go : ∀ q : State, State.OnlyLine i v q → q.line i = { v.line i with unsolicited := o } → Told cs [] q u →
      u.pool.slotsUsed = q.pool.slotsUsed - k →
      (f ≤ n → n - f ≤ q.pool.reserved → f ≤ q.pool.held →
        u.pool.free = q.pool.free + n ∧ u.pool.reserved = q.pool.reserved - (n - f) ∧ u.pool.held + f = q.pool.held) → _ :=
    fun q O L T S B => (⟨⟨T.cfg.trans (O.cfg.trans g.cfg), T.pollRun.trans (O.pollRun.trans g.pollRun),
        T.clock.trans (O.clock.trans g.clock), T.pending.trans (O.pending.trans g.pending),
        T.intake.trans (O.intake.trans g.intake), by rw [T.calm, O.trunk, g.calm],
        fun j hj => by rw [T.line, O.line j hj, g.lines j hj], T.late.trans (O.lateResults.trans g.late),
        T.granted.trans (O.granted.trans g.granted), by rw [T.wait, O.pool, g.wait],
        by rw [T.results, O.results, g.results]; simp, fun d hd => by
          rw [T.ctrs d hd, O.ctrs, g.ctrs d hd]
          by_cases e : d = .line i .requestsRefused
          · subst e; simp [ap]
          · by_cases a : d ∈ cs
            · simp [e, a, hk d a]
            · simp [e, a]⟩,
      by rw [T.line, L], T.polls.trans O.polls, by rw [S, O.pool], by rw [O.pool] at B; exact B⟩ :
      Gone i 0 (ks ++ cs) rs w u ∧ u.line i = { v.line i with unsolicited := o } ∧ u.polls = v.polls ∧
        u.pool.slotsUsed = v.pool.slotsUsed - k ∧
        (f ≤ n → n - f ≤ v.pool.reserved → f ≤ v.pool.held → u.pool.free = v.pool.free + n ∧
          u.pool.reserved = v.pool.reserved - (n - f) ∧ u.pool.held + f = v.pool.held))
  rcases h with ⟨a, rfl, rfl, rfl, rfl, ho⟩ | ⟨x, a, b, ho, c⟩
  · have e : u = v := by
      simp only [u, State.abortUnsolicited]
      rcases a with a | a
      · split
        · next h _ => exact absurd h a
        all_goals rfl
      · rw [a]; cases (v.line i).listen <;> rfl
    refine go v (State.onlyLine_rfl i v) (by rw [ho]) (by rw [e]; exact told_rfl v) (by rw [e]; rfl) (fun _ _ _ => ?_)
    rw [e]; simp
  · obtain ⟨q, hq⟩ : ∃ q, q = v.modLine i (fun l => { l with unsolicited := some { x with mode := .aborted } }) := ⟨_, rfl⟩
    have O : State.OnlyLine i v q := by rw [hq]; exact State.onlyLine_modLine v i _
    have L : q.line i = { v.line i with unsolicited := o } := by rw [hq, ho]; simp
    have e : ∀ m, x.mode = m → u = match m with
        | .undecided => (q.countLate i x).bump (.line i .unsolicitedDropped)
        | .drop => q.bump (.line i .unsolicitedDropped)
        | .keep n => q.dropKept i n (filledBlocks 10 x.frame.kept.length)
        | .lost => q
        | .aborted => q := by
      intro m hm
      simp only [u, State.abortUnsolicited]
      rw [a, b]
      all_goals simp only [hm, hq]
      all_goals cases m <;> rfl
    have still : u = q → Told [] [] q u ∧ u.pool.slotsUsed = q.pool.slotsUsed ∧ u.pool = q.pool := fun h => by
      rw [h]; exact ⟨told_rfl q, rfl, rfl⟩
    have one : u = q.bump (.line i .unsolicitedDropped) → Told [.line i .unsolicitedDropped] [] q u ∧
        u.pool.free = q.pool.free ∧ u.pool.reserved = q.pool.reserved ∧ u.pool.held = q.pool.held ∧
        u.pool.slotsUsed = q.pool.slotsUsed := fun h => by
      rw [h]; exact ⟨told_lineCounter q i _, by simp, by simp, by simp, by simp⟩
    rcases c with ⟨m, rfl, rfl, rfl⟩ | ⟨m, rfl, rfl, rfl, rfl⟩ | ⟨m, rfl, rfl, rfl, rfl⟩ | ⟨m, r, rfl, rfl, rfl, rfl⟩
    · have T := told_drop q i n (filledBlocks 10 x.frame.kept.length) (State.unserved_nobody (by rw [O.pool, g.wait]) _ _)
      dsimp only at T
      rw [← show u = q.dropKept i n (filledBlocks 10 x.frame.kept.length) from e _ m] at T
      exact go q O L T.1 T.2.1 T.2.2
    · have h : u = q := by rcases m with m | m <;> exact e _ m
      obtain ⟨t, st, sp⟩ := still h
      exact go q O L t st (fun _ _ _ => by rw [sp]; simp)
    · have h : u = q.bump (.line i .unsolicitedDropped) := by
        rcases m with m | ⟨m, r⟩
        · exact e _ m
        · rw [e _ m]; simp [State.countLate, r]
      obtain ⟨t, b1, b2, b3, b4⟩ := one h
      exact go q O L t b4 (fun _ _ _ => by rw [b1, b2, b3]; simp)
    · have h : u = (q.bump (.line i .lateFrames)).bump (.line i .unsolicitedDropped) := by
        rw [e _ m]; simp [State.countLate, r]
      have T := (told_lineCounter q i .lateFrames).trans (told_lineCounter (q.bump (.line i .lateFrames)) i .unsolicitedDropped)
        (by simp)
      rw [← h] at T
      exact go q O L T (by rw [h]; simp) (fun _ _ _ => by rw [h]; simp)

/-- The state in which a granted command of one block acts. -/
structure Begun (s x : State) : Prop where
  lines : ∀ j, x.line j = s.line j
  polls : x.polls = s.polls
  cfg : x.cfg = s.cfg
  pollRun : x.pollRun = s.pollRun
  clock : x.clock = s.clock
  pending : x.pending = s.pending
  calm : x.trunk.calm = s.trunk.calm
  frames : x.intake.frames = s.intake.frames
  stall : x.intake.stall = none
  results : x.results = s.results
  late : x.lateResults = []
  granted : x.granted = []
  free : x.pool.free + 1 = s.pool.free
  held : x.pool.held = s.pool.held + 1
  reserved : x.pool.reserved = s.pool.reserved
  slots : x.pool.slotsUsed = s.pool.slotsUsed + 1
  ctrs : Counted [] s x

/-- What a line abort has done, and its response (R26, R28, R166). -/
theorem tells {s x v : State} {c : Instr} {m : MgmtRequest} {i : Fin 12} {n ks rs d} (b : Begun s x)
    (ex : exec c s = finished (x.performCommand m))
    (rc : x.runCommand m = ⟨v, .done, d⟩) (bl : m.blocks = 1) (ud : State.used d = 1) (g : Gone i n ks rs x v) :
    Completes c s (fun t => t.results = s.results ++ rs ++ [t.stamp (.response m.tag m.code .done d) true 1] ∧
      CountedTimes n (.line i .requestsRefused) ks s t ∧ Dispatched m.size s t ∧ SameLink s t ∧
      SameSettings s t ∧ t.pool.waitList = [] ∧ (∀ j, j ≠ i → t.line j = s.line j) ∧
      t.line i = v.line i ∧ t.polls = v.polls ∧ t.pool.slotsUsed = v.pool.slotsUsed ∧ t.pool.free = v.pool.free ∧
      t.pool.held = v.pool.held ∧ t.pool.reserved = v.pool.reserved) := by
  have f := State.performCommand_frame x v m .done d rc (State.unserved_nobody g.wait _ _)
  dsimp only at f
  obtain ⟨f0, f1, f2, f3, f4, f5, f6, f7, f8, rest⟩ := f
  obtain ⟨f9, f10, f11, f12, f13, f14, f15, f16, f17, f18⟩ := rest
  obtain ⟨f18, f19⟩ := f18 (by rw [bl, ud]; omega)
  have z : m.blocks - State.used d = 0 := by rw [bl, ud]
  refine completes_of _ ex (by rw [f0, g.granted, b.granted]) ⟨?_, fun e he => ?_,
      ⟨by simp [f11, g.intake, b.frames], by simp [f11, g.intake, b.stall]⟩,
    sameLink_close (sameLink_of_calm (by rw [f9, g.calm, b.calm])), ⟨by simp [f3, g.cfg, b.cfg],
        by simp [f4, g.pollRun, b.pollRun], by simp [f5, g.clock, b.clock], by simp [f6, g.pending, b.pending]⟩,
        by simp [f16, g.wait],
    fun j hj => by simp [f7, g.lines j hj, b.lines], by simp [f7], by simp [f2], by simp [f15], by simp [f19, z],
        by simp [f18, z], by simp [f17]⟩
  · rw [State.close_results, f12, f13, g.late, b.late, g.results, b.results, ud]
    rw [show v.stamp (.response m.tag m.code .done d) true 1 = (x.performCommand m).close.stamp (.response m.tag m.code .done d) true 1 from
      State.stamp_congr _ _ (by simp [f5]) (by simp [f3]) _ _ _]
    simp
  · obtain ⟨a1, _, a2, a3⟩ := sideways_ne he
    rw [State.close_ctrs _ _ a1 a2 a3, f14 e he, g.ctrs e he, b.ctrs e he]; simp

/-- The work reported of an aborted request (section 11.5). -/
theorem abort_report (l : Line) (x : Txn) (h : l.abortCase.txn = some x) (r : Request) (hr : x.work = .request r) :
    workReport l.abortCase.txn = [1] ++ halfBytes r.tag := by
  rw [h]; simp [workReport, hr]

/-- The work reported of an aborted poll (section 11.5). -/
theorem poll_report (l : Line) (x : Txn) (h : l.abortCase.txn = some x) (id : Fin 128) (k) (hr : x.work = .poll id k) :
    workReport l.abortCase.txn = [2, 0, natByte id.val] := by
  rw [h]; simp [workReport, hr]

/-- A poll aborted: reported by an entry that stays, discarded by a RETIRING one (R26, R82, R87). -/
theorem complete_poll {w : State} {i : Fin 12} {x : Txn} {id : Fin 128} {k : Nat} {p : Poll} (hx : x.work = .poll id k)
    (hp : w.poll id = some p) (hl : p.defn.line = i) (hw : w.pool.waitList = []) (hg : w.granted = []) :
    let u := w.complete i x .aborted
    let f := filledBlocks 11 x.reply.kept.length
    u.line i = { w.line i with hand := none } ∧
    (p.state ≠ .retiring →
      Gone i 0 [.line i .aborted] [w.stamp (.pollResult id i p.pollSeq .aborted p.missed false none []) false 1] w u ∧
      (∀ q, u.poll q = if q = id then some { p with state := .waiting, lastOutcome := some .aborted, missed := 0, suppressed := 0 } else w.poll q) ∧
      u.pool.slotsUsed = w.pool.slotsUsed ∧
      ∀ n, x.reservation = some n → 1 ≤ n → f ≤ n → n - f ≤ w.pool.reserved → f ≤ w.pool.held →
        u.pool.free = w.pool.free + (n - 1) ∧ u.pool.reserved = w.pool.reserved - (n - f) ∧
            u.pool.held + f = w.pool.held + 1) ∧
    (p.state = .retiring →
      Gone i 0 [.line i .aborted] [] w u ∧ (∀ q, u.poll q = if q = id then none else w.poll q) ∧
      u.pool.slotsUsed = w.pool.slotsUsed - 1 ∧
      ∀ n, x.reservation = some n → f ≤ n → n - f ≤ w.pool.reserved → f ≤ w.pool.held →
        u.pool.free = w.pool.free + n ∧ u.pool.reserved = w.pool.reserved - (n - f) ∧ u.pool.held + f = w.pool.held) := by
  subst hl
  intro u f
  obtain ⟨v, hv⟩ : ∃ v, v = (w.modLine p.defn.line (fun l => { l with hand := none })).countOutcome p.defn.line .aborted := ⟨_, rfl⟩
  have e : u = v.pollDone id .aborted x.reply (some (x.reservation.getD 0, f)) := by
    simp only [u, State.complete, hx, hv]; rfl
  obtain ⟨i0, hi0⟩ : ∃ i0, i0 = p.defn.line := ⟨_, rfl⟩
  have fp : Fact ((fun j => j = p.defn.line) p.defn.line) := ⟨rfl⟩
  have T : Touch (fun j => j = p.defn.line) w u := State.touch_complete (Touch.rfl' w) _ x .aborted
  have vb : v = (w.modLine p.defn.line (fun l => { l with hand := none })).bump (.line p.defn.line .aborted) := by rw [hv]; rfl
  have vp : v.poll id = some p := by rw [vb]; simpa using hp
  have vps : ∀ q, v.poll q = w.poll q := by intro q; rw [vb]; simp
  have vl : v.line p.defn.line = { w.line p.defn.line with hand := none } := by rw [vb]; simp
  have vr : v.results = w.results ∧ v.granted = w.granted ∧ v.pool.waitList = w.pool.waitList ∧
      v.pool.slotsUsed = w.pool.slotsUsed ∧ v.pool.free = w.pool.free ∧ v.pool.held = w.pool.held ∧
      v.pool.reserved = w.pool.reserved := by rw [vb]; simp
  have vs : ∀ b q n, v.stamp b q n = w.stamp b q n := by intro b q n; rw [vb]; simp [State.stamp]
  have vc : Counted [.line p.defn.line .aborted] w v := by
    intro d hd
    obtain ⟨a, _, _, _⟩ := sideways_ne hd
    rw [vb]
    by_cases q : d = .line p.defn.line .aborted
    · subst q; simp
    · simp [a, q]
  have nr : ∀ cs, Counted cs v u → (cs = []) → Counted [.line p.defn.line .aborted] w u := fun cs h e => vc.step (e ▸ h)
  have un := State.unserved_nobody (s := v) (by rw [vr.2.2.1, hw]) (max (x.reservation.getD 0) f) 1
  have rd : resultData .aborted x.reply = ([], none) := rfl
  have gone : ∀ {en rs sl b}, Handed p.defn.line id en rs sl [] (x.reservation.getD 0) f b v u →
      Gone p.defn.line 0 [.line p.defn.line .aborted] rs w u ∧
          u.line p.defn.line = { w.line p.defn.line with hand := none } := by
    intro en rs sl b H
    refine ⟨Gone.of_touch T hw hg (H.granted.trans vr.2.1) (H.wait.trans vr.2.2.1) (by rw [H.results, vr.1]) (nr [] (fun d hd => by simpa using H.ctrs d hd) rfl) (by simp), ?_⟩
    have : u.line p.defn.line = v.line p.defn.line := by simp only [State.line, H.lines]
    rw [this, vl]
  by_cases hr : p.state = .retiring
  · have H := State.pollDone_retiring v id p .aborted x.reply (x.reservation.getD 0) f vp hr un
    rw [← e] at H
    refine ⟨(gone H).2, fun h => absurd hr h, fun _ => ⟨(gone H).1, fun q => by rw [H.polls, vps],
        by rw [H.slots, vr.2.2.2.1], fun n hn h1 h2 h3 => ?_⟩⟩
    have := H.books (by rw [hn]; exact h1) (by omega) (by rw [hn, vr.2.2.2.2.2.2]; exact h2)
      (by rw [vr.2.2.2.2.2.1]; exact h3)
    rw [hn, vr.2.2.2.2.1, vr.2.2.2.2.2.1, vr.2.2.2.2.2.2] at this
    simpa using this
  · have rp : p.reports .aborted [] = true := by simp [Poll.reports, Poll.mustReport]
    have ff : p.forcedFlag .aborted [] = false := by simp [Poll.forcedFlag, Poll.mustReport]
    have H := (State.pollDone_handed v id p .aborted x.reply (x.reservation.getD 0) f vp hr [] none rd un).1 rp
    rw [← e, ff, vs] at H
    refine ⟨(gone H).2, fun _ => ⟨(gone H).1, fun q => by rw [H.polls, vps]; rfl, by rw [H.slots, vr.2.2.2.1]; rfl,
        fun n hn h0 h1 h2 h3 => ?_⟩, fun h => absurd h hr⟩
    have b1 : Config.blocksFor (11 + ([] : List Byte).length) = 1 := by decide
    have := H.books (by rw [hn]; exact h1) (by rw [b1, hn]; exact h0)
      (by rw [hn, vr.2.2.2.2.2.2]; exact h2) (by rw [vr.2.2.2.2.2.1]; exact h3)
    rw [hn, vr.2.2.2.2.1, vr.2.2.2.2.2.1, vr.2.2.2.2.2.2, b1] at this
    exact this

/-- LINE_ABORT in the state it acts in, whatever is in hand and whatever is received (R26, R28). -/
theorem aborts {s x a : State} {c : Instr} {m : MgmtRequest} {i : Fin 12} {y : Byte} {k : AbortCase} {ks cs rs d}
    {back filled slots : Nat} {o : Option Unsolicited} (b : Begun s x) (ex : exec c s = finished (x.performCommand m))
    (hc : m.code = 0x12) (hp : m.params = [lineByte i, y]) (hf : FrameDiscarded i cs back filled slots o s)
    (hk : (s.line i).abortCase = k) (hd : workReport k.txn = d) (hl : d.length = 3) (ha : x.abortTxn i k = a)
    (g : Gone i 0 ks rs x a) (ka : ks ⊆ [.line i .aborted])
    (al : (a.line i).queue = (s.line i).queue ∧ (a.line i).listen = (s.line i).listen ∧
      (a.line i).unsolicited = (s.line i).unsolicited)
    (om : ∀ z : State, z.line i = { a.line i with
        queue := if y.getLsbD 0 then [] else (s.line i).queue, unsolicited := o } → z.clock = s.clock →
      State.OnlyLine i z (z.abortMove i k)) :
    let flushed := if y.getLsbD 0 then (s.line i).queue else []
    let queue := if y.getLsbD 0 then [] else (s.line i).queue
    Completes c s (fun t =>
      (t.results = s.results ++ rs ++ refusals i .flushed flushed s ++
        [t.stamp (.response m.tag m.code .done (d ++ [natByte flushed.length])) true 1] ∧
      CountedTimes flushed.length (.line i .requestsRefused) (ks ++ cs) s t ∧ Dispatched m.size s t ∧ SameLink s t ∧
      SameSettings s t ∧ t.pool.waitList = [] ∧ ∀ j, j ≠ i → t.line j = s.line j) ∧
      (∃ z : State, z.line i = { a.line i with queue := queue, unsolicited := o } ∧ z.clock = s.clock ∧
          t.line i = (z.abortMove i k).line i) ∧
      t.polls = a.polls ∧ t.pool.slotsUsed = a.pool.slotsUsed - slots ∧
      (filled ≤ back → back - filled ≤ a.pool.reserved → filled + spareBlocks flushed ≤ a.pool.held →
        t.pool.free = a.pool.free + back + spareBlocks flushed ∧ t.pool.reserved = a.pool.reserved - (back - filled) ∧
        t.pool.held + filled + spareBlocks flushed = a.pool.held)) := by
  intro flushed queue
  have kc : commandOf m.code = some .lineAbort := commandOf_of_code .lineAbort hc
  have bl : m.blocks = 1 := by simp [MgmtRequest.blocks, kc]
  have xl : x.line i = s.line i := b.lines i
  obtain ⟨g, u1, u2, u3, u4⟩ := g.discard hf (fun c hc e => hf.apart.1 (List.mem_singleton.mp (ka e) ▸ hc)) al.2.1 al.2.2
  obtain ⟨w, hw⟩ : ∃ w, w = a.abortUnsolicited i := ⟨_, rfl⟩
  rw [← hw] at g u1 u2 u3 u4
  obtain ⟨q1, q2, q3, q4, q5, q6⟩ := g.flush (y.getLsbD 0)
  obtain ⟨z, hz⟩ : ∃ z, z = if y.getLsbD 0 = true then w.flushQueue i else w := ⟨_, rfl⟩
  rw [← hz] at q1 q2 q3 q4 q5 q6
  have aq : (w.line i).queue = (s.line i).queue := by rw [u1]; exact al.1
  rw [aq] at q1 q2 q6
  rw [u1] at q2
  have zc : z.clock = s.clock := q1.clock.trans b.clock
  have o := om z q2 zc
  have G := q1.only o
  have rc : x.runCommand m = ⟨z.abortMove i k, .done, d ++ [natByte flushed.length]⟩ := by
    simp only [State.runCommand, kc, State.lineAbort, hp]
    have b0 : lineOf (byteAt [lineByte i, y] 0) = some i := lineOf_lineByte i
    have b1 : byteAt [lineByte i, y] 1 = y := rfl
    rw [b0, b1]
    simp only [State.abortLine, State.lineAbortData, xl, hk, ha, hd, hz, hw]
    have : natByte (if y.getLsbD 0 = true then (s.line i).queue.length else 0) = natByte flushed.length := by
      show _ = natByte (if y.getLsbD 0 = true then (s.line i).queue else []).length
      split <;> rfl
    rw [this]; rfl
  have st : refusals i .flushed flushed x = refusals i .flushed flushed s := by
    unfold refusals
    refine List.map_congr_left (fun r _ => State.stamp_congr _ _ b.clock b.cfg _ _ _)
  obtain ⟨t, ht, t1, t2, t3, t4, t5, t6, t7, rest⟩ := tells b ex rc bl (by rw [State.used, List.length_append, hl, List.length_singleton]; decide) G
  obtain ⟨t8, t9, t10, t11, t12, t13⟩ := rest
  refine ⟨t, ht, ⟨?_, t2, t3, t4, t5, t6, t7⟩, ⟨z, q2, zc, t8⟩, by rw [t9, o.polls, q3, u2],
      by rw [t10, o.pool, q4, u3], fun h1 h2 h3 => ?_⟩
  · rw [t1]; rw [← st]; simp only [List.append_assoc]; rfl
  · obtain ⟨v1, v2, v3⟩ := u4 h1 h2 (by omega)
    obtain ⟨e1, e2⟩ := q6 (by show spareBlocks flushed ≤ _; omega)
    have e2 : z.pool.held = w.pool.held - spareBlocks flushed := e2
    have e1 : z.pool.free = w.pool.free + spareBlocks flushed := e1
    rw [t11, t12, t13, o.pool, e1, e2, q5, v1, v2]
    exact ⟨rfl, rfl, by omega⟩

/-- A request aborted (R26, R27). -/
theorem complete_aborted {w : State} {i : Fin 12} {x : Txn} {r : Request} (hx : x.work = .request r)
    (hw : w.pool.waitList = []) :
    let u := w.complete i x .aborted
    let f := filledBlocks 10 x.reply.kept.length
    u.line i = { w.line i with hand := none } ∧
    Gone i 0 [.line i .aborted] [w.stamp (.reply r.tag (lineByte i) .aborted x.attempts none []) r.urgent 1] w u ∧
    u.polls = w.polls ∧ u.pool.slotsUsed = w.pool.slotsUsed ∧
    ∀ n, x.reservation = some n → 1 ≤ n → f ≤ n → n - f ≤ w.pool.reserved → f + payloadBlocks r.payload ≤ w.pool.held →
      u.pool.free = w.pool.free + (n - 1) + payloadBlocks r.payload ∧ u.pool.reserved = w.pool.reserved - (n - f) ∧
      u.pool.held + f + payloadBlocks r.payload = w.pool.held + 1 := by
  intro u f
  obtain ⟨f0, f1, f2, f3, f4, f5, f6, f7, f8, rest⟩ := State.complete_request w i x r .aborted hx (State.unserved_nobody hw _ _)
  obtain ⟨f9, f10, f11, f12, f13, f14, f15, f16⟩ := rest
  have rd : resultData .aborted x.reply = ([], none) := rfl
  have b1 : Config.blocksFor (10 + ([] : List Byte).length) = 1 := by decide
  rw [rd] at f10 f16
  dsimp only at f10 f16
  rw [b1] at f10 f16
  refine ⟨f1, ⟨f4, f5, f6, f7, f8, f9, f2, f11, f0, f13.trans hw, f10, CountedTimes.zero (fun c hc => ?_) (by simp)⟩,
      f3, f12, fun n hn h0 h1 h2 h3 => f16 n hn h1 h0 h2 h3⟩
  by_cases e : c = .line i .aborted
  · subst e; rw [f15 .aborted rfl]; simp
  · rw [f14 c hc (by simp [TxnOutcome.counter, e])]; simp [e]

end Sys2Proof.Machine
end

