-- ==== Sys2Proof/Laws/Link.lean ====
section
/-! SUPPORT. The link going DOWN and UP, and which frame the end of a step starts (R142 to R146, R160). -/

set_option Elab.async false

namespace Sys2Proof.Machine

open Sys2Proof

/-- The end of a step leaves what Allow advertises (R136). -/
@[simp] theorem State.close_allow (v : State) : v.close.allow = v.allow := by
  simp [State.allow, State.freeSlots]

/-- In DOWN with a free transmitter the pending SYNC starts (R142, R160). -/
theorem State.close_sync_free (v : State) (hu : v.trunk.up = false) (hg : v.trunk.goBack = false) (hs : v.trunk.syncPending = true) (ht : v.trunk.tx = none) :
   v.close.trunk = { v.trunk.clearReasons with syncPending := false, ackDelayTimer := none, tx := some { kind := .sync, reject := false, seq := 0, ackSeq := 0, allow := v.allow, payload := syncPayload v.trunk.epoch v.trunk.cause v.trunk.lastAccepted, goBack := false } } := by
  rw [State.close_free v ht hg]
  simp [State.chooseFrame, hu, hs, State.sendSync, State.startFrame, Trunk.clearReasons, State.allow, State.freeSlots]

/-- In DOWN the end of a step only appends to the uplink queue. -/
theorem State.close_uplink_down (v : State) (hu : v.trunk.up = false) : v.uplink <+: v.close.uplink := by
  have : v.goBackEnds.flushLate.trunk.up = false := by simp [hu]
  have e : v.goBackEnds.uplink = v.uplink := by
    unfold State.goBackEnds; dsimp only; split; all_goals split
    all_goals rfl
  unfold State.close State.arbitrate State.chooseFrame
  split
  · simp [hu]
    split
    · simp [State.sendSync, State.startFrame, e]
    · simp [e]
  · simp [e]

/-- Polling deactivated (R70). -/
@[simp] theorem State.deactivate_frame (s : State) : s.deactivate.trunk = s.trunk ∧ s.deactivate.pool = s.pool ∧
    s.deactivate.uplink = s.uplink ∧ s.deactivate.late = s.late ∧ s.deactivate.intake = s.intake ∧
    s.deactivate.cfg = s.cfg ∧ s.deactivate.pollRun = s.pollRun ∧ s.deactivate.clock = s.clock ∧
    s.deactivate.pending = s.pending ∧ s.deactivate.ctrs = s.ctrs ∧ (∀ i,
    s.deactivate.line i = { s.line i with due := [] }) ∧ (∀ id,
    s.deactivate.poll id = (s.poll id).map Poll.idle) := by
  iterate 10 refine And.intro rfl ?_
  exact ⟨fun i => by simp [State.line, State.deactivate], fun id => by simp [State.poll, State.deactivate]⟩

/-- The link goes DOWN: the link's own state (R142). -/
theorem State.linkDown_trunk (s : State) (c : SyncCause) (k : LinkCtr) : (s.linkDown c k).trunk = { s.trunk.clearReasons with
   up := false, linkUpPin := false, epoch := nextEpoch s.trunk.epoch, cause := c, lastAccepted := s.trunk.captured,
       downSince := s.clock, goBack := false, retransmits := [], syncTimer := some (s.clock + s.cfg.syncInterval),
       ackDelayTimer := none, retransmitTimer := none, silenceTimer := none, keepaliveTimer := none,
       syncPending := true, syncAckPending := none } ∧ (s.linkDown c k).uplink = requeued s.trunk.retransmits ++ s.uplink := by
  unfold State.linkDown
  dsimp only
  split <;> simp [State.enterDown, State.endSpace, Trunk.clearReasons, State.timer]

/-- The link goes DOWN: everything else (R142). -/
theorem State.linkDown_rest (s : State) (c : SyncCause) (k : LinkCtr) : SamePool s (s.linkDown c k) ∧
    (s.linkDown c k).intake = s.intake ∧ (s.linkDown c k).cfg = s.cfg ∧ (s.linkDown c k).pollRun = s.pollRun ∧
    (s.linkDown c k).clock = s.clock ∧ (s.linkDown c k).pending = s.pending ∧ (∀ d, d ≠ .pool .eventsMissed →
    (s.linkDown c k).ctrs.read d = if d = .link k then (s.ctrs.read d).inc else s.ctrs.read d) ∧
  (s.pollRun = false → (s.linkDown c k).lines = s.lines ∧ (s.linkDown c k).polls = s.polls) ∧
  (s.pollRun = true →
    (∀ i, (s.linkDown c k).line i = { s.line i with due := [] }) ∧
    ∀ id, (s.linkDown c k).poll id = (s.poll id).map (fun p =>
      { p with state := if p.state = .due then .waiting else p.state, nextDue := none })) := by
  have hc : ∀ d, d ≠ .pool .eventsMissed →
      ((s.endSpace.enterDown c).bump (.link k)).ctrs.read d = if d = .link k then (s.ctrs.read d).inc else s.ctrs.read d := by
    intro d hd
    have e1 : (s.endSpace.enterDown c).ctrs = s.ctrs := rfl
    by_cases h : d = .link k
    · subst h; simp [e1]
    · simp [h, hd, e1]
  unfold State.linkDown SamePool
  dsimp only
  have hr : (s.endSpace.enterDown c).pollRun = s.pollRun := rfl
  cases h : s.pollRun <;> simp [h, hr] <;> simp [State.enterDown, State.endSpace, State.line, State.poll, h]
  · exact hc
  · exact ⟨hc, fun id => rfl⟩

/-- The link goes DOWN, in the words of the statements (R142). -/
theorem State.linkDown_wentDown (s : State) (c : SyncCause) (k : LinkCtr) : WentDown c s (s.linkDown c k).close := by
  obtain ⟨ht, hup⟩ := State.linkDown_trunk s c k
  obtain ⟨r1, r2, r3, r4, r5, r6, _, r7, r8⟩ := State.linkDown_rest s c k
  generalize s.linkDown c k = v at *
  have hu : v.trunk.up = false := by rw [ht]
  have hg : v.trunk.goBack = false := by rw [ht]
  have pre := State.close_uplink_down v hu
  rw [hup] at pre
  unfold SamePool at r1
  have R : SamePool s v.close ∧ v.close.intake = s.intake ∧ v.close.cfg = s.cfg ∧ v.close.pollRun = s.pollRun ∧
      v.close.clock = s.clock ∧
  v.close.pending = s.pending ∧
  (s.pollRun = false → v.close.lines = s.lines ∧ v.close.polls = s.polls) ∧
  (s.pollRun = true →
    (∀ i, v.close.line i = { s.line i with due := [] }) ∧
    ∀ id, v.close.poll id = (s.poll id).map (fun p =>
      { p with state := if p.state = .due then .waiting else p.state, nextDue := none })) := by
    simp only [SamePool, State.close_frame]
    exact ⟨r1, r2, r3, r4, r5, r6, r7, r8⟩
  unfold WentDown
  cases hx : s.trunk.tx with
  | some x =>
    have e := State.close_busy_trunk v (by simp [ht, Trunk.clearReasons, hx]) hg
    rw [e, ht]
    iterate 18 refine And.intro rfl ?_
    exact ⟨pre, by simp [Trunk.clearReasons, hx], R⟩
  | none =>
    have e := State.close_sync_free v hu hg (by rw [ht]) (by simp [ht, Trunk.clearReasons, hx])
    iterate 18 refine And.intro (by first | (rw [e, ht]; rfl) | rw [e]) ?_
    exact ⟨pre, by rw [if_neg (by simp), SyncSent, State.close_allow, e, ht]; rfl, R⟩

/-- In UP with a lone acknowledgement or a keepalive due, some frame starts (R160). -/
theorem State.close_sends (v : State) (hu : v.trunk.up = true) (ht : v.trunk.tx = none) (hr : v.trunk.ackOnly = true ∨ v.trunk.keepaliveDue = true) :
   v.close.trunk.tx.isSome = true ∧ v.close.trunk.keepaliveTimer = some (v.clock + v.cfg.silenceLimit / 4) ∧
       v.close.trunk.ackPending = false ∧ v.close.trunk.ackDelayTimer = none := by
  have gs := (State.goBackEnds_send v).1
  have F := gs.fields
  have rx := gs.rx
  simp only [Trunk.rx, Trunk.mk.injEq] at rx
  have h1 : v.close = v.goBackEnds.flushLate.chooseFrame.flushLate := by
    rw [State.close, State.arbitrate]
    have : v.goBackEnds.flushLate.trunk.tx.isNone = true := by simp [F, ht]
    rw [if_pos this]
  have sf : ∀ (x : State) k q p g, x.trunk.up = true → x.clock = v.clock → x.cfg = v.cfg →
      (x.startFrame k q p g).trunk.tx.isSome = true ∧
      (x.startFrame k q p g).trunk.keepaliveTimer = some (v.clock + v.cfg.silenceLimit / 4) ∧
      (x.startFrame k q p g).trunk.ackPending = false ∧ (x.startFrame k q p g).trunk.ackDelayTimer = none := by
    intro x k q p g h1 h2 h3
    simp [State.startFrame, Trunk.clearReasons, h1, h2, h3, State.timer, LinkConfig.keepalive]
  rw [h1]
  set w := v.goBackEnds.flushLate with hw
  have wu : w.trunk.up = true := by simp [hw, hu]
  have wc : w.clock = v.clock ∧ w.cfg = v.cfg := by simp [hw]
  have wr : w.trunk.ackOnly = true ∨ w.trunk.keepaliveDue = true := by
    simp only [hw, State.flushLate_frame]
    rw [show v.goBackEnds.trunk.ackOnly = v.trunk.ackOnly by tauto,
        show v.goBackEnds.trunk.keepaliveDue = v.trunk.keepaliveDue by tauto]; exact hr
  simp only [State.flushLate_frame]
  unfold State.chooseFrame
  rw [if_pos wu]
  split
  · exact sf _ _ _ _ _ (by simpa using wu) (by simp [wc]) (by simp [wc])
  · have later : ∀ P : State → Prop, P w.sendNew → P w.sendCtrl → P w.sendLater := by
      intro P h1 h2; unfold State.sendLater; split
      · exact h1
      · rw [if_pos (by simpa using wr)]; exact h2
    have L := later (fun x => x.trunk.tx.isSome = true ∧
        x.trunk.keepaliveTimer = some (v.clock + v.cfg.silenceLimit / 4) ∧ x.trunk.ackPending = false ∧
        x.trunk.ackDelayTimer = none) (sf _ _ _ _ _ (by simpa using wu) (by simp [wc]) (by simp [wc])) (sf _ _ _ _ _ (by simpa using wu) (by simp [wc]) (by simp [wc]))
    unfold State.sendUp
    split
    · exact sf _ _ _ _ _ (by simpa using wu) (by simp [wc]) (by simp [wc])
    · split
      · simp only [State.sendGoBack, State.bump_frame]
        exact sf _ _ _ _ _ (by simpa using wu) (by simp [wc]) (by simp [wc])
      · exact L
      · exact L

/-- Replacing the link's registers keeps everything else. -/
theorem State.sameRest_setTrunk (s : State) (t : Trunk) (h : t.retransmits = s.trunk.retransmits) : SameRest s (s.setTrunk t) := by
  have := State.setTrunk_results s t h
  simp [SameRest, SameTables, SamePool, this]

/-- The link's registers once UP (R146). -/
def Trunk.risen (w : State) : Trunk := { w.trunk with
    up := true, linkUpPin := true, syncPending := false, syncTimer := none, upBefore := true,
        silenceTimer := some (w.clock + w.cfg.silenceLimit),
        keepaliveTimer := some (w.clock + w.cfg.silenceLimit / 4) }

/-- Entering UP touches lines only through polling (R146). -/
theorem State.touch_enterUp (w : State) : Touch (fun _ => True) (w.setTrunk (Trunk.risen w)) w.enterUp := by
  unfold State.enterUp
  dsimp only
  have e : (w.setTrunk { w.trunk with
    up := true, linkUpPin := true, syncPending := false, syncTimer := none,
        upBefore := true }).startUpTimers = w.setTrunk (Trunk.risen w) := rfl
  rw [e]
  have k : Touch (fun _ => True) (w.setTrunk (Trunk.risen w)) (if w.trunk.upBefore = true then (w.setTrunk (Trunk.risen w)).raiseEvent .linkRestored 0 (w.setTrunk (Trunk.risen w)).restoredDetail else w.setTrunk (Trunk.risen w)) := by
    split
    · exact State.touch_raiseEvent (Touch.rfl' _) _ _ _
    · exact Touch.rfl' _
  split
  · exact State.touch_activate k (fun _ => trivial)
  · exact k

/-- Entering UP with polling stopped (R146). -/
theorem State.enterUp_still (w : State) (h : w.pollRun = false) : w.enterUp.lines = w.lines ∧
    w.enterUp.polls = w.polls ∧ SamePool w w.enterUp ∧ w.enterUp.results = w.results ∧
   (w.trunk.upBefore = true → w.pool.eventsUsed < 16 → ∃ m,
       w.enterUp.uplink = w.uplink ++ [w.stamp (.event .linkRestored 0 m ((w.trunk.cause.code ++ 0#8) ++
              BitVec.ofNat 16 (min 65535 (w.clock - w.trunk.downSince)))) true 0]) ∧
                  w.enterUp.trunk = Trunk.risen w ∧ w.enterUp.late = w.late := by
  unfold State.enterUp
  dsimp only
  have e : (w.setTrunk { w.trunk with
    up := true, linkUpPin := true, syncPending := false, syncTimer := none,
        upBefore := true }).startUpTimers = w.setTrunk (Trunk.risen w) := rfl
  rw [e]
  have hr : (w.setTrunk (Trunk.risen w)).results = w.results := State.setTrunk_results _ _ rfl
  simp only [h, Bool.false_eq_true, if_false, SamePool]
  split
  next hb =>
    refine ⟨by simp, by simp, by simp, by simp [hr], fun _ hs => ⟨w.pool.missedEvents, ?_⟩, by simp, by simp⟩
    have hd : (w.setTrunk (Trunk.risen w)).restoredDetail = (w.trunk.cause.code ++ 0#8) ++
              BitVec.ofNat 16 (min 65535 (w.clock - w.trunk.downSince)) := by
      have : min 65535 (elapsed w.clock w.trunk.downSince) = min 65535 (w.clock - w.trunk.downSince) := by
        simp [elapsed, Config.longestWait]; omega
      simp only [State.restoredDetail, Trunk.risen, State.trunk_setTrunk, State.clock_setTrunk, this]
    rw [hd]
    simp [State.raiseEvent, State.eventSlotFree, Config.eventSlots, hs, State.eventBody]
    simp [State.stamp]
  next hb =>
    simp [hr, hb]

/-- The registers of a new sequence space (R145). -/
def Trunk.fresh (w : State) : Trunk := { w.trunk with
    nextSeq := 0, peerAck := 0, expectSeq := 0, peerAllow := 0, rejectSent := false, rejectPending := false,
    ackPending := false, anyAccepted := false, expiries := 0, goBack := false }

/-- In UP with a free transmitter a pending SYNC_ACK starts (R144, R160). -/
theorem State.close_syncAck_free (v : State) (e : Byte) (hu : v.trunk.up = true) (hg : v.trunk.goBack = false) (hs : v.trunk.syncAckPending = some e) (ht : v.trunk.tx = none) :
   v.close.trunk = { v.trunk.clearReasons with syncAckPending := none, ackDelayTimer := none, keepaliveTimer := some (v.clock + v.cfg.silenceLimit / 4), tx := some { kind := .syncAck, reject := false, seq := 0, ackSeq := v.trunk.expectSeq, allow := v.allow, payload := syncPayload e v.trunk.cause v.trunk.lastAccepted, goBack := false } } := by
  rw [State.close_free v ht hg]
  simp [State.chooseFrame, hu, hs, State.sendSyncAck, State.startFrame, Trunk.clearReasons, State.allow,
      State.freeSlots, State.timer, LinkConfig.keepalive]

/-- In UP with a free transmitter a CTRL that is due starts (R160). -/
theorem State.close_ctrl_free (v : State) (hu : v.trunk.up = true) (hg : v.trunk.goBack = false) (hs : v.trunk.syncAckPending = none) (hc : v.trunk.ctrlNow = true) (ht : v.trunk.tx = none) :
   v.close.trunk = { v.trunk.clearReasons with ackDelayTimer := none, keepaliveTimer := some (v.clock + v.cfg.silenceLimit / 4), tx := some { kind := .ctrl, reject := v.trunk.rejectPending, seq := 0, ackSeq := v.trunk.expectSeq, allow := v.allow, payload := [], goBack := false } } := by
  rw [State.close_free v ht hg]
  simp [State.chooseFrame, hu, hs, State.sendUp, hc, State.sendCtrl, State.startFrame, Trunk.clearReasons,
      State.allow, State.freeSlots, State.timer, LinkConfig.keepalive]

/-- Records at the end of the stream stay there through the end of the step. -/
theorem State.joinedBehind_of (s v : State) (rs : List Record) (h : s.stream ++ rs <+: v.stream) : JoinedBehind rs s v.close :=
  h.trans ((List.prefix_append _ _).trans (State.close_stream v))

/-- A sequence reset is the new registers and one count (R145). -/
theorem State.sequenceReset_eq (w : State) : (w.sequenceReset).trunk = Trunk.fresh w ∧
    w.sequenceReset = (w.setTrunk (Trunk.fresh w)).bump (.link .resyncs) := by
  constructor
  · simp [State.sequenceReset, Trunk.fresh]
  · rfl

end Sys2Proof.Machine
end

