-- ==== Sys2Proof/Laws/Acknowledge.lean ====
section
/-! SUPPORT. What an acknowledgement does to the retransmit timer, the go-back and the event store (R95, R96, R151, R152, R156), and what a release does to PoolHold (R100). -/

set_option Elab.async false

namespace Sys2Proof.Machine

open Sys2Proof

namespace State

/-- Counting a good frame moves nothing an acknowledgement's release reads. -/
theorem goodFrame_serves {s : State} {f : RxFrame} (h : s.ackServesNone f) : s.goodFrame.ackServesNone f := by
  have e : s.goodFrame.trunk.peerAck = s.trunk.peerAck ∧ s.goodFrame.trunk.nextSeq = s.trunk.nextSeq ∧
      s.goodFrame.trunk.retransmits = s.trunk.retransmits ∧
    s.goodFrame.pool.waitList = s.pool.waitList ∧ s.goodFrame.pool.free = s.pool.free ∧
        s.goodFrame.pool.slotsUsed = s.pool.slotsUsed := by
    unfold goodFrame; dsimp only; split <;> simp
  obtain ⟨e1, e2, e3, e4, e5, e6⟩ := e
  intro hv
  have r : s.goodFrame.released f = s.released f := by simp only [released, e1, e3]
  rw [r]
  exact (h (by simpa only [Trunk.ackValid, e1, e2] using hv)).mono e4 (by omega) (by omega)

/-- What is left of a go-back: a frame to resend, or one of it on the line (R156). -/
theorem goBackEnds_trunk (s : State) : s.goBackEnds.trunk =
    if s.trunk.goBack = true ∧ ¬ (s.trunk.retransmits.any SentFrame.toResend = true ∨ s.trunk.tx.any TxFrame.goBack = true) then
      { s.trunk with
        goBack := false
        retransmitTimer := if s.trunk.retransmits = [] then none else some (s.clock + s.cfg.retransmitTimeout) }
    else s.trunk := by
  unfold goBackEnds timer
  cases h : s.trunk.tx with
  | none => cases g : s.trunk.goBack <;> cases k : s.trunk.retransmits.any SentFrame.toResend <;> simp [g, k]
  | some x =>
    cases g : s.trunk.goBack <;> cases k : s.trunk.retransmits.any SentFrame.toResend <;> cases m : x.goBack <;> simp [g, k, m]

/-- With a frame on the line the end of a step does to the trunk what the end of a go-back does. -/
theorem close_busy_goBack (s : State) (h : s.trunk.tx.isSome = true) : s.close.trunk = s.goBackEnds.trunk := by
  rw [close_busy s h]; simp

/-- The go-back, the retransmit list and the retransmit timer after a valid AckSeq (R151, R155, R156). -/
theorem takeAck_timer (s : State) (f : RxFrame) (hv : s.trunk.ackValid f.ackSeq = true) (hu : s.ackServesNone f) :
    (s.takeAck f.ackSeq).trunk.calm = (s.acked f.ackSeq).goBackEnds.trunk.calm ∧
    (s.takeAck f.ackSeq).clock = s.clock ∧ (s.takeAck f.ackSeq).cfg = s.cfg := by
  obtain ⟨so, cm, _⟩ := releaseFrames (s.trunk.retransmits.take (s.trunk.ackCount f.ackSeq)) (s.acked f.ackSeq) (acked_unserved hu hv)
  unfold takeAck
  generalize (s.trunk.retransmits.take (s.trunk.ackCount f.ackSeq)).foldl releaseFrame (s.acked f.ackSeq) = u at *
  have c1 := so.clock; have c2 := so.cfg
  refine ⟨?_, by rw [(goBackEnds_send u).1.clock, c1]; rfl, by rw [(goBackEnds_send u).1.cfg, c2]; rfl⟩
  have k : ∀ {α : Type} (g : Trunk → α), g u.trunk.calm = g (s.acked f.ackSeq).trunk.calm := fun g => congrArg g cm
  have k1 : u.trunk.goBack = (s.acked f.ackSeq).trunk.goBack := k Trunk.goBack
  have k2 : u.trunk.retransmits = (s.acked f.ackSeq).trunk.retransmits := k Trunk.retransmits
  have k3 : u.trunk.tx = (s.acked f.ackSeq).trunk.tx := k Trunk.tx
  rw [goBackEnds_trunk, goBackEnds_trunk, k1, k2, k3, c1, c2]
  split
  · have := cm
    simp only [Trunk.calm, Trunk.mk.injEq] at this ⊢
    simp_all
  · exact cm

/-- The go-back and the retransmit timer after the header of a frame with a valid AckSeq, to the end of the step (R151, R155,
R156). -/
theorem takeHeader_timer (s : State) (f : RxFrame) (hv : s.trunk.ackValid f.ackSeq = true) (hu : s.ackServesNone f)
    (ht : s.trunk.tx.isSome = true) :
    let left := s.trunk.retransmits.drop (f.ackSeq - s.trunk.peerAck).toNat
    let rejects := f.reject = true ∧ left ≠ []
    let restart := if left = [] then none else some (s.clock + s.cfg.retransmitTimeout)
    let goesOn := left.any SentFrame.toResend = true ∨ s.trunk.tx.any TxFrame.goBack = true
    let t := (s.takeHeader f).close
    (s.trunk.goBack = false → t.trunk.goBack = decide rejects ∧
      t.trunk.retransmits = (if rejects then left.map (fun g => { g with toResend := true }) else left) ∧
      t.trunk.retransmitTimer = (if rejects then none
        else if f.ackSeq = s.trunk.peerAck then s.trunk.retransmitTimer else restart)) ∧
    (s.trunk.goBack = true → goesOn → t.trunk.goBack = true ∧ t.trunk.retransmits = left ∧
      t.trunk.retransmitTimer = if f.ackSeq = s.trunk.peerAck then s.trunk.retransmitTimer else none) ∧
    (s.trunk.goBack = true → ¬ goesOn → f.ackSeq ≠ s.trunk.peerAck → f.reject = false →
      t.trunk.goBack = false ∧ t.trunk.retransmits = left ∧ t.trunk.retransmitTimer = restart) := by
  intro left rejects restart goesOn t
  obtain ⟨w, hw⟩ : ∃ w, w = if f.ackSeq = s.trunk.peerAck then s else s.takeAck f.ackSeq := ⟨_, rfl⟩
  have e : s.takeHeader f = (w.takeAllow f.allow).takeReject f.reject := by simp [takeHeader, hv, hw]
  have W : w.trunk.tx = s.trunk.tx ∧ w.trunk.retransmits = left ∧
      w.clock = s.clock ∧ w.cfg = s.cfg ∧
      (s.trunk.goBack = false → w.trunk.goBack = false ∧
          w.trunk.retransmitTimer = if f.ackSeq = s.trunk.peerAck then s.trunk.retransmitTimer else restart) ∧
      (s.trunk.goBack = true → goesOn → w.trunk.goBack = true ∧
          w.trunk.retransmitTimer = if f.ackSeq = s.trunk.peerAck then s.trunk.retransmitTimer else none) ∧
      (s.trunk.goBack = true → ¬ goesOn → f.ackSeq ≠ s.trunk.peerAck → w.trunk.goBack = false ∧
          w.trunk.retransmitTimer = restart) := by
    by_cases ha : f.ackSeq = s.trunk.peerAck
    · rw [if_pos ha] at hw; subst hw
      have : left = w.trunk.retransmits := by show List.drop _ _ = _; rw [ha]; simp
      refine ⟨rfl, this.symm, rfl, rfl, fun h => ⟨h, by rw [if_pos ha]⟩, fun h _ => ⟨h, by rw [if_pos ha]⟩,
          fun _ _ k => absurd ha k⟩
    · rw [if_neg ha] at hw; subst hw
      obtain ⟨c, c1, c2⟩ := takeAck_timer s f hv hu
      have k : ∀ {α : Type} (g : Trunk → α), g (s.takeAck f.ackSeq).trunk.calm = g (s.acked f.ackSeq).goBackEnds.trunk.calm := fun g => congrArg g c
      have k1 := k Trunk.goBack; have k2 := k Trunk.retransmits; have k3 := k Trunk.tx; have k4 := k Trunk.retransmitTimer
      simp only [Trunk.calm] at k1 k2 k3 k4
      rw [goBackEnds_trunk] at k1 k2 k3 k4
      have al : (s.acked f.ackSeq).trunk = { s.trunk with
          retransmits := left, peerAck := f.ackSeq, expiries := 0
          retransmitTimer := if s.trunk.goBack then none else restart } := by
        unfold acked timer
        simp only [trunk_setTrunk, List.isEmpty_iff]; rfl
      have ac : (s.acked f.ackSeq).clock = s.clock ∧ (s.acked f.ackSeq).cfg = s.cfg := ⟨rfl, rfl⟩
      rw [al, ac.1, ac.2] at k1 k2 k3 k4
      rw [k1, k2, k3, k4, c1, c2]
      refine ⟨by split_ifs <;> rfl, by split_ifs <;> rfl, rfl, rfl, fun h => ?_, fun h g => ?_, fun h g _ => ?_⟩
      · simp [h, ha]
      · rw [if_neg (fun q => q.2 g)]; simp [h, ha]
      · rw [if_pos ⟨h, g⟩]; exact ⟨rfl, rfl⟩
  obtain ⟨w1, w2, w3, w4, w5, w6, w7⟩ := W
  obtain ⟨v, hv'⟩ : ∃ v, v = s.takeHeader f := ⟨_, rfl⟩
  have tv : t = v.close := by rw [hv']
  rw [tv]
  have V : v.trunk = (if w.trunk.goBack = false ∧
      rejects then { w.trunk with peerAllow := countedAllow f.allow, goBack := true, retransmitTimer := none, retransmits := left.map (fun g => { g with toResend := true }) } else { w.trunk with peerAllow := countedAllow f.allow }) ∧ v.clock = w.clock ∧ v.cfg = w.cfg := by
    rw [hv', e]
    unfold takeReject
    by_cases c : w.trunk.goBack = false ∧ rejects
    · have c' : (f.reject && !(w.takeAllow f.allow).trunk.goBack && !(w.takeAllow f.allow).trunk.retransmits.isEmpty) = true := by
        simp only [takeAllow, trunk_setTrunk, w2]; obtain ⟨a, b, d⟩ := c; simp [a, b, d]
      rw [if_pos c', if_pos c]
      simp [startGoBack, takeAllow, w2]
    · have c' : ¬ (f.reject && !(w.takeAllow f.allow).trunk.goBack && !(w.takeAllow f.allow).trunk.retransmits.isEmpty) = true := by
        simp only [takeAllow, trunk_setTrunk, w2]; intro q; apply c; simpa [rejects, and_assoc, and_comm,
            and_left_comm] using q
      rw [if_neg c', if_neg c]
      simp [takeAllow]
  obtain ⟨v1, v2, v3⟩ := V
  have vt : v.trunk.tx.isSome = true := by rw [v1]; split <;> simp [w1, ht]
  rw [close_busy_goBack v vt, goBackEnds_trunk]
  have lm : ∀ l : List SentFrame, l ≠ [] →
      (l.map (fun g => { g with toResend := true })).any SentFrame.toResend = true := by
    intro l hl; cases l with
    | nil => exact absurd rfl hl
    | cons a as => rfl
  refine ⟨fun h => ?_, fun h g => ?_, fun h g ha hr => ?_⟩
  · obtain ⟨a, b⟩ := w5 h
    by_cases r : rejects
    · have : v.trunk = _ := v1.trans (if_pos ⟨a, r⟩)
      rw [this]
      simp only [lm left r.2]
      simp [r]
    · have : v.trunk = _ := v1.trans (if_neg (fun q => r q.2))
      rw [this]
      simp [a, b, r, w2]
  · obtain ⟨a, b⟩ := w6 h g
    have : v.trunk = _ := v1.trans (if_neg (fun q => by rw [a] at q; exact absurd q.1 (by simp)))
    rw [this]
    have g' : left.any SentFrame.toResend = true ∨ w.trunk.tx.any TxFrame.goBack = true := by rw [w1]; exact g
    rw [if_neg (fun q => q.2 (by simpa only [w2] using g'))]
    exact ⟨a, w2, b⟩
  · obtain ⟨a, b⟩ := w7 h g ha
    have : v.trunk = _ := v1.trans (if_neg (fun q => by simp [rejects, hr] at q))
    rw [this]
    rw [if_neg (fun q => by simp [a] at q)]
    exact ⟨a, w2, b⟩

/-- Above LowMark with PoolHold off the test leaves all as it is (R100). -/
theorem testHold_calm (s : State) (h : s.pool.hold = false) (l : s.cfg.lowMark ≤ s.pool.free) : s.testHold = s := by
  unfold testHold; rw [h]; simp; omega

/-- A release above LowMark with PoolHold off moves the counts alone (R100). -/
theorem release_calm (s : State) (a b : Nat) (h : s.pool.hold = false) (l : s.cfg.lowMark ≤ s.pool.free) :
    (s.release a b).pool.hold = false ∧ (s.release a b).pool.eventsUsed = s.pool.eventsUsed ∧
        s.cfg.lowMark ≤ (s.release a b).pool.free ∧
    (s.release a b).uplink = s.uplink ∧ (s.release a b).late = s.late ∧ (s.release a b).trunk = s.trunk ∧
        (s.release a b).ctrs = s.ctrs := by
  unfold release
  split
  · exact ⟨h, rfl, l, rfl, rfl, rfl, rfl⟩
  · unfold freeChanged
    rw [testHold_calm _ (by simpa using h) (by simp; omega)]
    refine ⟨by simpa using h, by simp, by simp; omega, by simp, by simp, by simp, by simp⟩

/-- An acknowledged frame released above LowMark with PoolHold off gives back its event-store slots (R95, R96). -/
theorem releaseFrame_calm (s : State) (f : SentFrame) (h : s.pool.hold = false) (l : s.cfg.lowMark ≤ s.pool.free)
    (hu : s.unserved ((f.records.map Record.blocks).sum) ((f.records.filter (fun r => !r.isEvent)).length)) :
    (s.releaseFrame f).pool.hold = false ∧ (s.releaseFrame f).pool.eventsUsed = s.pool.eventsUsed - (f.records.filter Record.isEvent).length ∧
    s.cfg.lowMark ≤ (s.releaseFrame f).pool.free ∧ (s.releaseFrame f).cfg = s.cfg := by
  have h' : f.records.length - (f.records.filter Record.isEvent).length
      = (f.records.filter (fun r => !r.isEvent)).length := by
    have := List.length_eq_length_filter_add (l := f.records) Record.isEvent
    omega
  unfold releaseFrame
  dsimp only
  rw [hu.grantAll (by simp) (by simp) (by simp [h'])]
  obtain ⟨a, b, c, _⟩ := release_calm ((s.freeRecordSlots (f.records.length - (f.records.filter Record.isEvent).length)).freeEventSlots
    (f.records.filter Record.isEvent).length) 0 (f.records.map Record.blocks).sum (by simpa [freeRecordSlots,
        freeEventSlots] using h) (by simpa [freeRecordSlots, freeEventSlots] using l)
  exact ⟨a, b, c, by simp⟩

/-- Frames released above LowMark with PoolHold off give back their event-store slots (R95, R96). -/
theorem releaseFrames_calm (fs : List SentFrame) (s : State) (h : s.pool.hold = false) (l : s.cfg.lowMark ≤ s.pool.free)
    (hu : s.unserved ((((fs.map SentFrame.records).flatten).map Record.blocks).sum)
      ((((fs.map SentFrame.records).flatten).filter (fun r => !r.isEvent)).length)) :
    (fs.foldl releaseFrame s).pool.hold = false ∧
    (fs.foldl releaseFrame s).pool.eventsUsed = s.pool.eventsUsed - (((fs.map SentFrame.records).flatten).filter Record.isEvent).length := by
  induction fs generalizing s with
  | nil => simp [h]
  | cons f fs ih =>
    simp only [List.map_cons, List.flatten_cons, List.map_append, List.sum_append, List.filter_append,
      List.length_append] at hu ⊢
    have hu1 : s.unserved ((f.records.map Record.blocks).sum) ((f.records.filter (fun r => !r.isEvent)).length) := hu.mono rfl (by omega) (by omega)
    obtain ⟨p, q, q1, _, _, _, _, q6, q7⟩ := releaseFrame_books s f hu1
    obtain ⟨a, b, c, d⟩ := releaseFrame_calm s f h l hu1
    obtain ⟨x, y⟩ := ih (s.releaseFrame f) a (by rw [d]; exact c) (hu.mono q (by omega) (by omega))
    rw [List.foldl_cons, y, b]
    exact ⟨x, by omega⟩

/-- A release that reaches HighMark turns PoolHold off, with its event and Allow's rise (R100, R136, R161). -/
theorem release_recovers (s : State) (b : Nat) (h : s.pool.hold = true) (h1 : 1 ≤ b) (h2 : b ≤ s.pool.held)
    (hh : s.cfg.highMark ≤ s.pool.free + b) (he : s.pool.eventsUsed < 16) :
    (s.release 0 b).pool.hold = false ∧ (s.release 0 b).pool.eventsUsed = s.pool.eventsUsed + 1 ∧
    (s.release 0 b).late = s.late ∧
    (s.release 0 b).uplink = s.uplink ++ [s.stamp (.event .poolRecovered 0 s.pool.missedEvents
      (BitVec.ofNat 16 (s.pool.free + b) ++ BitVec.ofNat 16 s.cfg.highMark)) true 0] ∧
    (s.intake.frames.length < 8 → s.trunk.up = true → (s.release 0 b).trunk.allowRose = true) := by
  have m : min b s.pool.held = b := by omega
  unfold release
  rw [if_neg (by omega)]
  unfold freeChanged testHold
  simp only [pool_setPool, cfg_setPool, h, if_true, m, Nat.zero_min, Nat.add_zero]
  rw [if_pos hh]
  unfold holdOff raiseEvent
  simp only [eventSlotFree, pool_setPool, Config.eventSlots, decide_eq_true_eq, he, if_true]
  by_cases k : s.intake.frames.length < 8
  · have k' : 0 < State.freeSlots s := by unfold freeSlots Config.intakeSlots; omega
    split
    · unfold allowRises
      split
      · refine ⟨rfl, rfl, rfl, rfl, fun _ _ => rfl⟩
      · next g => exact ⟨rfl, rfl, rfl, rfl, fun _ u => absurd u g⟩
    · next g => exact absurd k' g
  · split
    · next g => exact absurd g (by show ¬ 0 < State.freeSlots s; unfold freeSlots Config.intakeSlots; omega)
    · exact ⟨rfl, rfl, rfl, rfl, fun g => absurd g k⟩

/-- The end of a go-back leaves the uplink queue. -/
theorem goBackEnds_uplink (s : State) : s.goBackEnds.uplink = s.uplink := by
  unfold goBackEnds
  dsimp only
  (repeat' split) <;> rfl

/-- The event store, PoolHold and the uplink queue after a valid AckSeq without a Reject, to the end of a step with a frame
on the line (R95, R96, R100, R136, R161). -/
theorem takeHeader_store (s : State) (f : RxFrame) (hv : s.trunk.ackValid f.ackSeq = true) (hu : s.ackServesNone f)
    (ht : s.trunk.tx.isSome = true) (hr : f.reject = false) (hl : s.late = []) (up : s.trunk.up = true) :
    let gone := s.released f
    let blocks := (gone.map Record.blocks).sum
    let events := (gone.filter Record.isEvent).length
    let t := (s.takeHeader f).close
    (s.pool.hold = false → s.cfg.lowMark ≤ s.pool.free → t.pool.hold = false ∧
        t.pool.eventsUsed = s.pool.eventsUsed - events) ∧
    ((f.ackSeq - s.trunk.peerAck).toNat = 1 → s.pool.hold = true → 1 ≤ blocks → blocks ≤ s.pool.held →
      s.cfg.highMark ≤ s.pool.free + blocks → s.pool.eventsUsed - events < 16 →
      t.pool.hold = false ∧ t.pool.eventsUsed = s.pool.eventsUsed - events + 1 ∧
      t.uplink = s.uplink ++ [s.stamp (.event .poolRecovered 0 s.pool.missedEvents
        (BitVec.ofNat 16 (s.pool.free + blocks) ++ BitVec.ofNat 16 s.cfg.highMark)) true 0] ∧
      (s.intake.frames.length < 8 → t.trunk.allowRose = true)) := by
  intro gone blocks events t
  have e : s.takeHeader f = (if f.ackSeq = s.trunk.peerAck then s else s.takeAck f.ackSeq).takeAllow f.allow := by
    simp [takeHeader, hv, takeReject, hr]
  have so := sendOnly_takeHeader s f hu
  have tx : (s.takeHeader f).trunk.tx.isSome = true := by rw [so.fields.2.2.2.2.2.2.2.2.2.2.2.2.2.2.2, ht]
  have cl : t = (s.takeHeader f).goBackEnds.flushLate.flushLate := close_busy _ tx
  have pools : t.pool = (s.takeHeader f).pool := by rw [cl]; simp [(goBackEnds_send _).2.2.1]
  have allows : t.trunk.allowRose = (s.takeHeader f).trunk.allowRose := by rw [cl]; simp [goBackEnds_trunk]; split <;> rfl
  have ups : (s.takeHeader f).late = [] → t.uplink = (s.takeHeader f).uplink := by
    intro h
    have a : (s.takeHeader f).goBackEnds.late = [] := (goBackEnds_stream _).2.trans h
    have b : (s.takeHeader f).goBackEnds.uplink = (s.takeHeader f).uplink := goBackEnds_uplink _
    rw [cl]; simp [flushLate, b, h]
  rw [pools, allows]
  refine ⟨fun h l => ?_, fun a1 h h1 h2 hh he => ?_⟩
  · rw [e]
    split
    · next ha =>
      have : events = 0 := by simp [events, gone, released, ha]
      rw [this]; exact ⟨h, rfl⟩
    · have := releaseFrames_calm (s.trunk.retransmits.take (s.trunk.ackCount f.ackSeq)) (s.acked f.ackSeq) h l (acked_unserved hu hv)
      have q : ∀ v : State, ((v.goBackEnds).takeAllow f.allow).pool = v.pool := fun v => (goBackEnds_send v).2.2.1
      unfold takeAck
      rw [q]; exact this
  · have ne : f.ackSeq ≠ s.trunk.peerAck := by intro q; rw [q] at a1; simp at a1
    rw [if_neg ne] at e
    obtain ⟨g, gs, hg⟩ : ∃ g gs, s.trunk.retransmits = g :: gs := by
      cases hg : s.trunk.retransmits with
      | nil => simp [blocks, gone, released, hg] at h1
      | cons g gs => exact ⟨g, gs, rfl⟩
    have gr : gone = g.records := by simp [gone, released, a1, hg]
    obtain ⟨u, hu'⟩ : ∃ u, u = ((s.acked f.ackSeq).freeRecordSlots (g.records.length - (g.records.filter Record.isEvent).length)).freeEventSlots
      (g.records.filter Record.isEvent).length := ⟨_, rfl⟩
    obtain ⟨r1, r2, r3, r4, r5⟩ := release_recovers u blocks (by rw [hu']; exact h) h1 (by rw [hu']; exact h2) (by rw [hu']; exact hh)
      (by rw [hu']; show s.pool.eventsUsed - _ < 16; rw [← gr]; exact he)
    have ef : (s.takeHeader f) = ((u.release 0 blocks).goBackEnds).takeAllow f.allow := by
      rw [e]; unfold takeAck
      have : s.trunk.ackCount f.ackSeq = 1 := a1
      rw [this, hg]
      have h' : g.records.length - (g.records.filter Record.isEvent).length
        = (g.records.filter (fun r => !r.isEvent)).length := by
        have := List.length_eq_length_filter_add (l := g.records) Record.isEvent
        omega
      have un := acked_unserved hu hv
      rw [this, hg] at un
      simp only [List.take_succ_cons, List.take_zero, List.map_cons, List.map_nil, List.flatten_cons, List.flatten_nil,
          List.append_nil] at un
      show ((releaseFrame (s.acked f.ackSeq) g).goBackEnds).takeAllow f.allow = _
      have : releaseFrame (s.acked f.ackSeq) g = (u.release 0 blocks).grantAll := by unfold releaseFrame; rw [hu']; simp only [blocks, gr]
      rw [this, un.grantAll (by rw [hu']; simp) (by rw [hu']; simp [blocks, gr]) (by rw [hu']; simp [h'])]
    have q1 : ∀ v : State, ((v.goBackEnds).takeAllow f.allow).pool = v.pool := fun v => (goBackEnds_send v).2.2.1
    have q2 : ∀ v : State, ((v.goBackEnds).takeAllow f.allow).late = v.late := fun v => (goBackEnds_stream v).2
    have q3 : ∀ v : State, ((v.goBackEnds).takeAllow f.allow).uplink = v.uplink := fun v => goBackEnds_uplink v
    have q4 : ∀ v : State, ((v.goBackEnds).takeAllow f.allow).trunk.allowRose = v.trunk.allowRose := fun v => by
      simp [takeAllow, goBackEnds_trunk]; split <;> rfl
    rw [ups (by rw [ef, q2, r3, hu']; exact hl), ef, q1, q3, q4, r1, r2, r4]
    refine ⟨rfl, by rw [hu']; simp [gr, events]; rfl, by rw [hu']; rfl,
        fun k => r5 (by rw [hu']; exact k) (by rw [hu']; exact up)⟩

/-- The arbiter starts the retransmit timer with the first frame of the list alone, and ends no go-back (R152, R160). -/
theorem chooseFrame_timer (w : State) : w.chooseFrame.trunk.goBack = w.trunk.goBack ∧
    (w.trunk.retransmits ≠ [] ∨ w.chooseFrame.trunk.retransmits = [] →
      w.chooseFrame.trunk.retransmitTimer = w.trunk.retransmitTimer) := by
  have sf : ∀ (u : State) k q p g, (u.startFrame k q p g).trunk.goBack = u.trunk.goBack ∧
      (u.startFrame k q p g).trunk.retransmitTimer = u.trunk.retransmitTimer := by
    intro u k q p g; simp [startFrame, Trunk.clearReasons]
  have later : w.sendLater.trunk.goBack = w.trunk.goBack ∧
      (w.trunk.retransmits ≠ [] ∨ w.sendLater.trunk.retransmits = [] →
      w.sendLater.trunk.retransmitTimer = w.trunk.retransmitTimer) := by
    unfold sendLater
    split_ifs
    · unfold sendNew
      refine ⟨(sf _ _ _ _ _).1, fun h => (sf _ _ _ _ _).2.trans ?_⟩
      have h : w.trunk.retransmits ≠ [] := h.elim id (fun q => by simp [startFrame, Trunk.clearReasons] at q)
      simp [h]
    · exact ⟨(sf _ _ _ _ _).1, fun _ => (sf _ _ _ _ _).2⟩
    · exact ⟨rfl, fun _ => rfl⟩
  unfold chooseFrame
  split
  · split
    · exact ⟨(sf _ _ _ _ _).1, fun _ => (sf _ _ _ _ _).2⟩
    · unfold sendUp
      split
      · exact ⟨(sf _ _ _ _ _).1, fun _ => (sf _ _ _ _ _).2⟩
      · split
        · unfold sendGoBack
          simp only [bump_frame]
          exact ⟨(sf _ _ _ _ _).1, fun _ => (sf _ _ _ _ _).2⟩
        · exact later
        · exact later
  · split
    · exact ⟨(sf _ _ _ _ _).1, fun _ => (sf _ _ _ _ _).2⟩
    · exact ⟨rfl, fun _ => rfl⟩

end State

end Sys2Proof.Machine
end

