-- ==== Sys2Proof/Laws/Selection.lean ====
section
/-! SUPPORT. How a line takes its next work in hand and starts to send it (R4, R6, R93). -/

set_option Elab.async false

namespace Sys2Proof.Machine

open Sys2Proof

/-- A line that becomes READY starts to send when it is QUIET, else it waits (R6). -/
theorem State.enterReady_moves (s : State) (i : Fin 12) (x : Txn) (h : (s.line i).hand = some x) :
    (s.enterReady i).line i = if (s.line i).listen = .quiet then sendingLine (s.line i) x (s.workBytes x.work)[0]?
      else { s.line i with txn := .ready, lde := false } := by
  rw [State.enterReady_line s i x h]; rfl

/-- Two lines that differ only where sending writes look alike once they send. -/
theorem sendingLine_ext (l m : Line) (x : Txn) (f : Option Byte) (h : { l with txn := .sending, lde := true, hand := none, sent := 0, echoed := 0, deHold := none, deLead := none, charOut := none} = { m with txn := .sending, lde := true, hand := none, sent := 0, echoed := 0, deHold := none, deLead := none, charOut := none}) : sendingLine l x f = sendingLine m x f := by
  cases l; cases m; simp at h; simp [sendingLine, h]

/-- Beside the lines nothing but the pool has moved. -/
structure Quietly (s t : State) : Prop where
  calm : t.trunk.calm = s.trunk.calm
  results : t.results = s.results
  late : t.lateResults = s.lateResults
  ctrs : ∀ c, ¬ c.sideways → t.ctrs.read c = s.ctrs.read c
  total : t.pool.total = s.pool.total

/-- A reservation taken when the blocks are there. -/
theorem State.take_reserved (s : State) (n : Need) (h : n.blocks ≤ s.pool.free) :
    (s.take n .reserved).pool.reserved = s.pool.reserved + n.blocks ∧
        (s.take n .reserved).pool.held = s.pool.held := by
  simp [State.take, Pool.taken, State.freeChanged, h]

/-- A line takes work in hand when the class test passes and nobody waits (R4, R93). -/
theorem State.takeInHand_free (s : State) (i : Fin 12) (w : Work) (hq : s.pool.waitList = []) (hg : s.granted = [])
    (hp : s.pool.passes (w.need (s.line i).applied) = true) :
    let n := w.need (s.line i).applied
    let u := s.takeInHand i w
    u.line i = (if (s.line i).listen = .quiet then sendingLine (s.line i) { Txn.start w with reservation := some n.blocks } (s.workBytes w)[0]?
      else { s.line i with txn := .ready, lde := false, hand := some { Txn.start w with reservation := some n.blocks } }) ∧
    u.pool.free = s.pool.free - n.blocks ∧ u.pool.reserved = s.pool.reserved + n.blocks ∧
        u.pool.slotsUsed = s.pool.slotsUsed + (if n.slot then 1 else 0) ∧ u.pool.waitList = [] ∧
        u.polls = s.polls ∧ Quietly s u ∧ SameOutside i s u ∧ u.granted = [] := by
  intro n u
  obtain ⟨v, hv⟩ : ∃ v, v = (((s.modLine i (fun l => { l.goto .waitSpace with hand := some (Txn.start w) })).take n .reserved).giveReservation i n.blocks) := ⟨_, rfl⟩
  have e : u = v.enterReady i := by
    have : s.grantsNow (w.need (s.line i).applied) = true := by
      simp [State.grantsNow, hq, hp]
    simp only [u, State.takeInHand]
    rw [if_pos this, hv]
  have oe := State.onlyLine_enterReady v i
  have lv : v.line i = { s.line i with txn := .waitSpace, lde := false, hand := some { Txn.start w with reservation := some n.blocks } } := by
    rw [hv]; simp [State.giveReservation, Line.goto, TxnState.drives]
  have wv : v.workBytes w = s.workBytes w := by
    rw [hv]; cases w <;> simp [State.workBytes, State.giveReservation]
  have rl := State.enterReady_moves v i _ (by rw [lv])
  have fr : n.blocks ≤ s.pool.free := State.passes_free hp
  have qv : ∀ c, ¬ c.sideways → v.ctrs.read c = s.ctrs.read c := by
    intro c hc
    rw [hv]
    simp only [State.giveReservation]
    show (State.take _ _ _).ctrs.read c = _
    rw [State.take_quiet _ _ _ _ hc]; rfl
  refine ⟨?_, ?_, ?_, ?_, ?_, ?_, ⟨?_, ?_, ?_, ?_, ?_⟩, ?_, ?_⟩
  · rw [e, rl, lv]
    have : (Txn.start w).work = w := rfl
    dsimp only
    rw [this, wv]
    split
    · exact sendingLine_ext _ _ _ _ rfl
    · rfl
  · rw [e, oe.pool, hv]; simp [State.giveReservation, fr]
  · rw [e, oe.pool, hv]; exact (State.take_reserved _ _ (by exact fr)).1
  · rw [e, oe.pool, hv]; simp [State.giveReservation]
  · rw [e, oe.pool, hv]; simp [State.giveReservation, hq]
  · rw [e, oe.polls, hv]; simp [State.giveReservation]
  · rw [e, oe.trunk, hv]; simp [State.giveReservation]
  · rw [e, oe.results, hv]; simp [State.giveReservation]
  · rw [e, oe.lateResults, hv]; simp [State.giveReservation]
  · intro c hc; rw [e, oe.ctrs, qv c hc]
  · rw [e, oe.pool, hv]
    have k1 := State.take_reserved (s.modLine i (fun l => { l.goto .waitSpace with hand := some (Txn.start w) })) n fr
    simp only [State.pool_modLine] at k1
    simp only [Pool.total, State.giveReservation, State.pool_modLine, k1]
    simp [fr]; omega
  · have : Fact ((fun j => j = i) i) := ⟨rfl⟩
    exact (State.touch_takeInHand (P := fun j => j = i) (Touch.rfl' s) i w).outside (waits_nobody hq hg)
  · rw [e, oe.granted, hv]; simp [State.giveReservation, hg]

/-- An IDLE line selects. -/
theorem State.selectIfIdle_idle (s : State) (i : Fin 12) (h : (s.line i).txn = .idle) : s.selectIfIdle i = s.select i := by
  simp [State.selectIfIdle, h]

/-- The end of a step keeps the settings. -/
theorem State.sameSettings_close (s u : State) (h : SameSettings s u) : SameSettings s u.close := by
  unfold SameSettings at h ⊢; simpa using h

/-- No element qualifies. -/
theorem takeFirst_none {α} (p : α → Bool) (l : List α) (h : ∀ x ∈ l, p x = false) : takeFirst p l = none := by
  induction l with
  | nil => rfl
  | cons a as ih => simp [takeFirst, h a (by simp), ih (fun x hx => h x (by simp [hx]))]

/-- The first element that qualifies is taken out. -/
theorem takeFirst_some {α} (p : α → Bool) (a : List α) (r : α) (b : List α) (h : ∀ x ∈ a,
    p x = false) (hr : p r = true) : takeFirst p (a ++ r :: b) = some (r, a ++ b) := by
  induction a with
  | nil => simp [takeFirst, hr]
  | cons x as ih => simp [takeFirst, h x (by simp), ih (fun y hy => h y (by simp [hy]))]

end Sys2Proof.Machine
end

