-- ==== Sys2Proof/Laws/Activation.lean ====
section
/-! SUPPORT. How polling becomes active: anchors, due lists and the poll selected at once (R56, R69, R72, R75). -/

set_option Elab.async false

namespace Sys2Proof.Machine

open Sys2Proof

namespace State

/-! Polling becomes active (R69). -/

/-- Taking work in hand grants nobody. -/
@[simp] theorem takeInHand_grants (s : State) (i : Fin 12) (w : Work) : (s.takeInHand i w).granted = s.granted := by
  unfold takeInHand
  dsimp only
  split
  · rw [(onlyLine_enterReady _ i).granted]; simp
  · simp [joinWait]

/-- Selection grants nobody. -/
@[simp] theorem selectIfIdle_grants (s : State) (i : Fin 12) : (s.selectIfIdle i).granted = s.granted := by
  unfold selectIfIdle select
  split
  · split
    · rw [takeInHand_grants]; rfl
    · rw [takeInHand_grants]; rfl
    · rfl
  · rfl

/-- An entry that reaches its NextDue grants nobody. -/
@[simp] theorem reachDue_grants (s : State) (id : Fin 128) (p : Poll)
    (n : Nat) : (s.reachDue id p n).granted = s.granted := by
  unfold reachDue
  split
  · split
    · rfl
    · unfold becomeDue; rw [selectIfIdle_grants]; rfl
  all_goals rfl

/-- Polling that becomes active grants nobody. -/
@[simp] theorem activate_grants (s : State) : s.activate.granted = s.granted := by
  have one : ∀ (u : State) id, (u.phaseZero id).granted = u.granted := by
    intro u id; unfold phaseZero; split
    · split
      · exact reachDue_grants _ _ _ _
      · rfl
    · rfl
  have k : ∀ (l : List (Fin 128)) (u : State), (l.foldl phaseZero u).granted = u.granted := by
    intro l
    induction l with
    | nil => exact fun _ => rfl
    | cons a as ih => intro u; rw [List.foldl_cons, ih, one]
  unfold activate; rw [k]

/-- Taking work in hand joins no result. -/
@[simp] theorem takeInHand_results (s : State) (i : Fin 12) (w : Work) : (s.takeInHand i w).results = s.results := by
  unfold takeInHand
  dsimp only
  split
  · rw [(onlyLine_enterReady _ i).results]; simp [giveReservation]
  · simp [joinWait]

/-- Selection adds no result. -/
@[simp] theorem selectIfIdle_results (s : State) (i : Fin 12) : (s.selectIfIdle i).results = s.results := by
  unfold selectIfIdle select
  split
  · split
    · rw [takeInHand_results]; rfl
    · rw [takeInHand_results]; rfl
    · rfl
  · rfl

/-- Polling becoming active joins no result (R69). -/
@[simp] theorem activate_results (s : State) : s.activate.results = s.results := by
  have one : ∀ (u : State) id, (u.phaseZero id).results = u.results := by
    intro u id; unfold phaseZero; split
    · split
      · unfold reachDue
        split
        · split
          · rfl
          · unfold becomeDue; rw [selectIfIdle_results]; rfl
        all_goals rfl
      · rfl
    · rfl
  have k : ∀ (l : List (Fin 128)) (u : State), (l.foldl phaseZero u).results = u.results := by
    intro l
    induction l with
    | nil => exact fun _ => rfl
    | cons a as ih => intro u; rw [List.foldl_cons, ih, one]
  unfold activate; rw [k]; rfl

/-- Entries that fall due at the same reading join in PollId order (R55). -/
theorem dueInsert_last (n : Nat) (id : Fin 128) (l : List (Fin 128)) (h : ∀ k ∈ l, k < id) :
    dueInsert { poll := id, time := n } (l.map (fun k => { poll := k, time := n }))
      = (l ++ [id]).map (fun k => { poll := k, time := n }) := by
  induction l with
  | nil => rfl
  | cons a as ih =>
    have ha : a < id := h a (by simp)
    simp only [List.map_cons, List.cons_append, dueInsert]
    rw [if_neg (by simp; omega), ih (fun k hk => h k (by simp [hk]))]

/-- A WAITING entry that reaches its NextDue falls due, or is skipped on a line out of service (R72, R75). -/
theorem reachDue_waiting (s : State) (id : Fin 128) (p : Poll) (n : Nat) (h : p.state = .waiting) : s.reachDue id p n =
    if (s.line p.defn.line).txn = .offline then s.setPoll id (some (p.moveOn n)) else s.becomeDue id p n := by
  unfold reachDue; rw [h]

/-- An entry that is not WAITING counts an overrun at its NextDue (R73). -/
theorem reachDue_busy (s : State) (id : Fin 128) (p : Poll) (n : Nat) (h : p.state ≠ .waiting) :
    s.reachDue id p n = s.setPoll id (some (p.overrun.moveOn n)) := by
  unfold reachDue; split
  · next e => exact absurd e h
  all_goals rfl

/-- The state in which the entries of `l`, the first of the table, have reached their NextDue. -/
structure Anchored (w : State) (l : List (Fin 128)) (u : State) : Prop where
  poll : ∀ id, u.poll id = if id ∈ l then (w.poll id).map w.anchored else (w.poll id).map (Poll.anchor w.clock)
  line : ∀ i, u.line i = { w.line i with due := (l.filter (w.fallsDue i)).map (fun id => { poll := id, time := w.clock }) }
  clock : u.clock = w.clock
  pool : u.pool = w.pool

/-- One more entry anchored (R69). -/
theorem anchored_step {w u : State} {l : List (Fin 128)} {id : Fin 128} (h : Anchored w l u)
    (hl : ∀ k ∈ l, k < id) (hd : ∀ id p, w.poll id = some p → p.state ≠ .due)
    (hi : ∀ id p, w.poll id = some p → p.defn.phase = 0 → (w.line p.defn.line).txn ≠ .idle) :
    Anchored w (l ++ [id]) (u.phaseZero id) := by
  have nl : id ∉ l := fun q => absurd (hl id q) (by omega)
  have up : u.poll id = (w.poll id).map (Poll.anchor w.clock) := by rw [h.poll, if_neg nl]
  -- an entry that changes alone, with its due list standing
  have one : ∀ v : State, (∀ k, v.poll k = if k = id then (w.poll id).map w.anchored else u.poll k) →
      (∀ i, v.line i = u.line i) →
      v.clock = u.clock → v.pool = u.pool → (∀ i, w.fallsDue i id = false) → Anchored w (l ++ [id]) v := by
    intro v hp hv hc hb hf
    refine ⟨fun k => ?_, fun i => ?_, hc.trans h.clock, hb.trans h.pool⟩
    · rw [hp]
      by_cases hk : k = id
      · subst hk; simp
      · simp [hk, h.poll]
    · rw [hv, h.line]; simp [hf]
  have put : ∀ e : Option Poll, e = (w.poll id).map w.anchored → (∀ i, w.fallsDue i id = false) →
      Anchored w (l ++ [id]) (u.setPoll id e) :=
    fun e he hf => one _ (fun k => by by_cases hk : k = id <;> simp [hk, he]) (fun _ => rfl) rfl rfl hf
  have stay : (w.poll id).map (Poll.anchor w.clock) = (w.poll id).map w.anchored → (∀ i, w.fallsDue i id = false) →
      Anchored w (l ++ [id]) u :=
    fun e hf => one u (fun k => by
      by_cases hk : k = id
      · rw [if_pos hk, hk, up, e]
      · rw [if_neg hk]) (fun _ => rfl) rfl rfl hf
  unfold phaseZero
  rw [up]
  cases hw : w.poll id with
  | none => exact stay (by rw [hw]; rfl) (fun i => by simp [fallsDue, hw])
  | some p =>
    have nd := hd id p hw
    have an : Poll.anchor w.clock p = { p with nextDue := some (w.clock + p.defn.phase * 10) } := by
      simp [Poll.anchor, nd, PollDef.phaseMs]
    simp only [Option.map_some, an]
    by_cases h0 : p.defn.phase = 0
    · rw [if_pos h0]
      have ni := hi id p hw h0
      have lt : (u.line p.defn.line).txn = (w.line p.defn.line).txn := by rw [h.line]
      have ld := h.line p.defn.line
      by_cases hs : p.state = .waiting
      · rw [reachDue_waiting u id _ u.clock (show ({ p with nextDue := some (w.clock + p.defn.phase * 10) } : Poll).state = .waiting from hs)]
        split
        · next ho =>
          have ho : (w.line p.defn.line).txn = .offline := by rw [← lt]; exact ho
          refine put _ ?_ (fun i => ?_)
          · simp [hw, anchored, h0, hs, ho, Poll.moveOn, h.clock, PollDef.periodMs, ahead]
          · simp only [fallsDue, hw, h0, hs]
            by_cases q : p.defn.line = i
            · subst q; simp [ho]
            · simp [q]
        · next ho =>
          have ho : ¬ (w.line p.defn.line).txn = .offline := by rw [← lt]; exact ho
          unfold becomeDue selectIfIdle
          rw [if_neg (by simp only [line_modLine, if_true, line_setPoll, lt]; exact ni)]
          refine ⟨fun k => ?_, fun i => ?_, h.clock, h.pool⟩
          · by_cases hk : k = id
            · subst hk; simp [hw, anchored, h0, hs, ho, Poll.moveOn, h.clock, PollDef.periodMs, ahead]
            · simp [hk, h.poll]
          · have fd : w.fallsDue i id = decide (p.defn.line = i) := by
              simp only [fallsDue, hw, h0, hs]
              by_cases q : p.defn.line = i
              · subst q; simp [ho]
              · simp [q]
            rw [line_modLine]
            by_cases q : p.defn.line = i
            · subst q
              simp only [if_true, line_setPoll, ld, h.clock]
              rw [dueInsert_last w.clock id _ (fun k hk => hl k (List.mem_filter.mp hk).1)]
              simp [fd]
            · rw [if_neg (fun e => q e.symm)]
              simp only [line_setPoll, h.line]
              simp [fd, q]
      · rw [reachDue_busy u id _ u.clock (show ({ p with nextDue := some (w.clock + p.defn.phase * 10) } : Poll).state ≠ .waiting from hs)]
        refine put _ ?_ (fun i => by simp [fallsDue, hw, hs])
        simp [hw, anchored, h0, hs, Poll.moveOn, Poll.overrun, h.clock, PollDef.periodMs, ahead]
    · rw [if_neg h0]
      exact stay (by rw [hw]; simp [an, anchored, h0, ahead]) (fun i => by simp [fallsDue, hw, h0])

/-- Polling becomes active where no line an entry of Phase 0 names is IDLE (R69). -/
theorem activate_anchors (w : State) (hd : ∀ id p, w.poll id = some p → p.state ≠ .due) (hq : ∀ i, (w.line i).due = [])
    (hi : ∀ id p, w.poll id = some p → p.defn.phase = 0 → (w.line p.defn.line).txn ≠ .idle) :
    Anchored w (List.finRange 128) w.activate := by
  have k : ∀ (r l : List (Fin 128)) (u : State), (l ++ r).Pairwise (· < ·) → Anchored w l u →
      Anchored w (l ++ r) (r.foldl phaseZero u) := by
    intro r
    induction r with
    | nil => intro l u _ h; simpa using h
    | cons a as ih =>
      intro l u hp h
      have := ih (l ++ [a]) (u.phaseZero a) (by simpa using hp) (anchored_step h
        (fun k hk => (List.pairwise_append.mp hp).2.2 k hk a (by simp)) hd hi)
      simpa using this
  refine k (List.finRange 128) [] _ (by simpa using List.pairwise_lt_finRange 128) ⟨fun id => ?_, fun i => ?_, rfl, rfl⟩
  · simp [poll]
  · show w.line i = _
    have := hq i
    cases hl : w.line i; rw [hl] at this; simp at this; simp [this]

/-- Entries with a Phase change nothing as polling becomes active, but for their NextDue. -/
theorem phaseZero_stays (l : List (Fin 128)) (u : State) (h : ∀ k ∈ l, ∀ q, u.poll k = some q → q.defn.phase ≠ 0) :
    l.foldl phaseZero u = u := by
  induction l with
  | nil => rfl
  | cons a as ih =>
    have e : u.phaseZero a = u := by
      unfold phaseZero
      cases hp : u.poll a with
      | none => rfl
      | some q => simp [h a (by simp) q hp]
    rw [List.foldl_cons, e]
    exact ih (fun k hk => h k (by simp [hk]))

/-- A poll that falls due on an IDLE line with nothing else to send, its blocks free, is selected at once (R56, R75). -/
theorem becomeDue_selects (s : State) (id : Fin 128) (p : Poll) (d : Nat) (h2 : (s.line p.defn.line).txn = .idle)
    (h3 : (s.line p.defn.line).queue = []) (h4 : (s.line p.defn.line).due = []) (h5 : s.pool.waitList = [])
        (hg : s.granted = [])
    (h6 : Config.blocksFor (11 + (s.line p.defn.line).applied.maxReply) + 16 ≤ s.pool.free)
        (h7 : s.pool.slotsUsed + 9 ≤ 256) :
    let i := p.defn.line
    let l := s.line i
    let n := Config.blocksFor (11 + l.applied.maxReply)
    let x : Txn := { Txn.start (.poll id p.missed) with reservation := some n }
    let u := s.becomeDue id p d
    (∀ k, u.poll k = if k = id then
      some { p with state := .inFlight, pollSeq := p.pollSeq + 1, nextDue := some (d + p.defn.period * 10) } else s.poll k) ∧
    u.line i = (if l.listen = .quiet then sendingLine l x p.defn.request[0]? else { l with txn := .ready, lde := false, hand := some x }) ∧
    u.pool.free = s.pool.free - n ∧ u.pool.reserved = s.pool.reserved + n ∧ u.pool.slotsUsed = s.pool.slotsUsed + 1 ∧
    u.pool.waitList = [] ∧ Quietly s u ∧ SameOutside i s u ∧ u.granted = [] := by
  intro i l n x u
  obtain ⟨w, hw⟩ : ∃ w, w = ((s.setPoll id (some { p with state := .due, nextDue := some (d + p.defn.period * 10) })).modLine i
    (fun l => { l with due := dueInsert { poll := id, time := d } l.due })) := ⟨_, rfl⟩
  have lw : w.line i = { l with due := [{ poll := id, time := d }] } := by
    rw [hw]; simp [l]; show dueInsert _ (s.line p.defn.line).due = _; rw [h4]; rfl
  have e : u = w.select i := by
    have : w.selectIfIdle i = w.select i := selectIfIdle_idle _ _ (by rw [lw]; exact h2)
    rw [← this, hw]; rfl
  have pw : w.poll id = some { p with state := .due, nextDue := some (d + p.defn.period * 10) } := by rw [hw]; simp
  obtain ⟨z, hz⟩ : ∃ z, z = ((w.modLine i (fun l => { l with due := [] })).setPoll id ((w.poll id).map Poll.selected)) := ⟨_, rfl⟩
  have ch : choose (w.line i) w.clock = .poll { poll := id, time := d } [] := by
    rw [lw]; unfold choose; simp only [show l.queue = [] from h3]; simp [takeFirst, chooseAged, chooseDue]
  have se : w.select i = z.takeInHand i (.poll id p.missed) := by
    unfold select; rw [ch]; simp only [hz, pw]; rfl
  rw [e, se]
  have lz : z.line i = l := by rw [hz]; simp [lw]; rw [← show l.due = [] from h4]
  have zq : ∀ k, z.poll k = if k = id then some { p with state := .inFlight, pollSeq := p.pollSeq + 1, nextDue := some (d + p.defn.period * 10) } else s.poll k := by
    intro k
    rw [hz, pw, hw]; by_cases e : k = id
    · subst e; simp [Poll.selected]
    · simp [e]
  have zo : z.pool = s.pool ∧ z.trunk = s.trunk ∧ z.results = s.results ∧ z.lateResults = s.lateResults ∧
      z.ctrs = s.ctrs ∧ z.intake = s.intake ∧ z.cfg = s.cfg ∧ z.pollRun = s.pollRun ∧ z.clock = s.clock ∧
      z.pending = s.pending ∧ z.granted = s.granted ∧ ∀ j, j ≠ i → z.line j = s.line j := by
    rw [hz, hw]; refine ⟨rfl, rfl, by simp, rfl, rfl, rfl, rfl, rfl, rfl, rfl, rfl, fun j hj => by simp [hj]⟩
  clear hz hw
  obtain ⟨o1, o2, o3, o4, o5, o6, o7, o8, o9, o10, o12, o11⟩ := zo
  have nd : (Work.poll id p.missed).need (z.line i).applied = { blocks := n, slot := true, cls := .line } := by rw [lz]; rfl
  have pp : z.pool.passes ((Work.poll id p.missed).need (z.line i).applied) = true := by
    rw [nd, passes_iff]; rw [o1]; exact ⟨h6, fun _ => by omega⟩
  have k := takeInHand_free z i (.poll id p.missed) (by rw [o1, h5]) (by rw [o12, hg]) pp
  dsimp only at k
  rw [nd] at k
  obtain ⟨k1, k2, k3, k4, k5, k6, k7, k8, k9⟩ := k
  have kp : ∀ k, (z.takeInHand i (.poll id p.missed)).poll k = z.poll k := by intro k; simp only [poll, k6]
  obtain ⟨c1, c2, c3, c4, c5, c6⟩ := k8
  have wb : (z.workBytes (.poll id p.missed)) = p.defn.request := by simp [workBytes, zq]
  refine ⟨fun k => by rw [kp, zq], ?_, by rw [k2, o1], by rw [k3, o1], by rw [k4, o1]; rfl, k5,
      ⟨by rw [k7.calm, o2], by rw [k7.results, o3], by rw [k7.late, o4], fun c hc => by rw [k7.ctrs c hc, o5],
      by rw [k7.total, o1]⟩,
    ⟨fun j hj => by rw [c1 j hj, o11 j hj], c2.trans o6, c3.trans o7, c4.trans o8, c5.trans o9, c6.trans o10⟩, k9⟩
  rw [k1, lz, wb]

/-- Polling becomes active where one entry alone has Phase 0 and is WAITING: it falls due (R69). -/
theorem activate_one (w : State) (id : Fin 128) (p : Poll) (hp : w.poll id = some p) (h0 : p.defn.phase = 0)
    (hs : p.state = .waiting)
    (hu : ∀ k q, w.poll k = some q → q.defn.phase = 0 → k = id) (ho : (w.line p.defn.line).txn = .idle)
    (hq : ∀ (z : State) d, z.line p.defn.line = w.line p.defn.line → z.pool = w.pool → z.granted = w.granted →
        (∀ k, k ≠ id → (z.becomeDue id { p with nextDue := some w.clock } d).poll k = z.poll k)) :
    w.activate = (({ w with polls := mapVec (fun e => e.map (Poll.anchor w.clock)) w.polls } : State).becomeDue id { p with nextDue := some w.clock } w.clock) := by
  obtain ⟨a, ha⟩ : ∃ a : State, a = { w with polls := mapVec (fun e => e.map (Poll.anchor w.clock)) w.polls } := ⟨_, rfl⟩
  have ap : ∀ k, a.poll k = (w.poll k).map (Poll.anchor w.clock) := fun k => by rw [ha]; simp [poll]
  obtain ⟨l, r, hlr⟩ := List.append_of_mem (List.mem_finRange id)
  have nd : (l ++ id :: r).Nodup := hlr ▸ List.nodup_finRange 128
  have an : Poll.anchor w.clock p = { p with nextDue := some w.clock } := by simp [Poll.anchor, hs, PollDef.phaseMs, h0]
  have off : ∀ k, k ≠ id → ∀ q, a.poll k = some q → q.defn.phase ≠ 0 := by
    intro k hk q hkq h
    rw [ap] at hkq
    cases hw : w.poll k with
    | none => rw [hw] at hkq; cases hkq
    | some q' =>
      rw [hw] at hkq
      have : q.defn = q'.defn := by
        have := Option.some.inj hkq; rw [← this]; unfold Poll.anchor; split <;> rfl
      exact hk (hu k q' hw (by rw [← this]; exact h))
  have e : w.activate = (List.finRange 128).foldl phaseZero a := by rw [ha]; rfl
  rw [e, hlr, List.foldl_append, phaseZero_stays l a (fun k hk => off k (by
    rintro rfl
    exact (List.nodup_append.mp nd).2.2 k hk k (by simp) rfl)), List.foldl_cons]
  have st : a.phaseZero id = a.becomeDue id { p with nextDue := some w.clock } w.clock := by
    unfold phaseZero
    rw [ap, hp]
    simp only [Option.map_some, an, h0, if_true]
    rw [reachDue_waiting a id _ a.clock (show ({ p with nextDue := some w.clock } : Poll).state = .waiting from hs),
        if_neg (by
      show ¬ (a.line p.defn.line).txn = .offline
      have : a.line p.defn.line = w.line p.defn.line := by rw [ha]; rfl
      rw [this, ho]; decide)]
    have : a.clock = w.clock := by rw [ha]
    rw [this]
  rw [st, ← ha]
  refine phaseZero_stays r _ (fun k hk => ?_)
  have hk' : k ≠ id := by
    rintro rfl
    exact ((List.nodup_cons.mp (List.nodup_append.mp nd).2.1).1) hk
  rw [hq a w.clock (by rw [ha]; rfl) (by rw [ha]) (by rw [ha]) k hk']
  exact off k hk'

/-- What `Activated` says of `t` holds of the state in which polling has become active, where lines, entries, clock and pool
were those of `s` before (R69). -/
theorem activate_activated {s w t : State} (hl : ∀ i, w.line i = s.line i) (hp : ∀ id, w.poll id = s.poll id)
    (hc : w.clock = s.clock)
    (hb : w.pool.waitList = s.pool.waitList) (hf : s.pool.free ≤ w.pool.free + 1) (hr : w.pool.reserved = s.pool.reserved)
    (hk : w.pool.slotsUsed ≤ s.pool.slotsUsed + 1) (hg : w.granted = []) (tl : ∀ i, t.line i = w.activate.line i)
    (tp : ∀ id, t.poll id = w.activate.poll id) (tr : t.pool.reserved = w.activate.pool.reserved) : Activated s t := by
  intro nd hq
  refine ⟨fun hi => ?_, ?_⟩
  · have A := activate_anchors w (fun id p h => nd id p (by rw [← hp]; exact h)) (fun i => by rw [hl]; exact hq i)
      (fun id p h h0 => by rw [hl]; exact hi id p (by rw [← hp]; exact h) h0)
    have an : w.anchored = s.anchored := by
      funext p; simp only [anchored, ahead, hc, hl]
    have fd : ∀ i, w.fallsDue i = s.fallsDue i := by
      intro i; funext id; simp only [fallsDue, hp, hl]
    refine ⟨fun id => ?_, fun i => ?_⟩
    · rw [tp, A.poll, if_pos (List.mem_finRange _), hp, an]
    · rw [tl, A.line, hl, fd, hc]
  · intro id p hid h0 hs hu l n ho hlq hqe hw hfr hsl
    obtain ⟨a, ha⟩ : ∃ a : State, a = { w with polls := mapVec (fun e => e.map (Poll.anchor w.clock)) w.polls } := ⟨_,
        rfl⟩
    have al : ∀ i, a.line i = s.line i := fun i => by rw [ha]; exact hl i
    have key : ∀ (z : State) d, z.line p.defn.line = w.line p.defn.line → z.pool = w.pool → z.granted = w.granted →
        _ := fun z d zl zp zg =>
      becomeDue_selects z id { p with nextDue := some w.clock } d (by rw [show ({ p with nextDue := some w.clock } : Poll).defn = p.defn from rfl, zl, hl]; exact ho) (by show (z.line p.defn.line).queue = []; rw [zl, hl]; exact hqe)
        (by show (z.line p.defn.line).due = []; rw [zl, hl]; exact hq _) (by rw [zp, hb, hw]) (by rw [zg, hg])
        (by show Config.blocksFor (11 + (z.line p.defn.line).applied.maxReply) + 16 ≤ _; rw [zl, hl,
            zp]; show n + 16 ≤ _; omega) (by rw [zp]; omega)
    have e := activate_one w id p (by rw [hp]; exact hid) h0 hs (fun k q h => hu k q (by rw [← hp]; exact h)) (by rw [hl]; exact ho)
      (fun z d zl zp zg k hk' => by rw [(key z d zl zp zg).1 k, if_neg hk'])
    rw [← ha] at e
    obtain ⟨b1, b2, b3, b4, b5, b6, b7, b8, b9⟩ := key a w.clock (by rw [ha]; rfl) (by rw [ha]) (by rw [ha])
    rw [← e] at b1 b2 b4 b8
    refine ⟨fun k hk' => ?_, ?_, ?_, fun j hj => ?_, ?_⟩
    · rw [tp, b1, if_neg hk']
      have : a.poll k = (w.poll k).map (Poll.anchor w.clock) := by rw [ha]; simp [poll]
      rw [this, hp]
      cases hk2 : s.poll k with
      | none => rfl
      | some q =>
        have n0 : q.defn.phase ≠ 0 := fun h => hk' (hu k q hk2 h)
        simp [Poll.anchor, nd k q hk2, anchored, n0, ahead, hc, PollDef.phaseMs]
    · rw [tp, b1, if_pos rfl]; simp only [ahead, hc]
    · rw [tl]
      have : (a.line p.defn.line) = l := al _
      simp only [this] at b2
      rw [b2, if_pos hlq]
    · rw [tl, b8.1 j hj, al]
    · rw [tr, b4, al]
      have : a.pool.reserved = s.pool.reserved := by rw [ha]; exact hr
      rw [this]

end State

end Sys2Proof.Machine
end

