-- ==== Sys2Proof/Laws/OnTime.lean ====
section
/-! SUPPORT. The timebase: what a step on an empty queue takes, and that a millisecond leaves no deadline behind (R208). -/

set_option Elab.async false

namespace Sys2Proof.Machine

open Sys2Proof

/-- The timers that a frame's transmission or a go-back's end starts run at least a millisecond (R171). -/
theorem LinkConfig.timers_of_inRange {c : LinkConfig} (h : c.inRange = true) : 1 ≤ c.keepalive ∧ 1 ≤ c.retransmitTimeout := by
  simp [LinkConfig.inRange, LinkConfig.keepalive] at h ⊢
  omega

/-- The timers that the end of a step may start or stop. -/
def Trunk.endTimers (n : Nat) (v : Trunk) : Prop :=
  notPast n v.retransmitTimer ∧ notPast n v.keepaliveTimer ∧ notPast n v.ackDelayTimer

namespace State

/-- The start of a frame's transmission starts no timer that expires at once. -/
theorem endTimers_startFrame {s : State} (k : FrameKind) (q : Seq) (p : List Byte) (g : Bool)
    (hc : s.cfg.inRange = true) (h : s.trunk.endTimers (s.clock + 1)) :
    (s.startFrame k q p g).trunk.endTimers (s.clock + 1) := by
  obtain ⟨a, b, _⟩ := h
  have := LinkConfig.timers_of_inRange hc
  simp only [startFrame, Trunk.endTimers, bump_frame, trunk_setTrunk, Trunk.clearReasons, timer]
  refine ⟨a, ?_, notPast_none _⟩
  split
  · simp; omega
  · exact b

/-- Nor does the arbiter's choice. -/
theorem endTimers_arbitrate {s : State} (hc : s.cfg.inRange = true) (h : s.trunk.endTimers (s.clock + 1)) :
    s.arbitrate.trunk.endTimers (s.clock + 1) := by
  have t := LinkConfig.timers_of_inRange hc
  have start : ∀ (u : State) k q p g, u.clock = s.clock → u.cfg = s.cfg → u.trunk.endTimers (s.clock + 1) →
      (u.startFrame k q p g).trunk.endTimers (s.clock + 1) := by
    intro u k q p g a b e
    rw [← a] at e ⊢
    exact endTimers_startFrame k q p g (b ▸ hc) e
  have new : s.sendNew.trunk.endTimers (s.clock + 1) := by
    refine start _ _ _ _ _ rfl rfl ⟨?_, h.2⟩
    show notPast _ (if _ then _ else _)
    split
    · simp [timer]; omega
    · exact h.1
  have later : s.sendLater.trunk.endTimers (s.clock + 1) := by
    unfold sendLater
    split_ifs
    · exact new
    · exact start s _ _ _ _ rfl rfl h
    · exact h
  have again : ∀ f, (s.sendGoBack f).trunk.endTimers (s.clock + 1) := by
    intro f
    have := start (s.setTrunk { s.trunk with retransmits := resendNext s.trunk.retransmits }) .data f.seq
      (payloadOf f.records) true rfl rfl h
    simpa [sendGoBack] using this
  have up : s.sendUp.trunk.endTimers (s.clock + 1) := by
    unfold sendUp
    split
    · exact start s _ _ _ _ rfl rfl h
    · split
      · exact again _
      · exact later
      · exact later
  unfold arbitrate chooseFrame
  split
  · split
    · split
      · exact start _ _ _ _ _ rfl rfl h
      · exact up
    · split
      · exact start _ _ _ _ _ rfl rfl h
      · exact h
  · exact h

/-- Nor the end of a go-back. -/
theorem endTimers_goBackEnds {s : State} (hc : s.cfg.inRange = true) (h : s.trunk.endTimers (s.clock + 1)) :
    s.goBackEnds.trunk.endTimers (s.clock + 1) := by
  have t := LinkConfig.timers_of_inRange hc
  unfold goBackEnds
  dsimp only
  (repeat' split) <;>
    first
    | exact h
    | exact ⟨notPast_none _, h.2⟩
    | exact ⟨by simp [timer]; omega, h.2⟩

/-- With every deadline ahead, none lies behind after a millisecond (R208). -/
theorem tick_onTime {s : State} (hc : s.cfg.inRange = true) (h : ∀ c d, s.deadlineOf c = some d → s.clock < d) :
    s.tick.onTime := by
  have a : ∀ c, notPast (s.clock + 1) (s.deadlineOf c) := fun c d e => h c d e
  have e := endTimers_goBackEnds hc ⟨a .retransmitTimerExpiry, a .keepaliveTimerExpiry, a .ackDelayTimerExpiry⟩
  have f : s.close.trunk.endTimers (s.clock + 1) := by
    have := endTimers_arbitrate (s := s.goBackEnds.flushLate) (by simpa using hc) (by simpa using e)
    simpa [close] using this
  intro c
  have k : s.tick.clock = s.clock + 1 := by simp [tick]
  rw [k]
  cases c
  case syncTimerExpiry => have := a .syncTimerExpiry; simpa [deadlineOf, tick] using this
  case silenceTimerExpiry => have := a .silenceTimerExpiry; simpa [deadlineOf, tick] using this
  case retransmitTimerExpiry => exact f.1
  case keepaliveTimerExpiry => exact f.2.1
  case ackDelayTimerExpiry => exact f.2.2
  case holdTimerExpiry => have := a .holdTimerExpiry; simpa [deadlineOf, tick] using this
  case guardEnd i => have := a (.guardEnd i); simpa [deadlineOf, tick, line] using this
  case replyWindowExpiry i => have := a (.replyWindowExpiry i); simpa [deadlineOf, tick, line] using this
  case nextDueReached p => have := a (.nextDueReached p); simpa [deadlineOf, tick, poll] using this
  all_goals exact notPast_none _

/-- The expiry a step takes on an empty queue has its deadline reached. -/
theorem dueExpiry_some {s : State} {c : Instr} (h : s.dueExpiry = some c) : ∃ d, s.deadlineOf c = some d ∧ d ≤ s.clock := by
  have := List.find?_some h
  unfold expired at this
  split at this
  next d e => exact ⟨d, e, by simpa using this⟩
  next => cases this

/-- Where a step takes none, every deadline is ahead. -/
theorem dueExpiry_none {s : State} (h : s.dueExpiry = none) (c : Instr) (d : Nat) (e : s.deadlineOf c = some d) :
    s.clock < d := by
  have m : c ∈ expiries := by
    cases c <;> first | (cases e) | (simp [expiries])
  have := List.find?_eq_none.mp h c m
  simpa [expired, e] using this

end State

end Sys2Proof.Machine
end

