-- ==== Sys2Proof/WellFormed.lean ====
section
/-! DEFINITION. Which commands are well formed: a frame command carries the bytes of a frame of its own row. An
out-of-range line or PollId cannot be written at all (`Fin`). -/

namespace Sys2Proof

/-- The bytes fail a check of R140. -/
def failsChecks (b : List Byte) : Bool :=
  match Machine.checkFrame b with
  | .malformed => true
  | .crcError => true
  | .good _ => false

/-- The command is one its row describes. -/
def Instr.wf : Instr → Bool
  | .coldStart => true
  | .dataFrame b => (Machine.frameOf .data b).isSome
  | .ctrlFrame b => (Machine.frameOf .ctrl b).isSome
  | .sync b => (Machine.frameOf .sync b).isSome
  | .syncAck b => (Machine.frameOf .syncAck b).isSome
  | .badFrame b => failsChecks b
  | .frameTransmitted => true
  | .syncTimerExpiry => true
  | .silenceTimerExpiry => true
  | .retransmitTimerExpiry => true
  | .keepaliveTimerExpiry => true
  | .ackDelayTimerExpiry => true
  | .holdTimerExpiry => true
  | .delayDeadlineReached => true
  | .nextDueReached _ => true
  | .waitListGrant => true
  | .deleadEnd _ => true
  | .characterSent _ => true
  | .deholdEnd _ => true
  | .echoDeadline _ => true
  | .startBit _ => true
  | .characterComplete _ _ _ _ => true
  | .breakStart _ => true
  | .breakEnd _ => true
  | .postBreakIdleEnd _ => true
  | .gapCountEnd _ => true
  | .replyWindowExpiry _ => true
  | .guardEnd _ => true
  | .lineRequest => true
  | .malformedRecord => true
  | .badCommand => true
  | .identify => true
  | .linkConfig => true
  | .linkRead => true
  | .lineConfig => true
  | .lineRead => true
  | .lineAbort => true
  | .knownSet => true
  | .pollSet => true
  | .pollClear => true
  | .pollRead => true
  | .pollRun => true
  | .counterRead => true
  | .restart => true
  | .echo => true
  | .returnToMark _ => true

end Sys2Proof
end

