-- ==== Sys2Proof/Laws/PerInstr.lean ====
section
/-! SUPPORT. Per command: only a command that carries a frame can be ill formed. -/

namespace Sys2Proof.Laws.FrameForm

/-- The bytes a command carries, where it carries a frame. -/
def frameBytes : Instr → Option (List Byte)
  | .dataFrame b => some b
  | .ctrlFrame b => some b
  | .sync b => some b
  | .syncAck b => some b
  | .badFrame b => some b
  | _ => none

/-- A command that carries no frame is well formed. -/
def Statement (i : Instr) : Prop := frameBytes i = none → i.wf = true

theorem coldStart : Statement .coldStart := fun _ => rfl
theorem dataFrame (bytes : List Byte) : Statement (.dataFrame bytes) := fun h => nomatch h
theorem ctrlFrame (bytes : List Byte) : Statement (.ctrlFrame bytes) := fun h => nomatch h
theorem sync (bytes : List Byte) : Statement (.sync bytes) := fun h => nomatch h
theorem syncAck (bytes : List Byte) : Statement (.syncAck bytes) := fun h => nomatch h
theorem badFrame (bytes : List Byte) : Statement (.badFrame bytes) := fun h => nomatch h
theorem frameTransmitted : Statement .frameTransmitted := fun _ => rfl
theorem syncTimerExpiry : Statement .syncTimerExpiry := fun _ => rfl
theorem silenceTimerExpiry : Statement .silenceTimerExpiry := fun _ => rfl
theorem retransmitTimerExpiry : Statement .retransmitTimerExpiry := fun _ => rfl
theorem keepaliveTimerExpiry : Statement .keepaliveTimerExpiry := fun _ => rfl
theorem ackDelayTimerExpiry : Statement .ackDelayTimerExpiry := fun _ => rfl
theorem holdTimerExpiry : Statement .holdTimerExpiry := fun _ => rfl
theorem delayDeadlineReached : Statement .delayDeadlineReached := fun _ => rfl
theorem nextDueReached (poll : Fin 128) : Statement (.nextDueReached poll) := fun _ => rfl
theorem waitListGrant : Statement .waitListGrant := fun _ => rfl
theorem deleadEnd (line : Fin 12) : Statement (.deleadEnd line) := fun _ => rfl
theorem characterSent (line : Fin 12) : Statement (.characterSent line) := fun _ => rfl
theorem deholdEnd (line : Fin 12) : Statement (.deholdEnd line) := fun _ => rfl
theorem echoDeadline (line : Fin 12) : Statement (.echoDeadline line) := fun _ => rfl
theorem startBit (line : Fin 12) : Statement (.startBit line) := fun _ => rfl
theorem characterComplete (line : Fin 12) (data : Byte) (parity stop : Bool) : Statement (.characterComplete line data parity stop) := fun _ => rfl
theorem breakStart (line : Fin 12) : Statement (.breakStart line) := fun _ => rfl
theorem breakEnd (line : Fin 12) : Statement (.breakEnd line) := fun _ => rfl
theorem postBreakIdleEnd (line : Fin 12) : Statement (.postBreakIdleEnd line) := fun _ => rfl
theorem gapCountEnd (line : Fin 12) : Statement (.gapCountEnd line) := fun _ => rfl
theorem replyWindowExpiry (line : Fin 12) : Statement (.replyWindowExpiry line) := fun _ => rfl
theorem guardEnd (line : Fin 12) : Statement (.guardEnd line) := fun _ => rfl
theorem lineRequest : Statement .lineRequest := fun _ => rfl
theorem malformedRecord : Statement .malformedRecord := fun _ => rfl
theorem badCommand : Statement .badCommand := fun _ => rfl
theorem identify : Statement .identify := fun _ => rfl
theorem linkConfig : Statement .linkConfig := fun _ => rfl
theorem linkRead : Statement .linkRead := fun _ => rfl
theorem lineConfig : Statement .lineConfig := fun _ => rfl
theorem lineRead : Statement .lineRead := fun _ => rfl
theorem lineAbort : Statement .lineAbort := fun _ => rfl
theorem knownSet : Statement .knownSet := fun _ => rfl
theorem pollSet : Statement .pollSet := fun _ => rfl
theorem pollClear : Statement .pollClear := fun _ => rfl
theorem pollRead : Statement .pollRead := fun _ => rfl
theorem pollRun : Statement .pollRun := fun _ => rfl
theorem counterRead : Statement .counterRead := fun _ => rfl
theorem restart : Statement .restart := fun _ => rfl
theorem echo : Statement .echo := fun _ => rfl
theorem returnToMark (line : Fin 12) : Statement (.returnToMark line) := fun _ => rfl

end Sys2Proof.Laws.FrameForm
end

