-- ==== Sys2Proof/Laws/Performing.lean ====
section
/-! SUPPORT. The execution of a management command does not depend on what stands stalled at the intake unit, and leaves that unit (R124, R129). -/

set_option Elab.async false

namespace Sys2Proof.Machine

open Sys2Proof

namespace State

/-- The state with the intake unit as it is in `k`, nobody granted. -/
def put (k : Intake) (s : State) : State := (s.setIntake k).setGranted []

/-- An event is lost whoever stands at the intake. -/
theorem put_loseEvent (k : Intake) (s : State) : (s.put k).loseEvent = s.loseEvent.put k := by
  unfold loseEvent
  by_cases c : (s.ctrs.read (.pool .eventsMissed)).crosses = true
  · rw [if_pos c, if_pos (show ((s.put k).ctrs.read (.pool .eventsMissed)).crosses = true from c)]; rfl
  · rw [if_neg c, if_neg (show ¬ ((s.put k).ctrs.read (.pool .eventsMissed)).crosses = true from c)]; rfl

/-- An event is raised whoever stands at the intake. -/
theorem put_raiseEvent (k : Intake) (s : State) (e : EventKind) (l : Byte) (d : BitVec 32) :
    (s.put k).raiseEvent e l d = (s.raiseEvent e l d).put k := by
  unfold raiseEvent
  by_cases c : s.eventSlotFree = true
  · rw [if_pos c, if_pos (show (s.put k).eventSlotFree = true from c)]; rfl
  · rw [if_neg c, if_neg (show ¬ (s.put k).eventSlotFree = true from c)]; exact put_loseEvent k s

/-- A COUNTER_HALF is raised whoever stands at the intake. -/
theorem put_raiseHalf (k : Intake) (s : State) (d : CtrId) : (s.put k).raiseHalf d = (s.raiseHalf d).put k := by
  unfold raiseHalf
  by_cases c : s.eventSlotFree = true
  · rw [if_pos c, if_pos (show (s.put k).eventSlotFree = true from c)]; rfl
  · rw [if_neg c, if_neg (show ¬ (s.put k).eventSlotFree = true from c)]; exact put_loseEvent k s

/-- A counter rises whoever stands at the intake. -/
theorem put_bump (k : Intake) (s : State) (d : CtrId) : (s.put k).bump d = (s.bump d).put k := by
  unfold bump
  dsimp only
  by_cases c : (s.ctrs.read d).crosses = true
  · rw [if_pos c, if_pos (show ((s.put k).ctrs.read d).crosses = true from c)]; exact put_raiseHalf k (s.setCtrs (s.ctrs.write d (s.ctrs.read d).inc)) d
  · rw [if_neg c, if_neg (show ¬ ((s.put k).ctrs.read d).crosses = true from c)]; rfl

/-- The test of PoolHold sees of the intake unit its frames alone (R100, R161). -/
theorem put_freeChanged (k : Intake) (s : State)
    (hk : k.frames = s.intake.frames) : (s.put k).freeChanged = s.freeChanged.put k := by
  have th : ∀ u : State, u.intake = s.intake → (u.put k).testHold = u.testHold.put k := by
    intro u hu
    unfold testHold
    by_cases c : u.pool.hold = true
    · rw [if_pos c, if_pos (show (u.put k).pool.hold = true from c)]
      by_cases d : u.cfg.highMark ≤ u.pool.free
      · rw [if_pos d, if_pos (show (u.put k).cfg.highMark ≤ (u.put k).pool.free from d)]
        unfold holdOff
        have fs : (u.put k).freeSlots = u.freeSlots := by
          show Config.intakeSlots - k.frames.length = Config.intakeSlots - u.intake.frames.length
          rw [hk, hu]
        have ev : ∀ e l d, (((u.put k).setPool { (u.put k).pool with hold := false }).raiseEvent e l d) = ((u.setPool { u.pool with hold := false }).raiseEvent e l d).put k :=
          fun e l d => put_raiseEvent k (u.setPool { u.pool with hold := false }) e l d
        rw [fs, ev]
        dsimp only
        split
        · show State.allowRises (put k _) = put k (State.allowRises _)
          unfold allowRises
          by_cases x : u.trunk.up = true
          · rw [if_pos (by show (State.raiseEvent _ _ _ _).trunk.up = true; simp [x]), if_pos (by simp [x])]; rfl
          · rw [if_neg (by show ¬ (State.raiseEvent _ _ _ _).trunk.up = true; simp [x]), if_neg (by simp [x])]; rfl
        · rfl
      · rw [if_neg d, if_neg (show ¬ (u.put k).cfg.highMark ≤ (u.put k).pool.free from d)]
    · rw [if_neg c, if_neg (show ¬ (u.put k).pool.hold = true from c)]
      by_cases d : u.pool.free < u.cfg.lowMark
      · rw [if_pos d, if_pos (show (u.put k).pool.free < (u.put k).cfg.lowMark from d)]
        unfold holdOn
        rw [← put_bump]
        have ev : ∀ e l d, (((u.put k).setPool { (u.put k).pool with hold := true }).raiseEvent e l d) = ((u.setPool { u.pool with hold := true }).raiseEvent e l d).put k :=
          fun e l d => put_raiseEvent k (u.setPool { u.pool with hold := true }) e l d
        rw [ev]; rfl
      · rw [if_neg d, if_neg (show ¬ (u.put k).pool.free < (u.put k).cfg.lowMark from d)]
  exact th (s.setPool { s.pool with minFree := min s.pool.minFree s.pool.free }) rfl

/-- Space is taken whoever stands at the intake, its frames the same (R93). -/
theorem put_take (k : Intake) (s : State) (n : Need) (into : Into)
    (hk : k.frames = s.intake.frames) : (s.put k).take n into = (s.take n into).put k :=
  put_freeChanged k (s.setPool { s.pool.taken n.blocks into with
    slotsUsed := s.pool.slotsUsed + (if n.slot then 1 else 0) }) hk

/-- Every line. -/
def EveryLine (_ : Fin 12) : Prop := True

/-- A command's execution leaves the intake unit (R129). -/
theorem runCommand_intake (w : State) (m : MgmtRequest) : (w.runCommand m).state.intake = w.intake := by
  have T : ∀ u : State, Touch EveryLine w u → u.intake = w.intake := fun u h => h.intake
  have : ∀ i : Fin 12, Fact (EveryLine i) := fun _ => ⟨trivial⟩
  have R : Touch EveryLine w w := Touch.rfl' w
  have conf : ∀ i p, (w.configLine i p).state.intake = w.intake := by
    intro i p
    unfold configLine configNow
    split
    · apply T; dsimp only; split <;> simp [R]
    · simp
  have wp : ∀ (u : State), u.intake = w.intake → ∀ id d, (u.rewritePoll id d).intake = w.intake := by
    intro u hu id d
    unfold rewritePoll
    dsimp only
    split
    · have : Touch EveryLine (u.setPoll id (some (u.newPoll d))) ((u.setPoll id (some (u.newPoll d))).reachDue id (u.newPoll d) u.clock) :=
        touch_reachDue (Touch.rfl' _) _ _ _
      rw [this.intake]; exact hu
    · exact hu
  unfold runCommand
  split
  · rfl
  · unfold identify; split <;> rfl
  · unfold linkConfig; (repeat' split) <;> first | rfl | simp
  · unfold linkRead; split <;> rfl
  · unfold lineConfig; (repeat' split) <;> first | rfl | exact conf _ _
  · unfold lineRead; (repeat' split) <;> rfl
  · unfold lineAbort; (repeat' split) <;> first | rfl | skip
    next i _ =>
    apply T
    unfold abortLine
    dsimp only
    generalize (w.line i).abortCase = c
    have a := touch_abortUnsolicited (touch_abortTxn R i c) i
    split
    · have b := touch_flushQueue a i
      unfold abortMove; split <;> first | exact b | exact touch_enterIdle b i | exact touch_enterGuard b i _
    · unfold abortMove; split <;> first | exact a | exact touch_enterIdle a i | exact touch_enterGuard a i _
  · unfold knownSet; (repeat' split) <;> rfl
  · unfold pollSet; (repeat' split) <;> first | rfl | skip
    unfold writePoll; (repeat' split) <;> first | rfl | exact wp w rfl _ _ | exact wp (w.leaveDue _ _) rfl _ _
  · unfold pollClear; (repeat' split) <;> first | rfl | skip
    unfold clearPoll; (repeat' split) <;> rfl
  · unfold pollRead; (repeat' split) <;> rfl
  · unfold pollRunCmd; (repeat' split) <;> first | rfl | skip
    rename_i b _
    have : Touch EveryLine (w.setPollRun b) (w.setPollRun b).activate := touch_activate (Touch.rfl' _) (fun _ => trivial)
    have ta := this.intake
    show (w.setRun b).intake = w.intake
    unfold setRun
    dsimp only
    by_cases c : b = w.pollRun
    · rw [if_pos c]
    · rw [if_neg c]
      by_cases u : w.trunk.up = true
      · rw [if_pos u]
        cases b
        · rfl
        · exact ta
      · rw [if_neg u]; rfl
  · have cl : ∀ c, (w.clearSet c).intake = w.intake := fun c => by cases c <;> rfl
    unfold counterRead; (repeat' split) <;> first | rfl | exact cl _
  · unfold badRestart; split <;> rfl
  · unfold echoCmd; split <;> rfl

/-- A response leaves the intake unit (R166). -/
theorem respond_intake (r : CmdResult) (m : MgmtRequest) : (r.respond m).intake = r.state.intake := by
  simp [CmdResult.respond]

/-- After a command nothing is stalled that was not stalled before. -/
theorem performCommand_stall (w : State) (m : MgmtRequest) : (w.performCommand m).intake.stall = w.intake.stall := by
  simp [performCommand, respond_intake, runCommand_intake]

end State

end Sys2Proof.Machine
end

