-- ==== Sys2Proof/Laws/Profiles.lean ====
section
/-! SUPPORT. A staged profile put in place (R30 to R32), and how unsolicited frames end (R22, R23, R25). -/

set_option Elab.async false

namespace Sys2Proof.Machine

open Sys2Proof

/-- The spare payload blocks are payload blocks. -/
theorem spare_le (q : List Request) : spareBlocks q ≤ queueBlocks q := by
  unfold spareBlocks queueBlocks
  induction q with
  | nil => simp
  | cons a as ih => simp only [List.map_cons, List.sum_cons]; omega

/-- The due polls of a line return to WAITING: nothing but the poll table moves (R31). -/
theorem State.undueAll (ds : List DueItem) (s : State) :
    let u := ds.foldl (fun s d => s.pollUndue d.poll) s
    u.lines = s.lines ∧ u.pool = s.pool ∧ u.ctrs = s.ctrs ∧ u.clock = s.clock ∧ u.cfg = s.cfg ∧ u.granted = s.granted ∧
    u.results = s.results ∧ ∀ id, u.poll id = if id ∈ ds.map DueItem.poll
      then (s.poll id).map (fun e => { e with state := .waiting }) else s.poll id := by
  induction ds generalizing s with
  | nil => simp
  | cons d ds ih =>
    obtain ⟨h1, h2, h3, h4, h5, h6, h7, h8⟩ := ih (s.pollUndue d.poll)
    refine ⟨h1, h2, h3, h4, h5, h6, h7, fun id => ?_⟩
    show (List.foldl _ (s.pollUndue d.poll) ds).poll id = _
    rw [h8]
    have pu : (s.pollUndue d.poll).poll id = if id = d.poll then (s.poll id).map (fun e => { e with state := .waiting }) else s.poll id := by
      by_cases q : id = d.poll
      · subst q; simp [State.pollUndue]
      · simp [State.pollUndue, q]
    rw [pu]
    by_cases q : id = d.poll
    · subst q
      by_cases z : d.poll ∈ ds.map DueItem.poll
      · simp [z]; rfl
      · simp [z]
    · by_cases z : id ∈ ds.map DueItem.poll
      · simp only [q, z, if_true, if_false, List.map_cons, List.mem_cons, or_true]
      · simp only [q, z, if_false, List.map_cons, List.mem_cons, or_self]

/-- What a staged profile `p`, put in place on line `i`, has done from `w` to `u`, where the line was `l` (R30 to R32). -/
structure Placed (i : Fin 12) (p : Profile) (l : Line) (w u : State) : Prop where
  touch : Touch (fun j => j = i) w u
  line : u.line i = l.under p
  granted : u.granted = w.granted
  wait : u.pool.waitList = []
  results : u.results = w.results ++ refusals i (if p.enabled then .queueFull else .lineOffline) (l.turnedOut p) w
  ctrs : CountedTimes (l.turnedOut p).length (.line i .requestsRefused) [] w u
  polls : ∀ id, u.poll id = if p.enabled = false ∧ id ∈ l.due.map DueItem.poll
    then (w.poll id).map (fun e => { e with state := .waiting }) else w.poll id
  slots : u.pool.slotsUsed = w.pool.slotsUsed
  reserved : u.pool.reserved = w.pool.reserved
  total : u.pool.total = w.pool.total
  books : spareBlocks (l.turnedOut p) ≤ w.pool.held → u.pool.free = w.pool.free + spareBlocks (l.turnedOut p)
  event : w.pool.eventsUsed < 16 → w.stream ++ [w.stamp (.event .profileApplied (lineByte i) w.pool.missedEvents
    (boolByte p.enabled ++ 0#24)) true 0] <+: u.stream

/-- A touch leaves the stream where it was and adds behind it. -/
theorem Touch.stream {P : Fin 12 → Prop} {s t : State} (h : Touch P s t) : s.stream <+: t.stream := by
  have c : t.trunk.retransmits = s.trunk.retransmits := by
    have := congrArg Trunk.retransmits h.calm; simpa [Trunk.calm] using this
  unfold State.stream
  rw [c]
  exact (List.prefix_append_right_inj _).mpr h.uplink

/-- An event that finds a slot free stands next in the stream (R197). -/
theorem State.raiseEvent_stream (s : State) (k : EventKind) (l : Byte) (d : BitVec 32) (h : s.pool.eventsUsed < 16) :
    (s.raiseEvent k l d).stream = s.stream ++ [s.stamp (.event k l s.pool.missedEvents d) true 0] := by
  have : s.eventSlotFree = true := (State.eventSlotFree_iff s).mpr h
  simp [State.raiseEvent, this, State.stream, State.join, State.takeEventSlot, State.stamp, State.eventBody]

/-- A staged profile put in place on an IDLE line with listen QUIET, where no waiter waits (R30 to R32). -/
theorem State.applyStaged_placed (w : State) (i : Fin 12) (p : Profile) (ht : (w.line i).txn = .idle)
    (hs : (w.line i).staged = some p) (hq : w.pool.waitList = []) :
    Placed i p { w.line i with staged := none } w (w.applyStaged i) := by
  obtain ⟨u, hu⟩ : ∃ u, u = w.applyStaged i := ⟨_, rfl⟩
  rw [← hu]
  have Fi : Fact ((fun j => j = i) i) := ⟨rfl⟩
  have tw : Touch (fun j => j = i) w u := by rw [hu]; exact State.touch_applyStaged (Touch.rfl' w) i
  have kt : u.pool.total = w.pool.total := by rw [hu]; exact (State.keeps_applyStaged (Keeps.rfl' w) i).total
  obtain ⟨l, hl'⟩ : ∃ l : Line, l = { w.line i with staged := none } := ⟨_, rfl⟩
  rw [← hl']
  obtain ⟨w1, hw1⟩ : ∃ w1, w1 = w.modLine i (fun l => { l with staged := none }) := ⟨_, rfl⟩
  have o1 : State.OnlyLine i w w1 := by rw [hw1]; exact State.onlyLine_modLine w i _
  have l1 : w1.line i = l := by rw [hw1, hl']; simp
  obtain ⟨w2, hw2⟩ : ∃ w2, w2 = w1.raiseEvent .profileApplied (lineByte i) (boolByte p.enabled ++ 0#24) := ⟨_, rfl⟩
  have l2 : ∀ j, w2.line j = w1.line j := fun j => by rw [hw2]; simp
  obtain ⟨w3, hw3⟩ : ∃ w3, w3 = w2.modLine i (fun l => { l with applied := p }) := ⟨_, rfl⟩
  have o3 : State.OnlyLine i w2 w3 := by rw [hw3]; exact State.onlyLine_modLine w2 i _
  have l3 : w3.line i = { l with applied := p } := by rw [hw3]; simp [l2, l1]
  have e0 : u = w2.putProfile i p := by
    rw [hu]; simp only [State.applyStaged, hs, ← hw1, ← hw2]
  have i2 : (w2.line i).txn = .idle := by rw [l2, l1, hl']; exact ht
  -- the state in which requests are refused
  have ref : ∃ (v : State) (o : TxnOutcome), u = v.refuseAll i o (l.turnedOut p) ∧
      o = (if p.enabled then .queueFull else .lineOffline) ∧
      v.pool = w2.pool ∧ v.ctrs = w2.ctrs ∧ v.clock = w2.clock ∧ v.cfg = w2.cfg ∧ v.granted = w2.granted ∧
          v.results = w2.results ∧
      v.line i = l.under p ∧ (∀ id, v.poll id = if p.enabled = false ∧ id ∈ l.due.map DueItem.poll
        then (w2.poll id).map (fun e => { e with state := .waiting }) else w2.poll id) := by
    by_cases en : p.enabled = true
    · obtain ⟨v, hv⟩ : ∃ v, v = w3.modLine i (fun l => { l with queue := l.queue.take l.applied.queueDepth }) := ⟨_, rfl⟩
      have ov : State.OnlyLine i w2 v := by rw [hv]; exact o3.trans (State.onlyLine_modLine w3 i _)
      refine ⟨v, .queueFull, ?_, by simp [en], ov.pool, ov.ctrs, ov.clock, ov.cfg, ov.granted, ov.results, ?_,
          fun id => by simp [en, ov.poll]⟩
      · rw [e0]
        simp only [State.putProfile, en, if_true, i2, reduceCtorEq, if_false, ← hw3]
        simp only [State.shrinkQueue, ← hv, l3, Line.turnedOut, en, if_true]
      · rw [hv, State.line_modLine_same, l3]; simp [Line.under, en]
    · have en' : p.enabled = false := by simpa using en
      obtain ⟨v, hv⟩ : ∃ v, v = w3.modLine i (fun l => { (l.goto .offline).rxQuiet with queue := [], due := [] }) := ⟨_, rfl⟩
      have ov : State.OnlyLine i w2 v := by rw [hv]; exact o3.trans (State.onlyLine_modLine w3 i _)
      obtain ⟨a1, a2, a3, a4, a5, a6, a7, a8⟩ := State.undueAll l.due v
      refine ⟨l.due.foldl (fun s d => s.pollUndue d.poll) v, .lineOffline, ?_, by simp [en], a2.trans ov.pool,
          a3.trans ov.ctrs, a4.trans ov.clock,
        a5.trans ov.cfg, a6.trans ov.granted, a7.trans ov.results, ?_,
            fun id => by rw [a8 id]; simp only [ov.poll, en', true_and]⟩
      · rw [e0]
        simp only [State.putProfile, en, if_false, i2, reduceCtorEq, ← hw3]
        simp only [State.goOffline, ← hv, l3, Line.turnedOut, en]
        rfl
      · have : (l.due.foldl (fun s d => s.pollUndue d.poll) v).line i = v.line i := by simp only [State.line, a1]
        rw [this, hv, State.line_modLine_same, l3]
        simp [Line.under, en', Line.goto, Line.rxQuiet, TxnState.drives, quietLine]
  obtain ⟨v, o, hv, ho, v1, v2, v3, v4, v5, v6, v7, v8⟩ := ref
  have r2 : w2.results = w.results := by rw [hw2]; simp [o1.results]
  have p2 : w2.pool.free = w.pool.free ∧ w2.pool.held = w.pool.held ∧ w2.pool.reserved = w.pool.reserved ∧
      w2.pool.slotsUsed = w.pool.slotsUsed ∧
      w2.pool.waitList = [] := by rw [hw2]; simp [o1.pool, hq]
  have f := State.refuseAll_frame v i o (l.turnedOut p) (State.unserved_nobody (by rw [v1]; exact p2.2.2.2.2) _ _)
  dsimp only at f
  rw [← hv] at f
  obtain ⟨f1, f2, f3, f4, f5, f6, f7, f8, f9, rest⟩ := f
  obtain ⟨f10, f11, f12, f13, f14, f15, f16, f17⟩ := rest
  have st : ∀ b k n, v.stamp b k n = w.stamp b k n := fun b k n =>
    State.stamp_congr _ _ (by rw [v3, hw2]; simp [o1.clock]) (by rw [v4, hw2]; simp [o1.cfg]) b k n
  refine ⟨tw, ?_, by rw [f12, v5, hw2]; simp [o1.granted], by rw [f10, v1]; exact p2.2.2.2.2, ?_, fun d hd => ?_,
      fun id => ?_, by rw [f9, v1]; exact p2.2.2.2.1,
    by rw [f13, v1]; exact p2.2.2.1, kt, fun h => ?_, fun h => ?_⟩
  · have : u.line i = v.line i := by simp only [State.line, f1]
    rw [this, v7]
  · rw [f15, v6, r2]; simp only [st, refusals, ho]
  · obtain ⟨z, _, _, _⟩ := sideways_ne hd
    have : v.ctrs.read d = w.ctrs.read d := by rw [v2, hw2]; simp [z, o1.ctrs]
    rw [f17 d hd, this]
    simp
  · have : u.poll id = v.poll id := by simp only [State.poll, f2]
    rw [this, v8 id]
    have : w2.poll id = w.poll id := by rw [hw2]; simp [o1.poll]
    rw [this]
  · have := (f16 (by rw [v1, p2.2.1]; exact h)).1
    rw [this, v1, p2.1]; rfl
  · have t2 : Touch (fun j => j = i) w2 u := by rw [e0]; exact State.touch_putProfile (Touch.rfl' w2) i p
    have := t2.stream
    rw [hw2, State.raiseEvent_stream _ _ _ _ (by rw [o1.pool]; exact h), o1.stream] at this
    rw [show w.stamp (.event .profileApplied (lineByte i) w.pool.missedEvents (boolByte p.enabled ++ 0#24)) true 0 =
      w1.stamp (.event .profileApplied (lineByte i) w1.pool.missedEvents (boolByte p.enabled ++ 0#24)) true 0 by
        simp only [State.stamp, o1.clock, o1.cfg, o1.pool]]
    exact this

/-- The end of an unsolicited frame is the same in a state with the same line settings, pool counts and stamps. -/
theorem UnsolicitedEnds.congr {s w : State} {i : Fin 12} {u : Unsolicited} {o : TxnOutcome} {cs : List CtrId} {rs : List Record}
    {n : Nat} (h : UnsolicitedEnds i u o cs rs n s) (h1 : (w.line i).applied = (s.line i).applied)
    (h2 : (w.line i).known = (s.line i).known) (h3 : w.pool.free = s.pool.free) (h4 : w.pool.slotsUsed = s.pool.slotsUsed)
    (h5 : w.clock = s.clock) (h6 : w.cfg = s.cfg)
        (h7 : w.pool.waitList = s.pool.waitList) : UnsolicitedEnds i u o cs rs n w := by
  have st : ∀ b q n, w.stamp b q n = s.stamp b q n := by intro b q n; simp [State.stamp, h5, h6]
  rcases h with h | h | ⟨k, e, q, r, z⟩
  · exact Or.inl (by rw [h4]; exact h)
  · exact Or.inr (Or.inl (by rw [h4]; exact h))
  · refine Or.inr (Or.inr ⟨k, e, ?_, by rw [h4]; exact r, z.mono h7 (by omega) (by omega)⟩)
    simpa only [KeptEnds, Line.knownAt, h1, h2, st] using q

/-- The end of an unsolicited frame, in the words of the statements (R22, R23, R25, R26). -/
theorem UnsolicitedEnds.told {s : State} {i : Fin 12} {u : Unsolicited} {byBreak : Bool} {cs : List CtrId} {rs : List Record}
    {n : Nat} (h : UnsolicitedEnds i u (u.frame.outcome byBreak) cs rs n s) :
    Told cs rs s (s.finishUnsolicited i u byBreak) ∧ (s.finishUnsolicited i u byBreak).pool.slotsUsed = n ∧
    FrameFreed u rs [] s (s.finishUnsolicited i u byBreak) := by
  have none : ∀ w : State, (∀ k, u.mode ≠ .keep k) → w.pool.free = s.pool.free → w.pool.reserved = s.pool.reserved →
      w.pool.held = s.pool.held → FrameFreed u [] [] s w := by
    rintro w hm e1 e2 e3 m data (⟨h, _⟩ | ⟨_, rfl, rfl⟩) _ _ _ _
    · exact absurd h (hm m)
    · exact ⟨by simp [e1, spareBlocks], by simp [e2], by simp [e3, spareBlocks]⟩
  rcases h with ⟨e, rfl, rfl, rfl⟩ | ⟨e, rfl, rfl, rfl⟩ | ⟨k, e, q, rfl, z⟩
  · simp only [State.finishUnsolicited, e]
    exact ⟨told_lineCounter s i _, by simp, none _ (by simp [e]) (by simp) (by simp) (by simp)⟩
  · have : s.finishUnsolicited i u byBreak = s := by rcases e with e | e <;> simp [State.finishUnsolicited, e]
    rw [this]
    exact ⟨told_rfl s, rfl, none s (by rcases e with e | e <;> simp [e]) rfl rfl rfl⟩
  · simp only [State.finishUnsolicited, e]
    obtain ⟨t1, t2, t3⟩ := q.told k (filledBlocks 10 u.frame.kept.length) z
    refine ⟨t1, t2, ?_⟩
    rintro m data (⟨h, rfl⟩ | ⟨h, _⟩) h1 h2 h3 h4
    · obtain rfl : m = k := by rw [e] at h; simpa using h.symm
      have h4 : filledBlocks 10 u.frame.kept.length ≤ s.pool.held := by simpa [queueBlocks] using h4
      obtain ⟨k1, k2, k3⟩ := t3 h1 h2 h3 h4
      exact ⟨by simpa [spareBlocks] using k1, k2, by simpa [spareBlocks] using k3⟩
    · exact absurd e (h k)

/-- What counts its blocks alike. -/
theorem FrameFreed.on {u : Unsolicited} {rs : List Record} {gone : List Request} {s w t : State}
    (h : FrameFreed u rs gone s w) (e1 : t.pool.free = w.pool.free) (e2 : t.pool.reserved = w.pool.reserved)
    (e3 : t.pool.held = w.pool.held) : FrameFreed u rs gone s t := by
  intro n data hm h1 h2 h3 h4
  rw [e1, e2, e3]
  exact h n data hm h1 h2 h3 h4

/-- A profile put in place behind the end of a frame frees the payload blocks of the requests it turns out. -/
theorem FrameFreed.placed {u : Unsolicited} {rs : List Record} {i : Fin 12} {p : Profile} {m : Line} {s w x v : State}
    (h : FrameFreed u rs [] s w) (o : State.OnlyLine i w x) (pl : Placed i p m x v) :
    FrameFreed u rs (m.turnedOut p) s v := by
  intro n data hm h1 h2 h3 h4
  obtain ⟨a1, a2, a3⟩ := h n data hm h1 h2 h3 (by simp [queueBlocks]; omega)
  simp only [spareBlocks, List.map_nil, List.sum_nil, Nat.add_zero] at a1 a3
  have sl := spare_le (m.turnedOut p)
  have b := pl.books (by rw [o.pool]; omega)
  have tt := pl.total
  have r := pl.reserved
  simp only [Pool.total, o.pool] at b tt r
  exact ⟨by omega, by omega, by omega⟩

/-- What ends an unsolicited frame refuses no request. -/
theorem UnsolicitedEnds.refuses {s : State} {i : Fin 12} {u : Unsolicited} {o : TxnOutcome} {cs : List CtrId} {rs : List Record}
    {n : Nat} (h : UnsolicitedEnds i u o cs rs n s) : CtrId.line i .requestsRefused ∉ cs := by
  rcases h with ⟨a, rfl, b⟩ | ⟨c, rfl, d⟩ | ⟨a, b, ⟨c, rfl, d⟩ | ⟨c, d, e, f, ⟨g, k, rfl, l⟩ | ⟨m, rfl, n⟩⟩, o⟩ <;> simp

/-- A told change, then a profile put in place on the line, then the end of the step (R30 to R32). -/
theorem told_placed {i : Fin 12} {p : Profile} {cs : List CtrId} {rs : List Record} {s w x v : State} {m : Line}
    (h : Told cs rs s w) (o : State.OnlyLine i w x) (pl : Placed i p m x v) (b : s.between) (hq : s.pool.waitList = [])
    (nr : CtrId.line i .requestsRefused ∉ cs) (hm : m.queue = (s.line i).queue ∧ m.due = (s.line i).due) :
    v.granted = [] ∧ SameOutside i s v.close ∧ SameLink s v.close ∧ v.close.line i = m.under p ∧
    ProfileApplied i p cs rs s v.close ∧ v.close.pool.slotsUsed = w.pool.slotsUsed ∧
    v.close.pool.reserved = w.pool.reserved ∧ v.close.pool.total = s.pool.total ∧ v.close.pool.waitList = [] := by
  have xw : x.pool.waitList = [] := by rw [o.pool, h.wait, hq]
  have xg : x.granted = [] := o.granted.trans (h.granted.trans b.2)
  have to1 : m.turnedOut p = (s.line i).turnedOut p := by unfold Line.turnedOut; rw [hm.1]
  obtain ⟨d1, d2, d3, d4, d5, d6⟩ := pl.touch.outside (waits_nobody xw xg)
  have stp : ∀ b k n, x.stamp b k n = s.stamp b k n := fun b k n =>
    State.stamp_congr _ _ (o.clock.trans h.clock) (o.cfg.trans h.cfg) b k n
  refine ⟨pl.granted.trans xg, sameOutside_close ⟨fun j hj => (d1 j hj).trans ((o.line j hj).trans (h.line j)),
    d2.trans (o.intake.trans h.intake), d3.trans (o.cfg.trans h.cfg), d4.trans (o.pollRun.trans h.pollRun),
    d5.trans (o.clock.trans h.clock), d6.trans (o.pending.trans h.pending)⟩,
    sameLink_close (sameLink_of_calm (by rw [pl.touch.calm, o.trunk, h.calm])), by simp [pl.line],
        ⟨?_, fun d hd => ?_, fun id => ?_⟩,
    by simp [pl.slots, o.pool], by simp [pl.reserved, o.pool], ?_, by simp [pl.wait]⟩
  · rw [State.close_results, pl.results, o.results, h.results, pl.touch.late, o.lateResults, h.late, b.late]
    simp [refusals, stp, to1]
  · obtain ⟨z1, _, z2, z3⟩ := sideways_ne hd
    rw [State.close_ctrs _ _ z1 z2 z3, pl.ctrs d hd, o.ctrs, h.ctrs d hd, to1]
    by_cases q : d = .line i .requestsRefused
    · subst q; simp [nr]
    · simp [q]
  · simp only [State.close_frame]
    rw [pl.polls, o.poll, hm.2]
    simp only [State.poll, h.polls]
  · have := pl.total.trans ((congrArg Pool.total o.pool).trans h.total); simpa [Pool.total] using this

end Sys2Proof.Machine
end

