-- ==== Sys2Proof/Laws/Ranges.lean ====
section
/-! SUPPORT. What the checks of LINK_CONFIG and LINE_CONFIG let pass (R171, R174). -/

set_option Elab.async false

namespace Sys2Proof.Machine

open Sys2Proof

/-- A byte read as a Boolean is 0 or 1. -/
theorem boolOf_le {b : Byte} {v} (h : boolOf b = some v) : b.toNat ≤ 1 := by
  unfold boolOf at h; split_ifs at h with h1 h2
  · subst h1; decide
  · subst h2; decide

/-- A byte behind the first. -/
theorem byteAt_drop (b : List Byte) (k : Nat) : byteAt (b.drop 1) k = byteAt b (k + 1) := by
  cases b <;> simp [byteAt]

/-- The bytes of a profile that passes its checks lie in their ranges (R174). -/
theorem checked_range {b : List Byte} {p : Profile} (h : checkedProfile b = some p) :
    let n := fun k => (byteAt b k).toNat
    let h := fun k => (halfAt b k).toNat
    n 0 ≤ 1 ∧ n 1 ≤ 8 ∧ 1 ≤ h 2 ∧ h 2 ≤ 4095 ∧ (n 4 = 7 ∨ n 4 = 8) ∧ n 5 ≤ 2 ∧ (n 6 = 1 ∨ n 6 = 2) ∧ n 7 ≤ 15 ∧ n 8 ≤ 15 ∧
      n 9 ≤ 1 ∧ 8 ≤ n 10 ∧ n 11 ≤ 1 ∧ 1 ≤ n 13 ∧ 1 ≤ h 14 ∧ n 17 ≤ 7 ∧ n 18 ≤ 1 ∧ n 19 ≤ 1 ∧ n 20 ≤ 2 ∧ 1 ≤ n 21 ∧
          n 21 ≤ 8 := by
  intro n h'
  unfold checkedProfile at h
  cases ho : Profile.ofBytes b with
  | none => rw [ho] at h; cases h
  | some q =>
    rw [ho] at h
    dsimp only at h
    split at h
    · next hr =>
      unfold Profile.ofBytes at ho
      simp only [Option.bind_eq_bind, Option.bind_eq_some_iff, Option.some.injEq] at ho
      obtain ⟨e, h1, pa, h2, ec, h3, tc, h4, ro, rest⟩ := ho
      obtain ⟨h5, mf, h6, po, h7, rfl⟩ := rest
      have p2 : n 5 ≤ 2 := by
        unfold parityOf at h2; simp only [n]; split_ifs at h2 with a b c
        · rw [a]; decide
        · rw [b]; decide
        · rw [c]; decide
      have r2 : n 18 ≤ 1 := by
        unfold retryOnOf at h5; simp only [n]; split_ifs at h5 with a b
        · rw [a]; decide
        · rw [b]; decide
      have y2 : n 20 ≤ 2 := by
        unfold policyOf at h7; simp only [n]; split_ifs at h7 with a b c
        · rw [a]; decide
        · rw [b]; decide
        · rw [c]; decide
      simp only [Profile.inRange, Bool.and_eq_true, Bool.or_eq_true, beq_iff_eq, numAt, num16At] at hr
      refine ⟨boolOf_le h1, of_decide_eq_true hr.1.1.1.1.1.1.1.1.1.1, of_decide_eq_true hr.1.1.1.1.1.1.1.1.1.2.1,
          of_decide_eq_true hr.1.1.1.1.1.1.1.1.1.2.2, hr.1.1.1.1.1.1.1.1.2, p2, hr.1.1.1.1.1.1.1.2,
          of_decide_eq_true hr.1.1.1.1.1.1.2, of_decide_eq_true hr.1.1.1.1.1.2, boolOf_le h3,
          of_decide_eq_true hr.1.1.1.1.2, boolOf_le h4, of_decide_eq_true hr.1.1.1.2, of_decide_eq_true hr.1.1.2,
          of_decide_eq_true hr.1.2, r2, boolOf_le h6, y2, of_decide_eq_true hr.2.1, of_decide_eq_true hr.2.2⟩
    · cases h

/-- The parameters of a link configuration that passes its checks (R171). -/
theorem link_range {c : LinkConfig} (h : c.inRange = true) : c.ackDelay ≤ 50 ∧ 5 ≤ c.retransmitTimeout ∧
    c.retransmitTimeout ≤ 2000 ∧
    1 ≤ c.maxRetransmits ∧ c.maxRetransmits ≤ 15 ∧ 20 ≤ c.silenceLimit ∧ c.silenceLimit ≤ 5000 ∧ 10 ≤ c.syncInterval ∧
        c.syncInterval ≤ 1000 ∧
    1 ≤ c.batchCount ∧ c.batchCount ≤ 15 ∧ c.batchDelay ≤ 100 ∧ (c.holdLimit = 0 ∨ 10 ≤ c.holdLimit ∧
        c.holdLimit ≤ 10000) ∧
    16 ≤ c.lowMark ∧ c.lowMark ≤ 512 ∧ c.lowMark + 16 ≤ c.highMark ∧ c.highMark ≤ 1008 := by
  simp only [LinkConfig.inRange, Bool.and_eq_true, Bool.or_eq_true, decide_eq_true_eq, beq_iff_eq] at h
  tauto

end Sys2Proof.Machine
end

