-- ==== Sys2Proof/Laws/Runs.lean ====
section
/-! SUPPORT. Said once, what a command can do. -/

set_option Elab.async false

namespace Sys2Proof.Machine

open Sys2Proof

/-- The NextDue an entry reaches does not lie behind the clock while none does (R72). -/
theorem State.dueNow_onTime {s : State} {id : Fin 128} {p : Poll} {n : Nat} (h : s.dueNow id = some (p, n))
    (x : ∀ id, pollOnTime s.clock (s.poll id)) : s.clock ≤ n := by
  have y := x id
  unfold State.dueNow at h
  cases hp : s.poll id with
  | none => simp [hp] at h
  | some q => cases hq : q.nextDue <;> simp_all

/-- The four ways a command answers: a change that keeps the invariant and the end of the step, nothing, a warm restart, a
cold start where it is COLD_START. -/
def State.Runs (c : Instr) (s : State) (o : Host.Outcome State Fault Refusal) : Prop :=
  (∃ u, Keeps s u ∧ o = finished u) ∨ o = go s ∨ (∃ b,
      o = finished (s.warmRestart b)) ∨ (c = .coldStart ∧ o = go (State.reset.setPending s.pending))

/-- Every command answers in one of them. -/
theorem State.exec_runs (c : Instr) (s : State) : State.Runs c s (exec c s) := by
  have k : ∀ u, Keeps s u → State.Runs c s (finished u) := fun u h => Or.inl ⟨u, h, rfl⟩
  have g : State.Runs c s (go s) := Or.inr (Or.inl rfl)
  have r : Keeps s s := Keeps.rfl' s
  have d : ∀ o, State.Runs c s (s.dispatchHead o) := by
    intro o; unfold State.dispatchHead; split
    · exact k _ (State.keeps_dispatchCommand r _)
    · exact g
  cases c <;> simp only [exec]
  case coldStart => exact Or.inr (Or.inr (Or.inr ⟨rfl, rfl⟩))
  case restart =>
    unfold execRestart
    split
    · exact g
    · split
      · exact Or.inr (Or.inr (Or.inl ⟨_, rfl⟩))
      · exact k _ (State.keeps_dispatchCommand r _)
  case dataFrame b => unfold execDataFrame; split; exact k _ (State.keeps_receiveData r _); exact g
  case ctrlFrame b =>
    unfold execCtrlFrame; split
    · apply k; split
      · exact State.keeps_takeHeader (State.keeps_goodFrame r) _
      · exact State.keeps_goodFrame r
    · exact g
  case sync b => unfold execSync; split; exact k _ (State.keeps_takeSync (State.keeps_goodFrame r) _); exact g
  case syncAck b => unfold execSyncAck; split; exact k _ (State.keeps_takeSyncAck (State.keeps_goodFrame r) _); exact g
  case badFrame b => unfold execBadFrame; split; exact k _ (State.keeps_bump r _); exact k _ (State.keeps_bump r _); exact g
  case frameTransmitted => unfold execFrameTransmitted; split; exact k _ (State.keeps_setTrunk_same r _); exact g
  case syncTimerExpiry => unfold execSyncTimerExpiry; split; exact k _ (State.keeps_setTrunk_same r _); exact g
  case silenceTimerExpiry => unfold execSilenceTimerExpiry; split; exact k _ (State.keeps_linkDown r _ _); exact g
  case retransmitTimerExpiry => unfold execRetransmitTimerExpiry; split; exact k _ (State.keeps_retransmitExpired r); exact g
  case keepaliveTimerExpiry => unfold execKeepaliveTimerExpiry; split; exact k _ (State.keeps_setTrunk_same r _); exact g
  case ackDelayTimerExpiry => unfold execAckDelayTimerExpiry; split; exact k _ (State.keeps_setTrunk_same r _); exact g
  case holdTimerExpiry =>
    unfold execHoldTimerExpiry; split
    · split
      · exact k _ (State.keeps_askRefusal (State.keeps_holdExpired r) _ _)
      · exact k _ (State.keeps_dropCommand (State.keeps_holdExpired r) _)
      · exact g
      · exact g
    · exact g
  case delayDeadlineReached => unfold execDelayDeadlineReached; split; exact k _ r; exact g
  case nextDueReached p => 
    unfold execNextDueReached; split
    next h => exact k _ (State.keeps_reachDue r _ _ _ (State.dueNow_onTime h))
    exact g
  case waitListGrant => exact k _ (State.keeps_grantAll_same r)
  case deleadEnd i => unfold execDeleadEnd; split; exact k _ (State.keeps_startChar r _); exact g
  case characterSent i => unfold execCharacterSent; split; exact k _ (State.keeps_charSent r _ _); exact g; exact g
  case deholdEnd i =>
    unfold execDeholdEnd; split_ifs; exact g; exact k _ (State.keeps_turnaroundOver r _); exact k _ (State.keeps_modLine_same r _ _); exact g
  case echoDeadline i => unfold execEchoDeadline; split; split; exact k _ (State.keeps_echoFails r _ _); exact g; exact g
  case startBit i => unfold execStartBit; split; exact k _ (State.keeps_takeStart r _); exact g
  case characterComplete i a b c => unfold execCharacterComplete; split; exact k _ (State.keeps_takeChar r _ _); exact g
  case breakStart i => unfold execBreakStart; split; exact k _ (State.keeps_takeBreak r _); exact g
  case breakEnd i => unfold execBreakEnd; split; exact k _ (State.keeps_modLine_same r _ _); exact g
  case postBreakIdleEnd i => unfold execPostBreakIdleEnd; split; exact k _ (State.keeps_becomeQuiet r _); exact g
  case gapCountEnd i => unfold execGapCountEnd; split; exact k _ (State.keeps_takeGapEnd r _); exact g
  case replyWindowExpiry i => unfold execReplyWindowExpiry; split; split; exact k _ (State.keeps_noReplyEnds r _ _); exact g; exact g
  case guardEnd i => unfold execGuardEnd; split; exact k _ (State.keeps_guardOver r _); exact g
  case lineRequest => unfold execLineRequest; split; exact k _ (State.keeps_dispatchRequest r _); all_goals exact g
  case malformedRecord => unfold execMalformedRecord; split; exact k _ (State.keeps_dropMalformed r _); all_goals exact g
  case returnToMark i =>
    unfold execReturnToMark; split
    · apply k; refine State.keeps_modLine_same r _ _ ?_; exact fun l => State.startGap_pins l _
    · exact g
  all_goals exact d _

/-- After a warm restart the invariants hold. -/
theorem State.warmRestart_ok (s : State) (k : Bool) : (s.warmRestart k).pool.balanced ∧
    (s.warmRestart k).pool.slotsOk ∧ (s.warmRestart k).intake.slotsOk ∧ (s.warmRestart k).trunk.pinOk ∧
  (∀ i, ((s.warmRestart k).line i).pinOk) ∧ (s.warmRestart k).trunk.windowOk ∧
    (s.warmRestart k).cfg.inRange = true ∧ (s.warmRestart k).onTime := by
  refine ⟨rfl, ⟨by show 0 ≤ _; exact Nat.zero_le _, by show 1 ≤ 16; decide⟩, by show 0 ≤ _; exact Nat.zero_le _,
      rfl, fun i => ?_, ⟨(fun h => by cases h), fun _ => rfl⟩, by show LinkConfig.default.inRange = true; decide,
      (State.onTime_iff _).mpr ⟨?_, notPast_none _, fun i => ?_, fun id => ?_⟩⟩
  cases k
  · have : (s.warmRestart false).line i = Line.reset := by simp [State.line, State.warmRestart, State.reset]
    rw [this]; rfl
  · have : (s.warmRestart true).line i = (s.line i).kept := by simp [State.line, State.warmRestart]
    rw [this]; simp only [Line.pinOk, Line.kept]
    split <;> rfl
  · simp [Trunk.onTime, State.warmRestart, State.warmTrunk, Trunk.reset]
  · cases k
    · have : (s.warmRestart false).line i = Line.reset := by simp [State.line, State.warmRestart, State.reset]
      rw [this]; simp [Line.onTime, Line.reset]
    · have : (s.warmRestart true).line i = (s.line i).kept := by simp [State.line, State.warmRestart]
      rw [this]; simp [Line.onTime, Line.kept, Line.reset]
  · cases k
    · have : (s.warmRestart false).poll id = none := by simp [State.poll, State.warmRestart, State.reset]
      rw [this]; exact pollOnTime_none _
    · have : (s.warmRestart true).poll id = (s.poll id).bind Poll.kept := by simp [State.poll, State.warmRestart]
      rw [this]
      cases s.poll id with
      | none => exact pollOnTime_none _
      | some p => simp only [Option.bind_some, Poll.kept]; split <;> simp

end Sys2Proof.Machine
end

