-- ==== Sys2Proof/Laws/Serving.lean ====
section
/-! SUPPORT. A waiter served, and how it acts at the end of the step (R97). -/

set_option Elab.async false

namespace Sys2Proof.Machine

open Sys2Proof

namespace State

/-- A granted line that acts grants nobody. -/
theorem lineActs_granted (s : State) (w : WaiterId) : (s.lineActs w).granted = s.granted := by
  unfold lineActs lineGranted enterReady enterSending startChar
  split
  · dsimp only; (repeat' split) <;> rfl
  · rfl

/-- After a step no record is kept back and every granted requester has acted. -/
theorem finish_between (s : State) : s.finish.between := by
  have k : ∀ (l : List WaiterId) (u : State), (l.foldl lineActs u).granted = u.granted := by
    intro l
    induction l with
    | nil => exact fun _ => rfl
    | cons w ws ih => intro u; rw [List.foldl_cons, ih, lineActs_granted]
  refine ⟨close_between _, ?_⟩
  simp only [finish, close_frame, actGranted, k]
  rfl

/-- A granted line that acts counts nothing. -/
theorem lineActs_ctrs (s : State) (w : WaiterId) : (s.lineActs w).ctrs = s.ctrs := by
  unfold lineActs lineGranted enterReady enterSending startChar
  split
  · dsimp only; (repeat' split) <;> rfl
  · rfl

/-- Where lines alone have been granted, their acting counts nothing. -/
theorem actGranted_ctrs (t : State) (w : ∀ x ∈ t.granted, ∃ j, x = .line j) : t.actGranted.ctrs = t.ctrs := by
  have e : ∀ (l : List WaiterId) (u : State), (∀ x ∈ l, ∃ j, x = .line j) → l.foldl grantActs u = l.foldl lineActs u := by
    intro l
    induction l with
    | nil => exact fun _ _ => rfl
    | cons a as ih =>
      intro u h
      obtain ⟨j, rfl⟩ := h a List.mem_cons_self
      rw [List.foldl_cons, List.foldl_cons]
      exact ih _ (fun x hx => h x (List.mem_cons_of_mem _ hx))
  have k : ∀ (l : List WaiterId) (u : State), (l.foldl lineActs u).ctrs = u.ctrs := by
    intro l
    induction l with
    | nil => exact fun _ => rfl
    | cons a as ih => intro u; rw [List.foldl_cons, ih, lineActs_ctrs]
  simp only [actGranted, k, e _ _ w]
  show (t.granted.foldl lineActs (t.setGranted [])).ctrs = t.ctrs
  rw [k]; rfl

/-- What the granting does that serves a line at the head and stops at the next (R97). -/
structure Served (i : Fin 12) (n : Need) (ws : List Waiter) (x : Txn) (u v : State) : Prop where
  granted : v.granted = [.line i]
  wait : v.pool.waitList = ws
  free : v.pool.free = u.pool.free - n.blocks
  reserved : v.pool.reserved = u.pool.reserved + n.blocks
  held : v.pool.held = u.pool.held
  slots : v.pool.slotsUsed = u.pool.slotsUsed + if n.slot then 1 else 0
  minFree : v.pool.minFree = min u.pool.minFree (u.pool.free - n.blocks)
  line : v.line i = { u.line i with hand := some { x with reservation := some n.blocks } }
  polls : v.polls = u.polls
  quiet : Quietly u v
  outside : SameOutside i u v

/-- A line at the head that passes is granted, and where the next fails nothing more is. -/
theorem grantAll_serves {u : State} {i : Fin 12} {n : Need} {ws : List Waiter} {x : Txn} (hg : u.granted = [])
    (hw : u.pool.waitList = { who := .line i, need := n } :: ws) (hp : u.pool.passes n = true)
        (hh : (u.line i).hand = some x)
    (hn : ∀ w rest, ws = w :: rest → Pool.passes
      { u.pool with free := u.pool.free - n.blocks, slotsUsed := u.pool.slotsUsed + if n.slot then 1 else 0 } w.need = false) :
    Served i n ws x u u.grantAll := by
  have hnb := passes_free hp
  obtain ⟨b1, b2, b3, b4, b5⟩ := grantOne_books u { who := .line i, need := n } ws
  have hm : min n.blocks u.pool.free = n.blocks := by omega
  dsimp only at b1 b3 b4
  rw [hm] at b3
  have hd : (u.grantOne { who := .line i, need := n } ws).headWaits := by
    intro w rest hwr
    rw [b2] at hwr
    exact Pool.passes_anti w.need (by rw [b3]) (by rw [b4]) (hn w rest hwr)
  rw [grantAll_one hw hp hd]
  obtain ⟨f1, f2, f3, f4, f5, f6, f7, f8, f9, f10, f11⟩ := grantOne_frame u { who := .line i, need := n } ws
  obtain ⟨g1, g2, g3, g4⟩ := grantOne_told u { who := .line i, need := n } ws
  obtain ⟨p, hpq⟩ : ∃ p : State, p = (u.setPool { u.pool with waitList := ws }).setGranted (u.granted ++ [.line i]) := ⟨_, rfl⟩
  have e : u.grantOne { who := .line i, need := n } ws = (p.take n .reserved).giveReservation i n.blocks := by rw [hpq]; rfl
  have pp : p.pool.free = u.pool.free ∧ p.pool.reserved = u.pool.reserved ∧ p.pool.held = u.pool.held ∧
      p.pool.minFree = u.pool.minFree ∧ ∀ j, p.line j = u.line j := by
    rw [hpq]; exact ⟨rfl, rfl, rfl, rfl, fun _ => rfl⟩
  refine ⟨by rw [b1, hg]; rfl, b2, b3, ?_, ?_, b4, ?_, ?_, f4, ⟨f9, g1, g2, fun d hd => ?_, b5⟩,
    ⟨fun j hj => f11 j (fun q => hj (by cases q; rfl)), f3, f2, f5, f1, f6⟩⟩
  · rw [e]; simp [State.take, Pool.taken, State.freeChanged, pp, hm]
  · rw [e]; simp [State.take, Pool.taken, State.freeChanged, pp]
  · rw [e]; simp [State.take, Pool.taken, State.freeChanged, pp, hm]
  · rw [e, giveReservation_line, if_pos rfl]; simp [pp, hh]
  · obtain ⟨a, b, _, _⟩ := sideways_ne hd
    exact g4 d a b

/-- The end of a step in which a line alone was granted: it enters READY, and SENDING when listen is QUIET (R5, R6, R97). -/
theorem finish_line {w : State} {i : Fin 12} {y : Txn} (hg : w.granted = [.line i]) (ht : (w.line i).txn = .waitSpace)
    (hh : (w.line i).hand = some y) (hr : y.reservation.isSome = true) :
    let t := w.finish
    t.line i = (if (w.line i).listen = .quiet then sendingLine (w.line i) y (w.workBytes y.work)[0]?
      else { w.line i with txn := .ready, lde := false }) ∧
    SameOutside i w t ∧ t.polls = w.polls ∧ SamePool w t ∧ t.results = w.results ++ w.lateResults ∧ SameLink w t ∧
    ∀ d, ¬ d.sideways → t.ctrs.read d = w.ctrs.read d := by
  intro t
  obtain ⟨v, hv⟩ : ∃ v, v = (w.setGranted []).enterReady i := ⟨_, rfl⟩
  have e : w.actGranted = v := by
    have o := onlyLine_enterReady (w.setGranted []) i
    have k : (w.setGranted []).lineGranted i = v := by
      have q : ((w.setGranted []).line i).hand = some y := hh
      have q2 : ((w.setGranted []).line i).txn = .waitSpace := ht
      simp only [lineGranted, q, q2, hr, hv]; rfl
    have kg : v.granted = [] := by rw [hv, o.granted]; rfl
    simp only [actGranted, hg, List.foldl_cons, List.foldl_nil, grantActs, k]
    rw [kg]
    simp only [List.foldl_nil]
    cases v; cases kg; rfl
  have o : OnlyLine i (w.setGranted []) v := hv ▸ onlyLine_enterReady _ i
  have et : t = v.close := by show w.finish = _; rw [finish, e]
  have el := enterReady_moves (w.setGranted []) i y hh
  rw [et]
  have wb : (w.setGranted []).workBytes y.work = w.workBytes y.work := by cases y.work <;> rfl
  refine ⟨?_, ⟨fun j hj => ?_, ?_, ?_, ?_, ?_, ?_⟩, ?_, ?_, ?_, ?_, fun d hd => ?_⟩
  · simp only [close_frame]; rw [hv, el, wb]; rfl
  · simp only [close_frame]; exact o.line j hj
  · simp only [close_frame]; exact o.intake
  · simp only [close_frame]; exact o.cfg
  · simp only [close_frame]; exact o.pollRun
  · simp only [close_frame]; exact o.clock
  · simp only [close_frame]; exact o.pending
  · simp only [close_frame]; exact o.polls
  · simp only [SamePool, close_frame, o.pool]; simp
  · rw [close_results, o.results, o.lateResults]; rfl
  · exact sameLink_close (sameLink_of_calm (by rw [o.trunk]; rfl))
  · obtain ⟨a, _, b, c⟩ := sideways_ne hd
    rw [close_ctrs _ _ a b c, o.ctrs]; rfl

/-- Where nothing is stalled, the granted intake unit has nothing to act on. -/
theorem acts_lines (l : List WaiterId) (u : State)
    (h : u.intake.stall = none) : l.foldl grantActs u = l.foldl lineActs u := by
  induction l generalizing u with
  | nil => rfl
  | cons a as ih =>
    have e : u.grantActs a = u.lineActs a := by
      cases a
      · rfl
      · simp [grantActs, lineActs, intakeGranted, h]
    rw [List.foldl_cons, List.foldl_cons, e]
    refine ih _ ?_
    have : (u.lineActs a).intake = u.intake := by
      unfold lineActs lineGranted enterReady enterSending startChar
      split
      · dsimp only; (repeat' split) <;> simp
      · rfl
    rw [this, h]

/-- Granted lines that act grant nobody. -/
theorem lines_granted (l : List WaiterId) (u : State) : (l.foldl lineActs u).granted = u.granted := by
  induction l generalizing u with
  | nil => rfl
  | cons a as ih => rw [List.foldl_cons, ih, lineActs_granted]

/-- Nobody is granted. -/
theorem setGranted_self {u : State} (h : u.granted = []) : u.setGranted [] = u := by cases u; cases h; rfl

/-- The end of a step in which the intake unit alone was granted and its command performed is that of the command alone. -/
theorem finish_intake {g p : State} (hg : g.granted = [.intake]) (hp : (g.setGranted []).intakeGranted = p)
    (hs : p.intake.stall = none) :
    g.finish = p.finish := by
  have a : g.actGranted = p.actGranted := by
    simp only [actGranted, hg, List.foldl_cons, List.foldl_nil, grantActs, hp]
    rw [acts_lines p.granted (p.setGranted []) hs]
    have : (p.granted.foldl lineActs (p.setGranted [])).granted = [] := by rw [lines_granted]; rfl
    rw [this, List.foldl_nil, setGranted_self this]
  rw [finish, a]; rfl

end State

end Sys2Proof.Machine
end

