-- ==== Sys2Proof/Tests/Slice0.lean ====
section
/-! SUPPORT. The model's own tests: ill-formed commands, check values, one-step runs on small states, and for every
statement with hypotheses a concrete state and operands that meet them, clause by clause. -/

set_option Elab.async false

namespace Sys2Proof.Tests

open Sys2Proof Sys2Proof.Machine

/-! States. -/

/-- The link UP, nothing outstanding. -/
def up : State := (State.reset.setUplink []).setTrunk { Trunk.reset with
  up := true, linkUpPin := true, upBefore := true, syncPending := false, syncTimer := none
  silenceTimer := some 500, keepaliveTimer := some 125, peerAllow := 8 }

/-- A frame on the transmitter. -/
def txFrame : TxFrame :=
  { kind := .ctrl, reject := false, seq := 0, ackSeq := 0, allow := 8, payload := [], goBack := false }

/-- The link's registers changed. -/
def withTrunk (s : State) (f : Trunk → Trunk) : State := s.setTrunk (f s.trunk)

/-- The transmitter busy. -/
def busy (s : State) : State := withTrunk s (fun t => { t with tx := some txFrame })

/-- The pool changed. -/
def withPool (s : State) (f : Pool → Pool) : State := s.setPool (f s.pool)

/-- The timebase moved on. -/
def at_ (s : State) (n : Nat) : State := { s with clock := n }

/-- A profile in service. -/
def prof : Profile := { Profile.default with enabled := true }

/-- A controller request. -/
def req : Request :=
  { tag := 7, urgent := false, noReply := false, suppressRetry := false, expectLen := none, payload := [0x41, 0x42],
    arrival := 0 }

/-- It in hand, with its reservation of 9 blocks. -/
def inHand : Txn := { Txn.start (.request req) with reservation := some 9 }

/-- Line 1 in service, then changed; the pool holds a reservation of 9 blocks, a payload of 1 and a slot. -/
def onLine (f : Line → Line) : State :=
  (withPool up (fun p => { p with free := 1014, reserved := 9, held := 1, slotsUsed := 1 })).modLine 0
    (fun l => f { l with txn := .idle, applied := prof })

/-- A frame that holds these records, at the head of the intake list. -/
def withRecords (s : State) (b : List Byte) : State :=
  s.setIntake { s.intake with frames := [{ seq := 0, payload := b, offset := 0 }] }

/-- A MGMT_REQUEST with Tag 9. -/
def mgmt (code : Byte) (params : List Byte) : MgmtRequest := { tag := 9, code := code, params := params }

/-- The bytes of a management request's record. -/
def mgmtBytes (m : MgmtRequest) : List Byte :=
  [0x20] ++ natHalf (6 + m.params.length) ++ halfBytes m.tag ++ [m.code] ++ m.params

/-- The state with that management request to dispatch. -/
def asking (s : State) (m : MgmtRequest) : State := withRecords s (mgmtBytes m)

/-- The LINE_REQUEST the tests dispatch. -/
def lineReq (line : Byte) (expect : Option Nat) (payload : List Byte) : LineRequest :=
  { tag := 7, line := line, urgent := false, noReply := false, suppressRetry := false, expectLen := expect,
    payload := payload }

/-- The bytes of its record. -/
def lineReqBytes (r : LineRequest) : List Byte :=
  match r.expectLen with
  | none => [0x10] ++ natHalf (7 + r.payload.length) ++ halfBytes r.tag ++ [r.line, 0] ++ r.payload
  | some n => [0x10] ++ natHalf (8 + r.payload.length) ++ halfBytes r.tag ++ [r.line, 4, natByte n] ++ r.payload

/-- The state with that request to dispatch. -/
def requesting (s : State) (r : LineRequest) : State := withRecords s (lineReqBytes r)

/-- A frame with its CRC. -/
def sealed (head : List Byte) : List Byte := head ++ wordBytes (frameCrc head)

/-- A poll definition on line 1. -/
def pollDef : PollDef :=
  { line := 0, period := 1, phase := 0, mode := .change, forceEvery := 0, expectLen := none, request := [0x55] }

/-- A poll entry. -/
def entry (st : PollState) (due : Option Nat) : Poll :=
  { state := st, defn := pollDef, nextDue := due, pollSeq := 0, lastDigest := none, lastOutcome := none, missed := 0,
    suppressed := 0 }

/-- The poll of entry 127 in hand. -/
def pollInHand : Txn := { Txn.start (.poll 127 0) with reservation := some 9 }

/-- A reply received so far. -/
def gotten (b : List Byte) (e : Option Nat) : Assembly := { kept := b, count := b.length, overlong := false, errorAt := e }

/-- An unsolicited frame received so far. -/
def unsol (m : UnsolMode) (b : List Byte) : Unsolicited := { mode := m, frame := gotten b none, late := none }

/-- What a command leaves, where it leaves a state. -/
def after (c : Instr) (s : State) : State :=
  match exec c s with
  | .next t => t
  | .fault _ => s
  | .refused _ => s

/-- The state stands between two steps. -/
abbrev settled (s : State) : Prop := s.late = [] ∧ s.granted = []

/-- Between two steps with nobody waiting: a release serves no waiter (`test_calm`). -/
abbrev calm (s : State) : Prop := settled s ∧ s.pool.waitList = []

theorem test_calm (s : State) (h : calm s) : s.between ∧ s.headWaits ∧ (∀ n k, s.unserved n k) ∧ ∀ f, s.ackServesNone f := by
  obtain ⟨h, e⟩ := h
  have no : ∀ w ws, s.pool.waitList = w :: ws → False := fun w ws k => by simp [e] at k
  exact ⟨h, fun w ws k => (no w ws k).elim, fun n k w ws x => (no w ws x).elim, fun f _ w ws x => (no w ws x).elim⟩

theorem test_settled (s : State) (h : settled s) : s.between := h

/-- No head of the wait list passes with so many more blocks and slots free, as data. -/
abbrev servesNone (n k : Nat) (s : State) : Prop :=
  s.pool.waitList.head?.all (fun w => !Pool.passes
    { s.pool with free := s.pool.free + n, slotsUsed := s.pool.slotsUsed - k } w.need) = true

theorem test_servesNone (n k : Nat) (s : State) (h : servesNone n k s) : s.unserved n k := by
  intro w ws e
  simpa [servesNone, e] using h

theorem test_headWaits (s : State) (h : servesNone 0 0 s) : s.headWaits := fun w ws e => by
  simpa using test_servesNone 0 0 s h w ws e

/-! Ill-formed commands. -/

/-- A frame shorter than 10 bytes is no DATA frame. -/
theorem test_wf_dataFrame : (Instr.dataFrame [0x01, 0, 0, 8, 0, 0]).wf = false := by decide +kernel
/-- A DATA frame is no CTRL frame. -/
theorem test_wf_ctrlFrame : (Instr.ctrlFrame (sealed [0x01, 0, 0, 8, 0, 0])).wf = false := by decide +kernel
/-- A SYNC needs its sync payload. -/
theorem test_wf_sync : (Instr.sync (sealed [0x03, 0, 0, 8, 0, 0])).wf = false := by decide +kernel
/-- A frame with a wrong CRC is no SYNC_ACK. -/
theorem test_wf_syncAck : (Instr.syncAck [0x04, 0, 0, 8, 0, 4, 1, 1, 0, 0, 0, 0, 0, 0]).wf = false := by decide +kernel
/-- A good frame is no BAD_FRAME. -/
theorem test_wf_badFrame : (Instr.badFrame (sealed [0x02, 0, 0, 8, 0, 0])).wf = false := by decide +kernel

/-! Check values. -/

/-- The CRC of R139 is the one whose check value over the digits 1 to 9 is FC891918. -/
theorem test_crc_check : frameCrc [0x31, 0x32, 0x33, 0x34, 0x35, 0x36, 0x37, 0x38, 0x39] = 0xFC891918#32 := by
  decide +kernel
/-- The digest of R77 runs over the count byte and the data: the nine bytes 8, then 7 to 0. -/
theorem test_digest_bytes : digest [7, 6, 5, 4, 3, 2, 1, 0] =
    ([8, 7, 6, 5, 4, 3, 2, 1, 0] : List Byte).foldl digestByte 0xFFFF#16 := by decide +kernel

/-- A character of eight bits, EVEN parity and two stop bits, and one of seven bits without parity, as LTXn sends them. -/
theorem test_charLevels :
    ({ prof with parity := .even, stopBits := 2 } : Profile).charLevels 0xA1 =
      [false, true, false, false, false, false, true, false, true, true, true, true] ∧
    ({ prof with dataBits := 7 } : Profile).charLevels 0xC1 =
      [false, true, false, false, false, false, false, true, true] := by decide +kernel

/-! One step each. -/

theorem test_step_coldStart : step (up.setPending [.coldStart]) = .next State.reset := rfl
theorem test_step_empty : step up = .next (at_ up 1) := rfl

/-- On an empty queue, the keepalive timer at its deadline. -/
theorem test_step_expiry :
    (up.trunk.keepaliveTimer, step (at_ up 124)) = (some 125, .next (at_ up 125)) ∧
    step (at_ up 125) = exec .keepaliveTimerExpiry (at_ up 125) := ⟨rfl, rfl⟩
theorem test_step_identify :
    ((after .identify (asking up (mgmt 0x01 []))).uplink.map Record.bytes,
     (after .identify (asking up (mgmt 0x01 []))).trunk.retransmits.map (fun f => payloadOf f.records)) =
    ([], [[0xA0, 0, 23, 0, 9, 0x01, 0, 0, 0x41, 0xD3, 0x04, 0x12, 1, 12, 0x04, 0x00, 32, 128, 0x01, 0x00, 16, 8, 8]]) := by
  decide +kernel
theorem test_step_lineRequest_offline :
    ((after .lineRequest (busy (requesting up (lineReq 12 none [1])))).uplink.map Record.bytes) =
      [[0x90, 0, 10, 0, 7, 12, 0x12, 0, 0, 255]] := by decide +kernel
theorem test_step_badFrame :
    (after (.badFrame []) up).ctrs.read (.link .malformedFrames) = { value := 1, half := false } := by decide +kernel
theorem test_step_silence :
    let t := after .silenceTimerExpiry (at_ up 500)
    (t.trunk.up, t.trunk.epoch, t.trunk.cause, t.trunk.tx.map TxFrame.payload) =
      (false, 2#8, .silence, some [2, 3, 0, 0]) := by decide +kernel
theorem test_step_echo :
    ((after .echo (busy (asking up (mgmt 0x41 [1, 2, 3])))).uplink.map Record.bytes) =
      [[0xA0, 0, 11, 0, 9, 0x41, 0, 0, 1, 2, 3]] := by decide +kernel
theorem test_step_pollRun :
    (after .pollRun (asking up (mgmt 0x23 [1]))).pollRun = true := by decide +kernel
theorem test_step_characterSent :
    ((after (.characterSent 0) (onLine fun l => { l with
      txn := .sending, lde := true, charOut := some 0x41, hand := some inHand })).line 0).charOut = some 0x42 := by
  decide +kernel
theorem test_step_gapCountEnd :
    ((after (.gapCountEnd 0) (busy (onLine fun l => { l with
      txn := .receiving, gap := some 40, hand := some { inHand with reply := gotten [0x41] none } }))).uplink.map
        Record.bytes) = [[0x90, 0, 11, 0, 7, 1, 0x00, 1, 0, 255, 0x41]] := by decide +kernel

/-- Line 1 waits for 9 blocks; a completion on line 2 frees them, and line 1 sends within the same step. -/
theorem test_step_served :
    let s := withPool (((up.modLine 0 fun l => { l with
        applied := prof, txn := .waitSpace, hand := some (Txn.start (.request req)) })).modLine 1 fun l => { l with
        applied := { prof with retries := 0 }, txn := .awaiting, window := some 0, hand := some inHand })
      (fun p => { p with
        free := 16, reserved := 9, held := 999, slotsUsed := 2
        waitList := [{ who := .line 0, need := { blocks := 9, slot := false, cls := .line } }] })
    let t := after (.replyWindowExpiry 1) s
    ((t.line 0).txn, t.pool.waitList, t.pool.free, t.pool.reserved, (t.line 1).txn) = (.sending, [], 16, 9, .guard) := by
  decide +kernel

/-! The hypotheses of the statements are met: the trunk. Where a clause has a range, its boundary is taken. -/

/-- The silence and keepalive timers alone run, the next deadline one millisecond ahead, and reached. -/
theorem test_witness_EmptyQueueTakesExpiryOrMillisecond :
    (at_ up 124).pending = [] ∧ (∀ c d, (at_ up 124).deadlineOf c = some d → (at_ up 124).clock < d) ∧
    (at_ up 125).pending = [] ∧ (at_ up 125).deadlineOf .keepaliveTimerExpiry = some 125 ∧ 125 ≤ (at_ up 125).clock := by
  refine ⟨rfl, fun c d h => ?_, rfl, rfl, Nat.le_refl _⟩
  have g : ∀ i, ((at_ up 124).line i).guardEnd = none := by decide +kernel
  have r : ∀ i, ((at_ up 124).line i).window = none := by decide +kernel
  have p : ∀ id, ((at_ up 124).poll id).bind Poll.nextDue = none := by decide +kernel
  cases c <;> simp only [State.deadlineOf, g, r, p] at h <;> cases h <;> decide

theorem test_witness_FrameEncodingRoundTrip :
    (15 ≤ 15 ∧ (List.replicate 480 (0 : Byte)).length ≤ 480) ∧ (0 ≤ 15 ∧ 4 ≤ ([1, 1, 0, 0] : List Byte).length) := by
  decide +kernel

/-- A frame whose size, CRC, kind and sync payload fail in turn. -/
theorem test_witness_BadFrameIsCounted :
    (∃ b : List Byte, b.length < 10) ∧ (∃ b : List Byte, 490 < b.length) ∧
    (∃ b : List Byte, b.length ≠ 10 + (halfAt b 4).toNat ∧ 10 ≤ b.length ∧ b.length ≤ 490) ∧
    (∃ b : List Byte, b.length = 10 + (halfAt b 4).toNat ∧ b.drop (b.length - 4) ≠
      wordBytes (frameCrc (b.take (b.length - 4)))) ∧
    (∃ b : List Byte, b.length = 10 + (halfAt b 4).toNat ∧ b.drop (b.length - 4) =
      wordBytes (frameCrc (b.take (b.length - 4))) ∧ FrameKind.ofCode (byteAt b 0) = none) ∧
    (∃ b : List Byte, b.length = 10 + (halfAt b 4).toNat ∧ b.drop (b.length - 4) =
      wordBytes (frameCrc (b.take (b.length - 4))) ∧ FrameKind.ofCode (byteAt b 0) = some .sync ∧ (halfAt b 4).toNat < 4) ∧
    settled State.reset :=
  ⟨⟨List.replicate 9 0, by decide +kernel⟩, ⟨List.replicate 491 0, by decide +kernel⟩,
    ⟨[1, 0, 0, 8, 0, 1, 0, 0, 0, 0], by decide +kernel⟩, ⟨[1, 0, 0, 8, 0, 0, 0, 0, 0, 0], by decide +kernel⟩,
    ⟨sealed [5, 0, 0, 8, 0, 0], by decide +kernel⟩, ⟨sealed [3, 0, 0, 8, 0, 3, 1, 1, 0], by decide +kernel⟩, by decide +kernel⟩

theorem test_witness_FramesInDownDiscarded :
    State.reset.trunk.up = false ∧ settled State.reset ∧ (frameOf .data (sealed [1, 0, 0, 8, 0, 0])).isSome = true ∧
      (frameOf .ctrl (sealed [2, 0, 0, 8, 0, 0])).isSome = true := by decide +kernel

/-- Seven slots occupied. -/
theorem test_witness_DataFrameAccepted :
    ∃ s : State, (frameOf .data (sealed [1, 5, 0, 8, 0, 0])).map RxFrame.seq = some s.trunk.expectSeq ∧
      s.trunk.up = true ∧ calm s ∧ s.intake.frames.length = 7 ∧ s.trunk.tx.isSome = true ∧ s.cfg.ackDelay ≠ 0 :=
  ⟨busy (withTrunk (up.setIntake { frames := List.replicate 7 { seq := 0, payload := [0x10], offset := 0 }
                                   stall := none, holdTimer := none }) (fun t => { t with expectSeq := 5 })),
    by decide +kernel⟩

/-- With AckDelay 0. -/
theorem test_witness_DataFrameAccepted_noDelay :
    ∃ s : State, (frameOf .data (sealed [1, 0, 0, 8, 0, 0])).map RxFrame.seq = some s.trunk.expectSeq ∧
      s.trunk.up = true ∧ calm s ∧ s.intake.frames.length < 8 ∧ s.trunk.tx.isSome = true ∧ s.cfg.ackDelay = 0 ∧
      s.trunk.ackDelayTimer = none :=
  ⟨busy (up.setCfg { LinkConfig.default with ackDelay := 0 }), by decide +kernel⟩

/-- Eight slots occupied; the distances 1, 8, 9 and 63. -/
theorem test_witness_DataFrameTurnedAway :
    (∃ s : State, (frameOf .data (sealed [1, 0, 0, 8, 0, 0])).map RxFrame.seq = some s.trunk.expectSeq ∧
      s.trunk.up = true ∧ calm s ∧ 8 ≤ s.intake.frames.length) ∧
    (∃ s : State, s.trunk.up = true ∧ calm s ∧ (s.trunk.expectSeq - (0 : Seq)).toNat = 1 ∧ s.trunk.tx.isSome = true) ∧
    (∃ s : State, s.trunk.up = true ∧ calm s ∧ (s.trunk.expectSeq - (0 : Seq)).toNat = 8) ∧
    (∃ s : State, s.trunk.up = true ∧ calm s ∧ (s.trunk.expectSeq - (0 : Seq)).toNat = 9) ∧
    (∃ s : State, s.trunk.up = true ∧ calm s ∧ (s.trunk.expectSeq - (0 : Seq)).toNat = 63 ∧ s.trunk.tx.isSome = true) :=
  ⟨⟨up.setIntake { frames := List.replicate 8 { seq := 0, payload := [0x10], offset := 0 }
                   stall := none, holdTimer := none }, by decide +kernel⟩,
    ⟨busy (withTrunk up (fun t => { t with expectSeq := 1 })), by decide +kernel⟩,
    ⟨withTrunk up (fun t => { t with expectSeq := 8 }), by decide +kernel⟩,
    ⟨withTrunk up (fun t => { t with expectSeq := 9 }), by decide +kernel⟩,
    ⟨busy (withTrunk up (fun t => { t with expectSeq := 63 })), by decide +kernel⟩⟩

/-- Two frames outstanding. -/
def outstanding : State := withTrunk up (fun t => { t with
  nextSeq := 2, retransmits := [{ seq := 0, records := [coldStartRecord], toResend := false },
    { seq := 1, records := [], toResend := false }], retransmitTimer := some 50 })

/-- AckSeq one past NextSeq, at NextSeq, and one frame before it with a Reject. -/
theorem test_witness_CtrlHeaderTaken :
    (frameOf .ctrl (sealed [2, 0, 3, 8, 0, 0])).map RxFrame.ackSeq = some 3 ∧
    (frameOf .ctrl (sealed [2, 0, 2, 8, 0, 0])).map RxFrame.ackSeq = some 2 ∧
    (frameOf .ctrl (sealed [2, 0x80, 1, 8, 0, 0])).map (fun f => (f.ackSeq, f.reject)) = some (1, true) ∧
    outstanding.trunk.up = true ∧ settled outstanding ∧
    (outstanding.trunk.nextSeq - outstanding.trunk.peerAck).toNat < ((3 : Seq) - outstanding.trunk.peerAck).toNat ∧
    ((2 : Seq) - outstanding.trunk.peerAck).toNat = (outstanding.trunk.nextSeq - outstanding.trunk.peerAck).toNat ∧
    outstanding.trunk.goBack = false ∧
    outstanding.trunk.retransmits.drop ((1 : Seq) - outstanding.trunk.peerAck).toNat ≠ [] := by decide +kernel

/-- Two frames outstanding, the first of them with a record of `n` blocks, in a go-back or not. -/
def resending (g left : Bool) (n : Nat) : State := busy (withTrunk up (fun t => { t with
  nextSeq := 2, goBack := g, retransmits := [{ seq := 0, records := [{ coldStartRecord with blocks := n }], toResend := left },
    { seq := 1, records := [], toResend := left }] }))

/-- No go-back; one with frames still to resend; one that ends. FreeCount at LowMark; a release that just reaches HighMark with
the last event slot free. -/
theorem test_witness_CtrlHeaderTaken_timers :
    (frameOf .ctrl (sealed [2, 0, 1, 8, 0, 0])).map (fun f => (f.ackSeq, f.reject)) = some (1, false) ∧
    (∃ s, s = resending false false 1 ∧ calm s ∧ s.trunk.up = true ∧ s.trunk.goBack = false ∧ s.trunk.tx.isSome = true) ∧
    (∃ s, s = resending true true 1 ∧ calm s ∧ s.trunk.up = true ∧ s.trunk.goBack = true ∧ s.trunk.tx.isSome = true ∧
      (s.trunk.retransmits.drop 1).any SentFrame.toResend = true) ∧
    (∃ s, s = resending true false 1 ∧ calm s ∧ s.trunk.up = true ∧ s.trunk.goBack = true ∧ s.trunk.tx.isSome = true ∧
      (s.trunk.retransmits.drop 1).any SentFrame.toResend = false ∧ s.trunk.tx.any TxFrame.goBack = false) ∧
    (∃ s, calm s ∧ s.trunk.up = true ∧ s.trunk.tx.isSome = true ∧ (s.ctrs.read (.link .framesReceived)).value = 32766 ∧
      s.pool.hold = false ∧ s.cfg.lowMark = s.pool.free) ∧
    (∃ s, calm s ∧ s.trunk.up = true ∧ s.trunk.tx.isSome = true ∧ (s.ctrs.read (.link .framesReceived)).value = 0 ∧
      ((s.trunk.retransmits.take 1).map SentFrame.records).flatten.map Record.blocks = [1] ∧ 1 = s.pool.held ∧
      s.pool.hold = true ∧ s.cfg.highMark = s.pool.free + 1 ∧ s.pool.eventsUsed = 15) :=
  ⟨by decide +kernel, ⟨_, rfl, by decide +kernel⟩, ⟨_, rfl, by decide +kernel⟩, ⟨_, rfl, by decide +kernel⟩,
    ⟨(withPool (resending false false 1) (fun p => { p with free := 64 })).setCtrs
      (Counters.reset.write (.link .framesReceived) { value := 32766, half := false }), by decide +kernel⟩,
    ⟨withPool (resending false false 1) (fun p => { p with free := 127, held := 1, hold := true, eventsUsed := 15 }),
      by decide +kernel⟩⟩

/-- A SYNC of epoch 5. -/
def syncFrame : List Byte := sealed [3, 0, 0, 8, 0, 4, 5, 1, 0, 0]

/-- In DOWN with 13 event slots taken, transmitter free and busy; and in UP. -/
theorem test_witness_SyncTaken :
    (frameOf .sync syncFrame).isSome = true ∧
    (∃ s : State, settled s ∧ s.trunk.up = false ∧ s.pollRun = false ∧ s.trunk.upBefore = true ∧
      s.pool.eventsUsed + 3 = 16 ∧ s.trunk.tx = none) ∧
    (∃ s : State, settled s ∧ s.trunk.up = false ∧ s.trunk.tx.isSome = true) ∧
    (∃ s : State, settled s ∧ s.trunk.up = true ∧ s.trunk.retransmits ≠ []) :=
  ⟨by decide +kernel,
    ⟨withTrunk (withPool State.reset (fun p => { p with eventsUsed := 13 })) (fun t => { t with upBefore := true }),
      by decide +kernel⟩, ⟨busy State.reset, by decide +kernel⟩, ⟨outstanding, by decide +kernel⟩⟩

theorem test_witness_SyncAckTaken :
    (frameOf .syncAck (sealed [4, 0, 0, 8, 0, 4, 1, 1, 0, 0])).map (fun f => byteAt f.payload 0) =
      some State.reset.trunk.epoch ∧ State.reset.trunk.up = false ∧ State.reset.trunk.syncAckPending = none ∧
    State.reset.pollRun = false ∧ settled State.reset ∧ up.trunk.up = true ∧ settled up ∧
    (frameOf .syncAck (sealed [4, 0, 0, 8, 0, 4, 2, 1, 0, 0])).map (fun f => byteAt f.payload 0) = some 2 ∧
    (2 : Byte) ≠ State.reset.trunk.epoch := by decide +kernel

/-- Every entry of `s` is `p` at 127. -/
theorem test_onlyPoll (s : State) (p : Poll) (h : s.polls = Vector.set (.replicate 128 none) 127 (some p)) (id : Fin 128)
    (q : Poll) (e : s.poll id = some q) : id = 127 ∧ q = p := by
  have key : ∀ id : Fin 128, (Vector.set (.replicate 128 (none : Option Poll)) 127 (some p)).get id =
      if id = 127 then some p else none := by
    intro id
    simp only [Vector.get_eq_getElem, Vector.getElem_set, Vector.getElem_replicate, Fin.ext_iff]
    simp only [eq_comm (a := (127 : ℕ))]
    rfl
  have := key id
  rw [← h] at this
  by_cases k : id = 127
  · rw [if_pos k] at this
    exact ⟨k, Option.some.inj (e.symm.trans this)⟩
  · rw [if_neg k] at this
    exact absurd (e.symm.trans this) (by simp)

/-- The premises of polling becoming active: an entry of Phase 0 on a line not IDLE; and one alone on an IDLE line, the last
blocks and slots free. -/
theorem test_witness_Activated (u : State) (h : u.polls = .replicate 128 none) :
    (∃ s : State, s = u.setPoll 127 (some (entry .waiting none)) ∧
      ∀ id p, s.poll id = some p → p.state ≠ .due ∧ p.defn.phase = 0 ∧ p.defn.line = 0) ∧
    (∃ s : State, s = (withPool (onLine id) (fun p => { p with free := 26, slotsUsed := 246 })).setPoll 127
        (some (entry .waiting none)) ∧ (s.line 0).txn = .idle ∧ (s.line 0).listen = .quiet ∧ (s.line 0).queue = [] ∧
      s.pool.waitList = [] ∧ Config.blocksFor (11 + (s.line 0).applied.maxReply) + 17 = s.pool.free ∧
      s.pool.slotsUsed + 10 = 256) := by
  refine ⟨⟨_, rfl, fun id p e => ?_⟩, ⟨_, rfl, by decide +kernel⟩⟩
  obtain ⟨-, rfl⟩ := test_onlyPoll _ (entry .waiting none) (by simp [State.setPoll, h]) id p e
  decide

/-- With PollRun on: SYNC and SYNC_ACK in DOWN. -/
theorem test_witness_SyncTaken_polling :
    ∃ s : State, settled s ∧ s.trunk.up = false ∧ s.pollRun = true ∧ s.trunk.syncAckPending = none ∧
      s.polls = .replicate 128 none ∧ ∀ i, (s.line i).due = [] :=
  ⟨State.reset.setPollRun true, by decide +kernel, rfl, rfl, rfl, rfl, by decide +kernel⟩

/-- At the deadline. -/
theorem test_witness_SilenceTakesLinkDown :
    settled (at_ up 500) ∧ (at_ up 500).trunk.up = true ∧ (at_ up 500).trunk.silenceTimer = some 500 ∧ 500 ≤ (at_ up 500).clock := by decide +kernel

/-- The last expiry that goes back, and the first that does not. -/
theorem test_witness_RetransmitExpiry :
    (∃ s : State, s.trunk.up = true ∧ s.trunk.retransmitTimer = some 50 ∧ 50 ≤ s.clock ∧
      s.trunk.expiries + 1 = s.cfg.maxRetransmits ∧ s.trunk.retransmits ≠ [] ∧ settled s ∧ s.trunk.tx.isSome = true) ∧
    (∃ s : State, s.trunk.up = true ∧ s.trunk.retransmitTimer = some 50 ∧ 50 ≤ s.clock ∧
      s.cfg.maxRetransmits < s.trunk.expiries + 1 ∧ settled s) :=
  ⟨⟨busy (withTrunk (at_ outstanding 50) (fun t => { t with expiries := 5 })), by decide +kernel⟩,
    ⟨withTrunk (at_ outstanding 50) (fun t => { t with expiries := 6 }), by decide +kernel⟩⟩

theorem test_witness_SyncTimerExpiry :
    ∃ s : State, s.trunk.up = false ∧ s.trunk.syncTimer = some 100 ∧ 100 ≤ s.clock ∧ settled s ∧ s.trunk.tx = none :=
  ⟨at_ State.reset 100, by decide +kernel⟩

theorem test_witness_KeepaliveExpiry :
    (∃ s : State, s.trunk.up = true ∧ s.trunk.keepaliveTimer = some 125 ∧ 125 ≤ s.clock ∧ settled s ∧
      s.trunk.tx = none) ∧
    (∃ s : State, s.trunk.up = true ∧ s.trunk.keepaliveTimer = some 125 ∧ 125 ≤ s.clock ∧ settled s ∧
      s.trunk.tx.isSome = true) :=
  ⟨⟨at_ up 125, by decide +kernel⟩, ⟨busy (at_ up 125), by decide +kernel⟩⟩

theorem test_witness_AckDelayExpiry :
    (∃ s : State, s.trunk.up = true ∧ s.trunk.ackDelayTimer = some 2 ∧ 2 ≤ s.clock ∧ settled s ∧
      s.trunk.tx = none ∧ s.trunk.ackPending = true) ∧
    (∃ s : State, s.trunk.up = true ∧ s.trunk.ackDelayTimer = some 2 ∧ 2 ≤ s.clock ∧ settled s ∧
      s.trunk.tx.isSome = true) :=
  ⟨⟨withTrunk (at_ up 2) (fun t => { t with ackPending := true, ackDelayTimer := some 2 }), by decide +kernel⟩,
    ⟨busy (withTrunk (at_ up 2) (fun t => { t with ackPending := true, ackDelayTimer := some 2 })), by decide +kernel⟩⟩

/-- One state for each choice of the arbiter; the offer with seven frames outstanding. -/
theorem test_witness_ArbiterOrder :
    let free := fun s : State => settled s ∧ s.trunk.tx.isSome = true
    (∃ s : State, free s ∧ s.trunk.up = false ∧ s.trunk.syncPending = true) ∧
    (∃ s : State, free s ∧ s.trunk.up = false ∧ s.trunk.syncPending = false) ∧
    (∃ s : State, free s ∧ s.trunk.up = true ∧ s.trunk.syncAckPending = some 5) ∧
    (∃ s : State, free s ∧ s.trunk.up = true ∧ s.trunk.syncAckPending = none ∧ s.trunk.ctrlNow = true) ∧
    (∃ s : State, free s ∧ s.trunk.up = true ∧ s.trunk.syncAckPending = none ∧ s.trunk.ctrlNow = false ∧
      s.trunk.goBack = true ∧ (s.trunk.retransmits.find? SentFrame.toResend).isSome = true) ∧
    (∃ s : State, free s ∧ s.trunk.up = true ∧ s.trunk.syncAckPending = none ∧ s.trunk.ctrlNow = false ∧
      s.trunk.goBack = false ∧ s.trunk.retransmits.length = 7 ∧ s.trunk.peerAllow = 8 ∧
      s.uplink ≠ [] ∧ s.uplink.any Record.urgent = true) ∧
    (∃ s : State, free s ∧ s.trunk.up = true ∧ s.trunk.syncAckPending = none ∧ s.trunk.ctrlNow = false ∧
      s.trunk.goBack = false ∧ s.uplink = [] ∧ s.trunk.ackOnly = true) ∧
    (∃ s : State, free s ∧ s.trunk.up = true ∧ s.trunk.syncAckPending = none ∧ s.trunk.ctrlNow = false ∧
      s.trunk.goBack = false ∧ s.uplink = [] ∧ s.trunk.ackOnly = false ∧ s.trunk.keepaliveDue = false) :=
  ⟨⟨busy State.reset, by decide +kernel⟩,
    ⟨busy (withTrunk State.reset (fun t => { t with syncPending := false })), by decide +kernel⟩,
    ⟨busy (withTrunk up (fun t => { t with syncAckPending := some 5 })), by decide +kernel⟩,
    ⟨busy (withTrunk up (fun t => { t with opening := true })), by decide +kernel⟩,
    ⟨busy (withTrunk up (fun t => { t with
      goBack := true, nextSeq := 1, retransmits := [{ seq := 0, records := [], toResend := true }] })),
      by decide +kernel⟩,
    ⟨busy (withTrunk (up.setUplink [coldStartRecord]) (fun t => { t with
      nextSeq := 7, retransmits := (List.range 7).map (fun k => { seq := BitVec.ofNat 6 k, records := [], toResend := false }) })),
      by decide +kernel⟩,
    ⟨busy (withTrunk up (fun t => { t with ackOnly := true })), by decide +kernel⟩, ⟨busy up, by decide +kernel⟩⟩

/-- A go-back that ends with frames left. -/
theorem test_witness_ArbiterOrder_goBackEnds :
    ∃ s : State, settled s ∧ s.trunk.tx.isSome = true ∧ s.trunk.up = true ∧ s.trunk.goBack = true ∧
      s.trunk.retransmits.find? SentFrame.toResend = none ∧ s.trunk.retransmits ≠ [] :=
  ⟨resending true false 1, by decide +kernel⟩

/-- 480 bytes take 43 of 44 events of 11 bytes. -/
theorem test_witness_FramePacking :
    ∃ r rest, List.replicate 44 coldStartRecord = takeFit 480 (List.replicate 44 coldStartRecord) ++ r :: rest :=
  ⟨coldStartRecord, [], by decide +kernel⟩

theorem test_witness_DelayDeadlineBuildsFrame :
    ∃ s : State, s.uplink = [coldStartRecord] ∧ coldStartRecord.deadline ≤ s.clock ∧ settled s ∧ s.trunk.up = true ∧
      s.trunk.tx = none ∧ s.trunk.syncAckPending = none ∧ s.trunk.ctrlNow = false ∧ s.trunk.goBack = false ∧
      s.trunk.retransmits.length < min 8 s.trunk.peerAllow :=
  ⟨at_ (up.setUplink [coldStartRecord]) 5, by decide +kernel⟩

/-! The hypotheses of the statements are met: pool, counters, intake. -/

/-- The smallest pools that pass, in each class. -/
theorem test_witness_ClassTest :
    (∃ s : State, 9 + 16 = s.pool.free ∧ s.pool.slotsUsed + 1 + 8 = 256) ∧
    (∃ s : State, 9 = s.pool.free ∧ s.pool.slotsUsed + 1 = 256) :=
  ⟨⟨withPool up (fun p => { p with free := 25, slotsUsed := 247 }), by decide +kernel⟩,
    ⟨withPool up (fun p => { p with free := 9, slotsUsed := 255 }), by decide +kernel⟩⟩

/-- An allocation that takes FreeCount just below LowMark, with the last event slot free. -/
theorem test_witness_ClassTest_hold :
    ∃ s : State, 9 + 16 ≤ s.pool.free ∧ s.pool.hold = false ∧ s.pool.free - 9 + 1 = s.cfg.lowMark ∧ s.pool.eventsUsed = 15 :=
  ⟨withPool up (fun p => { p with free := 72, eventsUsed := 15 }), by decide +kernel⟩

/-- A line waits with the intake unit behind it. -/
def waiting (free : Nat) (l : Listen) : State :=
  (withPool up (fun p => { p with
    free := free
    waitList := [{ who := .line 0, need := { blocks := 9, slot := false, cls := .line } },
      { who := .intake, need := { blocks := 9, slot := true, cls := .line } }] })).modLine 0
    (fun m => { m with applied := prof, txn := .waitSpace, listen := l, hand := some (Txn.start (.request req)) })

/-- A head one block short; a head that just passes with the next one failing, as things stand and once a block is freed by an
acknowledgement or 9 by a completion on line 2. -/
theorem test_witness_WaitListGrant :
    let n : Need := { blocks := 9, slot := false, cls := .line }
    let next : Need := { blocks := 9, slot := true, cls := .line }
    let served := fun (s : State) (free : Nat) => (s.line 0).txn = .waitSpace ∧
      (s.line 0).hand = some (Txn.start (.request req)) ∧
      s.pool.waitList = [{ who := .line 0, need := n }, { who := .intake, need := next }] ∧
      Pool.passes { s.pool with free := free } n = true ∧ Pool.passes { s.pool with free := free - 9 } next = false
    (settled (waiting 24 .quiet) ∧ servesNone 0 0 (waiting 24 .quiet) ∧ (waiting 24 .quiet).pool.waitList ≠ []) ∧
    (∃ s, s = waiting 25 .brk ∧ settled s ∧ served s s.pool.free) ∧
    (∃ s, settled s ∧ s.trunk.up = true ∧ served s (s.pool.free + 1) ∧ s.pool.free = 24 ∧ s.pool.held = 1 ∧
      (s.trunk.retransmits.map (fun f => (f.records.map Record.blocks).sum)) = [1] ∧
      ((1 : Seq) - s.trunk.peerAck).toNat = (s.trunk.nextSeq - s.trunk.peerAck).toNat) ∧
    (∃ s, settled s ∧ servesNone 0 0 s ∧ served s (s.pool.free + (9 - 1) + payloadBlocks req.payload) ∧ s.pool.free = 16 ∧
      (s.line 1).hand = some inHand ∧ (s.line 1).txn = .awaiting ∧ (s.line 1).window = some s.clock ∧
      inHand.retried (s.line 1).applied .noReply = false ∧ (s.line 1).applied.guardTime ≠ 0 ∧ 9 ≤ s.pool.reserved ∧
      payloadBlocks req.payload ≤ s.pool.held) :=
  ⟨by decide +kernel, ⟨_, rfl, by decide +kernel⟩,
    ⟨withPool (withTrunk (waiting 24 .brk) (fun t => { t with
      nextSeq := 1, retransmits := [{ seq := 0, records := [{ coldStartRecord with blocks := 1 }], toResend := false }] }))
      (fun p => { p with held := 1 }), by decide +kernel⟩,
    ⟨withPool ((waiting 16 .brk).modLine 1 (fun l => { l with
      applied := { prof with retries := 0 }, txn := .awaiting, window := some 0, hand := some inHand }))
      (fun p => { p with reserved := 9, held := 1 }), by decide +kernel⟩⟩

/-- CrcErrors one below the half range, the event store with one slot free and full, EventsMissed at 0 and one below. -/
theorem test_witness_CounterIncrease :
    let c := CtrId.link .crcErrors
    let near := (Counters.reset.write c { value := 32767, half := false })
    let m := CtrId.pool .eventsMissed
    checkFrame [1, 0, 0, 8, 0, 0, 0, 0, 0, 0] = .crcError ∧ near.read c = { value := 32767, half := false } ∧
    (near.read m).crosses = false ∧ ((near.write m { value := 32767, half := false }).read m).crosses = true ∧
    (∃ s : State, s.ctrs = near ∧ settled s ∧ s.pool.eventsUsed = 15) ∧
    (∃ s : State, s.ctrs = near ∧ settled s ∧ 16 ≤ s.pool.eventsUsed ∧ s.trunk.tx.isSome = true) ∧
    (∃ s : State, s.ctrs = near.write m { value := 32767, half := false } ∧ settled s ∧ 16 ≤ s.pool.eventsUsed ∧
      s.trunk.tx.isSome = true) := by
  refine ⟨by decide +kernel, by decide +kernel, by decide +kernel, by decide +kernel,
    ⟨(withPool up (fun p => { p with eventsUsed := 15 })).setCtrs _, rfl, ⟨rfl, rfl⟩, rfl⟩,
    ⟨(busy (withPool up (fun p => { p with eventsUsed := 16 }))).setCtrs _, rfl, ⟨rfl, rfl⟩, by decide, rfl⟩,
    ⟨(busy (withPool up (fun p => { p with eventsUsed := 16 }))).setCtrs _, rfl, ⟨rfl, rfl⟩, by decide, rfl⟩⟩

/-- The longest payload, ExpectLen at MaxReply, the last place of the queue, the last block and slot of line class. -/
theorem test_witness_LineRequestQueued :
    ∃ (r : LineRequest) (s : State), s.headRecord = some (.lineRequest r) ∧ r.line = lineByte 0 ∧
      (s.line 0).txn = .guard ∧ (s.line 0).queue.length + 1 = (s.line 0).applied.queueDepth ∧ r.payload.length = 255 ∧
      r.expectLen = some (s.line 0).applied.maxReply ∧ s.pool.waitList = [] ∧
      (r.payload.length + 31) / 32 + 16 = s.pool.free ∧ s.pool.slotsUsed + 9 = 256 ∧ settled s :=
  ⟨lineReq 1 (some 255) (List.replicate 255 0x41),
    requesting (withPool (onLine fun l => { l with txn := .guard, queue := List.replicate 7 req })
      (fun p => { p with free := 24, slotsUsed := 247 })) (lineReq 1 (some 255) (List.replicate 255 0x41)),
    by decide +kernel⟩

theorem test_witness_RequestOnIdleLine :
    ∃ (r : LineRequest) (s : State), s.headRecord = some (.lineRequest r) ∧ r.line = lineByte 0 ∧
      (s.line 0).txn = .idle ∧ (s.line 0).listen = .quiet ∧ (s.line 0).queue = [] ∧ (s.line 0).due = [] ∧
      1 ≤ (s.line 0).applied.queueDepth ∧ r.payload.length = 1 ∧ r.expectLen = some 1 ∧
      1 ≤ (s.line 0).applied.maxReply ∧ s.pool.waitList = [] ∧ r.noReply = false ∧
      (r.payload.length + 31) / 32 + (10 + (s.line 0).applied.maxReply + 31) / 32 + 16 = s.pool.free ∧
      s.pool.slotsUsed + 9 = 256 ∧ settled s :=
  ⟨lineReq 1 (some 1) [0x41], requesting (withPool (onLine id) (fun p => { p with free := 26, slotsUsed := 247 }))
    (lineReq 1 (some 1) [0x41]), by decide +kernel⟩

/-- Each refusal, the last block and slot for its REPLY. -/
theorem test_witness_LineRequestRefused :
    let last := fun s : State => s.pool.waitList = [] ∧ s.pool.free = 1 ∧ s.pool.slotsUsed + 1 = 256 ∧ settled s
    (∃ s : State, last s ∧ s.headRecord = some (.lineRequest (lineReq 13 none [1])) ∧ ∀ i, (13 : Byte) ≠ lineByte i) ∧
    (∃ s : State, last s ∧ s.headRecord = some (.lineRequest (lineReq 12 none [1])) ∧ (s.line 11).txn = .offline) ∧
    (∃ s : State, last s ∧ s.headRecord = some (.lineRequest (lineReq 1 none [1])) ∧ (s.line 0).txn ≠ .offline ∧
      (s.line 0).applied.queueDepth = (s.line 0).queue.length) ∧
    (∃ s : State, last s ∧ s.headRecord = some (.lineRequest (lineReq 1 none [])) ∧ (s.line 0).txn ≠ .offline ∧
      (s.line 0).queue.length < (s.line 0).applied.queueDepth) ∧
    (∃ s : State, last s ∧ s.headRecord = some (.lineRequest (lineReq 1 none (List.replicate 256 1))) ∧
      (s.line 0).txn ≠ .offline ∧ (s.line 0).queue.length < (s.line 0).applied.queueDepth) ∧
    (∃ s : State, last s ∧ s.headRecord = some (.lineRequest (lineReq 1 (some 0) [1])) ∧ (s.line 0).txn ≠ .offline ∧
      (s.line 0).queue.length < (s.line 0).applied.queueDepth) ∧
    (∃ s : State, last s ∧ s.headRecord = some (.lineRequest (lineReq 1 (some 9) [1])) ∧ (s.line 0).txn ≠ .offline ∧
      (s.line 0).applied.maxReply = 8) := by
  intro last
  let poor := fun s : State => withPool s (fun p => { p with free := 1, slotsUsed := 255 })
  exact ⟨⟨poor (requesting up (lineReq 13 none [1])), by decide +kernel⟩,
    ⟨poor (requesting up (lineReq 12 none [1])), by decide +kernel⟩,
    ⟨poor (requesting (onLine fun l => { l with queue := List.replicate 8 req }) (lineReq 1 none [1])), by decide +kernel⟩,
    ⟨poor (requesting (onLine id) (lineReq 1 none [])), by decide +kernel⟩,
    ⟨poor (requesting (onLine id) (lineReq 1 none (List.replicate 256 1))), by decide +kernel⟩,
    ⟨poor (requesting (onLine id) (lineReq 1 (some 0) [1])), by decide +kernel⟩,
    ⟨poor (requesting (onLine fun l => { l with applied := { prof with maxReply := 8 } }) (lineReq 1 (some 9) [1])),
      by decide +kernel⟩⟩

/-- One block short, with the wait list empty; and a waiter ahead. -/
theorem test_witness_DispatchStalls :
    let r := lineReq 1 none [1]
    let m := mgmt 0x41 [1]
    (∃ s : State, settled s ∧ s.headRecord = some (.lineRequest r) ∧ s.dispatchRefusal r = none ∧
      s.pool.passes { blocks := 1, slot := true, cls := .line } = false ∧ s.pool.free = 16) ∧
    (∃ s : State, settled s ∧ s.headRecord = some (.lineRequest r) ∧ s.dispatchRefusal r = some .lineOffline ∧
      s.pool.waitList ≠ []) ∧
    (∃ s : State, settled s ∧ s.headRecord = some (.command m) ∧ commandOf m.code ≠ some .restart ∧
      s.pool.passes { blocks := m.blocks, slot := true, cls := .response } = false ∧ s.pool.free = 0) := by
  intro r m
  exact ⟨⟨withPool (requesting (onLine id) r) (fun p => { p with free := 16 }), by decide +kernel⟩,
    ⟨withPool (requesting up r) (fun p => { p with waitList := [{ who := .line 3, need := { blocks := 9, slot := false, cls := .line } }] }),
      by decide +kernel⟩,
    ⟨withPool (asking up m) (fun p => { p with free := 0 }), by decide +kernel⟩⟩

/-- Each way a record is malformed. -/
theorem test_witness_MalformedRecordDiscardsFrame :
    let bad := fun b : List Byte => (withRecords up b).intake.stall = none ∧ (0 : Nat) < b.length ∧ malformedAt b
    bad [0x20, 0] ∧ bad [0x20, 0, 7, 0, 0, 0] ∧ bad [0x90, 0, 6, 0, 0, 0] ∧ bad [0x20, 0, 5, 0, 0] ∧
      bad [0x10, 0, 6, 0, 0, 1] ∧ bad [0x10, 0, 7, 0, 0, 1, 4] ∧ settled (withRecords up []) ∧
      (∃ s, settled s ∧ s.pool.eventsUsed = 15 ∧ (s.ctrs.read (.link .badRecords)).value = 32766) := by
  have m : ∀ b : List Byte, 0 < b.length → malformedAt b →
      (withRecords up b).intake.stall = none ∧ (0 : Nat) < b.length ∧ malformedAt b := fun b k h => ⟨rfl, k, h⟩
  iterate 6 refine And.intro (m _ (by decide) (by unfold malformedAt; decide +kernel)) ?_
  exact ⟨by decide +kernel, ⟨(withPool up (fun p => { p with eventsUsed := 15 })).setCtrs
    (Counters.reset.write (.link .badRecords) { value := 32766, half := false }), by decide +kernel⟩⟩

/-- A stalled record. -/
def stalled (st : Stall) (ws : List Waiter) : State :=
  withPool ((at_ up 1000).setIntake { frames := [{ seq := 0, payload := lineReqBytes (lineReq 1 none [1]), offset := 0 }]
                                      stall := some st, holdTimer := some 1000 })
    (fun p => { p with
      free := 1, slotsUsed := 255, waitList := { who := .intake, need := { blocks := 1, slot := true, cls := .line } } :: ws })

theorem test_witness_HoldTimerExpiry :
    let w : Waiter := { who := .line 3, need := { blocks := 9, slot := false, cls := .line } }
    (∃ s : State, s.intake.holdTimer = some 1000 ∧ 1000 ≤ s.clock ∧ settled s ∧
      s.intake.stall = some (.payload (lineReq 1 none [1])) ∧ s.pool.waitList.filter (fun w => w.who != .intake) = [] ∧
      s.pool.free = 1 ∧ s.pool.slotsUsed + 1 = 256) ∧
    (∃ s : State, s.intake.holdTimer = some 1000 ∧ 1000 ≤ s.clock ∧ settled s ∧
      s.intake.stall = some (.payload (lineReq 1 none [1])) ∧
      s.pool.waitList.filter (fun w => w.who != .intake) = [w] ∧ s.pool.passes w.need = false) ∧
    (∃ s : State, s.intake.holdTimer = some 1000 ∧ 1000 ≤ s.clock ∧ settled s ∧
      s.intake.stall = some (.command (mgmt 0x41 [1])) ∧ s.pool.waitList.filter (fun w => w.who != .intake) = [] ∧
      s.pool.eventsUsed + 2 ≤ 16) := by
  intro w
  exact ⟨⟨stalled (.payload (lineReq 1 none [1])) [], by decide +kernel⟩,
    ⟨stalled (.payload (lineReq 1 none [1])) [w], by decide +kernel⟩,
    ⟨stalled (.command (mgmt 0x41 [1])) [], by decide +kernel⟩⟩

theorem test_witness_StalledRecordGranted :
    (∃ s : State, s.pool.waitList = [{ who := .intake, need := { blocks := 1, slot := true, cls := .response } }] ∧
      s.pool.passes { blocks := 1, slot := true, cls := .response } = true ∧ s.pool.free = 1 ∧ settled s ∧
      s.intake.stall = some (.refusal (lineReq 12 none [1]) .lineOffline) ∧ (12 : Byte) = lineByte 11) ∧
    (∃ s : State, s.pool.waitList = [{ who := .intake, need := { blocks := 1, slot := true, cls := .line } }] ∧
      s.pool.passes { blocks := 1, slot := true, cls := .line } = true ∧ s.pool.free = 17 ∧ settled s ∧
      s.intake.stall = some (.payload (lineReq 1 none [1])) ∧ (1 : Byte) = lineByte 0 ∧ (s.line 0).txn = .guard ∧
      (s.line 0).queue.length + 1 = (s.line 0).applied.queueDepth) := by
  refine ⟨⟨withPool (stalled (.refusal (lineReq 12 none [1]) .lineOffline) []) (fun p => { p with waitList :=
      [{ who := .intake, need := { blocks := 1, slot := true, cls := .response } }] }), by decide +kernel⟩,
    ⟨withPool ((stalled (.payload (lineReq 1 none [1])) []).modLine 0 (fun l => { l with
      applied := prof, txn := .guard, queue := List.replicate 7 req })) (fun p => { p with free := 17, slotsUsed := 247 }),
      by decide +kernel⟩⟩

/-- A payload refused at its join: ExpectLen above MaxReply, the line OFFLINE, the queue full; the first block just free. -/
theorem test_witness_StalledRecordGranted_refused :
    let ok := fun (r : LineRequest) (s : State) =>
      s.pool.waitList = [{ who := .intake, need := { blocks := payloadBlocks r.payload, slot := true, cls := .line } }] ∧
      s.pool.passes { blocks := payloadBlocks r.payload, slot := true, cls := .line } = true ∧ settled s ∧
      s.intake.stall = some (.payload r) ∧ r.line = lineByte 0 ∧ 1 ≤ r.payload.length
    (∃ s, ok (lineReq 1 (some 9) [1]) s ∧ (s.line 0).applied.maxReply = 8) ∧
    (∃ s, ok (lineReq 1 none [1]) s ∧ (s.line 0).txn = .offline) ∧
    (∃ s, ok (lineReq 1 none [1]) s ∧ (s.line 0).txn = .guard ∧ (s.line 0).applied.queueDepth = (s.line 0).queue.length) := by
  let st := fun (r : LineRequest) (f : Line → Line) =>
    withPool ((stalled (.payload r) []).modLine 0 f) (fun p => { p with free := 17, slotsUsed := 247 })
  exact ⟨⟨st (lineReq 1 (some 9) [1]) (fun l => { l with applied := { prof with maxReply := 8 }, txn := .guard }),
      by decide +kernel⟩,
    ⟨st (lineReq 1 none [1]) id, by decide +kernel⟩,
    ⟨st (lineReq 1 none [1]) (fun l => { l with applied := prof, txn := .guard, queue := List.replicate 8 req }),
      by decide +kernel⟩⟩

/-- A refusal that names no line; a payload joining an IDLE line that just has its reservation too. -/
theorem test_witness_StalledRecordGranted_idle :
    (∃ s : State, s.pool.waitList = [{ who := .intake, need := { blocks := 1, slot := true, cls := .response } }] ∧
      s.pool.passes { blocks := 1, slot := true, cls := .response } = true ∧ settled s ∧
      s.intake.stall = some (.refusal (lineReq 13 none [1]) .badLine) ∧ ∀ i, (13 : Byte) ≠ lineByte i) ∧
    (∃ s : State, s.pool.waitList = [{ who := .intake, need := { blocks := 1, slot := true, cls := .line } }] ∧
      s.pool.passes { blocks := 1, slot := true, cls := .line } = true ∧ settled s ∧
      s.intake.stall = some (.payload (lineReq 1 none [1])) ∧ (s.line 0).txn = .idle ∧ (s.line 0).listen = .quiet ∧
      (s.line 0).queue = [] ∧ (s.line 0).due = [] ∧ 1 ≤ (s.line 0).applied.queueDepth ∧
      1 + (10 + (s.line 0).applied.maxReply + 31) / 32 + 16 = s.pool.free) :=
  ⟨⟨withPool (stalled (.refusal (lineReq 13 none [1]) .badLine) []) (fun p => { p with waitList :=
      [{ who := .intake, need := { blocks := 1, slot := true, cls := .response } }] }), by decide +kernel⟩,
    ⟨withPool ((stalled (.payload (lineReq 1 none [1])) []).modLine 0 (fun l => { l with applied := prof, txn := .idle }))
      (fun p => { p with free := 26, slotsUsed := 247 }), by decide +kernel⟩⟩

/-- One frame outstanding, of one block, whose acknowledgement lets the intake unit's allocation pass: a refusal, and a payload
joining an IDLE line that just has its reservation too. -/
theorem test_witness_StalledRecordGranted_acknowledged :
    let b := sealed [2, 0, 1, 8, 0, 0]
    let ok := fun (n : Need) (s : State) =>
      s.pool.waitList = [{ who := .intake, need := n }] ∧ settled s ∧ s.trunk.up = true ∧ s.trunk.retransmits ≠ [] ∧
      ((1 : Seq) - s.trunk.peerAck).toNat = 1 ∧ (s.trunk.nextSeq - s.trunk.peerAck).toNat = 1 ∧
      ((s.trunk.retransmits.take 1).map SentFrame.records).flatten.map Record.blocks = [1] ∧ s.pool.held = 1 ∧
      s.pool.passes n = false ∧ Pool.passes { s.pool with free := s.pool.free + 1 } n = true
    (frameOf .ctrl b).map (fun f => (f.ackSeq, f.reject)) = some (1, false) ∧
    (∃ s, ok { blocks := 1, slot := true, cls := .response } s ∧
      s.intake.stall = some (.refusal (lineReq 1 none [1]) .lineOffline)) ∧
    (∃ s, ok { blocks := 7, slot := true, cls := .response } s ∧
      s.intake.stall = some (.command (mgmt 0x41 (List.replicate 200 1)))) ∧
    (∃ s, ok { blocks := 1, slot := true, cls := .line } s ∧ s.intake.stall = some (.payload (lineReq 1 none [1])) ∧
      (s.line 0).txn = .offline) := by
  let st := fun (k : Stall) (n : Need) (free : Nat) =>
    withTrunk (withPool (stalled k []) (fun p => { p with
      free := free, held := 1, slotsUsed := 247, waitList := [{ who := .intake, need := n }] }))
      (fun t => { t with
        nextSeq := 1, retransmits := [{ seq := 0, records := [{ coldStartRecord with blocks := 1 }], toResend := false }] })
  exact ⟨by decide +kernel, 
    ⟨st (.refusal (lineReq 1 none [1]) .lineOffline) { blocks := 1, slot := true, cls := .response } 0, by decide +kernel⟩,
    ⟨st (.command (mgmt 0x41 (List.replicate 200 1))) { blocks := 7, slot := true, cls := .response } 6, by decide +kernel⟩,
    ⟨st (.payload (lineReq 1 none [1])) { blocks := 1, slot := true, cls := .line } 16, by decide +kernel⟩⟩

/-- A stalled command granted its last blocks and slot: an ECHO, and a RESTART of a wrong flag. -/
theorem test_witness_StalledRecordGranted_command : ∀ m : MgmtRequest, m = mgmt 0x41 (List.replicate 200 1) ∨ m = mgmt 0x40 [2] →
    let n : Need := { blocks := m.blocks, slot := true, cls := .response }
    let k : Intake :=
      { frames := [{ seq := 0, payload := mgmtBytes m, offset := 0 }], stall := some (.command m), holdTimer := some 1000 }
    let s := withPool ((asking up m).setIntake k)
      (fun p => { p with free := m.blocks, slotsUsed := 255, waitList := [{ who := .intake, need := n }] })
    s.pool.passes n = true ∧ settled s ∧ ((s.setIntake { s.intake with stall := none, holdTimer := none }).setPool
      { s.pool with waitList := [] }).headRecord = some (.command m) ∧
    (commandOf m.code = some .restart → m.params ≠ [0] ∧ m.params ≠ [1]) := by
  rintro m (rfl | rfl) <;> decide +kernel

/-! The hypotheses of the statements are met: management requests. -/

/-- Just the blocks and the slot of the response are free. -/
def tight (s : State) (m : MgmtRequest) : State :=
  withPool (asking s m) (fun p => { p with free := m.blocks, slotsUsed := 255 })

theorem test_witness_ReadCommandsAnswer :
    let ok := fun m => RequestReady m (tight up m)
    ok (mgmt 0x01 []) ∧ ok (mgmt 0x03 []) ∧ ok (mgmt 0x11 [lineByte 11]) ∧ ok (mgmt 0x22 [natByte 127]) ∧
    up.poll 127 = none ∧ ok (mgmt 0x41 []) ∧ ok (mgmt 0x41 (List.replicate 200 1)) ∧
    (∃ s : State, RequestReady (mgmt 0x22 [natByte 127]) s ∧ (s.poll 127).map (fun p => p.defn.request.length) = some 64) := by
  unfold RequestReady State.between
  iterate 7 refine And.intro (by decide +kernel) ?_
  exact ⟨tight (up.setPoll 127 (some { entry .waiting none with
      defn := { pollDef with request := List.replicate 64 1 } })) (mgmt 0x22 [natByte 127]), by decide +kernel⟩

/-- A parameter length no command of that code takes. -/
def wrongParams : Command → List Byte
  | .identify => [1] | .linkConfig => List.replicate 15 0 | .linkRead => [1] | .lineConfig => List.replicate 24 0
  | .lineRead => [] | .lineAbort => [1] | .knownSet => [1, 1] | .pollSet => List.replicate 9 0 | .pollClear => []
  | .pollRead => [1, 2] | .pollRun => [] | .counterRead => [0] | .restart => [0, 0] | .echo => List.replicate 201 0

theorem test_witness_CommandRefused_length : ∀ c : Command,
    RequestReady (mgmt c.code (wrongParams c)) (tight up (mgmt c.code (wrongParams c))) ∧ lengthWrong c (wrongParams c) := by
  unfold RequestReady State.between
  intro c
  cases c <;> exact ⟨by decide +kernel, by unfold lengthWrong; decide +kernel⟩

/-- Codes 0 and 0x42; the values next to each range. -/
theorem test_witness_CommandRefused :
    let ok := fun m => RequestReady m (tight up m)
    ok (mgmt 0 []) ∧ (∀ c : Command, (0 : Byte) ≠ c.code) ∧ ok (mgmt 0x42 []) ∧ (∀ c : Command, (0x42 : Byte) ≠ c.code) ∧
    ok (mgmt 0x11 [0]) ∧ (∀ i, (0 : Byte) ≠ lineByte i) ∧ ok (mgmt 0x12 [13, 0]) ∧ (∀ i, (13 : Byte) ≠ lineByte i) ∧
    ok (mgmt 0x21 [128]) ∧ ok (mgmt 0x22 [128]) ∧ (128 : Nat) ≤ (128 : Byte).toNat ∧ ok (mgmt 0x23 [2]) ∧
    ok (mgmt 0x30 [2, 0]) ∧ (∀ i, (2 : Byte) ≠ 0x10 + lineByte i) ∧ ok (mgmt 0x30 [0x1D, 0]) ∧
    (∀ i, (0x1D : Byte) ≠ 0x10 + lineByte i) ∧ ok (mgmt 0x40 [2]) ∧
    ok (mgmt 0x13 [0, 0]) ∧ ok (mgmt 0x13 (1 :: 9 :: [1, 2, 3, 4, 5, 6, 7, 8, 9])) ∧
    ok (mgmt 0x13 [1, 2, 5, 5]) ∧ ¬ ([5, 5] : List Byte).Nodup := by
  have no : ∀ x : Byte, x ∉ [Command.identify.code, 2, 3, 0x10, 0x11, 0x12, 0x13, 0x20, 0x21, 0x22, 0x23, 0x30, 0x40, 0x41] →
      ∀ c : Command, x ≠ c.code := by
    intro x h c e
    apply h
    cases c <;> simp [e, Command.code]
  unfold RequestReady State.between
  and_intros <;> first | decide +kernel | exact no _ (by decide)

/-- `b` with the bytes `c` in place from `k` on. -/
def patched (b : List Byte) (k : Nat) (c : List Byte) : List Byte := b.take k ++ c ++ b.drop (k + c.length)

/-- Every range of LINK_CONFIG, the value next to each end. -/
theorem test_witness_CommandRefused_link :
    let h := natHalf
    ∀ e ∈ ([(0, [51]), (1, h 4), (1, h 2001), (3, [0]), (3, [16]), (4, h 19), (4, h 5001), (6, h 9), (6, h 1001), (8, [0]),
      (8, [16]), (9, [101]), (10, h 1), (10, h 9), (10, h 10001), (12, h 15), (12, h 513 ++ h 529), (14, h 79), (14, h 1009)]
        : List (Nat × List Byte)),
      let p := patched LinkConfig.default.bytes e.1 e.2
      let n := fun k => (byteAt p k).toNat
      let h := fun k => (halfAt p k).toNat
      RequestReady (mgmt 0x02 p) (tight up (mgmt 0x02 p)) ∧ p.length = 16 ∧
      (50 < n 0 ∨ h 1 < 5 ∨ 2000 < h 1 ∨ n 3 = 0 ∨ 15 < n 3 ∨ h 4 < 20 ∨ 5000 < h 4 ∨ h 6 < 10 ∨ 1000 < h 6 ∨ n 8 = 0 ∨
        15 < n 8 ∨ 100 < n 9 ∨ (1 ≤ h 10 ∧ h 10 ≤ 9) ∨ 10000 < h 10 ∨ h 12 < 16 ∨ 512 < h 12 ∨ h 14 < h 12 + 16 ∨
        1008 < h 14) := by
  unfold RequestReady State.between
  decide +kernel

/-- Every range of LINE_CONFIG, the line among them. -/
theorem test_witness_CommandRefused_line :
    ∀ e ∈ ([(0, [0]), (0, [13]), (1, [2]), (2, [9]), (3, natHalf 0), (3, natHalf 4096), (5, [6]), (5, [9]), (6, [3]), (7, [0]),
      (7, [3]), (8, [16]), (9, [16]), (10, [2]), (11, [7]), (12, [2]), (14, [0]), (15, natHalf 0), (18, [8]), (19, [2]), (20, [2]),
      (21, [3]), (22, [0]), (22, [9])] : List (Nat × List Byte)),
      let p := patched (1 :: prof.bytes) e.1 e.2
      let n := fun k => (byteAt p k).toNat
      let h := fun k => (halfAt p k).toNat
      RequestReady (mgmt 0x10 p) (tight up (mgmt 0x10 p)) ∧ p.length = 25 ∧
      ((∀ i, byteAt p 0 ≠ lineByte i) ∨ 1 < n 1 ∨ 8 < n 2 ∨ h 3 = 0 ∨ 4095 < h 3 ∨ (n 5 ≠ 7 ∧ n 5 ≠ 8) ∨ 2 < n 6 ∨
        (n 7 ≠ 1 ∧ n 7 ≠ 2) ∨ 15 < n 8 ∨ 15 < n 9 ∨ 1 < n 10 ∨ n 11 < 8 ∨ 1 < n 12 ∨ n 14 = 0 ∨ h 15 = 0 ∨ 7 < n 18 ∨
        1 < n 19 ∨ 1 < n 20 ∨ 2 < n 21 ∨ n 22 = 0 ∨ 8 < n 22) := by
  unfold RequestReady State.between
  decide +kernel

/-- Every line of the table of R84; ExpectLen against the MaxReply of its line. -/
theorem test_witness_CommandRefused_poll :
    let b := pollSetParams 127 pollDef
    let s := onLine fun l => { l with applied := { prof with maxReply := 8 } }
    ∀ p ∈ ([patched b 0 [128], patched b 1 [0], patched b 1 [13], patched b 2 (natHalf 0), patched b 4 (natHalf 2), patched b 6 [3],
      b.take 10, b ++ List.replicate 64 1, patched b 8 [1, 0], patched b 8 [1, 9]] : List (List Byte)),
      let n := fun k => (byteAt p k).toNat
      let h := fun k => (halfAt p k).toNat
      let t := withPool (asking s (mgmt 0x20 p)) (fun q => { q with free := 1, slotsUsed := 255 })
      RequestReady (mgmt 0x20 p) t ∧ 10 ≤ p.length ∧
      (128 ≤ n 0 ∨ (∀ i, byteAt p 1 ≠ lineByte i) ∨ h 2 = 0 ∨ h 2 < h 4 ∨ 2 < n 6 ∨ p.length = 10 ∨ 74 < p.length ∨
        ((byteAt p 8).getLsbD 0 = true ∧
          (n 9 = 0 ∨ ∃ i, byteAt p 1 = lineByte i ∧ (t.line i).applied.maxReply < n 9))) := by
  unfold RequestReady State.between
  decide +kernel

/-- The highest LowMark, which the response's block takes FreeCount below. -/
theorem test_witness_LinkConfigReplaces :
    ∃ (c : LinkConfig) (s : State), RequestReady (mgmt 0x02 c.bytes) s ∧ c.inRange = true ∧ c.lowMark = 512 ∧
      c.highMark = c.lowMark + 16 ∧ s.pool.hold = false ∧
      holdAfter s.pool.hold (s.pool.free - 1) s.cfg.lowMark s.cfg.highMark = false ∧ s.pool.free - 1 < c.lowMark ∧
      s.pool.eventsUsed < 16 := by
  unfold RequestReady State.between
  exact ⟨{ LinkConfig.default with lowMark := 512, highMark := 528 },
    withPool (asking up (mgmt 0x02 ({ LinkConfig.default with lowMark := 512, highMark := 528 } : LinkConfig).bytes))
      (fun p => { p with free := 512 }), by decide +kernel⟩

theorem test_witness_LineConfigActs :
    let m := fun p : Profile => mgmt 0x10 (lineByte 0 :: p.bytes)
    let off := Profile.default
    let ok := fun (p : Profile) (s : State) => RequestReady (m p) (asking s (m p))
    prof.inRange = true ∧ prof.fits ∧ off.inRange = true ∧ off.fits ∧
    (∃ s, ok prof s ∧ (s.line 0).txn = .guard) ∧ (∃ s, ok prof s ∧ (s.line 0).txn = .idle ∧ (s.line 0).listen = .brk) ∧
    (∃ s, ok off s ∧ (s.line 0).txn = .offline ∧ off.enabled = false) ∧
    (∃ s, ok prof s ∧ (s.line 0).txn = .offline ∧ prof.enabled = true ∧ (s.line 0).queue = [] ∧ (s.line 0).due = []) ∧
    (∃ s, ok prof s ∧ (s.line 0).txn = .idle ∧ (s.line 0).listen = .quiet ∧ (s.line 0).queue = []) ∧
    (∃ s, ok off s ∧ (s.line 0).txn = .idle ∧ (s.line 0).listen = .quiet ∧ (s.line 0).queue = [] ∧ (s.line 0).due = []) := by
  unfold RequestReady State.between Profile.fits
  exact ⟨by decide, by decide, by decide, by decide, ⟨onLine fun l => { l with txn := .guard }, by decide +kernel⟩,
    ⟨onLine fun l => { l with listen := .brk }, by decide +kernel⟩, ⟨up, by decide +kernel⟩, ⟨up, by decide +kernel⟩,
    ⟨onLine id, by decide +kernel⟩, ⟨onLine id, by decide +kernel⟩⟩

/-- Eight addresses, two of which differ in the most significant bit alone; lengths 1 and one short; nine; one twice. -/
theorem test_witness_KnownSetReplacesList :
    let ok := fun p => RequestReady (mgmt 0x13 p) (tight up (mgmt 0x13 p))
    ok [1] ∧ ok [1, 2, 5] ∧ ok [13, 0] ∧ ok [1, 9, 1, 2, 3, 4, 5, 6, 7, 8, 9] ∧ ok [1, 2, 5, 5] ∧
    ¬ ([5, 5] : List Byte).Nodup ∧ ok (lineByte 11 :: 8 :: [1, 0x81, 3, 4, 5, 6, 7, 8]) ∧
    ([1, 0x81, 3, 4, 5, 6, 7, 8] : List Byte).Nodup := by
  unfold RequestReady State.between
  exact ⟨by decide +kernel, by decide +kernel, by decide +kernel, by decide +kernel, by decide +kernel, by decide,
    by decide +kernel, by decide⟩

/-- A definition at the ends of its ranges. -/
def edgeDef (phase : Nat) : PollDef :=
  { line := 0, period := 65535, phase := phase, mode := .every, forceEvery := 255, expectLen := some 255
    request := List.replicate 64 0x55 }

theorem test_edgeDef_ok (k : Nat) (h : k ≤ 65535) : (edgeDef k).ok 255 := by
  have le : ∀ a b, Nat.ble a b = true → a ≤ b := fun _ _ => Nat.le_of_ble_eq_true
  refine ⟨le _ _ rfl, le _ _ rfl, h, le _ _ rfl, fun n h => ?_, le _ _ rfl, le _ _ rfl⟩
  obtain rfl := Option.some.inj h
  decide

theorem test_witness_PollSetActs :
    let m := fun k => mgmt 0x20 (pollSetParams 127 (edgeDef k))
    let ok := fun (k : Nat) (s : State) => RequestReady (m k) (asking s (m k)) ∧ (s.line 0).applied.maxReply = 255
    (∃ s, ok 0 s ∧ (s.poll 127).map Poll.state = some .inFlight) ∧
    (∃ s, ok 0 s ∧ (s.poll 127).map Poll.state = some .retiring) ∧
    (∃ s, ok 0 s ∧ s.poll 127 = none ∧ (s.pollRun && s.trunk.up) = false) ∧
    (∃ s, ok 65535 s ∧ s.poll 127 = none ∧ (s.pollRun && s.trunk.up) = true) ∧
    (∃ s, ok 0 s ∧ (s.poll 127).map Poll.state = some .waiting ∧ (s.pollRun && s.trunk.up) = true ∧
      (s.line 0).txn = .offline) ∧
    (∃ s, ok 0 s ∧ s.poll 127 = none ∧ (s.pollRun && s.trunk.up) = true ∧ (s.line 0).txn = .guard) ∧
    (∃ s, ok 65535 s ∧ (s.poll 127).map Poll.state = some .due ∧ (s.pollRun && s.trunk.up) = true) := by
  unfold RequestReady State.between
  exact ⟨⟨up.setPoll 127 (some (entry .inFlight none)), by decide +kernel⟩,
    ⟨up.setPoll 127 (some (entry .retiring none)), by decide +kernel⟩, ⟨up, by decide +kernel⟩,
    ⟨up.setPollRun true, by decide +kernel⟩,
    ⟨(up.setPollRun true).setPoll 127 (some (entry .waiting none)), by decide +kernel⟩,
    ⟨(onLine fun l => { l with txn := .guard }).setPollRun true, by decide +kernel⟩,
    ⟨(up.setPollRun true).setPoll 127 (some (entry .due none)), by decide +kernel⟩⟩

theorem test_witness_PollClearActs :
    let m := mgmt 0x21 [natByte 127]
    let ok := fun (s : State) => RequestReady m (asking s m)
    RequestReady (mgmt 0x21 [128]) (tight up (mgmt 0x21 [128])) ∧ ok up ∧ up.poll 127 = none ∧
    ∀ st : PollState, ok (up.setPoll 127 (some (entry st none))) ∧
      (up.setPoll 127 (some (entry st none))).poll 127 = some (entry st none) := by
  unfold RequestReady State.between
  refine ⟨by decide +kernel, by decide +kernel, by decide +kernel, fun st => ?_⟩
  cases st <;> exact ⟨by decide +kernel, by decide +kernel⟩

theorem test_witness_PollRunSets :
    let ok := fun (b : Bool) (s : State) => RequestReady (mgmt 0x23 [boolByte b]) (asking s (mgmt 0x23 [boolByte b]))
    (ok false up ∧ up.pollRun = false) ∧ (ok true State.reset ∧ State.reset.trunk.up = false) ∧
    (∃ s, ok false s ∧ s.trunk.up = true ∧ s.pollRun = true) ∧
    (∃ s, ok true s ∧ s.trunk.up = true ∧ s.pollRun = false ∧
      ∃ p, s.poll 127 = some p ∧ p.state ≠ .due ∧ p.defn.phase ≠ 0) := by
  unfold RequestReady State.between
  exact ⟨by decide +kernel, by decide +kernel, ⟨up.setPollRun true, by decide +kernel⟩,
    ⟨up.setPoll 127 (some { entry .waiting none with defn := edgeDef 1 }), by decide +kernel, by decide +kernel,
      by decide +kernel, { entry .waiting none with defn := edgeDef 1 }, by decide +kernel⟩⟩

/-- With and without Clear; the pool one block above the mark. -/
theorem test_witness_CounterReadClears :
    let ok := fun (x y : Byte) (s : State) => RequestReady (mgmt 0x30 [x, y]) (asking s (mgmt 0x30 [x, y]))
    ok 0 0 up ∧ ok 0 1 (busy up) ∧ ok (0x10 + lineByte 11) 0 up ∧ ok (0x10 + lineByte 11) 1 up ∧
    (∃ s, ok 1 0 s ∧ s.pool.hold = false ∧ s.cfg.lowMark + 2 = s.pool.free) ∧
    (∃ s, ok 1 1 s ∧ s.pool.hold = false ∧ s.cfg.lowMark + 2 = s.pool.free ∧ s.trunk.tx.isSome = true) := by
  unfold RequestReady State.between
  exact ⟨by decide +kernel, by decide +kernel, by decide +kernel, by decide +kernel,
    ⟨withPool up (fun p => { p with free := 66 }), by decide +kernel⟩,
    ⟨busy (withPool up (fun p => { p with free := 66 })), by decide +kernel⟩⟩

/-- A frame being received is discarded as its mode says. -/
theorem test_discards (u : Unsolicited) (s : State) (cs : List CtrId) (back filled slots : Nat)
    (h : (s.line 0).listen = .listening ∧ (s.line 0).unsolicited = some u)
    (m : (u.mode = .keep back ∧ cs = [.line 0 .unsolicitedDropped] ∧ filled = filledBlocks 10 u.frame.kept.length ∧
        slots = 1) ∨
      ((u.mode = .lost ∨ u.mode = .aborted) ∧ cs = [] ∧ back = 0 ∧ filled = 0 ∧ slots = 0) ∨
      ((u.mode = .drop ∨ (u.mode = .undecided ∧ u.late = none)) ∧ cs = [.line 0 .unsolicitedDropped] ∧ back = 0 ∧
        filled = 0 ∧ slots = 0) ∨
      (u.mode = .undecided ∧ u.late.isSome = true ∧ cs = [.line 0 .lateFrames, .line 0 .unsolicitedDropped] ∧ back = 0 ∧
        filled = 0 ∧ slots = 0)) :
    FrameDiscarded 0 cs back filled slots (some { u with mode := .aborted }) s := Or.inr ⟨u, h.1, h.2, rfl, m⟩

/-- No frame is received. -/
theorem test_discards_none (s : State) (h : (s.line 0).listen ≠ .listening) :
    FrameDiscarded 0 [] 0 0 0 (s.line 0).unsolicited s := Or.inl ⟨Or.inl h, rfl, rfl, rfl, rfl, rfl⟩

/-- Each state of the transaction, with no frame received (`test_discards_none`). -/
theorem test_witness_LineAbortActs :
    let ok := fun (y : Byte) (s : State) =>
      RequestReady (mgmt 0x12 [lineByte 0, y]) (asking s (mgmt 0x12 [lineByte 0, y])) ∧ (s.line 0).listen = .quiet
    let books := fun s : State => 9 ≤ s.pool.reserved ∧ filledBlocks 10 0 + payloadBlocks req.payload ≤ s.pool.held
    (∃ s, ok 0 s ∧ (s.line 0).hand = none) ∧
    (∃ s, ok 1 s ∧ (s.line 0).hand = none ∧ (s.line 0).queue = [req, req]) ∧
    (∀ st : TxnState, st = .ready ∨ st = .turnaround ∨ st = .awaiting ∨ st = .receiving ∨ st = .sending →
      ∃ s, ok 0 s ∧ (s.line 0).hand = some inHand ∧ (s.line 0).txn = st ∧
        (s.line 0).charOut = none ∧ (s.line 0).applied.guardTime ≠ 0 ∧ books s) ∧
    (∃ s, ok 0 s ∧ (s.line 0).hand = some inHand ∧ (s.line 0).txn = .guard ∧ books s) ∧
    (∃ s, ok 0 s ∧ (s.line 0).hand = some inHand ∧ (s.line 0).txn = .sending ∧ (s.line 0).charOut = some 0x41) := by
  unfold RequestReady State.between
  refine ⟨⟨onLine id, by decide +kernel⟩, ⟨onLine fun l => { l with queue := [req, req] }, by decide +kernel⟩,
    fun st h => ⟨onLine fun l => { l with txn := st, hand := some inHand }, ?_⟩,
    ⟨onLine fun l => { l with txn := .guard, hand := some inHand }, by decide +kernel⟩,
    ⟨onLine fun l => { l with txn := .sending, charOut := some 0x41, hand := some inHand }, by decide +kernel⟩⟩
  rcases h with rfl | rfl | rfl | rfl | rfl <;> decide +kernel

/-- A frame of each mode behind a request in READY, its reservation beside that of the request (`test_discards`). -/
theorem test_witness_LineAbortActs_frames :
    let s := fun u => asking (withPool (onLine fun l => { l with
      txn := .ready, hand := some inHand, listen := .listening, unsolicited := some u }) (fun p => { p with
        reserved := 17, held := 2, slotsUsed := 2 })) (mgmt 0x12 [1, 1])
    let late := { unsol .undecided [] with late := some 7 }
    ∀ u ∈ [unsol (.keep 9) [1], unsol .lost [], unsol .aborted [], unsol .drop [], unsol .undecided [], late],
      RequestReady (mgmt 0x12 [1, 1]) (s u) ∧ ((s u).line 0).listen = .listening ∧ ((s u).line 0).unsolicited = some u ∧
      ((s u).line 0).hand = some inHand ∧ ((s u).line 0).txn = .ready ∧ ((s u).line 0).applied.guardTime ≠ 0 ∧
      filledBlocks 10 1 = 1 ∧ (s u).pool.reserved = 9 + 9 - (0 + 1) ∧
      (s u).pool.held = 0 + 1 + payloadBlocks req.payload := by
  unfold RequestReady State.between
  decide +kernel

/-- A poll in hand, completed from its reservation and in GUARD, in each state its entry can have. -/
theorem test_witness_LineAbortActs_poll : ∀ st : PollState, ∀ x ∈ ([.receiving, .guard] : List TxnState),
    let s := (asking (onLine fun l => { l with txn := x, hand := some pollInHand }) (mgmt 0x12 [1, 1])).setPoll 127
      (some (entry st none))
    RequestReady (mgmt 0x12 [1, 1]) s ∧ (s.line 0).hand = some pollInHand ∧ pollInHand.work = .poll 127 0 ∧
      s.poll 127 = some (entry st none) ∧ (entry st none).defn.line = 0 ∧ (s.line 0).listen = .quiet ∧
      (s.line 0).applied.guardTime ≠ 0 ∧ 9 ≤ s.pool.reserved := by
  unfold RequestReady State.between
  intro st
  cases st <;> decide +kernel

/-- LINE_ABORT granted ahead of line 1, which waits for the reservation of `w`. -/
def abortGranted (w : Work) (free slots : Nat) : State :=
  withPool (((asking (onLine fun l => { l with txn := .waitSpace, hand := some (Txn.start w), queue := [req] })
    (mgmt 0x12 [1, 1])).setIntake { frames := [{ seq := 0, payload := mgmtBytes (mgmt 0x12 [1, 1]), offset := 0 }]
                                    stall := some (.command (mgmt 0x12 [1, 1])), holdTimer := some 1000 }).setPoll 127
      (some (entry .inFlight none)))
    (fun p => { p with
      free := free, slotsUsed := slots, held := 2
      waitList := [{ who := .intake, need := { blocks := 1, slot := true, cls := .response } },
        { who := .line 0, need := { blocks := 9, slot := false, cls := .line } }] })

/-- A request and a poll aborted in WAIT_SPACE: just space for the record beside the response, no block for it, no slot; an entry
that is RETIRING. -/
theorem test_witness_LineAbortActs_waiting :
    let ok := fun (st : PollState) (w : Work) (s : State) => settled s ∧
      s.intake.stall = some (.command (mgmt 0x12 [1, 1])) ∧ 1 ≤ s.pool.free ∧ s.pool.slotsUsed + 1 ≤ 256 ∧
      Pool.passes { s.pool with free := s.pool.free - 1, slotsUsed := s.pool.slotsUsed + 1 }
        { blocks := 9, slot := false, cls := .line } = false ∧
      (s.line 0).txn = .waitSpace ∧ (s.line 0).hand = some (Txn.start w) ∧ (Txn.start w).reservation = none ∧
      (s.line 0).listen = .quiet ∧ (s.line 0).staged = none ∧ (s.line 0).due = [] ∧ (s.line 0).queue = [req] ∧
      s.poll 127 = some (entry st none)
    (∃ s, ok .inFlight (.request req) s ∧ payloadBlocks req.payload + queueBlocks [req] = s.pool.held) ∧
    (∃ s, ok .inFlight (.poll 127 0) s ∧ 2 = s.pool.free ∧ s.pool.slotsUsed + 2 = 256 ∧ queueBlocks [req] ≤ s.pool.held) ∧
    (∃ s, ok .inFlight (.poll 127 0) s ∧ s.pool.free = 1) ∧ (∃ s, ok .inFlight (.poll 127 0) s ∧ s.pool.slotsUsed = 255) ∧
    (∃ s, ok .retiring (.poll 127 0) s ∧ s.pool.free = 1 ∧ queueBlocks [req] ≤ s.pool.held) ∧
    (∃ s, ok .retiring (.poll 127 0) s ∧ 2 = s.pool.free ∧ s.pool.slotsUsed + 2 = 256) :=
  ⟨⟨abortGranted (.request req) 1 255, by decide +kernel⟩, ⟨abortGranted (.poll 127 0) 2 254, by decide +kernel⟩,
    ⟨abortGranted (.poll 127 0) 1 0, by decide +kernel⟩, ⟨abortGranted (.poll 127 0) 9 255, by decide +kernel⟩,
    ⟨(abortGranted (.poll 127 0) 1 0).setPoll 127 (some (entry .retiring none)), by decide +kernel⟩,
    ⟨(abortGranted (.poll 127 0) 2 254).setPoll 127 (some (entry .retiring none)), by decide +kernel⟩⟩

/-- LINE_ABORT granted ahead of line 1, which waits in LISTENING behind its own kept unsolicited frame of 9 blocks. -/
def abortBeforeFrame : State :=
  (withPool (abortGranted (.request req) 17 255) (fun p => { p with reserved := 8 })).modLine 0 (fun l => { l with
    listen := .listening, queue := [], unsolicited := some (unsol (.keep 9) [1]) })

theorem test_witness_LineAbortActs_waitingFrame :
    let k : Need := { blocks := 9, slot := false, cls := .line }
    ∃ s : State, s = abortBeforeFrame ∧ settled s ∧ s.intake.stall = some (.command (mgmt 0x12 [1, 1])) ∧ 1 ≤ s.pool.free ∧
      s.pool.slotsUsed + 1 = 256 ∧
      Pool.passes { s.pool with free := s.pool.free - 1, slotsUsed := s.pool.slotsUsed + 1 } k = false ∧
      s.pool.waitList.map Waiter.need = [{ blocks := 1, slot := true, cls := .response }, k] ∧
      (s.line 0).txn = .waitSpace ∧ (s.line 0).hand = some (Txn.start (.request req)) ∧ (s.line 0).listen = .listening ∧
      (s.line 0).unsolicited = some (unsol (.keep 9) [1]) ∧ (s.line 0).queue = [] ∧ (s.line 0).due = [] ∧
      Pool.passes { s.pool with free := s.pool.free - 1 + 9 } k = true ∧
      filledBlocks 10 1 = 1 ∧ 9 - 1 = s.pool.reserved ∧ 1 + payloadBlocks req.payload = s.pool.held :=
  ⟨_, rfl, by decide +kernel⟩

/-- The blocks of its own frame would let the waiting line pass, and it has left the list before they are free: the request
completes without a reservation (R27, R98). -/
theorem test_step_abort_before_frame :
    let t := after .waitListGrant (busy (withPool abortBeforeFrame fun p => { p with hold := true }))
    (t.uplink.map Record.bytes, (t.line 0).txn, (t.line 0).guardEnd, t.pool.waitList, t.pool.reserved) =
      ([[0x90, 0, 10, 0, 7, 1, 0x06, 0, 0, 255], [0xA0, 0, 12, 0, 9, 0x12, 0, 0, 1, 0, 7, 0]], .idle, none, [], 0) := by
  decide +kernel

theorem test_witness_WarmRestart : ∀ keep : Bool,
    (asking up (mgmt 0x40 [boolByte keep])).headRecord = some (.command (mgmt 0x40 [boolByte keep])) := by decide +kernel

theorem test_witness_ConfigurationBytesRoundTrip :
    LinkConfig.default.inRange = true ∧ Profile.default.inRange = true ∧ Profile.default.fits ∧ (edgeDef 65535).ok 255 :=
  ⟨by decide, by decide, by unfold Profile.fits; decide, test_edgeDef_ok _ (by decide)⟩

/-! The hypotheses of the statements are met: the lines. `inHand` sends two bytes, expects no length, and holds 9
blocks. -/

/-- Entry 127, reached at its NextDue, in each case. -/
theorem test_witness_NextDueReached :
    let ok := fun (p : Poll) (s : State) => s.poll 127 = some p ∧ p.nextDue = some 10 ∧ 10 ≤ s.clock ∧
      s.pollRun = true ∧ s.trunk.up = true ∧ settled s
    (∃ s, ok (entry .waiting (some 10)) s ∧ (s.line 0).txn = .offline) ∧
    (∃ s, ok (entry .waiting (some 10)) s ∧ (s.line 0).txn = .guard) ∧
    (∃ s, ok (entry .waiting (some 10)) s ∧ (s.line 0).txn = .idle ∧ (s.line 0).queue = [] ∧ (s.line 0).due = [] ∧
      s.pool.waitList = [] ∧ Config.blocksFor (11 + (s.line 0).applied.maxReply) + 16 = s.pool.free ∧
      s.pool.slotsUsed + 9 = 256) ∧
    (∀ st : PollState, st ≠ .waiting → ∃ s, ok (entry st (some 10)) s) := by
  refine ⟨⟨((at_ up 10).setPollRun true).setPoll 127 (some (entry .waiting (some 10))), by decide +kernel⟩,
    ⟨((at_ (onLine fun l => { l with txn := .guard }) 10).setPollRun true).setPoll 127 (some (entry .waiting (some 10))),
      by decide +kernel⟩,
    ⟨withPool (((at_ (onLine id) 10).setPollRun true).setPoll 127 (some (entry .waiting (some 10))))
      (fun p => { p with free := 25, slotsUsed := 247 }), by decide +kernel⟩,
    fun st _ => ⟨((at_ up 10).setPollRun true).setPoll 127 (some (entry st (some 10))), ?_⟩⟩
  cases st <;> decide +kernel

/-- A request that wants no reply. -/
def mute : Txn := { inHand with work := .request { req with noReply := true }, reservation := some 1 }

theorem test_witness_DriverCountEnds :
    (∃ s : State, (s.line 0).hand = some inHand ∧ settled s ∧ (s.line 0).txn = .sending ∧
      (s.line 0).deLead = some 1 ∧ (s.line 0).sent = 0 ∧ s.workBytes inHand.work = [0x41, 0x42]) ∧
    (∃ s : State, (s.line 0).hand = some inHand ∧ settled s ∧ (s.line 0).txn = .turnaround ∧
      (s.line 0).deHold = some 1 ∧ inHand.work.noReply = false) ∧
    (∃ s : State, (s.line 0).hand = some mute ∧ settled s ∧ (s.line 0).txn = .turnaround ∧
      (s.line 0).deHold = some 1 ∧ mute.reply = Assembly.empty) ∧
    (∃ s : State, (s.line 0).hand = some inHand ∧ settled s ∧ (s.line 0).txn = .sending ∧
      (s.line 0).deHold = some 1) :=
  ⟨⟨onLine fun l => { l with txn := .sending, hand := some inHand, deLead := some 1 }, by decide +kernel⟩,
    ⟨onLine fun l => { l with txn := .turnaround, hand := some inHand, deHold := some 1 }, by decide +kernel⟩,
    ⟨onLine fun l => { l with txn := .turnaround, hand := some mute, deHold := some 1 }, by decide +kernel⟩,
    ⟨onLine fun l => { l with txn := .sending, hand := some inHand, deHold := some 1 }, by decide +kernel⟩⟩

/-- Line 1 sending, its second character or its first going out. -/
def sending (x : Txn) (p : Profile) (sent echoed : Nat) (c : Option Byte) (rx : Bool) : State :=
  onLine fun l => { l with
    txn := .sending, lde := true, applied := p, hand := some x, sent := sent, echoed := echoed, charOut := c, rxBusy := rx }

/-- EchoCheck on, and DeHold 0. -/
def echoProf : Profile := { prof with echoCheck := true }
def noHold : Profile := { prof with deHold := 0 }

/-- The last character but one; the last unechoed; the last with a hold, with none, with a start bit taken; a request that
wants no reply; an abort and an echo failure pending. -/
theorem test_witness_CharacterSent :
    let ok := fun (x : Txn) (s : State) => (s.line 0).txn = .sending ∧ (s.line 0).hand = some x ∧
      (s.line 0).charOut = some 0x41 ∧ settled s
    let last := fun s : State => ([0x41, 0x42] : List Byte).length = (s.line 0).sent + 1
    (∃ s, ok inHand s ∧ (s.line 0).sent + 1 < 2) ∧
    (∃ s, ok inHand s ∧ last s ∧ (s.line 0).applied.echoCheck = true ∧ (s.line 0).echoed < (s.line 0).sent + 1) ∧
    (∃ s, ok inHand s ∧ last s ∧ (s.line 0).rxBusy = false ∧ (s.line 0).applied.deHold = 1 ∧
      (s.line 0).applied.echoCheck = false) ∧
    (∃ s, ok inHand s ∧ last s ∧ (s.line 0).rxBusy = false ∧ (s.line 0).applied.deHold = 0) ∧
    (∃ s, ok inHand s ∧ last s ∧ (s.line 0).rxBusy = true ∧ (s.line 0).applied.echoCheck = true ∧
      (s.line 0).sent + 1 = (s.line 0).echoed) ∧
    (∃ s, ok mute s ∧ last s ∧ (s.line 0).applied.deHold = 0) ∧
    (∃ s, ok { inHand with abortPending := true } s) ∧ (∃ s, ok { inHand with echoFailed := true } s) :=
  ⟨⟨sending inHand prof 0 0 (some 0x41) false, by decide +kernel⟩,
    ⟨sending inHand echoProf 1 1 (some 0x41) false, by decide +kernel⟩,
    ⟨sending inHand prof 1 0 (some 0x41) false, by decide +kernel⟩,
    ⟨sending inHand noHold 1 0 (some 0x41) false, by decide +kernel⟩,
    ⟨sending inHand echoProf 1 2 (some 0x41) true, by decide +kernel⟩,
    ⟨sending mute noHold 1 0 (some 0x41) false, by decide +kernel⟩,
    ⟨sending { inHand with abortPending := true } prof 0 0 (some 0x41) false, by decide +kernel⟩,
    ⟨sending { inHand with echoFailed := true } prof 0 0 (some 0x41) false, by decide +kernel⟩⟩

theorem test_witness_EchoDeadline :
    let ok := fun (x : Txn) (s : State) => (s.line 0).txn = .sending ∧ (s.line 0).hand = some x ∧
      (s.line 0).applied.echoCheck = true ∧ (s.line 0).echoed + 1 = (s.line 0).sent ∧ settled s
    (∃ s, ok inHand s ∧ (s.line 0).charOut = some 0x42) ∧ (∃ s, ok { inHand with abortPending := true } s) ∧
    (∃ s, ok { inHand with echoFailed := true } s) ∧ (∃ s, ok inHand s ∧ (s.line 0).charOut = none) :=
  ⟨⟨sending inHand echoProf 1 0 (some 0x42) false, by decide +kernel⟩,
    ⟨sending { inHand with abortPending := true } echoProf 1 0 (some 0x42) false, by decide +kernel⟩,
    ⟨sending { inHand with echoFailed := true } echoProf 1 0 (some 0x42) false, by decide +kernel⟩,
    ⟨sending inHand echoProf 2 1 none false, by decide +kernel⟩⟩

/-- Every state of the line; a window with 0 ms left. -/
theorem test_witness_StartBit :
    let ok := fun s : State => (s.line 0).rxBusy = false ∧ (s.line 0).brk = false ∧ settled s
    (∀ st : TxnState, st = .idle ∨ st = .waitSpace ∨ st = .ready ∨ st = .guard → ∀ li : Listen,
      ∃ s, ok s ∧ (s.line 0).txn = st ∧ (s.line 0).listen = li) ∧
    (∃ s, ok s ∧ (s.line 0).txn = .awaiting ∧ (s.line 0).hand = some inHand ∧ (s.line 0).window = some s.clock) ∧
    (∃ s, ok s ∧ (s.line 0).txn = .receiving) ∧
    (∃ s, ok s ∧ (s.line 0).txn = .turnaround ∧ (s.line 0).hand = some inHand ∧ inHand.work.noReply = false) ∧
    (∃ s, ok s ∧ (s.line 0).txn = .turnaround ∧ (s.line 0).hand = some mute ∧ mute.reply = Assembly.empty ∧
      (s.line 0).applied.guardTime ≠ 0) ∧
    (∃ s, ok s ∧ (s.line 0).txn = .sending ∧ (s.line 0).applied.echoCheck = true) ∧
    (∃ s, ok s ∧ (s.line 0).txn = .sending ∧ (s.line 0).applied.echoCheck = false) ∧
    (∃ s, ok s ∧ (s.line 0).txn = .offline) := by
  refine ⟨fun st _ li => ⟨onLine fun l => { l with txn := st, listen := li }, ?_⟩,
    ⟨onLine fun l => { l with txn := .awaiting, hand := some inHand, window := some 0 }, by decide +kernel⟩,
    ⟨onLine fun l => { l with txn := .receiving }, by decide +kernel⟩,
    ⟨onLine fun l => { l with txn := .turnaround, hand := some inHand }, by decide +kernel⟩,
    ⟨onLine fun l => { l with txn := .turnaround, hand := some mute }, by decide +kernel⟩,
    ⟨sending inHand echoProf 0 0 (some 0x41) false, by decide +kernel⟩,
    ⟨sending inHand prof 0 0 (some 0x41) false, by decide +kernel⟩, ⟨up, by decide +kernel⟩⟩
  cases st <;> cases li <;> decide +kernel

/-- Line 1 with the receiver busy. -/
def rx (f : Line → Line) : State := onLine fun l => { f l with rxBusy := true }

/-- Line 1 receiving the reply `a` under profile `p`. -/
def receiving (x : Txn) (p : Profile) (a : Assembly) : State :=
  rx fun l => { l with txn := .receiving, applied := p, hand := some { x with reply := a } }

/-- A reply that goes on one short of its ExpectLen, and past MaxReply; its end at ExpectLen and at the
terminator; a line that is not examined. -/
theorem test_witness_CharacterComplete_reply :
    let want := fun n : Nat => { inHand with work := .request { req with expectLen := some n } }
    let term : Profile := { prof with termChar := true }
    (∃ s, s = receiving (want 3) prof (gotten [0x41] none) ∧ (s.line 0).rxBusy = true ∧ settled s ∧
      (s.line 0).txn = .receiving ∧ s.workExpect (want 3).work = some 3 ∧ (gotten [0x41] none).count + 1 < 3) ∧
    (∃ s, s = receiving inHand { term with maxReply := 1 } (gotten [0x41] none) ∧ (s.line 0).txn = .receiving ∧
      s.workExpect inHand.work = none ∧ (rxChar (s.line 0).applied 0x0D true false).bad = true) ∧
    (∃ s, s = receiving (want 2) prof (gotten [0x41] none) ∧ (s.line 0).txn = .receiving ∧
      2 ≤ (gotten [0x41] none).count + 1 ∧ (s.line 0).applied.matchFirst = false ∧
      (want 2).retried (s.line 0).applied (((gotten [0x41] none).take 255 (rxChar prof 1 true true)).outcome false) = false) ∧
    (∃ s, s = receiving inHand term (gotten [0x41] none) ∧ (s.line 0).txn = .receiving ∧
      (rxChar term 0x0D true true).bad = false ∧ (rxChar term 0x0D true true).value = term.onLine term.termValue ∧
      inHand.retried term (((gotten [0x41] none).take 255 (rxChar term 0x0D true true)).outcome false) = false) ∧
    (∃ s, settled s ∧ (s.line 0).rxBusy = true ∧ (s.line 0).txn = .offline) ∧
    (∃ s, settled s ∧ (s.line 0).rxBusy = true ∧ (s.line 0).txn = .sending ∧ (s.line 0).applied.echoCheck = false) := by
  iterate 4 refine And.intro ⟨_, rfl, by decide +kernel⟩ ?_
  exact ⟨⟨rx fun l => { l with txn := .offline }, by decide +kernel⟩, ⟨rx fun l => { l with txn := .sending }, by decide +kernel⟩⟩

/-- Line 1 with an unsolicited frame whose character completes. -/
def unsolicited (p : Profile) (u : Unsolicited) : State :=
  rx fun l => { l with applied := p, listen := .listening, unsolicited := some u }

/-- A profile that forwards. -/
def fwd : Profile := { prof with policy := .forward }

theorem test_witness_CharacterComplete_unsolicited :
    let ok := fun (u : Unsolicited) (s : State) => (s.line 0).rxBusy = true ∧ settled s ∧ (s.line 0).txn = .idle ∧
      (s.line 0).unsolicited = some u
    let first := unsol .undecided []
    (∃ s, ok first s ∧ (s.line 0).applied.policy = .drop) ∧
    (∃ s, ok { first with late := some 7 } s ∧ (s.line 0).applied.policy = .forward ∧
      Config.blocksFor (10 + (s.line 0).applied.maxReply) + 16 = s.pool.free ∧ s.pool.slotsUsed + 9 = 256) ∧
    (∃ s, ok first s ∧ (s.line 0).applied.policy = .forward ∧
      s.pool.free + 1 = Config.blocksFor (10 + (s.line 0).applied.maxReply) + 16) ∧
    (∃ s, ok first s ∧ (s.line 0).applied.policy = .forward ∧ 257 = s.pool.slotsUsed + 9) ∧
    (∃ s, ok (unsol (.keep 9) [1]) s) ∧ (∃ s, ok (unsol .drop []) s) ∧ (∃ s, ok (unsol .lost []) s) ∧
    (∃ s, ok (unsol .aborted []) s) ∧ TxnState.idle.listens := by
  intro ok first
  exact ⟨⟨unsolicited prof first, by decide +kernel⟩,
    ⟨withPool (unsolicited fwd { first with late := some 7 }) (fun p => { p with free := 25, slotsUsed := 247 }),
      by decide +kernel⟩,
    ⟨withPool (unsolicited fwd first) (fun p => { p with free := 24 }), by decide +kernel⟩,
    ⟨withPool (unsolicited fwd first) (fun p => { p with slotsUsed := 248 }), by decide +kernel⟩,
    ⟨unsolicited fwd (unsol (.keep 9) [1]), by decide +kernel⟩, ⟨unsolicited prof (unsol .drop []), by decide +kernel⟩,
    ⟨unsolicited fwd (unsol .lost []), by decide +kernel⟩, ⟨unsolicited fwd (unsol .aborted []), by decide +kernel⟩,
    Or.inl rfl⟩

/-- An echo while an abort or a failure is pending; a good one with a character going out, the last good one before and after
the end of the DeHold count, of a request that wants a reply and of one that wants none; a bad one with a character going out
and with none. -/
theorem test_witness_CharacterComplete_echo :
    let ok := fun (x : Txn) (s : State) => (s.line 0).rxBusy = true ∧ settled s ∧ (s.line 0).txn = .sending ∧
      (s.line 0).hand = some x
    (∃ s, ok { inHand with abortPending := true } s) ∧ (∃ s, ok { inHand with echoFailed := true } s) ∧
    (∃ s, ok inHand s ∧ (s.line 0).echoed = 0 ∧ (s.line 0).charOut = some 0x41 ∧ (rxChar prof 0x41 true true).bad = false ∧
      (rxChar prof 0x41 true true).value = 0x41) ∧
    (∃ s, ok inHand s ∧ (s.line 0).echoed + 1 = 2 ∧ (s.line 0).echoed < (s.line 0).sent ∧ (s.line 0).charOut = none ∧
      (s.line 0).deHold = some 1) ∧
    (∀ x ∈ [inHand, mute], let s := sending x echoProf 2 1 none true; ok x s ∧ (s.line 0).echoed + 1 = (s.workBytes x.work).length ∧
      (s.line 0).echoed < (s.line 0).sent ∧ (s.line 0).charOut = none ∧ (s.line 0).deHold = none ∧
      (s.line 0).applied.echoCheck = true ∧ (rxChar echoProf 0x42 true true).bad = false ∧
      ((s.workBytes x.work)[1]?).map echoProf.onLine = some (rxChar echoProf 0x42 true true).value ∧
      x.abortPending = false ∧ x.echoFailed = false ∧ x.reply = Assembly.empty) ∧
    inHand.work.noReply = false ∧ mute.work.noReply = true ∧
    (∃ s, ok inHand s ∧ (s.line 0).charOut = some 0x42 ∧ (rxChar prof 0x43 true true).value ≠ 0x41) ∧
    (∃ s, ok inHand s ∧ (s.line 0).charOut = none ∧ (s.line 0).echoed = (s.line 0).sent) :=
  ⟨⟨sending { inHand with abortPending := true } echoProf 0 0 (some 0x41) true, by decide +kernel⟩,
    ⟨sending { inHand with echoFailed := true } echoProf 0 0 (some 0x41) true, by decide +kernel⟩,
    ⟨sending inHand echoProf 0 0 (some 0x41) true, by decide +kernel⟩,
    ⟨(sending inHand echoProf 2 1 none true).modLine 0 (fun l => { l with deHold := some 1 }), by decide +kernel⟩,
    by decide +kernel, rfl, rfl,
    ⟨sending inHand echoProf 1 0 (some 0x42) true, by decide +kernel⟩,
    ⟨sending inHand echoProf 2 2 none true, by decide +kernel⟩⟩

/-- These counters stand at `v`. -/
def crossing (cs : List CtrId) (v : Half) (s : State) : State :=
  s.setCtrs (cs.foldl (fun k c => k.write c { value := v, half := false }) s.ctrs)

theorem test_witness_BreakStart :
    let low := fun s : State => (s.line 0).rxBusy = true ∧ settled s ∧
      (s.ctrs.read (.line 0 .breaks)).value ≠ 32767
    (∃ s, low s ∧ (s.line 0).txn = .idle ∧ (s.line 0).edgeListen = .quiet ∧ s.pool.eventsUsed = 15) ∧
    (∃ s, low s ∧ (s.line 0).txn = .idle ∧ (s.line 0).edgeListen = .quiet ∧ s.pool.eventsUsed = 16 ∧
      (s.ctrs.read (.pool .eventsMissed)).value ≠ 32767 ∧ s.trunk.tx.isSome = true) ∧
    (∃ s, low s ∧ (s.line 0).txn = .guard ∧ (s.line 0).edgeListen = .brk ∧
      ((s.ctrs.read (.line 0 .breaks)).value, (s.ctrs.read (.link .framesSent)).value,
        (s.ctrs.read (.link .retransmissions)).value, s.trunk.tx) = (32766, 32766, 32766, none)) ∧
    (∃ s, low s ∧ (s.line 0).txn = .guard ∧ (s.line 0).edgeListen = .brk ∧
      (s.ctrs.read (.link .framesSent)).value = 32767 ∧ s.trunk.tx.isSome = true) ∧
    (∃ s, low s ∧ (s.line 0).txn = .idle ∧ (s.line 0).edgeListen = .listening ∧
      (s.line 0).unsolicited = some (unsol (.keep 9) [1]) ∧ (s.line 0).applied.policy = .forward ∧
      filledBlocks 10 1 = 1 ∧ Config.blocksFor (10 + 1) = 1 ∧ 9 - 1 ≤ s.pool.reserved ∧ 1 = s.pool.held) ∧
    (∃ s, low s ∧ (s.line 0).txn = .sending ∧ (s.line 0).hand = some inHand ∧ (s.line 0).charOut = some 0x41) ∧
    (∃ s, low s ∧ (s.line 0).txn = .sending ∧ (s.line 0).hand = some inHand ∧ (s.line 0).charOut = none) := by
  intro low
  exact ⟨⟨withPool (rx fun l => { l with listen := .listening }) (fun p => { p with eventsUsed := 15 }), by decide +kernel⟩,
    ⟨busy (withPool (rx fun l => { l with listen := .listening }) (fun p => { p with eventsUsed := 16 })), by decide +kernel⟩,
    ⟨crossing [.line 0 .breaks, .link .framesSent, .link .retransmissions] 32766
      (rx fun l => { l with txn := .guard, listen := .listening, edgeListen := .brk }), by decide +kernel⟩,
    ⟨busy (crossing [.link .framesSent] 32767
      (rx fun l => { l with txn := .guard, listen := .listening, edgeListen := .brk })), by decide +kernel⟩,
    ⟨(unsolicited fwd (unsol (.keep 9) [1])).modLine 0 (fun l => { l with edgeListen := .listening }), by decide +kernel⟩,
    ⟨sending inHand echoProf 0 0 (some 0x41) true, by decide +kernel⟩,
    ⟨sending inHand echoProf 2 1 none true, by decide +kernel⟩⟩

/-- A break on a line that is not examined. -/
theorem test_witness_BreakStart_unexamined :
    (∃ s : State, settled s ∧ (s.line 0).rxBusy = true ∧ (s.line 0).txn = .offline) ∧
    (∃ s : State, settled s ∧ (s.line 0).rxBusy = true ∧ (s.line 0).txn = .sending ∧
      (s.line 0).applied.echoCheck = false) :=
  ⟨⟨rx fun l => { l with txn := .offline }, by decide +kernel⟩, ⟨rx fun l => { l with txn := .sending }, by decide +kernel⟩⟩


theorem test_witness_BreakAndMarkEnd :
    let post := fun s : State => settled s ∧ (s.line 0).postBreak = some 40
    (∃ s : State, settled s ∧ (s.line 0).brk = true) ∧ (∃ s : State, settled s ∧ (s.line 0).awaitMark = true) ∧
    (∃ s, post s ∧ (s.line 0).txn = .idle ∧ (s.line 0).staged = none) ∧
    (∃ s, post s ∧ (s.line 0).txn = .guard) ∧ (∃ s, post s ∧ (s.line 0).txn = .waitSpace) ∧
    (∃ s, post s ∧ (s.line 0).txn = .ready ∧ (s.line 0).hand = some inHand) ∧
    (∃ s, post s ∧ (s.line 0).txn = .idle ∧ (s.line 0).staged = some prof ∧ prof.enabled = true ∧
      (s.line 0).queue.length = prof.queueDepth ∧ s.pool.eventsUsed = 15) :=
  ⟨⟨onLine fun l => { l with listen := .brk, brk := true }, by decide +kernel⟩,
    ⟨onLine fun l => { l with listen := .listening, awaitMark := true }, by decide +kernel⟩,
    ⟨onLine fun l => { l with listen := .brk, postBreak := some 40 }, by decide +kernel⟩,
    ⟨onLine fun l => { l with txn := .guard, listen := .brk, postBreak := some 40 }, by decide +kernel⟩,
    ⟨onLine fun l => { l with txn := .waitSpace, listen := .brk, postBreak := some 40 }, by decide +kernel⟩,
    ⟨onLine fun l => { l with txn := .ready, listen := .brk, postBreak := some 40, hand := some inHand }, by decide +kernel⟩,
    ⟨withPool (onLine fun l => { l with
      listen := .brk, postBreak := some 40, staged := some prof, queue := List.replicate 8 req })
      (fun p => { p with eventsUsed := 15 }), by decide +kernel⟩⟩

/-- A profile put in place that turns requests out: one queue place too many, and a line taken out of service. -/
theorem test_witness_ProfileApplied :
    (∃ s : State, calm s ∧ (s.line 0).postBreak = some 40 ∧ (s.line 0).txn = .idle ∧ (s.line 0).staged = some prof ∧
      (s.line 0).turnedOut prof = [req] ∧ queueBlocks [req] ≤ s.pool.held) ∧
    (∃ s : State, calm s ∧ (s.line 0).postBreak = some 40 ∧ (s.line 0).txn = .idle ∧
      (s.line 0).staged = some Profile.default ∧ (s.line 0).turnedOut .default = [req] ∧
      (s.line 0).due = [{ poll := 127, time := 0 }] ∧ queueBlocks [req] ≤ s.pool.held) :=
  ⟨⟨onLine fun l => { l with listen := .brk, postBreak := some 40, staged := some prof, queue := List.replicate 9 req },
      by decide +kernel⟩,
    ⟨onLine fun l => { l with
      listen := .brk, postBreak := some 40, staged := some .default, queue := [req], due := [{ poll := 127, time := 0 }] },
      by decide +kernel⟩⟩

/-- Line 1 with the transaction `x` in hand under profile `p`; entry 127 is its poll. -/
def ending (x : Txn) (p : Profile) (f : Line → Line) : State :=
  (onLine fun l => f { l with applied := p, hand := some x }).setPoll 127 (some (entry .inFlight none))

/-- Every way an attempt ends for good, for the transaction `x` on a line with this profile. -/
theorem test_ends (x : Txn) (p : Profile) (h : x = inHand ∨ x = pollInHand)
    (hp : p = { prof with retries := 0 } ∨ p = { prof with retries := 0, guardTime := 0 }) :
    let y := { x with reply := gotten [0x41] none }
    let z := { x with reply := gotten [0x50] none }
    let echo := { p with echoCheck := true }
    let own := fun o => [CtrId.line 0 (outcomeCounter o)]
    Ends (.gapCountEnd 0) 0 y y.reply .ok (own .ok) [] (ending y p fun l => { l with txn := .receiving, gap := some 40 }) ∧
    Ends (.characterComplete 0 0x0D true true) 0 y (y.reply.take 255 (rxChar prof 0x0D true true)) .ok (own .ok) []
      (ending y { p with termChar := true } fun l => { l with txn := .receiving, rxBusy := true }) ∧
    Ends (.gapCountEnd 0) 0 z z.reply .noReply
      (.line 0 .strayFrames :: ([.line 0 .unsolicitedDropped] ++ own .noReply)) []
      (ending z { p with matchFirst := true } fun l => { l with txn := .receiving, gap := some 40 }) ∧
    Ends (.breakStart 0) 0 y y.reply .brk (own .brk) [] (ending y p fun l => { l with txn := .receiving, rxBusy := true }) ∧
    Ends (.replyWindowExpiry 0) 0 x x.reply .noReply (own .noReply) []
      (ending x p fun l => { l with txn := .awaiting, window := some 0 }) ∧
    Ends (.characterSent 0) 0 { x with abortPending := true } x.reply .aborted (own .aborted) []
      (ending { x with abortPending := true } p fun l => { l with txn := .sending, charOut := some 1 }) ∧
    Ends (.characterSent 0) 0 { x with echoFailed := true } x.reply .collision (own .collision) []
      (ending { x with echoFailed := true } p fun l => { l with txn := .sending, charOut := some 1 }) ∧
    Ends (.echoDeadline 0) 0 x x.reply .collision (own .collision) [] (ending x echo fun l => { l with txn := .sending, sent := 1 }) ∧
    Ends (.breakStart 0) 0 x x.reply .collision (.line 0 .breaks :: own .collision) []
      (ending x echo fun l => { l with txn := .sending, rxBusy := true }) ∧
    Ends (.characterComplete 0 1 true true) 0 x x.reply .collision (own .collision) []
      (ending x echo fun l => { l with txn := .sending, rxBusy := true }) := by
  unfold Ends ReplyEnds strayReply goodEcho
  rcases h with rfl | rfl <;> rcases hp with rfl | rfl <;>
    exact ⟨⟨by decide +kernel, Or.inl ⟨⟨by decide +kernel, by decide +kernel, Or.inl (by decide +kernel)⟩, by decide +kernel⟩⟩,
      ⟨by decide +kernel, Or.inl ⟨⟨by decide +kernel, by decide +kernel, Or.inr ⟨0x0D, true, true, by decide +kernel, by decide +kernel,
        by decide +kernel, Or.inr (by decide +kernel)⟩⟩, by decide +kernel⟩⟩,
      ⟨by decide +kernel, Or.inr (Or.inl ⟨⟨by decide +kernel, by decide +kernel, Or.inl (by decide +kernel)⟩, by decide +kernel,
        by decide +kernel, by decide +kernel, by decide +kernel, _, Or.inl ⟨by decide +kernel, rfl, rfl⟩, rfl⟩)⟩,
      ⟨by decide +kernel, Or.inr (Or.inr ⟨by decide +kernel, by decide +kernel, Or.inl (by decide +kernel)⟩)⟩,
      ⟨by decide +kernel, Or.inr (Or.inr ⟨by decide +kernel, by decide +kernel,
        Or.inr (Or.inl ⟨rfl, by decide +kernel, ⟨0, by decide +kernel⟩, by decide +kernel⟩)⟩)⟩,
      ⟨by decide +kernel, Or.inr (Or.inr ⟨by decide +kernel, by decide +kernel, Or.inr (Or.inr (Or.inl (by decide +kernel)))⟩)⟩,
      ⟨by decide +kernel, Or.inr (Or.inr ⟨by decide +kernel, by decide +kernel, Or.inr (Or.inr (Or.inl (by decide +kernel)))⟩)⟩,
      ⟨by decide +kernel, Or.inr (Or.inr ⟨by decide +kernel, by decide +kernel,
        Or.inr (Or.inr (Or.inr (Or.inl (by decide +kernel))))⟩)⟩,
      ⟨by decide +kernel, Or.inr (Or.inr ⟨by decide +kernel, by decide +kernel,
        Or.inr (Or.inr (Or.inr (Or.inr (Or.inl (by decide +kernel)))))⟩)⟩,
      ⟨by decide +kernel, Or.inr (Or.inr ⟨by decide +kernel, by decide +kernel,
        Or.inr (Or.inr (Or.inr (Or.inr (Or.inr ⟨1, true, true, by decide +kernel⟩))))⟩)⟩⟩

/-- A request's transaction, GuardTime 5 and 0 (`test_ends`). -/
theorem test_witness_RequestCompletes : inHand.work = .request req ∧ ∀ x p f, (ending x p f).late = [] ∧ (ending x p f).granted = [] ∧
      (ending x p f).pool.waitList = [] := ⟨rfl, fun _ _ _ => ⟨rfl, rfl, rfl⟩⟩

/-- A poll that must report, that is suppressed, that is forced, and that is RETIRING (`test_ends`). -/
theorem test_witness_PollCompletes :
    pollInHand.work = .poll 127 0 ∧ (entry .inFlight none).defn.line = 0 ∧
    (∀ st, (((onLine id).setPoll 127 (some (entry st none))).poll 127) = some (entry st none)) ∧
    (∃ p : Poll, p.state ≠ .retiring ∧ p.lastDigest ≠ some (digest [0x41])) ∧
    (∃ p : Poll, p.state ≠ .retiring ∧ p.defn.mode = .change ∧ p.lastDigest = some (digest [0x41]) ∧ p.missed = 0 ∧
      p.defn.forceEvery = 0) ∧
    (∃ p : Poll, p.state ≠ .retiring ∧ p.defn.mode = .change ∧ p.lastDigest = some (digest [0x41]) ∧ p.missed = 0 ∧
      p.defn.forceEvery ≠ 0 ∧ p.defn.forceEvery = p.suppressed + 1) := by
  refine ⟨by decide, by decide, fun st => by cases st <;> decide +kernel, ⟨entry .inFlight none, by decide +kernel⟩,
    ⟨{ entry .inFlight none with lastDigest := some (digest [0x41]) }, by decide +kernel⟩,
    ⟨{ entry .inFlight none with lastDigest := some (digest [0x41]), defn := { pollDef with forceEvery := 1 } },
      by decide +kernel⟩⟩

/-- The last attempt but one. -/
theorem test_witness_AttemptRetried :
    let x := { inHand with attempts := 2 }
    let y := { x with reply := gotten [0x41] (some 0) }
    (∃ s : State, (s.line 0).hand = some x ∧ settled s ∧ x.attempts + 1 = (s.line 0).applied.retries + 1 ∧
      x.work.suppressRetry = false ∧ (s.line 0).txn = .awaiting ∧ (s.line 0).window = some s.clock) ∧
    (∃ s : State, (s.line 0).hand = some y ∧ settled s ∧ (s.line 0).txn = .receiving ∧ (s.line 0).gap = some 40 ∧
      (s.line 0).applied.matchFirst = false ∧ y.reply.overlong = false ∧ y.reply.errorAt = some 0 ∧
      (s.line 0).applied.retryOn = .noReplyAndCharError) :=
  ⟨⟨onLine fun l => { l with txn := .awaiting, hand := some { inHand with attempts := 2 }, window := some 0 }, by decide +kernel⟩,
    ⟨onLine fun l => { l with
      txn := .receiving, gap := some 40, applied := { prof with retryOn := .noReplyAndCharError }
      hand := some { inHand with attempts := 2, reply := gotten [0x41] (some 0) } }, by decide +kernel⟩⟩

/-- At the terminator, after an error character. -/
theorem test_witness_AttemptRetried_character :
    let y := { inHand with attempts := 2, reply := gotten [0x41] (some 0) }
    ∃ s a, ReplyEnds (.characterComplete 0 0x0D true true) 0 y a s ∧ ¬ strayReply { y with reply := a } 0 s ∧ settled s ∧
      y.attempts + 1 = (s.line 0).applied.retries + 1 ∧ a.overlong = false ∧ a.errorAt.isSome = true ∧
      (s.line 0).applied.retryOn = .noReplyAndCharError := by
  unfold ReplyEnds strayReply
  exact ⟨receiving { inHand with attempts := 2 } { prof with retryOn := .noReplyAndCharError, termChar := true }
      (gotten [0x41] (some 0)), (gotten [0x41] (some 0)).take 255 (rxChar prof 0x0D true true),
    ⟨by decide +kernel, by decide +kernel, Or.inr ⟨0x0D, true, true, by decide +kernel, by decide +kernel, by decide +kernel,
      Or.inr (by decide +kernel)⟩⟩, by decide +kernel⟩

/-- A stray reply to line 1 under each policy. -/
def stray (p : Policy) (known : List Byte) (left : Nat) : State :=
  onLine fun l => { l with
    txn := .receiving, gap := some 40, applied := { prof with matchFirst := true, policy := p }, known := known
    hand := some { inHand with windowLeft := left, reply := gotten [0x50] none } }

/-- A stray at the gap and at its terminator, with a window left and with none; each way it is disposed of. -/
theorem test_witness_StrayFound :
    let x := fun n : Nat => { inHand with windowLeft := n, reply := gotten [0x50] none }
    let a := gotten [0x50] none
    (∃ s, ReplyEnds (.gapCountEnd 0) 0 (x 1) a s ∧ strayReply { x 1 with reply := a } 0 s ∧
      Disposal 0 a [.line 0 .unsolicitedDropped] [] s ∧ calm s) ∧
    (∃ s, ReplyEnds (.gapCountEnd 0) 0 (x 0) a s ∧ strayReply { x 0 with reply := a } 0 s ∧
      Disposal 0 a [.line 0 .unsolicitedDropped] [] s ∧ calm s ∧ (x 0).attempts < (s.line 0).applied.retries + 1 ∧
      (x 0).work.suppressRetry = false) ∧
    (∃ s b, ReplyEnds (.characterComplete 0 0x0D true true) 0 (x 1) b s ∧ strayReply { x 1 with reply := b } 0 s ∧
      Disposal 0 b [.line 0 .unsolicitedDropped] [] s ∧ calm s) := by
  unfold ReplyEnds strayReply
  exact ⟨⟨stray .drop [] 1, ⟨by decide +kernel, by decide +kernel, Or.inl (by decide +kernel)⟩, by decide +kernel,
      Or.inl ⟨by decide +kernel, rfl, rfl⟩, by decide +kernel⟩,
    ⟨stray .drop [] 0, ⟨by decide +kernel, by decide +kernel, Or.inl (by decide +kernel)⟩, by decide +kernel,
      Or.inl ⟨by decide +kernel, rfl, rfl⟩, by decide +kernel⟩,
    ⟨receiving { inHand with windowLeft := 1 } { prof with matchFirst := true, termChar := true } (gotten [0x50] none),
      (gotten [0x50] none).take 255 (rxChar prof 0x0D true true),
      ⟨by decide +kernel, by decide +kernel, Or.inr ⟨0x0D, true, true, by decide +kernel, by decide +kernel, by decide +kernel,
        Or.inr (by decide +kernel)⟩⟩, by decide +kernel, Or.inl ⟨by decide +kernel, rfl, rfl⟩, by decide +kernel⟩⟩

/-- The reservation one block short; just granted, under FORWARD, and under FORWARD_KNOWN with the address in the last of eight
places and in none. -/
theorem test_witness_Disposal :
    let a := gotten [0x50] none
    let just := fun s : State => withPool s (fun p => { p with free := 25, slotsUsed := 247 })
    Disposal 0 a [.pool .unsolicitedLost] [] (withPool (stray .forward [] 1) (fun p => { p with free := 24 })) ∧
    (∃ rs, Disposal 0 a [.line 0 .unsolicitedForwarded] rs (just (stray .forward [] 1))) ∧
    (∃ rs, Disposal 0 a [.line 0 .unsolicitedForwarded] rs (just (stray .forwardKnown [1, 2, 3, 4, 5, 6, 7, 0x50] 1))) ∧
    Disposal 0 a [.line 0 .unsolicitedDropped] [] (just (stray .forwardKnown [0x51] 1)) := by
  unfold Disposal KeptEnds Line.knownAt
  exact ⟨Or.inr (Or.inl (by decide +kernel)),
    ⟨_, Or.inr (Or.inr ⟨by decide +kernel, by decide +kernel, Or.inl ⟨by decide +kernel, rfl, rfl⟩⟩)⟩,
    ⟨_, Or.inr (Or.inr ⟨by decide +kernel, by decide +kernel, Or.inr ⟨by decide +kernel, 0x50, [], rfl,
      Or.inl ⟨7, by decide +kernel, rfl, rfl⟩⟩⟩)⟩,
    Or.inr (Or.inr ⟨by decide +kernel, by decide +kernel, Or.inr ⟨by decide +kernel, 0x50, [], rfl,
      Or.inr (by decide +kernel)⟩⟩)⟩

/-- An unsolicited frame that ends on line 1. -/
def unsolEnds (p : Policy) (known : List Byte) (m : UnsolMode) (f : Line → Line) : State :=
  onLine fun l => f { l with
    listen := .listening, gap := some 40, applied := { prof with policy := p }, known := known
    unsolicited := some (unsol m [0x50]) }

/-- Every way an unsolicited frame ends, at the gap and at a break. -/
theorem test_unsolicitedEnds (f : Line → Line) (o : TxnOutcome)
    (h : f = id ∨ f = fun l => { l with gap := none, rxBusy := true, edgeListen := .listening }) :
    let known := [CtrId.line 0 .unsolicitedForwarded]
    let dropped := [CtrId.line 0 .unsolicitedDropped]
    UnsolicitedEnds 0 (unsol .drop [0x50]) o dropped [] 1 (unsolEnds .drop [] .drop f) ∧
    UnsolicitedEnds 0 (unsol .lost [0x50]) o [] [] 1 (unsolEnds .forward [] .lost f) ∧
    UnsolicitedEnds 0 (unsol .aborted [0x50]) o [] [] 1 (unsolEnds .forward [] .aborted f) ∧
    (∃ rs, UnsolicitedEnds 0 (unsol (.keep 9) [0x50]) o known rs 1 (unsolEnds .forward [] (.keep 9) f)) ∧
    (∃ rs, UnsolicitedEnds 0 (unsol (.keep 9) [0x50]) o known rs 1 (unsolEnds .forwardKnown [1, 0x50] (.keep 9) f)) ∧
    UnsolicitedEnds 0 (unsol (.keep 9) [0x50]) o dropped [] 0 (unsolEnds .forwardKnown [1] (.keep 9) f) := by
  have c : ∀ p k m n j, (unsolEnds p k m f).unserved n j := fun p k m n j =>
    (test_calm _ ⟨⟨rfl, rfl⟩, rfl⟩).2.2.1 n j
  unfold UnsolicitedEnds KeptEnds Line.knownAt
  rcases h with rfl | rfl <;>
    exact ⟨Or.inl (by decide +kernel), Or.inr (Or.inl (by decide +kernel)), Or.inr (Or.inl (by decide +kernel)),
      ⟨_, Or.inr (Or.inr ⟨9, rfl, Or.inl ⟨by decide +kernel, rfl, rfl⟩, rfl, c _ _ _ _ _⟩)⟩,
      ⟨_, Or.inr (Or.inr ⟨9, rfl, Or.inr ⟨by decide +kernel, 0x50, [], rfl, Or.inl ⟨1, by decide +kernel, rfl, rfl⟩⟩,
        rfl, c _ _ _ _ _⟩)⟩,
      Or.inr (Or.inr ⟨9, rfl, Or.inr ⟨by decide +kernel, 0x50, [], rfl, Or.inr (by decide +kernel)⟩, by decide +kernel,
        c _ _ _ _ _⟩)⟩

/-- Each state of the line at the end of a frame (`test_unsolicitedEnds`). -/
theorem test_witness_UnsolicitedFrameEnds :
    let ok := fun (s : State) => (s.line 0).unsolicited = some (unsol .drop [0x50]) ∧ (s.line 0).gap.isSome = true ∧
      calm s ∧ (s.line 0).applied.policy = .drop
    (∃ s, ok s ∧ (s.line 0).txn = .idle ∧ (s.line 0).staged = none) ∧
    (∃ s, ok s ∧ (s.line 0).txn = .idle ∧ (s.line 0).staged = some prof ∧ s.pool.eventsUsed = 15) ∧
    (∃ s, ok s ∧ (s.line 0).txn = .ready ∧ (s.line 0).hand = some inHand) ∧
    (∃ s, ok s ∧ (s.line 0).txn = .waitSpace) ∧ (∃ s, ok s ∧ (s.line 0).txn = .guard) ∧
    (∃ s : State, (s.line 0).unsolicited = some (unsol (.keep 9) [0x50]) ∧ (s.line 0).applied.policy = .forward ∧
      filledBlocks 10 1 = 1 ∧ Config.blocksFor (10 + 1) = 1 ∧ 9 - 1 ≤ s.pool.reserved ∧ 1 = s.pool.held) :=
  ⟨⟨unsolEnds .drop [] .drop id, by decide +kernel⟩,
    ⟨withPool (unsolEnds .drop [] .drop fun l => { l with staged := some prof }) (fun p => { p with eventsUsed := 15 }),
      by decide +kernel⟩,
    ⟨(unsolEnds .drop [] .drop id).modLine 0 (fun l => { l with txn := .ready, hand := some inHand }), by decide +kernel⟩,
    ⟨(unsolEnds .drop [] .drop id).modLine 0 (fun l => { l with txn := .waitSpace }), by decide +kernel⟩,
    ⟨(unsolEnds .drop [] .drop id).modLine 0 (fun l => { l with txn := .guard }), by decide +kernel⟩,
    ⟨unsolEnds .forward [] (.keep 9) id, by decide +kernel⟩⟩

/-- Line 1 at the end of GUARD. -/
def guarding (f : Line → Line) : State := at_ ((onLine id).modLine 0 (fun l => f { l with txn := .guard, guardEnd := some 5 })) 5

theorem test_witness_GuardEnd :
    let ok := fun s : State => (s.line 0).txn = .guard ∧ (s.line 0).guardEnd = some s.clock ∧ settled s
    (∃ s, ok s ∧ (s.line 0).hand = some inHand ∧ (s.line 0).listen = .quiet) ∧
    (∃ s, ok s ∧ (s.line 0).hand = none ∧ (s.line 0).queue = [] ∧ (s.line 0).due = [] ∧ (s.line 0).staged = none) ∧
    (∃ s, ok s ∧ (s.line 0).hand = none ∧ (s.line 0).staged = none ∧ choose (s.line 0) s.clock = .request req [] ∧
      s.pool.waitList = [] ∧ Config.blocksFor (10 + (s.line 0).applied.maxReply) + 16 = s.pool.free) ∧
    (∃ s, ok s ∧ (s.line 0).hand = none ∧ (s.line 0).listen = .brk ∧ (s.line 0).staged = some prof ∧
      choose (s.line 0) s.clock = .request req [] ∧
      s.pool.free + 1 = Config.blocksFor (10 + (s.line 0).applied.maxReply) + 16) :=
  ⟨⟨guarding fun l => { l with hand := some inHand }, by decide +kernel⟩, ⟨guarding id, by decide +kernel⟩,
    ⟨withPool (guarding fun l => { l with queue := [req] }) (fun p => { p with free := 25 }), by decide +kernel⟩,
    ⟨withPool (guarding fun l => { l with queue := [req], listen := .brk, staged := some prof })
      (fun p => { p with free := 24 }), by decide +kernel⟩⟩

/-- A poll chosen with its blocks and slot just free, one slot short, and behind a waiter. -/
theorem test_witness_GuardEnd_poll :
    let ok := fun s : State => (s.line 0).txn = .guard ∧ (s.line 0).guardEnd = some s.clock ∧ settled s ∧
      (s.line 0).hand = none ∧ (s.line 0).staged = none ∧ choose (s.line 0) s.clock = .poll { poll := 127, time := 0 } [] ∧
      s.poll 127 = some (entry .due none)
    let n := Config.blocksFor (11 + prof.maxReply)
    (∃ s, ok s ∧ s.pool.waitList = [] ∧ n + 16 = s.pool.free ∧ s.pool.slotsUsed + 9 = 256 ∧ (s.line 0).applied = prof) ∧
    (∃ s, ok s ∧ s.pool.waitList = [] ∧ 257 = s.pool.slotsUsed + 9) ∧ (∃ s, ok s ∧ s.pool.waitList ≠ []) := by
  intro ok n
  let st := (guarding fun l => { l with due := [{ poll := 127, time := 0 }] }).setPoll 127 (some (entry .due none))
  exact ⟨⟨withPool st (fun p => { p with free := 25, slotsUsed := 247 }), by decide +kernel⟩,
    ⟨withPool st (fun p => { p with slotsUsed := 248 }), by decide +kernel⟩,
    ⟨withPool st (fun p => { p with waitList := [{ who := .line 3, need := { blocks := 9, slot := false, cls := .line } }] }),
      by decide +kernel⟩⟩

/-- A staged profile at the end of GUARD: with nothing to send; out of service; and with a request taken at once, the ninth
turned out and its blocks just enough. -/
theorem test_witness_GuardEnd_staged :
    let ok := fun (p : Profile) (s : State) => (s.line 0).txn = .guard ∧ (s.line 0).guardEnd = some s.clock ∧ calm s ∧
      (s.line 0).hand = none ∧ (s.line 0).listen = .quiet ∧ (s.line 0).staged = some p ∧
      queueBlocks ((s.line 0).turnedOut p) ≤ s.pool.held ∧ s.pool.eventsUsed = 15
    let m := fun (p : Profile) (s : State) =>
      Line.under { s.line 0 with guardEnd := none, lateMark := none, lde := false, txn := .idle, staged := none } p
    (∃ s, ok prof s ∧ choose (m prof s) s.clock = .nothing) ∧
    (∃ s, ok .default s ∧ Profile.default.enabled = false ∧ (s.line 0).turnedOut .default = [req]) ∧
    (∃ s, ok prof s ∧ choose (m prof s) s.clock = .request req (List.replicate 7 req) ∧ (s.line 0).turnedOut prof = [req] ∧
      Config.blocksFor (10 + prof.maxReply) + 16 = s.pool.free + spareBlocks [req]) := by
  intro ok m
  let st := fun (p : Profile) (q : List Request) => withPool (guarding fun l => { l with staged := some p, queue := q })
    (fun u => { u with free := 25, eventsUsed := 15 })
  exact ⟨⟨st prof [], by decide +kernel⟩, ⟨st .default [req], by decide +kernel⟩,
    ⟨st prof (List.replicate 9 req), by decide +kernel⟩⟩

theorem test_witness_LineCommandFrame : settled up ∧ ∀ w, w ∈ up.pool.waitList → w.who ≠ .intake := by
  exact ⟨⟨rfl, rfl⟩, by simp [up, State.setTrunk, State.setUplink, State.reset, Pool.reset]⟩

/-- An URGENT request behind a NORMAL one; a NORMAL one at AgeLimit, and 1 ms short of it with a poll due. -/
theorem test_witness_SelectionOrder :
    (∃ (l : Line) (r : Request), l.queue = [req] ++ r :: [] ∧ req.urgent = false ∧ r.urgent = true) ∧
    (∃ l : Line, l.queue = [req] ∧ req.urgent = false ∧ l.applied.ageLimit = min (1000 - req.arrival) (2 ^ 31)) ∧
    (∃ l : Line, l.queue = [req] ∧ l.due = [{ poll := 127, time := 0 }] ∧
      min (999 - req.arrival) (2 ^ 31) + 1 = l.applied.ageLimit) ∧
    (∃ l : Line, l.queue = [] ∧ l.due = [{ poll := 127, time := 0 }]) ∧ (∃ l : Line, l.queue = [req] ∧ l.due = []) ∧
    (∃ l : Line, l.queue = [] ∧ l.due = []) :=
  ⟨⟨{ Line.reset with queue := [req, { req with urgent := true }] }, { req with urgent := true }, by decide⟩,
    ⟨{ Line.reset with queue := [req] }, by decide⟩,
    ⟨{ Line.reset with queue := [req], due := [{ poll := 127, time := 0 }] }, by decide⟩,
    ⟨{ Line.reset with due := [{ poll := 127, time := 0 }] }, by decide⟩, ⟨{ Line.reset with queue := [req] }, by decide⟩,
    ⟨Line.reset, by decide⟩⟩

/-- From reset, and with the keepalive timer at its deadline. -/
theorem test_witness_InvariantKept :
    (∃ t, step State.reset = .next t) ∧ State.reset.cfg.inRange = true ∧ State.reset.onTime ∧
    (∃ t, step (at_ up 125) = .next t) ∧ (at_ up 125).cfg.inRange = true ∧ (at_ up 125).onTime := by
  refine ⟨⟨_, rfl⟩, by decide, fun _ d _ => Nat.zero_le d, ⟨_, rfl⟩, by decide, fun c d h => ?_⟩
  have g : ∀ i, ((at_ up 125).line i).guardEnd = none := by decide +kernel
  have r : ∀ i, ((at_ up 125).line i).window = none := by decide +kernel
  have p : ∀ id, ((at_ up 125).poll id).bind Poll.nextDue = none := by decide +kernel
  cases c <;> simp only [State.deadlineOf, g, r, p] at h <;> cases h <;> decide

end Sys2Proof.Tests
end

section
/-! POLL_CLEAR: the entry it names, what it does to that entry in each of its states, and what it leaves (R86,
R181). -/

namespace Sys2Proof.Machine

/-- A PollId byte above 127 names no entry. -/
theorem pollOf_none {x : Byte} (h : 128 ≤ x.toNat) : pollOf x = none := by
  simp [pollOf, show ¬ x.toNat < 128 by omega]

namespace State

/-- An entry written as it stands changes nothing. -/
theorem setPoll_self {s : State} {id : Fin 128} {e : Option Poll} (h : s.poll id = e) : s.setPoll id e = s := by
  subst h
  simp [setPoll, poll, Vector.get_eq_getElem]

/-- The line an entry belongs to loses its PollId from the due list (R63). -/
@[simp] theorem line_leaveDue_same (s : State) (i : Fin 12) (id : Fin 128) :
    (s.leaveDue i id).line i = { s.line i with due := (s.line i).due.filter (fun e => e.poll != id) } := by
  simp [leaveDue]

/-- Any other line keeps its due list. -/
@[simp] theorem line_leaveDue_ne (s : State) (i j : Fin 12) (id : Fin 128) (h : j ≠ i) :
    (s.leaveDue i id).line j = s.line j := by
  simp [leaveDue, h]

/-! POLL_CLEAR by the state of the entry it names (R86). -/

theorem clearPoll_empty {s : State} {id : Fin 128} (h : s.poll id = none) :
    s.clearPoll id = ⟨s.setPoll id none, .noEntry, []⟩ := by
  rw [setPoll_self h]
  simp [clearPoll, h, refuse]

theorem clearPoll_waiting {s : State} {id : Fin 128} {p : Poll} (h : s.poll id = some p) (hp : p.state = .waiting) :
    s.clearPoll id = ⟨s.setPoll id none, .done, []⟩ := by
  simp [clearPoll, h, hp]

theorem clearPoll_due {s : State} {id : Fin 128} {p : Poll} (h : s.poll id = some p) (hp : p.state = .due) :
    s.clearPoll id = ⟨(s.leaveDue p.defn.line id).setPoll id none, .done, []⟩ := by
  simp [clearPoll, h, hp]

/-- An entry whose run is in hand is RETIRING afterwards; one that already was stands. -/
theorem clearPoll_running {s : State} {id : Fin 128} {p : Poll} (h : s.poll id = some p)
    (hp : p.state = .inFlight ∨ p.state = .retiring) :
    s.clearPoll id = ⟨s.setPoll id (some { p with state := .retiring }), .staged, []⟩ := by
  rcases hp with hp | hp
  · simp [clearPoll, h, hp]
  · have same : { p with state := .retiring } = p := by rw [← hp]
    rw [same, setPoll_self h]
    simp [clearPoll, h, hp]

/-- A PollId out of range is refused (R181). -/
theorem pollClear_refused (s : State) {x : Byte} (h : 128 ≤ x.toNat) : s.pollClear [x] = ⟨s, .badParam, []⟩ := by
  simp [pollClear, byteAt, pollOf_none h, refuse]

/-- A PollId in range reaches its entry. -/
theorem pollClear_entry (s : State) (id : Fin 128) : s.pollClear [natByte id.val] = s.clearPoll id := by
  simp [pollClear, byteAt, pollOf_byte]

theorem runCommand_pollClear (s : State) {m : MgmtRequest} (h : m.code = 0x21) :
    s.runCommand m = s.pollClear m.params := by
  simp [runCommand, commandOf_of_code .pollClear h]

/-- The response to a POLL_CLEAR is allocated one block (R168). -/
theorem blocks_pollClear {m : MgmtRequest} (h : m.code = 0x21) : m.blocks = 1 := by
  simp [MgmtRequest.blocks, commandOf_of_code .pollClear h]

/-- A POLL_CLEAR that writes entry `id`, and before it changes at most the lines: one response, everything else stands. -/
theorem pollClear_completes {m : MgmtRequest} {s u : State} {id : Fin 128} {e : Option Poll} {st : Status}
    (h : RequestReady m s) (hc : m.code = 0x21) (hid : m.params = [natByte id.val])
    (hu : u = { s.take m.need .held with lines := u.lines })
    (hv : (s.take m.need .held).clearPoll id = ⟨u.setPoll id e, st, []⟩) :
    Completes .pollClear s (fun t =>
      (Answered m st [] s t ∧ Counted [] s t ∧ SameLink s t ∧ SameSettings s t ∧ ∀ k, k ≠ id → t.poll k = s.poll k) ∧
      t.poll id = e ∧ t.lines = u.lines) := by
  have run : (s.take m.need .held).runCommand m = ⟨u.setPoll id e, st, []⟩ := by
    rw [runCommand_pollClear _ hc, hid, pollClear_entry, hv]
  generalize u.lines = lines at hu ⊢
  subst hu
  refine answers_acting s _ m .pollClear st h hc (by decide) (blocks_pollClear hc) run rfl rfl rfl rfl rfl rfl rfl _ ?_
  intro t answered counted link hlines _ hcfg hrun hclock hpending _ hpoll
  have settings : SameSettings s t := by simp [SameSettings, hcfg, hrun, hclock, hpending]
  have others : ∀ k, k ≠ id → t.poll k = s.poll k := fun k hk => by
    rw [hpoll, poll_setPoll_ne _ _ _ _ hk]
    show (s.take m.need .held).poll k = s.poll k
    simp
  exact ⟨⟨answered, counted, link, settings, others⟩, by rw [hpoll, poll_setPoll_same], hlines⟩

end State

/-- Settles O38: the outcome of POLL_CLEAR by the state of its entry, each through `State.pollClear_completes`. -/
theorem pollClearActs : Obligations.PollClearActs := by
  intro m s h hc
  refine ⟨fun x hx range => ?_, fun id hid => ⟨fun empty => ?_, fun p entry => ⟨fun waiting => ?_, fun due => ?_,
    fun running => ?_⟩⟩⟩
  · have refused : (s.take m.need .held).runCommand m = ⟨s.take m.need .held, .badParam, []⟩ := by
      rw [State.runCommand_pollClear _ hc, hx, State.pollClear_refused _ range]
    obtain ⟨t, ht, answered, counted, tables, link, _⟩ := State.answers_quiet s m (some .pollClear) .badParam [] h
      (commandOf_of_code .pollClear hc) (by simp) refused (by simp [State.blocks_pollClear hc])
    exact ⟨t, ht, answered, counted, tables, link⟩
  · simpa using State.pollClear_completes h hc hid rfl (State.clearPoll_empty (by simpa using empty))
  · simpa using State.pollClear_completes h hc hid rfl (State.clearPoll_waiting (by simpa using entry) waiting)
  · obtain ⟨t, ht, frame, cleared, lines⟩ :=
      State.pollClear_completes h hc hid rfl (State.clearPoll_due (by simpa using entry) due)
    have line (j : Fin 12) : t.line j = ((s.take m.need .held).leaveDue p.defn.line id).line j :=
      congrArg (Vector.get · j) lines
    exact ⟨t, ht, frame, cleared, by simp [line], fun j hj => by simp [line, hj]⟩
  · simpa using State.pollClear_completes h hc hid rfl (State.clearPoll_running (by simpa using entry) running)

end Sys2Proof.Machine
end

section
/-! IDENTIFY, LINK_READ, LINE_READ, POLL_READ and ECHO: the data each answers with, laid out by the fields of section
11.5, the blocks of its response, and that it leaves everything else (R170, R173, R177, R181, R184). -/

namespace Sys2Proof.Machine

/-- An optional field behind its present mark; an absent one is `len` bytes of 0 (section 11.5). -/
def presentField (o : Option (List Byte)) (len : Nat) : List Byte :=
  match o with
  | some b => (1 : Byte) :: b
  | none => List.replicate (1 + len) 0

/-- A field of fixed length takes as many bytes present as absent. -/
theorem presentField_length {α : Type} (o : Option α) (f : α → List Byte) {len : Nat} (h : ∀ a, (f a).length = len) :
    (presentField (o.map f) len).length = 1 + len := by
  cases o with
  | none => simp [presentField]
  | some a => simp [presentField, h a, Nat.add_comm]

/-! The model's forms of an optional byte and of LastDigest are such fields. -/

theorem markByte_map {α : Type} (o : Option α) (f : α → Byte) :
    markByte (o.map f) = presentField (o.map (fun a => [f a])) 1 := by
  cases o <;> rfl

theorem digestField_eq (o : Option Half) :
    boolByte o.isSome :: halfBytes (o.getD 0) = presentField (o.map halfBytes) 2 := by
  cases o <;> rfl

/-! The lengths of the fields a response is laid out from. -/

@[simp] theorem halfBytes_length (w : Half) : (halfBytes w).length = 2 := rfl

@[simp] theorem natHalf_length (n : Nat) : (natHalf n).length = 2 := rfl

@[simp] theorem wordBytes_length (w : BitVec 32) : (wordBytes w).length = 4 := rfl

@[simp] theorem Profile.bytes_length (p : Profile) : p.bytes.length = 24 := rfl

@[simp] theorem LinkConfig.bytes_length (c : LinkConfig) : c.bytes.length = 16 := rfl

/-- The report of the work in hand takes three bytes, whatever the work (section 11.5). -/
@[simp] theorem workReport_length (o : Option Txn) : (workReport o).length = 3 := by
  cases o with
  | none => rfl
  | some t => cases h : t.work <;> simp [workReport, h]

namespace State

/-! The layouts (section 11.5). -/

@[simp] theorem linkReadData_length (s : State) : s.linkReadData.length = 26 := rfl

@[simp] theorem lineReadData_length (s : State) (i : Fin 12) : (s.lineReadData i).length = 58 := by
  cases h : (s.line i).staged <;> simp [lineReadData, h]

/-- LINE_READ: the staged profile behind its present mark; the kind of the work in hand, its Tag or PollId and its attempts,
0 where there is none. -/
theorem lineReadData_layout (s : State) (i : Fin 12) :
    s.lineReadData i = [lineByte i] ++ (s.line i).applied.bytes ++
      (match (s.line i).staged with
        | some p => (1 : Byte) :: p.bytes
        | none => List.replicate 25 0) ++
      [(s.line i).txn.code, (s.line i).listen.code, natByte (s.line i).queue.length, natByte (s.line i).due.length] ++
      (match (s.line i).hand.map Txn.work with
        | some (.request r) => (1 : Byte) :: halfBytes r.tag
        | some (.poll id _) => [2, 0, natByte id.val]
        | none => [0, 0, 0]) ++
      [match (s.line i).hand with
        | some x => natByte x.attempts
        | none => 0] := by
  simp only [lineReadData]
  generalize s.line i = l
  rcases l.hand with _ | ⟨work, _⟩
  · cases l.staged <;> rfl
  · cases work <;> cases l.staged <;> rfl

theorem nextDueBytes_eq (s : State) (p : Poll) :
    s.nextDueBytes p = presentField (p.nextDue.map (fun t => wordBytes (BitVec.ofNat 32 (t - s.clock)))) 4 := by
  cases h : p.nextDue <;> simp [nextDueBytes, presentField, h]

/-- POLL_READ of an EMPTY entry. -/
theorem pollReadData_empty {s : State} {id : Fin 128} (h : s.poll id = none) :
    s.pollReadData id = [natByte id.val, 0] ++ List.replicate 24 0 := by
  simp [pollReadData, h, List.replicate]

/-- POLL_READ of an entry that holds a poll. -/
theorem pollReadData_entry {s : State} {id : Fin 128} {p : Poll} (h : s.poll id = some p) :
    s.pollReadData id = [natByte id.val, p.state.code, lineByte p.defn.line] ++ natHalf p.defn.period ++
      natHalf p.defn.phase ++ [p.defn.mode.code, natByte p.defn.forceEvery] ++
      presentField (p.defn.expectLen.map (fun n => [natByte n])) 1 ++ halfBytes p.pollSeq ++
      presentField (p.lastDigest.map halfBytes) 2 ++ presentField (p.lastOutcome.map (fun o => [o.code])) 1 ++
      [natByte p.missed, natByte p.suppressed] ++
      presentField (p.nextDue.map (fun t => wordBytes (BitVec.ofNat 32 (t - s.clock)))) 4 ++
      [natByte p.defn.request.length] ++ p.defn.request := by
  simp [pollReadData, h, markByte_map, ← digestField_eq, nextDueBytes_eq]

/-- POLL_READ answers 26 bytes and the request of the poll. -/
theorem pollReadData_length {s : State} {id : Fin 128} {p : Poll} (h : s.poll id = some p) :
    (s.pollReadData id).length = 26 + p.defn.request.length := by
  rw [pollReadData_entry h]
  simp [presentField_length _ _ halfBytes_length, presentField_length _ _ (fun _ => wordBytes_length _),
    presentField_length (len := 1)]
  omega

/-! What the data reads stands while the response space is taken, FreeCount and PoolHold apart. -/

@[simp] theorem lineReadData_take (s : State) (n : Need) (into : Into) (i : Fin 12) :
    (s.take n into).lineReadData i = s.lineReadData i := by
  simp [lineReadData]

@[simp] theorem pollReadData_take (s : State) (n : Need) (into : Into) (id : Fin 128) :
    (s.take n into).pollReadData id = s.pollReadData id := by
  simp [pollReadData, nextDueBytes]

/-- LINK_READ reads FreeCount and PoolHold with its own response space taken (R129, R173). -/
theorem linkReadData_take {m : MgmtRequest} {s : State} (h : RequestReady m s) :
    (s.take m.need .held).linkReadData =
      s.cfg.bytes ++ [boolByte s.trunk.up, s.trunk.epoch, 0#2 ++ s.trunk.nextSeq, 0#2 ++ s.trunk.peerAck,
        0#2 ++ s.trunk.expectSeq, natByte s.trunk.peerAllow, natByte s.trunk.retransmits.length] ++
        natHalf (s.pool.free - m.blocks) ++ [boolByte (s.take m.need .held).pool.hold] := by
  obtain ⟨free, _⟩ := take_need s m h
  rw [linkReadData, free]
  simp

/-! Their execution, by the parameters each takes (R168). -/

section
variable {m : MgmtRequest}

theorem runCommand_identify (s : State) (hc : m.code = 0x01) (hp : m.params = []) :
    s.runCommand m = ⟨s, .done, identifyData⟩ := by
  simp [runCommand, commandOf_of_code .identify hc, identify, hp]

theorem runCommand_linkRead (s : State) (hc : m.code = 0x03) (hp : m.params = []) :
    s.runCommand m = ⟨s, .done, s.linkReadData⟩ := by
  simp [runCommand, commandOf_of_code .linkRead hc, linkRead, hp]

theorem runCommand_lineRead (s : State) {i : Fin 12} (hc : m.code = 0x11) (hp : m.params = [lineByte i]) :
    s.runCommand m = ⟨s, .done, s.lineReadData i⟩ := by
  simp [runCommand, commandOf_of_code .lineRead hc, lineRead, hp, byteAt, lineOf_lineByte]

theorem runCommand_pollRead (s : State) {id : Fin 128} (hc : m.code = 0x22) (hp : m.params = [natByte id.val]) :
    s.runCommand m = ⟨s, .done, s.pollReadData id⟩ := by
  simp [runCommand, commandOf_of_code .pollRead hc, pollRead, hp, byteAt, pollOf_byte]

theorem runCommand_echo (s : State) (hc : m.code = 0x41) (hp : m.params.length ≤ 200) :
    s.runCommand m = ⟨s, .done, m.params⟩ := by
  simp [runCommand, commandOf_of_code .echo hc, echoCmd, hp]

/-! Their response allocations (R168). -/

theorem blocks_linkRead (hc : m.code = 0x03) (hp : m.params = []) : m.blocks = 2 := by
  simp [MgmtRequest.blocks, commandOf_of_code .linkRead hc, hp]

theorem blocks_lineRead {x : Byte} (hc : m.code = 0x11) (hp : m.params = [x]) : m.blocks = 3 := by
  simp [MgmtRequest.blocks, commandOf_of_code .lineRead hc, hp]

theorem blocks_pollRead {x : Byte} (hc : m.code = 0x22) (hp : m.params = [x]) : m.blocks = 4 := by
  simp [MgmtRequest.blocks, commandOf_of_code .pollRead hc, hp]

theorem blocks_echo (hc : m.code = 0x41) (hp : m.params.length ≤ 200) :
    m.blocks = (8 + m.params.length + 31) / 32 := by
  simp [MgmtRequest.blocks, commandOf_of_code .echo hc, hp, Config.blocksFor, ceilDiv, Config.blockSize]

end

/-- A command that leaves the state as it finds it: one response, and tables, link and counters stand (R166). -/
theorem answers_still {m : MgmtRequest} {s : State} (c : Command) {st : Status} {d : List Byte} (h : RequestReady m s)
    (hc : m.code = c.code) (hr : c ≠ .restart)
    (run : (s.take m.need .held).runCommand m = ⟨s.take m.need .held, st, d⟩)
    (fits : (8 + d.length + 31) / 32 ≤ m.blocks) :
    Completes (instrOf (some c)) s (fun t => Answered m st d s t ∧ Counted [] s t ∧ SameTables s t ∧ SameLink s t) := by
  obtain ⟨t, ht, answered, counted, tables, link, _⟩ := answers_quiet s m (some c) st d h (commandOf_of_code c hc)
    (fun e => absurd (Option.some.inj e) hr) run fits
  exact ⟨t, ht, answered, counted, tables, link⟩

/-- A POLL_READ of an entry whose answer fits the four blocks of its response. -/
theorem pollRead_completes {m : MgmtRequest} {s : State} {id : Fin 128} (h : RequestReady m s) (hc : m.code = 0x22)
    (hp : m.params = [natByte id.val]) (fits : (s.pollReadData id).length ≤ 90) :
    Completes .pollRead s (fun t =>
      Answered m .done (s.pollReadData id) s t ∧ Counted [] s t ∧ SameTables s t ∧ SameLink s t) :=
  answers_still .pollRead h hc (by decide) (by simp [runCommand_pollRead _ hc hp]) (by rw [blocks_pollRead hc hp]; omega)

end State

/-- Settles O32: each command executes without effect (`State.answers_still`) on the data its layout lemma gives; the
FreeCount and PoolHold of a LINK_READ are those with its own two blocks taken. -/
theorem readCommandsAnswer : Obligations.ReadCommandsAnswer := by
  intro m s h
  refine ⟨fun hc hp => ?identify, fun hc hp => ?linkRead, fun hc i hp => ?lineRead,
    fun hc id hp => ⟨fun empty => ?pollEmpty, fun p entry short => ?pollEntry⟩, fun hc hp => ?echo⟩
  case identify =>
    exact State.answers_still .identify h hc (by decide) (State.runCommand_identify _ hc hp) m.blocks_pos
  case linkRead =>
    have two : m.blocks = 2 := State.blocks_linkRead hc hp
    obtain ⟨t, ht, answered, counted, tables, link, hold⟩ := State.answers_quiet s m (some .linkRead) .done _ h
      (commandOf_of_code .linkRead hc) (by simp) (State.runCommand_linkRead _ hc hp) (by simp [two])
    rw [State.linkReadData_take h, ← hold (by simp [two]), two] at answered
    exact ⟨t, ht, answered, counted, tables, link⟩
  case lineRead =>
    have done := State.answers_still .lineRead h hc (by decide) (State.runCommand_lineRead _ hc hp)
      (by simp [State.blocks_lineRead hc hp])
    rw [State.lineReadData_take, State.lineReadData_layout] at done
    exact done
  case pollEmpty =>
    have done := State.pollRead_completes h hc hp (by simp [State.pollReadData_empty empty])
    rwa [State.pollReadData_empty empty] at done
  case pollEntry =>
    have done := State.pollRead_completes h hc hp (by rw [State.pollReadData_length entry]; omega)
    rw [State.pollReadData_entry entry] at done
    exact done
  case echo =>
    exact State.answers_still .echo h hc (by decide) (State.runCommand_echo _ hc hp) (State.blocks_echo hc hp).ge

end Sys2Proof.Machine
end

section
/-! KNOWN_SET: the parameters it refuses, the list it writes, and what it leaves (R51, R179). -/

namespace Sys2Proof.Machine

namespace State

/-- A length below 2, or other than 2 plus the count, is refused (R179). -/
theorem knownSet_wrongLength (s : State) {p : List Byte} (h : p.length < 2 ∨ p.length ≠ 2 + (byteAt p 1).toNat) :
    s.knownSet p = s.refuse .badFormat := by
  rw [knownSet, if_neg]
  rintro ⟨long, count⟩
  exact h.elim (Nat.not_lt.mpr long) (· count)

section
variable (s : State) {y : Byte} {as : List Byte} (count : as.length = y.toNat)
include count

/-- A list of the length its count gives is refused on a wrong line. -/
theorem knownSet_noLine {x : Byte} (h : ∀ i, x ≠ lineByte i) : s.knownSet (x :: y :: as) = s.refuse .badParam := by
  have length : 2 ≤ (x :: y :: as).length ∧ (x :: y :: as).length = 2 + y.toNat := by simp; omega
  simp only [knownSet, numAt, byteAt, List.getD_cons_succ, List.getD_cons_zero, if_pos length, lineOf_none h]

/-- A list of the length its count gives goes to the line it names, if it passes the checks of R179. -/
theorem knownSet_line (i : Fin 12) :
    s.knownSet (lineByte i :: y :: as) =
      if as.length ≤ 8 ∧ as.Nodup then ⟨s.modLine i (fun l => { l with known := as }), .done, []⟩
      else s.refuse .badParam := by
  have length : 2 ≤ (lineByte i :: y :: as).length ∧ (lineByte i :: y :: as).length = 2 + y.toNat := by simp; omega
  simp only [knownSet, numAt, byteAt, List.getD_cons_succ, List.getD_cons_zero, if_pos length, lineOf_lineByte,
    distinct_iff, count, List.drop_succ_cons, List.drop_zero]

/-- A wrong line, a count above 8 or a repeated address is refused (R179). -/
theorem knownSet_badParam {x : Byte} (bad : (∀ i, x ≠ lineByte i) ∨ 8 < y.toNat ∨ ¬ as.Nodup) :
    s.knownSet (x :: y :: as) = s.refuse .badParam := by
  by_cases noLine : ∀ i, x ≠ lineByte i
  · exact knownSet_noLine s count noLine
  · obtain ⟨i, rfl⟩ : ∃ i, x = lineByte i := by simpa using noLine
    rw [knownSet_line s count, if_neg]
    rintro ⟨short, distinct⟩
    rcases bad with noLine' | long | repeated
    · exact noLine noLine'
    · omega
    · exact repeated distinct

/-- A list that passes replaces the line's list whole, whatever the state of the line (R51, R179). -/
theorem knownSet_replaces (i : Fin 12) (short : as.length ≤ 8) (distinct : as.Nodup) :
    s.knownSet (lineByte i :: y :: as) = ⟨s.modLine i (fun l => { l with known := as }), .done, []⟩ := by
  rw [knownSet_line s count, if_pos ⟨short, distinct⟩]

end

theorem runCommand_knownSet (s : State) {m : MgmtRequest} (hc : m.code = 0x13) :
    s.runCommand m = s.knownSet m.params := by
  simp [runCommand, commandOf_of_code .knownSet hc]

/-- The response to a KNOWN_SET is allocated one block (R168). -/
theorem blocks_knownSet {m : MgmtRequest} (hc : m.code = 0x13) : m.blocks = 1 := by
  simp [MgmtRequest.blocks, commandOf_of_code .knownSet hc]

/-- A KNOWN_SET that is refused has no effect but its response (R167). -/
theorem knownSet_refused {m : MgmtRequest} {s : State} {st : Status} (h : RequestReady m s) (hc : m.code = 0x13)
    (refused : (s.take m.need .held).knownSet m.params = (s.take m.need .held).refuse st) :
    Completes .knownSet s (fun t => Answered m st [] s t ∧ Counted [] s t ∧ SameTables s t ∧ SameLink s t) :=
  answers_still .knownSet h hc (by decide) ((runCommand_knownSet _ hc).trans refused) (by simp [blocks_knownSet hc])

end State

/-- Settles O36: refused through `State.knownSet_refused`; a list that passes acts as `State.knownSet_replaces` says, and
the state of the line plays no part in it. -/
theorem knownSetReplacesList : Obligations.KnownSetReplacesList := by
  intro m s h hc
  refine ⟨fun wrong => State.knownSet_refused h hc (State.knownSet_wrongLength _ wrong), fun x y as hp count =>
    ⟨fun bad => State.knownSet_refused h hc (hp ▸ State.knownSet_badParam _ count bad), ?_⟩⟩
  rintro i rfl short distinct
  have run := (State.runCommand_knownSet (s.take m.need .held) hc).trans
    (hp ▸ State.knownSet_replaces _ count i short distinct)
  refine State.answers_acting s _ m .knownSet .done h hc (by decide) (State.blocks_knownSet hc) run rfl rfl rfl rfl rfl rfl
    rfl _ ?_
  intro t answered counted link _ polls cfg run clock pending line _
  have known : t.line i = { s.line i with known := as } := by simp [line]
  have others : ∀ j, j ≠ i → t.line j = s.line j := fun j hj => by simp [line, hj]
  have settings : SameSettings s t := by simp [SameSettings, cfg, run, clock, pending]
  exact ⟨answered, known, others, by simp [polls], counted, link, settings⟩

end Sys2Proof.Machine
end

section
/-! What every step keeps, what a command may answer, and the state after cold start (R90, R94, R95, R122, R188,
R208). -/

namespace Sys2Proof.Machine

/-- What every step keeps: the conclusion of InvariantKept for a step from `s` to `t`. -/
def StepKeeps (s t : State) : Prop :=
  (s.pool.balanced → t.pool.balanced) ∧ (s.pool.slotsOk → t.pool.slotsOk) ∧
  (s.intake.slotsOk → t.intake.slotsOk) ∧ (s.trunk.pinOk → t.trunk.pinOk) ∧
  ((∀ i, (s.line i).pinOk) → ∀ i, (t.line i).pinOk) ∧ (s.trunk.windowOk → t.trunk.windowOk) ∧
  (s.between → t.between) ∧ (s.between → s.headWaits → t.headWaits) ∧
  (s.cfg.inRange = true → t.cfg.inRange = true) ∧ (s.cfg.inRange = true → s.onTime → t.onTime)

/-- A state in which all of it holds. -/
structure Meets (t : State) : Prop where
  balanced : t.pool.balanced
  slots : t.pool.slotsOk
  intake : t.intake.slotsOk
  pin : t.trunk.pinOk
  lines : ∀ i, (t.line i).pinOk
  window : t.trunk.windowOk
  between : t.between
  head : t.headWaits
  range : t.cfg.inRange = true
  onTime : t.onTime

/-- Such a state keeps the invariant whatever came before. -/
theorem Meets.stepKeeps {t : State} (h : Meets t) (s : State) : StepKeeps s t :=
  ⟨fun _ => h.balanced, fun _ => h.slots, fun _ => h.intake, fun _ => h.pin, fun _ => h.lines, fun _ => h.window,
    fun _ => h.between, fun _ _ => h.head, fun _ => h.range, fun _ _ => h.onTime⟩

/-- Deadlines kept part by part are kept as a whole. -/
theorem TimeKept.onTime {s t : State} (h : TimeKept s t) (k : s.onTime) : t.onTime := by
  rw [State.onTime_iff] at k ⊢
  obtain ⟨trunk, intake, lines, polls⟩ := k
  exact ⟨h.trunk trunk, h.intake intake, h.lines lines, h.polls polls⟩

/-- Operations that keep what every operation keeps keep the invariant, where they lead to a state between two steps. -/
theorem Keeps.stepKeeps {s t : State} (h : Keeps s t) (b : t.between) : StepKeeps s t :=
  ⟨h.total.trans, fun ⟨record, events⟩ => ⟨h.record record, h.events events⟩, h.intake, h.pin, h.lines, h.window,
    fun _ => b, fun _ => h.head, h.time.cfg, fun _ => h.time.onTime⟩

theorem StepKeeps.refl (s : State) : StepKeeps s s := ⟨id, id, id, id, id, id, id, fun _ => id, id, fun _ => id⟩

/-- The end of a warm restart meets the invariant. -/
theorem meets_warmRestart (s : State) (keep : Bool) : Meets (s.warmRestart keep).finish := by
  obtain ⟨balanced, slots, intake, pin, lines, window, range, onTime⟩ := s.warmRestart_ok keep
  have head : (s.warmRestart keep).headWaits := fun w ws h => by simp [State.warmRestart, State.reset, Pool.reset] at h
  have kept : Keeps (s.warmRestart keep) (s.warmRestart keep).finish := State.keeps_finish (Keeps.rfl' _)
  exact ⟨kept.total.trans balanced, ⟨kept.record slots.1, kept.events slots.2⟩, kept.intake intake, kept.pin pin,
    kept.lines lines, kept.window window, State.finish_between _, kept.head head, kept.time.cfg range,
    kept.time.onTime onTime⟩

/-- After cold start the invariant holds, whatever commands wait. -/
theorem meets_reset (q : List Instr) : Meets (State.reset.setPending q) where
  balanced := rfl
  slots := by
    show 0 ≤ 256 ∧ 1 ≤ 16
    decide
  intake := Nat.zero_le 8
  pin := rfl
  lines i := by
    have line : State.reset.line i = Line.reset := by simp [State.line, State.reset]
    show (State.reset.line i).pinOk
    rw [line]
    rfl
  window := ⟨fun up => absurd up Bool.false_ne_true, fun _ => rfl⟩
  between := ⟨rfl, rfl⟩
  head _ _ h := absurd h (List.cons_ne_nil _ _).symm
  range := by
    show LinkConfig.default.inRange = true
    decide
  onTime _ d _ := Nat.zero_le d

/-- A command keeps the invariant: each of the four ways it can answer does. -/
theorem stepKeeps_exec (c : Instr) {s t : State} (h : exec c s = .next t) : StepKeeps s t := by
  rcases State.exec_runs c s with ⟨u, kept, ex⟩ | ex | ⟨keep, ex⟩ | ⟨_, ex⟩
  all_goals
    rw [ex] at h
    obtain rfl := Host.Outcome.next.inj h
  · exact (State.keeps_finish kept).stepKeeps (State.finish_between u)
  · exact StepKeeps.refl s
  · exact (meets_warmRestart s keep).stepKeeps s
  · exact (meets_reset s.pending).stepKeeps s

/-- A millisecond keeps the invariant while every deadline lies ahead (R208). -/
theorem stepKeeps_tick {s : State} (ahead : ∀ c d, s.deadlineOf c = some d → s.clock < d) : StepKeeps s s.tick := by
  have closed : Keeps s s.close := State.keeps_close (Keeps.rfl' s)
  refine ⟨closed.total.trans, fun ⟨record, events⟩ => ⟨closed.record record, closed.events events⟩, closed.intake,
    closed.pin, closed.lines, closed.window, fun b => ⟨State.close_between s, ?_⟩, fun _ => closed.head,
    closed.time.cfg, fun range _ => State.tick_onTime range ahead⟩
  show s.close.granted = []
  simp [b.2]

/-- On an empty queue a step keeps the invariant. -/
theorem stepKeeps_idle {s t : State} (h : s.idleStep = .next t) : StepKeeps s t := by
  unfold State.idleStep at h
  split at h
  next c _ => exact stepKeeps_exec c h
  next none =>
    obtain rfl := Host.Outcome.next.inj h
    exact stepKeeps_tick (State.dueExpiry_none none)

/-- Settles O60: a command (`stepKeeps_exec`) and a step on the empty queue (`stepKeeps_idle`) each keep the invariant; the
command's removal from the queue touches nothing of it. -/
theorem invariantKept : Obligations.InvariantKept := by
  intro s t h
  unfold step at h
  split at h
  next => exact stepKeeps_idle h
  next c rest _ =>
    have kept : StepKeeps (s.setPending rest) t := stepKeeps_exec c h
    exact kept

/-- Settles O5: what `meets_reset` says, and the counts as they stand in the reset contents. -/
theorem resetMeetsInvariant : Obligations.ResetMeetsInvariant :=
  let meets := meets_reset []
  ⟨meets.balanced, meets.slots, meets.intake, meets.pin, meets.lines, meets.window, meets.between, meets.head,
    rfl, rfl, rfl, rfl, rfl, rfl, rfl, rfl, meets.range, meets.onTime⟩

/-- Settles O1: by the definition of a step. -/
theorem stepRunsFrontCommand : Obligations.StepRunsFrontCommand := fun _ _ _ => rfl


/-- Settles O4: every field as the reset contents have it. -/
theorem coldStartContents : Obligations.ColdStartContents := by
  intro s
  refine ⟨State.reset.setPending s.pending, rfl, ?_⟩
  have line (i : Fin 12) : (State.reset.setPending s.pending).line i = Line.reset := by simp [State.line, State.reset]
  have poll (p : Fin 128) : (State.reset.setPending s.pending).poll p = none := by simp [State.poll, State.reset]
  have ctr (c : CtrId) : (State.reset.setPending s.pending).ctrs.read c = { value := 0, half := false } :=
    Counters.read_reset c
  simp only [line, poll, ctr]
  simp [State.reset, Trunk.reset, Pool.reset, Intake.reset, LinkConfig.default, coldStartRecord, Line.reset]

/-- A command other than COLD_START leaves the timebase where it is. -/
theorem exec_keepsClock {c : Instr} (h : c ≠ .coldStart) (s : State) : Completes c s (fun t => t.clock = s.clock) := by
  rcases State.exec_runs c s with ⟨u, kept, ex⟩ | ex | ⟨keep, ex⟩ | ⟨cold, _⟩
  · exact ⟨u.finish, ex, (State.keeps_finish kept).clock⟩
  · exact ⟨s, ex, rfl⟩
  · exact ⟨_, ex, (State.keeps_finish (Keeps.rfl' _)).clock⟩
  · exact absurd cold h

/-- A millisecond moves the timebase by one, and lets the transmitter go on; lines, polls, intake unit, pool and link stand. -/
theorem tick_leaves (s : State) :
    s.tick.clock = s.clock + 1 ∧ s.tick.reading = s.reading + 1 ∧ s.tick.lines = s.lines ∧ s.tick.polls = s.polls ∧
      s.tick.cfg = s.cfg ∧ s.tick.intake = s.intake ∧ s.tick.pollRun = s.pollRun ∧ s.tick.pending = s.pending ∧
      SameLink s s.tick ∧ SamePool s s.tick := by
  have link : SameLink s s.close := sameLink_close (sameLink_of_calm rfl)
  refine ⟨?_, ?_, ?_, ?_, ?_, ?_, ?_, ?_, link, ?_⟩
  all_goals simp [State.tick, State.reading, SamePool, BitVec.ofNat_add]

/-- Settles O2: with no deadline reached a step is a tick (`tick_leaves`); with one reached it is the expiry that
`State.dueExpiry` finds, whose command leaves the timebase (`exec_keepsClock`). -/
theorem emptyQueueTakesExpiryOrMillisecond : Obligations.EmptyQueueTakesExpiryOrMillisecond := by
  intro s empty
  have idle : step s = s.idleStep := by simp [step, empty]
  rw [idle, State.idleStep]
  refine ⟨fun ahead => ?_, fun c d deadline reached => ?_⟩
  · cases due : s.dueExpiry with
    | none => simpa [empty, go] using tick_leaves s
    | some e =>
      obtain ⟨d, deadline, reached⟩ := State.dueExpiry_some due
      exact absurd (ahead e d deadline) (Nat.not_lt.mpr reached)
  · cases due : s.dueExpiry with
    | none => exact absurd (State.dueExpiry_none due c d deadline) (Nat.not_lt.mpr reached)
    | some e =>
      obtain ⟨k, first, reached⟩ := State.dueExpiry_some due
      have timed : e ≠ .coldStart := by
        rintro rfl
        cases first
      obtain ⟨t, ex, clock⟩ := exec_keepsClock timed s
      exact ⟨e, k, t, first, reached, ex, ex, clock⟩

/-- Settles O3: each of the four ways a command can answer keeps the queue. -/
theorem everyCommandAnswers : Obligations.EveryCommandAnswers := by
  intro c s
  rcases State.exec_runs c s with ⟨u, kept, ex⟩ | ex | ⟨keep, ex⟩ | ⟨_, ex⟩
  · exact ⟨u.finish, ex, (State.keeps_finish kept).pending⟩
  · exact ⟨s, ex, rfl⟩
  · exact ⟨_, ex, (State.keeps_finish (Keeps.rfl' _)).pending⟩
  · exact ⟨_, ex, rfl⟩

end Sys2Proof.Machine
end

section
/-! Frames on the trunk: a frame sent is read back, a frame that fails a check or arrives in DOWN is counted and no more, and
what a new frame packs (R114, R139, R140, R142). -/

namespace Sys2Proof.Machine

/-- The low field of two joined is read back. -/
theorem extractLsb'_zero_append {m n : Nat} (a : BitVec m) (b : BitVec n) : (a ++ b).extractLsb' 0 n = b := by
  ext i hi
  simp [BitVec.getLsbD_append, hi]

section
variable (k : FrameKind) (reject : Bool) (seq ackSeq : Seq) (allow : Nat) (payload : List Byte)

theorem frameHead_length : (frameHead k reject seq ackSeq allow payload).length = 6 + payload.length := by
  simp [frameHead, natHalf, halfBytes]
  omega

theorem frameBytes_length : (frameBytes k reject seq ackSeq allow payload).length = 10 + payload.length := by
  simp [frameBytes, frameHead_length, wordBytes]
  omega

/-- The last four bytes of a frame are its check value, the rest its header and payload (R139). -/
theorem crcOk_frameBytes : crcOk (frameBytes k reject seq ackSeq allow payload) = true := by
  have cut : (frameBytes k reject seq ackSeq allow payload).length - 4 =
      (frameHead k reject seq ackSeq allow payload).length := by
    rw [frameBytes_length, frameHead_length]
    omega
  rw [crcOk, cut]
  simp [frameBytes]

/-! The fields of a frame, read back. -/

theorem kind_frameBytes : FrameKind.ofCode (byteAt (frameBytes k reject seq ackSeq allow payload) 0) = some k := by
  cases k <;> rfl

theorem length_frameBytes (h : payload.length ≤ 480) :
    (halfAt (frameBytes k reject seq ackSeq allow payload) 4).toNat = payload.length :=
  half_num (n := payload.length) (by omega)

theorem payload_frameBytes :
    ((frameBytes k reject seq ackSeq allow payload).drop 6).take payload.length = payload := by
  simp [frameBytes, frameHead, natHalf, halfBytes]

theorem reject_frameBytes :
    (byteAt (frameBytes k reject seq ackSeq allow payload) 1)[7] = reject := by
  have top : (((if reject then 1#1 else 0#1) ++ 0#1) ++ seq : BitVec (2 + 6)).getLsbD 7 = reject := by
    rw [BitVec.getLsbD_append]
    cases reject <;> rfl
  exact top

theorem seq_frameBytes :
    (byteAt (frameBytes k reject seq ackSeq allow payload) 1).extractLsb' 0 6 = seq :=
  extractLsb'_zero_append ((if reject then 1#1 else 0#1) ++ 0#1) seq

theorem ackSeq_frameBytes :
    (byteAt (frameBytes k reject seq ackSeq allow payload) 2).extractLsb' 0 6 = ackSeq :=
  extractLsb'_zero_append 0#2 ackSeq

theorem allow_frameBytes (h : allow ≤ 15) :
    ((byteAt (frameBytes k reject seq ackSeq allow payload) 3).extractLsb' 0 4).toNat = allow := by
  have field : (byteAt (frameBytes k reject seq ackSeq allow payload) 3).extractLsb' 0 4 = BitVec.ofNat 4 allow :=
    extractLsb'_zero_append 0#4 (BitVec.ofNat 4 allow)
  rw [field, BitVec.toNat_ofNat]
  omega

end

/-- Settles O6: the frame built is of the right size, its last four bytes are its check value, and each field is read back by
its lemma above. -/
theorem frameEncodingRoundTrip : Obligations.FrameEncodingRoundTrip := by
  intro k reject seq ackSeq allow payload credit short sync
  have length := length_frameBytes k reject seq ackSeq allow payload short
  have size : sizeOk (frameBytes k reject seq ackSeq allow payload) = true := by
    rw [sizeOk, frameBytes_length, length]
    simp
    omega
  have payloadOk : syncPayloadOk k (frameBytes k reject seq ackSeq allow payload) = true := by
    cases k <;> simp_all [syncPayloadOk]
  simp [checkFrame, size, crcOk_frameBytes, kind_frameBytes, payloadOk, readHeader, length, reject_frameBytes,
    seq_frameBytes, ackSeq_frameBytes, allow_frameBytes _ _ _ _ _ _ credit, payload_frameBytes]


/-- A command whose whole effect is one count. -/
theorem completes_bump {c : Instr} {s : State} {k : CtrId} (ex : exec c s = finished (s.bump k)) (b : s.between) :
    Completes c s (fun t => Counted [k] s t ∧ SameLink s t ∧ SameRest s t) :=
  completes_of (s.bump k) ex (by simp [b.2])
    ⟨(Counted.bump s k).close, sameLink_close (sameLink_bump s k), sameRest_close (sameRest_bump s k) (by simp [b.late])⟩

/-! The outcome of the checks of R140. -/

theorem checkFrame_wrongSize {b : List Byte} (h : b.length < 10 ∨ 490 < b.length ∨ b.length ≠ 10 + (halfAt b 4).toNat) :
    checkFrame b = .malformed := by
  have size : sizeOk b = false := by
    simp only [sizeOk, Bool.and_eq_false_iff, decide_eq_false_iff_not, beq_eq_false_iff_ne]
    omega
  simp [checkFrame, size]

section
variable {b : List Byte} (low : 10 ≤ b.length) (high : b.length ≤ 490) (len : b.length = 10 + (halfAt b 4).toNat)
include low high len

theorem sizeOk_of : sizeOk b = true := by
  simp only [sizeOk, Bool.and_eq_true, decide_eq_true_eq, beq_iff_eq]
  exact ⟨⟨low, high⟩, len⟩

theorem checkFrame_wrongCrc (h : b.drop (b.length - 4) ≠ wordBytes (frameCrc (b.take (b.length - 4)))) :
    checkFrame b = .crcError := by
  simp [checkFrame, sizeOk_of low high len, crcOk, h]

theorem checkFrame_wrongKind (crc : b.drop (b.length - 4) = wordBytes (frameCrc (b.take (b.length - 4))))
    (h : FrameKind.ofCode (byteAt b 0) = none ∨ ((FrameKind.ofCode (byteAt b 0) = some .sync ∨
      FrameKind.ofCode (byteAt b 0) = some .syncAck) ∧ (halfAt b 4).toNat < 4)) :
    checkFrame b = .malformed := by
  rcases h with none | ⟨sync | syncAck, short⟩
  · simp [checkFrame, sizeOk_of low high len, crcOk, crc, none]
  · simp [checkFrame, sizeOk_of low high len, crcOk, crc, sync, syncPayloadOk, short]
  · simp [checkFrame, sizeOk_of low high len, crcOk, crc, syncAck, syncPayloadOk, short]

end

theorem exec_badFrame_malformed {b : List Byte} (s : State) (h : checkFrame b = .malformed) :
    exec (.badFrame b) s = finished (s.bump (.link .malformedFrames)) := by
  simp [exec, execBadFrame, h]

theorem exec_badFrame_crc {b : List Byte} (s : State) (h : checkFrame b = .crcError) :
    exec (.badFrame b) s = finished (s.bump (.link .crcErrors)) := by
  simp [exec, execBadFrame, h]

/-- Settles O7: the first check that fails names the counter, and its rise is the whole effect (`completes_bump`). -/
theorem badFrameIsCounted : Obligations.BadFrameIsCounted := by
  intro b s between
  refine ⟨fun size => ?_, fun low high len => ⟨fun crc => ?_, fun crc kind => ?_⟩⟩
  · exact completes_bump (exec_badFrame_malformed s (checkFrame_wrongSize size)) between
  · exact completes_bump (exec_badFrame_crc s (checkFrame_wrongCrc low high len crc)) between
  · exact completes_bump (exec_badFrame_malformed s (checkFrame_wrongKind low high len crc kind)) between

theorem exec_dataFrame {b : List Byte} {f : RxFrame} (s : State) (h : frameOf .data b = some f) :
    exec (.dataFrame b) s = finished (s.receiveData f) := by
  simp [exec, execDataFrame, h]

theorem exec_ctrlFrame {b : List Byte} {f : RxFrame} (s : State) (h : frameOf .ctrl b = some f) :
    exec (.ctrlFrame b) s = finished (if s.trunk.up then s.goodFrame.takeHeader f else s.goodFrame) := by
  simp [exec, execCtrlFrame, h]

/-- A good frame in DOWN is counted; the silence timer does not run there (R157). -/
theorem State.goodFrame_down {s : State} (h : s.trunk.up = false) : s.goodFrame = s.bump (.link .framesReceived) := by
  simp [State.goodFrame, h]

/-- Settles O8: in DOWN both commands do no more than count the frame. -/
theorem framesInDownDiscarded : Obligations.FramesInDownDiscarded := by
  intro b f s down between
  refine ⟨fun data => completes_bump ?_ between, fun ctrl => completes_bump ?_ between⟩
  · rw [exec_dataFrame s data, State.receiveData, down, if_neg Bool.false_ne_true, State.goodFrame_down down]
  · rw [exec_ctrlFrame s ctrl, down, if_neg Bool.false_ne_true, State.goodFrame_down down]

/-- Settles O20: along the recursion of `takeFit`; the run stops at the first record that the bytes left do not hold. -/
theorem framePacking : Obligations.FramePacking := by
  intro n q
  induction q generalizing n with
  | nil => simp [takeFit]
  | cons r rs ih =>
    by_cases fits : r.len ≤ n
    · obtain ⟨isPrefix, sum, longest⟩ := ih (n - r.len)
      simp only [takeFit, if_pos fits, List.map_cons, List.sum_cons]
      refine ⟨List.cons_prefix_cons.mpr ⟨rfl, isPrefix⟩, by omega, fun x rest split => ?_⟩
      have := longest x rest (List.cons.inj split).2
      omega
    · simp only [takeFit, if_neg fits]
      refine ⟨List.nil_prefix, Nat.zero_le _, fun x rest split => ?_⟩
      obtain ⟨rfl, _⟩ := List.cons.inj split
      simpa using fits

end Sys2Proof.Machine
end

section
/-! Timers of the trunk that end the link or begin a go-back (R142, R153, R155, R158). -/

namespace Sys2Proof.Machine

theorem State.expired_some {s : State} {o : Option Nat} {d : Nat} (h : o = some d) (reached : d ≤ s.clock) :
    s.expired o = true := by
  simp [State.expired, h, reached]

theorem State.linkDown_granted (s : State) (c : SyncCause) (k : LinkCtr) : (s.linkDown c k).granted = s.granted := by
  unfold State.linkDown
  split <;> simp [State.endSpace, State.enterDown, State.deactivate]

/-- A link that goes DOWN with the count of its cause, to the end of the step. -/
theorem completes_linkDown {c : Instr} {s u : State} {cause : SyncCause} {k : LinkCtr}
    (ex : exec c s = finished (u.linkDown cause k)) (g : u.granted = []) :
    Completes c s (fun t => WentDown cause u t ∧ ∀ d : LinkCtr, d ≠ .framesSent → d ≠ .retransmissions →
      t.ctrs.read (.link d) = if d = k then (u.ctrs.read (.link d)).inc else u.ctrs.read (.link d)) := by
  obtain ⟨_, _, _, _, _, _, ctrs, _, _⟩ := u.linkDown_rest cause k
  refine completes_of _ ex ((u.linkDown_granted _ _).trans g) ⟨u.linkDown_wentDown _ _, fun d h1 h2 => ?_⟩
  rw [State.close_ctrs _ _ (by simp) (by simpa using h1) (by simpa using h2), ctrs _ (by simp)]
  simp

/-- Settles O14: the link goes DOWN (`completes_linkDown`). -/
theorem silenceTakesLinkDown : Obligations.SilenceTakesLinkDown := by
  intro d s up timer reached between
  have ex : exec .silenceTimerExpiry s = finished (s.linkDown .silence .silenceDowns) := by
    simp [exec, execSilenceTimerExpiry, up, State.expired_some timer reached]
  obtain ⟨t, ht, down, ctrs⟩ := completes_linkDown ex between.2
  exact ⟨t, ht, down, by simp [ctrs], by simp [ctrs]⟩

/-- A go-back begins: every frame outstanding is to be resent, the retransmit timer stops, GoBacks rises (R155, R156). -/
theorem State.startGoBack_sends (s : State) :
    s.startGoBack.trunk = { s.trunk with
      goBack := true, retransmitTimer := none,
      retransmits := s.trunk.retransmits.map (fun f => { f with toResend := true }) } ∧
    s.startGoBack.granted = s.granted ∧ Counted [.link .goBacks] s s.startGoBack ∧ SameRest s s.startGoBack ∧
    s.startGoBack.lateResults = s.lateResults := by
  let resend : List SentFrame := s.trunk.retransmits.map (fun f => { f with toResend := true })
  let v : Trunk := { s.trunk with goBack := true, retransmitTimer := none, retransmits := resend }
  have eq : s.startGoBack = (s.setTrunk v).bump (.link .goBacks) := rfl
  have records : resend.map SentFrame.records = s.trunk.retransmits.map SentFrame.records := by
    simp [resend, Function.comp_def]
  have results : (s.setTrunk v).results = s.results := by
    simp only [State.results, State.stream, State.trunk_setTrunk, State.uplink_setTrunk, v, records]
  rw [eq]
  refine ⟨by simp [v, resend], by simp, Counted.bump (s.setTrunk v) _, ?_, by simp⟩
  simp [SameRest, SameTables, SamePool, results]

/-- The timer has expired once more, and is stopped (R153). -/
def State.expiredOnce (s : State) : State :=
  s.setTrunk { s.trunk with expiries := s.trunk.expiries + 1, retransmitTimer := none }

@[simp] theorem State.expiredOnce_trunk (s : State) :
    s.expiredOnce.trunk = { s.trunk with expiries := s.trunk.expiries + 1, retransmitTimer := none } := rfl

/-- Settles O15: within the limit a go-back begins (`State.startGoBack_sends`), which the end of the step does not end, as
every frame is to be resent; beyond it the link goes DOWN (`completes_linkDown`). -/
theorem retransmitExpiry : Obligations.RetransmitExpiry := by
  intro d s up timer reached between
  have ex : exec .retransmitTimerExpiry s = finished s.retransmitExpired := by
    simp [exec, execRetransmitTimerExpiry, up, State.expired_some timer reached]
  refine ⟨fun within outstanding => ?_, fun beyond => ?_⟩
  · have goBack : s.retransmitExpired = s.expiredOnce.startGoBack := by
      simp [State.retransmitExpired, within, State.expiredOnce]
    rw [goBack] at ex
    obtain ⟨trunk, granted, counted, rest, late⟩ := s.expiredOnce.startGoBack_sends
    refine completes_of _ ex (granted.trans between.2) ⟨counted.close, by simp [trunk, up],
      by simp [trunk], fun busy => ?_, sameRest_close rest (late.trans between.late)⟩
    have resend : (s.expiredOnce.startGoBack.trunk.retransmits.any SentFrame.toResend) = true := by
      obtain ⟨f, fs, frames⟩ := List.exists_cons_of_ne_nil outstanding
      simp [trunk, frames]
    rw [State.close_busy_goBack _ (by simp [trunk, busy]), State.goBackEnds_trunk,
      if_neg (by simp [resend]), trunk]
    exact ⟨rfl, rfl, rfl⟩
  · have down : s.retransmitExpired = s.expiredOnce.linkDown .retryFail .retryFailDowns := by
      simp [State.retransmitExpired, Nat.not_le.mpr beyond, State.expiredOnce]
    rw [down] at ex
    obtain ⟨t, ht, down, ctrs⟩ := completes_linkDown ex between.2
    exact ⟨t, ht, down, by simp [ctrs]; rfl, by simp [ctrs]; rfl⟩
end Sys2Proof.Machine
end

section
/-! The end of a step on the trunk: with a frame on the line, and as the arbiter's choice; the timers of the trunk whose expiry
leads to a frame (R142, R150, R156, R159, R160, R162). -/

namespace Sys2Proof.Machine
namespace State

/-- The state in which the arbiter chooses at the end of a step: a go-back that is over has finished, and the records kept
back have joined (R156, R160). -/
def atChoice (v : State) : State := v.goBackEnds.flushLate

/-- With the transmitter free the end of a step is the arbiter's choice. -/
theorem close_choice {v : State} (h : v.trunk.tx = none) : v.close = v.atChoice.chooseFrame.flushLate := by
  obtain ⟨send, _⟩ := v.goBackEnds_send
  have free : v.atChoice.trunk.tx = none := by
    simp [atChoice, send.fields, h]
  show v.atChoice.arbitrate.flushLate = _
  rw [arbitrate, if_pos (by simp [free])]

@[simp] theorem atChoice_frame (v : State) :
    v.atChoice.clock = v.clock ∧ v.atChoice.cfg = v.cfg ∧ v.atChoice.intake = v.intake ∧ v.atChoice.ctrs = v.ctrs ∧
      v.atChoice.pool = v.pool ∧ v.atChoice.allow = v.allow ∧ v.atChoice.trunk = v.goBackEnds.trunk ∧
      v.atChoice.uplink = v.uplink ++ v.late ∧ v.atChoice.late = [] := by
  have pool : v.goBackEnds.pool = v.pool := v.goBackEnds_send.2.2.1
  simp [atChoice, allow, freeSlots, pool, flushLate, goBackEnds_uplink]

/-- The end of a go-back touches the go-back and the retransmit timer alone. -/
theorem goBackEnds_only (v : State) : ∃ g timer,
    v.goBackEnds.trunk = { v.trunk with goBack := g, retransmitTimer := timer } := by
  rw [goBackEnds_trunk]
  split
  · exact ⟨_, _, rfl⟩
  · exact ⟨_, _, rfl⟩

/-- While a frame is on the line the end of a step touches of the trunk no more. -/
theorem close_busy_only {v : State} (h : v.trunk.tx.isSome = true) : ∃ g timer,
    v.close.trunk = { v.trunk with goBack := g, retransmitTimer := timer } := by
  rw [close_busy_goBack v h]
  exact v.goBackEnds_only

/-- The trunk at the start of a frame (R162). -/
theorem trunk_startFrame (s : State) (k : FrameKind) (q : Seq) (p : List Byte) (g : Bool) :
    (s.startFrame k q p g).trunk = { s.trunk.clearReasons with
      tx := some { kind := k, reject := s.trunk.rejectPending && (k == .data || k == .ctrl), seq := q
                   ackSeq := if k = .sync then 0 else s.trunk.expectSeq, allow := s.allow, payload := p, goBack := g }
      ackDelayTimer := none
      keepaliveTimer := if s.trunk.up then some (s.clock + s.cfg.silenceLimit / 4) else s.trunk.keepaliveTimer } := by
  simp [startFrame, timer, LinkConfig.keepalive]

/-- In DOWN with the transmitter free the pending SYNC starts (R142, R160, R162). -/
theorem close_sync {v : State} (down : v.trunk.up = false) (pending : v.trunk.syncPending = true)
    (free : v.trunk.tx = none) : ∃ g timer, v.close.trunk = { v.trunk.clearReasons with
      syncPending := false, ackDelayTimer := none, goBack := g, retransmitTimer := timer
      tx := some { kind := .sync, reject := false, seq := 0, ackSeq := 0, allow := v.allow
                   payload := syncPayload v.trunk.epoch v.trunk.cause v.trunk.lastAccepted, goBack := false } } := by
  obtain ⟨g, timer, ends⟩ := v.goBackEnds_only
  refine ⟨g, timer, ?_⟩
  have choice : v.atChoice.chooseFrame = v.atChoice.sendSync := by simp [chooseFrame, ends, down, pending]
  have allow : (v.atChoice.setTrunk { v.atChoice.trunk with syncPending := false }).allow = v.allow :=
    v.atChoice_frame.2.2.2.2.2.1
  rw [close_choice free, choice, sendSync]
  simp only [flushLate_frame, trunk_startFrame, allow]
  simp [ends, down, Trunk.clearReasons]

end State

/-- A change of the trunk interface that leaves the frames sent changes nothing outside the trunk, to the end of the
step. -/
theorem sameRest_setTrunk_close {s : State} (v : Trunk) (b : s.between) (h : v.retransmits = s.trunk.retransmits) :
    SameRest s (s.setTrunk v).close ∧ Counted [] s (s.setTrunk v).close :=
  ⟨sameRest_close (s.sameRest_setTrunk v h) (by simp [b.late]), (Counted.same rfl).close⟩

/-! The expiry of each timer. -/

/-- A SYNC is due, and the sync timer starts again (R142). -/
def State.syncDue (s : State) : State :=
  s.setTrunk { s.trunk with syncPending := true, syncTimer := some (s.clock + s.cfg.syncInterval) }

@[simp] theorem State.syncDue_trunk (s : State) : s.syncDue.trunk =
    { s.trunk with syncPending := true, syncTimer := some (s.clock + s.cfg.syncInterval) } := rfl

/-- A keepalive CTRL is due (R159). -/
def State.keepaliveOver (s : State) : State :=
  s.setTrunk { s.trunk with keepaliveDue := true, keepaliveTimer := none }

@[simp] theorem State.keepaliveOver_trunk (s : State) :
    s.keepaliveOver.trunk = { s.trunk with keepaliveDue := true, keepaliveTimer := none } := rfl

/-- An acknowledgement still pending asks for a CTRL of its own (R150). -/
def State.ackDelayOver (s : State) : State :=
  s.setTrunk { s.trunk with ackOnly := s.trunk.ackOnly || s.trunk.ackPending, ackDelayTimer := none }

@[simp] theorem State.ackDelayOver_trunk (s : State) : s.ackDelayOver.trunk =
    { s.trunk with ackOnly := s.trunk.ackOnly || s.trunk.ackPending, ackDelayTimer := none } := rfl

/-- Settles O16: the SYNC is pending behind the frame on the line (`State.close_busy_only`), or starts
(`State.close_sync`). -/
theorem syncTimerExpiry : Obligations.SyncTimerExpiry := by
  intro d s down timer reached between
  have ex : exec .syncTimerExpiry s = finished s.syncDue := by
    simp [exec, execSyncTimerExpiry, down, State.expired_some timer reached, State.timer, State.syncDue]
  obtain ⟨rest, counted⟩ := sameRest_setTrunk_close s.syncDue.trunk between rfl
  refine completes_of _ ex between.2 ?_
  cases tx : s.trunk.tx with
  | some f =>
    have busy : s.syncDue.trunk.tx.isSome = true := by simp [tx]
    obtain ⟨g, timer, eq⟩ := State.close_busy_only busy
    refine ⟨by simp [eq], by simp [eq, down], by simp [eq], by simp [eq], by simp [eq], by simp [eq, tx],
      fun quiet => ?_, counted, rest⟩
    rw [State.close_busy_trunk _ busy quiet]
    simp
  | none =>
    obtain ⟨g, timer, eq⟩ := State.close_sync (v := s.syncDue) down rfl tx
    refine ⟨by simp [eq, Trunk.clearReasons], by simp [eq, down, Trunk.clearReasons],
      by simp [eq, Trunk.clearReasons], by simp [eq, Trunk.clearReasons], by simp [eq, Trunk.clearReasons], ?_,
      fun quiet => ?_, counted, rest⟩
    · simp [SyncSent, eq, Trunk.clearReasons]
    · rw [State.close_sync_free s.syncDue down quiet rfl tx]
      simp [Trunk.clearReasons]

/-- Settles O17: the keepalive is due behind the frame on the line, or a frame starts (`State.close_sends`). -/
theorem keepaliveExpiry : Obligations.KeepaliveExpiry := by
  intro d s up timer reached between
  have ex : exec .keepaliveTimerExpiry s = finished s.keepaliveOver := by
    simp [exec, execKeepaliveTimerExpiry, up, State.expired_some timer reached, State.keepaliveOver]
  obtain ⟨rest, counted⟩ := sameRest_setTrunk_close s.keepaliveOver.trunk between rfl
  refine completes_of _ ex between.2 ⟨fun busy => ?_, fun free => ?_, counted, sameLink_close ?_, rest⟩
  · obtain ⟨g, timer, eq⟩ := State.close_busy_only (v := s.keepaliveOver) busy
    simp [eq]
  · obtain ⟨starts, timer, _⟩ := State.close_sends s.keepaliveOver up free (.inr rfl)
    exact ⟨starts, timer⟩
  · simp [SameLink]

/-! The arbiter's choice, and with it the end of a step, leaves the AckDelay timer stopped (R150, R162). -/

theorem State.chooseFrame_ackDelay {w : State} (h : w.trunk.ackDelayTimer = none) :
    w.chooseFrame.trunk.ackDelayTimer = none := by
  have later : w.sendLater.trunk.ackDelayTimer = none := by
    unfold State.sendLater State.sendNew State.sendCtrl
    split_ifs <;> simp [State.trunk_startFrame, h]
  have inUp : w.sendUp.trunk.ackDelayTimer = none := by
    unfold State.sendUp State.sendCtrl State.sendGoBack
    split
    · simp [State.trunk_startFrame]
    · split <;> simp [State.trunk_startFrame, later]
  unfold State.chooseFrame State.sendSync State.sendSyncAck
  split_ifs
  · split <;> simp [State.trunk_startFrame, inUp]
  · simp [State.trunk_startFrame]
  · exact h

theorem State.close_ackDelay {v : State} (h : v.trunk.ackDelayTimer = none) : v.close.trunk.ackDelayTimer = none := by
  cases tx : v.trunk.tx with
  | some f =>
    obtain ⟨g, timer, eq⟩ := State.close_busy_only (v := v) (by simp [tx])
    simp [eq, h]
  | none =>
    obtain ⟨g, timer, ends⟩ := v.goBackEnds_only
    rw [State.close_choice tx]
    simpa using State.chooseFrame_ackDelay (w := v.atChoice) (by simp [ends, h])

/-- Settles O18: the acknowledgement asks for a CTRL behind the frame on the line, or a frame that carries it starts
(`State.close_sends`). -/
theorem ackDelayExpiry : Obligations.AckDelayExpiry := by
  intro d s up timer reached between
  have ex : exec .ackDelayTimerExpiry s = finished s.ackDelayOver := by
    simp [exec, execAckDelayTimerExpiry, up, State.expired_some timer reached, State.ackDelayOver]
  obtain ⟨rest, counted⟩ := sameRest_setTrunk_close s.ackDelayOver.trunk between rfl
  refine completes_of _ ex between.2 ⟨State.close_ackDelay rfl, fun busy => ?_, fun free pending => ?_, counted,
    sameLink_close ?_, rest⟩
  · obtain ⟨g, timer, eq⟩ := State.close_busy_only (v := s.ackDelayOver) busy
    simp [eq]
  · obtain ⟨starts, _, carried, _⟩ := State.close_sends s.ackDelayOver up free (.inl (by simp [pending]))
    exact ⟨starts, carried⟩
  · simp [SameLink]

end Sys2Proof.Machine
end

section
/-! FRAME_TRANSMITTED and DELAY_DEADLINE_REACHED: which frame the arbiter chooses, and what its start leaves (R109 to R115,
R151, R152, R156, R160, R162). -/

namespace Sys2Proof.Machine

/-! Choices 1 to 6 of the arbiter, each by the condition that leads to it (R160). -/

namespace State
variable {w : State}

theorem chooseFrame_nothing_down (down : w.trunk.up = false) (quiet : w.trunk.syncPending = false) :
    w.chooseFrame = w := by
  simp [chooseFrame, down, quiet]

section
variable (up : w.trunk.up = true)
include up

theorem chooseFrame_syncAck {e : Byte} (pending : w.trunk.syncAckPending = some e) : w.chooseFrame = w.sendSyncAck e := by
  simp [chooseFrame, up, pending]

variable (none : w.trunk.syncAckPending = none)
include none

theorem chooseFrame_ctrl (reason : w.trunk.ctrlNow = true) : w.chooseFrame = w.sendCtrl := by
  simp [chooseFrame, up, none, sendUp, reason]

variable (calm : w.trunk.ctrlNow = false)
include calm

theorem chooseFrame_goBack {f : SentFrame} (running : w.trunk.goBack = true)
    (next : w.trunk.retransmits.find? SentFrame.toResend = some f) : w.chooseFrame = w.sendGoBack f := by
  simp [chooseFrame, up, none, sendUp, calm, running, next]

theorem chooseFrame_later (ended : w.trunk.goBack = false) : w.chooseFrame = w.sendLater := by
  simp [chooseFrame, up, none, sendUp, calm, ended]

end

/-- The assembler offers a frame in UP outside a go-back, in the words of the statements (R109, R110, R112). -/
theorem offers_iff (up : w.trunk.up = true) (ended : w.trunk.goBack = false) : w.offers = true ↔
    w.trunk.retransmits.length < min 8 w.trunk.peerAllow ∧ w.uplink ≠ [] ∧
      (w.uplink.any Record.urgent = true ∨ w.cfg.batchCount ≤ w.uplink.length ∨ w.delayReached = true ∨
        480 ≤ (w.uplink.map Record.len).sum) := by
  show w.offers = true ↔ w.trunk.retransmits.length < min Config.window w.trunk.peerAllow ∧ w.uplink ≠ [] ∧
    (w.uplink.any Record.urgent = true ∨ w.cfg.batchCount ≤ w.uplink.length ∨ w.delayReached = true ∨
      Config.maxPayload ≤ (w.uplink.map Record.len).sum)
  simp [offers, canAccept, trigger, up, ended, or_assoc]

theorem sendLater_new (h : w.offers = true) : w.sendLater = w.sendNew := by
  simp [sendLater, h]

theorem sendLater_ctrl (h : w.offers = false) (reason : w.trunk.ackOnly = true ∨ w.trunk.keepaliveDue = true) :
    w.sendLater = w.sendCtrl := by
  simp [sendLater, h, reason]

theorem sendLater_nothing (h : w.offers = false) (h1 : w.trunk.ackOnly = false) (h2 : w.trunk.keepaliveDue = false) :
    w.sendLater = w := by
  simp [sendLater, h, h1, h2]

end State

/-- A DATA or CTRL frame has started from `s` (R162): its header, what it clears, and the timers. -/
def Headed (k : FrameKind) (q : Seq) (p : List Byte) (g : Bool) (s t : State) : Prop :=
  t.trunk.tx = some
    { kind := k, reject := s.trunk.rejectPending, seq := q, ackSeq := s.trunk.expectSeq, allow := s.allow,
      payload := p, goBack := g } ∧
  t.trunk.ackPending = false ∧ t.trunk.ackDelayTimer = none ∧ t.trunk.rejectPending = false ∧
  t.trunk.ctrlNow = false ∧ t.trunk.ackOnly = false ∧ t.trunk.keepaliveDue = false ∧
  t.trunk.keepaliveTimer = some (s.clock + s.cfg.silenceLimit / 4) ∧
  t.ctrs.read (.link .framesSent) = (s.ctrs.read (.link .framesSent)).inc

theorem headed_startFrame {u : State} {k : FrameKind} (up : u.trunk.up = true) (hk : k = .data ∨ k = .ctrl) (q : Seq)
    (p : List Byte) (g : Bool) : Headed k q p g u (u.startFrame k q p g) := by
  have ctr : (u.startFrame k q p g).ctrs.read (.link .framesSent) = (u.ctrs.read (.link .framesSent)).inc :=
    State.bump_ctrs_same _ _ (by simp)
  rcases hk with rfl | rfl
  all_goals simp [Headed, ctr, State.trunk_startFrame, up, Trunk.clearReasons, Trunk.ctrlNow]

/-- A frame built from one state is built from another with the same header fields, and stands until the end of the
step. -/
theorem Headed.on {k : FrameKind} {q : Seq} {p : List Byte} {g : Bool} {s u x : State} (h : Headed k q p g u x)
    (h1 : u.trunk.rejectPending = s.trunk.rejectPending) (h2 : u.trunk.expectSeq = s.trunk.expectSeq)
    (h3 : u.allow = s.allow) (h4 : u.clock = s.clock) (h5 : u.cfg = s.cfg)
    (h6 : u.ctrs.read (.link .framesSent) = s.ctrs.read (.link .framesSent)) : Headed k q p g s x.flushLate := by
  simpa [Headed, h1, h2, h3, h4, h5, h6] using h

namespace State
variable {w : State}

theorem headed_sendCtrl (up : w.trunk.up = true) : Headed .ctrl 0 [] false w w.sendCtrl :=
  headed_startFrame up (.inr rfl) 0 [] false

/-- A frame resent is counted besides (R156). -/
theorem headed_sendGoBack (up : w.trunk.up = true) (f : SentFrame) :
    Headed .data f.seq (payloadOf f.records) true w (w.sendGoBack f) ∧
      (w.sendGoBack f).ctrs.read (.link .retransmissions) = (w.ctrs.read (.link .retransmissions)).inc := by
  let u := w.setTrunk { w.trunk with retransmits := resendNext w.trunk.retransmits }
  let x := u.startFrame .data f.seq (payloadOf f.records) true
  have sent : Headed .data f.seq (payloadOf f.records) true w x := headed_startFrame (u := u) up (.inl rfl) _ _ _
  have moved : x.ctrs.read (.link .retransmissions) = w.ctrs.read (.link .retransmissions) :=
    startFrame_ctrs u .data f.seq (payloadOf f.records) true _ (by simp) (by simp)
  have eq : w.sendGoBack f = x.bump (.link .retransmissions) := rfl
  rw [eq, bump_ctrs_same _ _ (by simp), moved]
  refine ⟨?_, rfl⟩
  simpa [Headed] using sent

theorem uplink_startFrame (u : State) (k : FrameKind) (q : Seq) (p : List Byte) (g : Bool) :
    (u.startFrame k q p g).uplink = u.uplink := by
  simp [startFrame]

/-- The records of a new frame leave the queue for the retransmit list (R114, R115, R151). -/
def holdNew (w : State) : State :=
  (w.setUplink (w.uplink.drop (takeFit 480 w.uplink).length)).setTrunk { w.trunk with
    nextSeq := w.trunk.nextSeq + 1
    retransmits := w.trunk.retransmits ++
      [{ seq := w.trunk.nextSeq, records := takeFit 480 w.uplink, toResend := false }]
    retransmitTimer :=
      if w.trunk.retransmits.isEmpty then w.timer w.cfg.retransmitTimeout else w.trunk.retransmitTimer }

theorem sendNew_eq (w : State) :
    w.sendNew = w.holdNew.startFrame .data w.trunk.nextSeq (payloadOf (takeFit 480 w.uplink)) false := rfl

/-- A new frame takes its records from the queue and stands last in the retransmit list (R114, R115, R151). -/
theorem headed_sendNew (up : w.trunk.up = true) :
    Headed .data w.trunk.nextSeq (payloadOf (takeFit 480 w.uplink)) false w w.sendNew ∧
      w.sendNew.trunk.nextSeq = w.trunk.nextSeq + 1 ∧
      w.sendNew.trunk.retransmitTimer = (if w.trunk.retransmits = [] then some (w.clock + w.cfg.retransmitTimeout)
        else w.trunk.retransmitTimer) ∧
      w.uplink.drop (takeFit 480 w.uplink).length <+: w.sendNew.uplink ∧
      w.sendNew.trunk.retransmits = w.trunk.retransmits ++
        [{ seq := w.trunk.nextSeq, records := takeFit 480 w.uplink, toResend := false }] := by
  have sent : Headed .data w.trunk.nextSeq (payloadOf (takeFit 480 w.uplink)) false w w.sendNew :=
    headed_startFrame (u := w.holdNew) up (.inl rfl) _ _ _
  refine ⟨sent, ?_, ?_, ?_, ?_⟩
  all_goals simp only [sendNew_eq, trunk_startFrame, uplink_startFrame]
  all_goals simp [holdNew, timer, Trunk.clearReasons]

/-! FRAME_TRANSMITTED. -/

/-- The frame on the line has left it. -/
def txOver (s : State) : State := s.setTrunk { s.trunk with tx := none }

@[simp] theorem txOver_trunk (s : State) : s.txOver.trunk = { s.trunk with tx := none } := rfl

@[simp] theorem txOver_frame (s : State) : s.txOver.clock = s.clock ∧ s.txOver.cfg = s.cfg ∧
    s.txOver.uplink = s.uplink ∧ s.txOver.late = s.late ∧ s.txOver.ctrs = s.ctrs := ⟨rfl, rfl, rfl, rfl, rfl⟩

/-- A go-back without a frame left to resend is over when the arbiter chooses (R156); the trunk is as it was besides. -/
theorem goBackEnds_txOver (s : State) :
    let resend := s.trunk.retransmits.find? SentFrame.toResend
    ∃ timer, s.txOver.goBackEnds.trunk =
        { s.trunk with tx := none, goBack := s.trunk.goBack && resend.isSome, retransmitTimer := timer } ∧
      (s.trunk.goBack = true → resend = none → s.trunk.retransmits ≠ [] →
        timer = some (s.clock + s.cfg.retransmitTimeout)) ∧
      (s.trunk.goBack = false ∨ resend.isSome = true → timer = s.trunk.retransmitTimer) := by
  intro resend
  have left : s.trunk.retransmits.any SentFrame.toResend = resend.isSome := by
    rw [Bool.eq_iff_iff, List.any_eq_true, List.find?_isSome]
  have cond : (s.txOver.trunk.goBack = true ∧ ¬ (s.txOver.trunk.retransmits.any SentFrame.toResend = true ∨
      s.txOver.trunk.tx.any TxFrame.goBack = true)) ↔ s.trunk.goBack = true ∧ resend = none := by
    simp [left]
  rw [goBackEnds_trunk]
  by_cases ends : s.trunk.goBack = true ∧ resend = none
  · rw [if_pos (cond.mpr ends)]
    refine ⟨_, by rw [ends.2]; simp; rfl, fun _ _ frames => ?_, by simp [ends]⟩
    simp [frames]
  · rw [if_neg (mt cond.mp ends)]
    have goesOn : (s.trunk.goBack && resend.isSome) = s.trunk.goBack := by
      cases running : s.trunk.goBack <;> cases next : resend <;> simp_all
    refine ⟨s.trunk.retransmitTimer, by rw [goesOn]; rfl, fun running none => absurd ⟨running, none⟩ ends, fun _ => rfl⟩
end State

/-- In UP with the transmitter free a pending SYNC_ACK starts (R144, R160, R162). -/
theorem State.close_syncAck {v : State} {e : Byte} (up : v.trunk.up = true) (pending : v.trunk.syncAckPending = some e)
    (free : v.trunk.tx = none) : SyncSent .syncAck e v.trunk.expectSeq v.close := by
  obtain ⟨g, timer, ends⟩ := v.goBackEnds_only
  have choice : v.atChoice.chooseFrame = v.atChoice.sendSyncAck e :=
    State.chooseFrame_syncAck (by simp [ends, up]) (by simp [ends, pending])
  have allow : (v.atChoice.setTrunk { v.atChoice.trunk with syncAckPending := none }).allow = v.allow :=
    v.atChoice_frame.2.2.2.2.2.1
  rw [SyncSent, State.close_allow, State.close_choice free, choice, State.sendSyncAck]
  simp only [State.flushLate_frame, State.trunk_startFrame, allow]
  simp [ends, Trunk.clearReasons]

/-- What the arbiter sends of a new frame when the frame on the line has left it (R109 to R112). -/
theorem State.offers_txOver {s : State} (between : s.between) (up : s.trunk.up = true)
    (ended : s.trunk.goBack = false ∨ s.trunk.retransmits.find? SentFrame.toResend = none) :
    s.txOver.atChoice.offers = true ↔
      s.trunk.retransmits.length < min 8 s.trunk.peerAllow ∧ s.uplink ≠ [] ∧
        (s.uplink.any Record.urgent = true ∨ s.cfg.batchCount ≤ s.uplink.length ∨ s.delayReached = true ∨
          480 ≤ (s.uplink.map Record.len).sum) := by
  obtain ⟨timer, trunk, _, _⟩ := s.goBackEnds_txOver
  have queue : s.txOver.atChoice.uplink = s.uplink := by simp [between.1]
  have delay : s.txOver.atChoice.delayReached = s.delayReached := by
    simp [State.delayReached, between.1]
  have cfg : s.txOver.atChoice.cfg = s.cfg := s.txOver.atChoice_frame.2.1
  rw [State.offers_iff (by simp [trunk, up]) (by rcases ended with h | h <;> simp [trunk, h]), queue, delay, cfg]
  simp [trunk]

/-- Settles O19: the state the arbiter chooses in (`State.goBackEnds_txOver`), and each choice by its condition and what the
frame it starts leaves (`Headed`); the go-back and the retransmit timer by `State.chooseFrame_timer`. -/
theorem arbiterOrder : Obligations.ArbiterOrder := by
  intro x s tx between head resend batch offer timeout
  have ex : exec .frameTransmitted s = finished s.txOver := by
    simp [exec, execFrameTransmitted, tx, State.txOver]
  obtain ⟨timer, trunk, restarted, kept⟩ := s.goBackEnds_txOver
  obtain ⟨clock, cfg, _, ctrs, _, allow, _, _, _⟩ := s.txOver.atChoice_frame
  have closed : s.txOver.close = s.txOver.atChoice.chooseFrame.flushLate := State.close_choice rfl
  have queue : s.txOver.atChoice.uplink = s.uplink := by simp [between.1]
  obtain ⟨rest, _⟩ := sameRest_setTrunk_close s.txOver.trunk between rfl
  obtain ⟨goBack, timed⟩ := s.txOver.atChoice.chooseFrame_timer
  have goBack' : s.txOver.close.trunk.goBack = (s.trunk.goBack && resend.isSome) := by simp [closed, goBack, trunk, resend]
  have timed' (h : s.trunk.retransmits ≠ [] ∨ s.txOver.close.trunk.retransmits = []) :
      s.txOver.close.trunk.retransmitTimer = timer := by
    rw [closed] at h ⊢
    simpa [trunk] using timed (by simpa [trunk] using h)
  have frames {f} (next : resend = some f) : s.trunk.retransmits ≠ [] := by
    rintro empty
    simp [resend, empty] at next
  -- what a frame the arbiter starts carries of `s`
  have heads {k q p g u} (h : Headed k q p g s.txOver.atChoice u) (eq : s.txOver.atChoice.chooseFrame = u) :
      head k q p g s.txOver.close := by
    rw [closed, eq]
    exact h.on (by simp [trunk]) (by simp [trunk]) allow clock cfg (by rw [ctrs]; rfl)
  refine completes_of _ ex between.2 ⟨sameLink_close (by simp [SameLink]), rest, ?_, ?_, ?_, ?_, ?_, ?_⟩
  · intro running noneLeft
    exact ⟨by simp [goBack', noneLeft], fun some => (timed' (.inl some)).trans (restarted running noneLeft some)⟩
  · intro running next
    obtain ⟨f, found⟩ := Option.isSome_iff_exists.mp next
    exact ⟨by simp [goBack', running, next], (timed' (.inl (frames found))).trans (kept (.inr next))⟩
  · intro idle
    exact ⟨by simp [goBack', idle], fun h => (timed' h).trans (kept (.inl idle))⟩
  · intro down pending
    obtain ⟨g, timer, eq⟩ := State.close_sync (v := s.txOver) down pending rfl
    simp [SyncSent, eq, Trunk.clearReasons]
  · intro down quiet
    rw [closed, State.chooseFrame_nothing_down (by simp [trunk, down]) (by simp [trunk, quiet])]
    simp [trunk]
  intro up
  have up' : s.txOver.atChoice.trunk.up = true := by simp [trunk, up]
  refine ⟨fun e pending => State.close_syncAck (v := s.txOver) up pending rfl, fun quiet => ?_⟩
  have quiet' : s.txOver.atChoice.trunk.syncAckPending = none := by simp [trunk, quiet]
  refine ⟨fun reason => ?ctrl, fun calm => ?_⟩
  case ctrl =>
    exact heads (State.headed_sendCtrl up') (State.chooseFrame_ctrl up' quiet' (by simpa [trunk, Trunk.ctrlNow] using reason))
  have calm' : s.txOver.atChoice.trunk.ctrlNow = false := by simpa [trunk, Trunk.ctrlNow] using calm
  refine ⟨fun f running next => ?goBack, fun ended => ?_⟩
  case goBack =>
    obtain ⟨sent, counted⟩ := State.headed_sendGoBack up' f
    have choice := State.chooseFrame_goBack (f := f) up' quiet' calm'
      (by simp [trunk, running, show s.trunk.retransmits.find? SentFrame.toResend = some f from next])
      (by simpa [trunk] using next)
    refine ⟨heads sent choice, ?_⟩
    rw [closed, choice]
    simpa [ctrs] using counted
  have ended' : s.txOver.atChoice.trunk.goBack = false := by
    rw [s.txOver.atChoice_frame.2.2.2.2.2.2.1, trunk]
    rcases ended with idle | noneLeft
    · simp [idle]
    · simp [show s.trunk.retransmits.find? SentFrame.toResend = none from noneLeft]
  have later := State.chooseFrame_later up' quiet' calm' ended'
  have offers : s.txOver.atChoice.offers = true ↔ offer := State.offers_txOver between up ended
  refine ⟨fun offered => ?new, fun not reason => ?alone, fun not h1 h2 => ?nothing⟩
  case new =>
    have choice := later.trans (State.sendLater_new (offers.mpr offered))
    obtain ⟨sent, seq, timer', taken, appended⟩ := State.headed_sendNew up'
    rw [queue] at sent taken appended
    have sent' := heads sent choice
    rw [closed, choice] at sent' ⊢
    refine ⟨by simpa [trunk] using sent', by simpa [trunk] using seq, fun empty => ?_, ?_, by simpa [trunk] using appended⟩
    · simpa [trunk, empty] using timer'
    · simpa using taken.trans (List.prefix_append _ _)
  case alone =>
    have none : s.txOver.atChoice.offers = false := by simpa using mt offers.mp not
    exact heads (State.headed_sendCtrl up') (later.trans (State.sendLater_ctrl none (by simpa [trunk] using reason)))
  case nothing =>
    have none : s.txOver.atChoice.offers = false := by simpa using mt offers.mp not
    rw [closed, later, State.sendLater_nothing none (by simpa [trunk] using h1) (by simpa [trunk] using h2)]
    simp [trunk]

theorem State.delayReached_of {s : State} {r : Record} {rs : List Record} (queue : s.uplink = r :: rs)
    (reached : r.deadline ≤ s.clock) : s.delayReached = true := by
  simp [State.delayReached, queue, reached]

/-- Settles O21: the end of the step is the arbiter's choice, which is the new frame (`State.headed_sendNew`). -/
theorem delayDeadlineBuildsFrame : Obligations.DelayDeadlineBuildsFrame := by
  intro r rs s queue reached between
  have delay : s.delayReached = true := State.delayReached_of queue reached
  have ex : exec .delayDeadlineReached s = finished s := by simp [exec, execDelayDeadlineReached, delay]
  have same : SameRest s s := ⟨⟨rfl, rfl, rfl, rfl, rfl, rfl⟩, ⟨rfl, rfl, rfl, rfl, rfl, rfl, rfl⟩, rfl, rfl⟩
  refine completes_of _ ex between.2 ⟨sameLink_close (sameLink_of_calm rfl), sameRest_close same between.late,
    fun up free quiet calm idle room => ?_⟩
  have closed : s.close = s.flushLate.chooseFrame.flushLate := State.close_free s free idle
  have unchanged : s.flushLate = s := by
    simp [State.flushLate, between.1, State.setUplink, State.setLate]
    rw [← between.1]
  have offers : s.offers = true :=
    (State.offers_iff up idle).mpr ⟨room, by simp [queue], .inr (.inr (.inl delay))⟩
  have choice : s.chooseFrame = s.sendNew :=
    (State.chooseFrame_later up quiet calm idle).trans (State.sendLater_new offers)
  obtain ⟨sent, seq, timer, taken, appended⟩ := State.headed_sendNew up
  rw [closed, unchanged, choice]
  simp only [State.flushLate_frame]
  have noReject : s.trunk.rejectPending = false := by
    simp only [Trunk.ctrlNow, Bool.or_eq_false_iff] at calm
    exact calm.1.1.1
  refine ⟨?_, seq, timer, taken.trans (List.prefix_append _ _), appended⟩
  rw [sent.1, noReject]

end Sys2Proof.Machine
end

section
/-! A DATA frame received in UP: its header, and what the sequence check makes of it (R123, R147, R148). -/

namespace Sys2Proof.Machine

/-! A DATA or CTRL frame received in UP. -/

namespace State

/-- The header of a frame received in UP is taken behind the count of the frame and the start of the silence timer (R140,
R147, R157). -/
def headed (s : State) (f : RxFrame) : State := s.goodFrame.takeHeader f

section
variable {s : State} {f : RxFrame}

/-- What the header leaves: everything beside the send side of the trunk, the pool, the records and the counters. -/
theorem sendOnly_headed (unserved : s.ackServesNone f) : SendOnly s.goodFrame (s.headed f) := 
  sendOnly_takeHeader _ f (goodFrame_serves unserved)

/-- What it leaves, in the terms of the state the frame arrived in. -/
theorem headed_frame (up : s.trunk.up = true) (unserved : s.ackServesNone f) :
    SameTables s (s.headed f) ∧ (s.headed f).intake = s.intake ∧ (s.headed f).granted = s.granted ∧
    (s.headed f).trunk.up = true ∧ (s.headed f).trunk.expectSeq = s.trunk.expectSeq ∧
    (s.headed f).trunk.anyAccepted = s.trunk.anyAccepted ∧ (s.headed f).trunk.rejectSent = s.trunk.rejectSent ∧
    (s.headed f).trunk.rejectPending = s.trunk.rejectPending ∧
    (s.headed f).trunk.ackDelayTimer = s.trunk.ackDelayTimer ∧ (s.headed f).trunk.tx = s.trunk.tx ∧
    (s.headed f).trunk.silenceTimer = some (s.clock + s.cfg.silenceLimit) := by
  have good := goodFrame_up s up
  obtain ⟨clock, cfg, intake, lines, polls, pollRun, pending, granted, rx⟩ := sendOnly_headed unserved
  obtain ⟨isUp, _, _, _, _, any, _, _, expect, sent, rejecting, _, _, ackDelay, silence, tx⟩ :=
    (sendOnly_headed unserved).fields
  rw [SameTables, lines, polls, cfg, pollRun, clock, pending, intake, granted, isUp, expect, any, sent, rejecting,
    ackDelay, tx, silence, good]
  simp [up]

/-- Its counters: the frame received, and an AckSeq out of the window; a go-back it begins apart. -/
theorem headed_ctrs (f : RxFrame) (up : s.trunk.up = true) {d : CtrId} (counted : ¬ d.sideways) (h : d ≠ .link .goBacks) :
    (s.headed f).ctrs.read d =
    if d = .link .outOfWindow ∧ s.trunk.ackValid f.ackSeq = false ∨ d = .link .framesReceived then (s.ctrs.read d).inc
    else s.ctrs.read d := by
  have good := goodFrame_up s up
  obtain ⟨missed, _⟩ := sideways_ne counted
  have valid : s.goodFrame.trunk.ackValid f.ackSeq = s.trunk.ackValid f.ackSeq := by simp [good, Trunk.ackValid]
  rw [headed, takeHeader_ctrs _ f d counted h, valid, good]
  by_cases received : d = .link .framesReceived
  · subst received
    simp
  · simp [received, missed]

end
end State

/-- A DATA frame in UP is checked against the state its header leaves (R147, R148). -/
theorem exec_dataFrame_up {b : List Byte} {f : RxFrame} {s : State} (frame : frameOf .data b = some f)
    (up : s.trunk.up = true) : exec (.dataFrame b) s = finished ((s.headed f).takeData f) := by
  rw [exec_dataFrame s frame, State.receiveData, if_pos up, State.headed]

@[simp] theorem State.acceptData_granted (s : State) (f : RxFrame) : (s.acceptData f).granted = s.granted := by
  simp [State.acceptData, State.intakeAccept]

/-- Settles O9: the state after the header (`State.headed_frame`), the acceptance from there (`State.acceptData_frame`), and
the end of the step. -/
theorem dataFrameAccepted : Obligations.DataFrameAccepted := by
  intro b f s frame up expected room between unserved
  obtain ⟨tables, intake, granted, _, expect, _, _, _, ackDelay, tx, silence⟩ := State.headed_frame up unserved
  obtain ⟨lines, polls, cfg, pollRun, clock, pending⟩ := tables
  have received := State.headed_ctrs (d := .link .framesReceived) f up (by simp [CtrId.sideways]) (by simp)
  have accepts : (s.headed f).takeData f = (s.headed f).acceptData f := by
    have free : 0 < (s.headed f).freeSlots := by
      show 0 < 8 - _
      rw [intake]
      omega
    rw [State.takeData, if_pos (expected.trans expect.symm), if_pos free]
  have ex := exec_dataFrame_up frame up
  rw [accepts] at ex
  obtain ⟨tables', ctrs, intake', expect', any, sent, pending', tx', silence', ackDelay', ackOnly⟩ :=
    (s.headed f).acceptData_frame f
  obtain ⟨lines', polls', cfg', pollRun', clock', pending''⟩ := tables'
  refine completes_of _ ex (by simp [granted, between.2]) ⟨?_, ?_, ?_, ?_, ?_, ?_, ?_, ?_, fun busy => ?_, ?_⟩
  · simp [intake', intake]
  · simp [intake', intake]
  · simp [intake', intake]
  · simp [expect', expect]
  · simp [any]
  · simp [sent]
  · simp [silence', silence]
  · rw [State.close_ctrs _ _ (by simp) (by simp) (by simp), ctrs, received]
    simp
  · obtain ⟨g, timer, eq⟩ := State.close_busy_only (v := (s.headed f).acceptData f) (by rw [tx', tx, busy])
    rw [eq]
    refine ⟨pending', fun some => ?_, fun zero idle => ?_⟩
    · simp [ackDelay', ackDelay, cfg, clock, some]
    · simp [ackOnly, ackDelay, cfg, zero, idle]
  · simp [SameTables, lines', lines, polls', polls, cfg', cfg, pollRun', pollRun, clock', clock, pending'', pending]

/-- What of a DATA frame turned away stands until the end of the step. -/
theorem stands_close {s u : State} (tables : SameTables s u) (intake : u.intake = s.intake)
    (expect : u.trunk.expectSeq = s.trunk.expectSeq) (any : u.trunk.anyAccepted = s.trunk.anyAccepted) :
    SameTables s u.close ∧ u.close.intake = s.intake ∧ u.close.trunk.expectSeq = s.trunk.expectSeq ∧
      u.close.trunk.anyAccepted = s.trunk.anyAccepted := by
  unfold SameTables at tables ⊢
  simpa [intake, expect, any] using tables

/-- An out-of-window frame is counted; a Reject is asked for unless one has been (R148). -/
theorem State.outOfWindow_frame (s : State) : SameTables s s.outOfWindow ∧ s.outOfWindow.intake = s.intake ∧
    s.outOfWindow.granted = s.granted ∧ s.outOfWindow.trunk.expectSeq = s.trunk.expectSeq ∧
    s.outOfWindow.trunk.anyAccepted = s.trunk.anyAccepted ∧ s.outOfWindow.trunk.tx = s.trunk.tx ∧
    s.outOfWindow.trunk.rejectSent = true ∧
    s.outOfWindow.trunk.rejectPending = (s.trunk.rejectPending || !s.trunk.rejectSent) ∧
    s.outOfWindow.ctrs.read (.link .outOfWindow) = (s.ctrs.read (.link .outOfWindow)).inc := by
  cases sent : s.trunk.rejectSent <;> simp [State.outOfWindow, SameTables, sent]

/-- Settles O10: behind the header (`State.headed_frame`) each check of R148 counts the frame and leaves tables, intake unit
and ExpectSeq. -/
theorem dataFrameTurnedAway : Obligations.DataFrameTurnedAway := by
  intro b f s frame up between unserved stands rises
  obtain ⟨tables, intake, granted, _, expect, any, sent, rejecting, _, tx, _⟩ := State.headed_frame up unserved
  have ctrs {d : CtrId} := State.headed_ctrs (d := d) f up
  have ex := exec_dataFrame_up frame up
  have granted : (s.headed f).granted = [] := granted.trans between.2
  have behind : (s.headed f).trunk.behind f.seq = (s.trunk.expectSeq - f.seq).toNat := by
    rw [Trunk.behind, expect]
  have unexpected (h : 1 ≤ (s.trunk.expectSeq - f.seq).toNat) : f.seq ≠ (s.headed f).trunk.expectSeq := by
    intro same
    simp [same, expect] at h
  refine ⟨fun expected full => ?overAllow, fun low high => ?duplicate, fun far => ?outOfWindow⟩
  case overAllow =>
    have turned : (s.headed f).takeData f = (s.headed f).bump (.link .overAllow) := by
      have free : ¬ 0 < (s.headed f).freeSlots := by
        show ¬ 0 < 8 - _
        rw [intake]
        omega
      rw [State.takeData, if_pos (expected.trans expect.symm), if_neg free]
    rw [turned] at ex
    refine completes_of _ ex (by simp [granted]) ⟨stands_close (by simpa [SameTables] using tables) (by simpa using intake)
      (by simpa using expect) (by simpa using any), ?_, by simpa using sent⟩
    show ((s.headed f).bump _).close.ctrs.read _ = _
    rw [State.close_ctrs _ _ (by simp) (by simp) (by simp), State.bump_ctrs_same _ _ (by simp),
      ctrs (by simp [CtrId.sideways]) (by simp)]
    simp
  case duplicate =>
    have turned : (s.headed f).takeData f = (s.headed f).duplicate := by
      rw [State.takeData, if_neg (unexpected low), behind, if_pos ⟨low, high⟩]
    rw [turned] at ex
    refine completes_of _ ex (by simp [State.duplicate, granted]) ⟨stands_close (by simpa [State.duplicate, SameTables] using tables)
      (by simpa [State.duplicate] using intake) (by simpa [State.duplicate] using expect)
      (by simpa [State.duplicate] using any), ?_, by simpa [State.duplicate] using sent, fun busy => ?_⟩
    · show (s.headed f).duplicate.close.ctrs.read _ = _
      rw [State.close_ctrs _ _ (by simp) (by simp) (by simp), State.duplicate, State.ctrs_setTrunk,
        State.bump_ctrs_same _ _ (by simp), ctrs (by simp [CtrId.sideways]) (by simp)]
      simp
    · obtain ⟨g, timer, eq⟩ := State.close_busy_only (v := (s.headed f).duplicate) (by simp [State.duplicate, tx, busy])
      rw [eq]
      rfl
  case outOfWindow =>
    have turned : (s.headed f).takeData f = (s.headed f).outOfWindow := by
      rw [State.takeData, if_neg (unexpected (by omega)), behind, if_neg (by omega)]
    rw [turned] at ex
    obtain ⟨tables', intake', granted', expect', any', tx', sent', rejecting', counted⟩ := (s.headed f).outOfWindow_frame
    obtain ⟨lines, polls, cfg, pollRun, clock, pending⟩ := tables
    refine completes_of _ ex (granted'.trans granted) ⟨stands_close (by simpa [SameTables, *] using tables')
      (intake'.trans intake) (expect'.trans expect) (any'.trans any), ?_, by simpa using sent', fun busy => ?_⟩
    · rw [State.close_ctrs _ _ (by simp) (by simp) (by simp), counted, ctrs (by simp [CtrId.sideways]) (by simp)]
      cases valid : s.trunk.ackValid f.ackSeq <;> simp
    · obtain ⟨g, timer, eq⟩ := State.close_busy_only (v := (s.headed f).outOfWindow) (by rw [tx', tx, busy])
      rw [eq, ← rejecting, ← sent]
      exact rejecting'

end Sys2Proof.Machine
end

section
/-! CTRL_FRAME: what its header releases, the go-back, the timers, the event store and PoolHold (R95, R96, R100, R136, R147,
R151, R155, R156, R161). -/

namespace Sys2Proof.Machine

theorem exec_ctrlFrame_up {b : List Byte} {f : RxFrame} {s : State} (frame : frameOf .ctrl b = some f)
    (up : s.trunk.up = true) : exec (.ctrlFrame b) s = finished (s.headed f) := by
  rw [exec_ctrlFrame s frame, if_pos up, State.headed]

/-- A header whose AckSeq is not valid is counted and has no other effect (R147). -/
theorem State.headed_invalid {s : State} {f : RxFrame} (up : s.trunk.up = true) (invalid : s.trunk.ackValid f.ackSeq = false) :
    s.headed f = ((s.bump (.link .framesReceived)).setTrunk
      { s.trunk with silenceTimer := some (s.clock + s.cfg.silenceLimit) }).bump (.link .outOfWindow) := by
  have same : s.goodFrame.trunk.ackValid f.ackSeq = s.trunk.ackValid f.ackSeq := by
    simp [State.goodFrame_up s up, Trunk.ackValid]
  rw [State.headed, State.takeHeader, same, invalid, if_neg Bool.false_ne_true, State.goodFrame_up s up]

/-- A frame with an AckSeq that is not valid is counted, twice, and has no other effect (R147). -/
theorem ctrlHeader_invalid {b : List Byte} {f : RxFrame} {s : State} (frame : frameOf .ctrl b = some f)
    (up : s.trunk.up = true) (between : s.between) (invalid : s.trunk.ackValid f.ackSeq = false) :
    Completes (.ctrlFrame b) s (fun t =>
      Counted [.link .framesReceived, .link .outOfWindow] s t ∧ SameLink s t ∧ SameRest s t) := by
  have ex := exec_ctrlFrame_up frame up
  rw [State.headed_invalid up invalid] at ex
  have counted : Counted [.link .framesReceived] s ((s.bump (.link .framesReceived)).setTrunk
    { s.trunk with silenceTimer := some (s.clock + s.cfg.silenceLimit) }) := Counted.bump s _
  have results : ((s.bump (.link .framesReceived)).setTrunk
      { s.trunk with silenceTimer := some (s.clock + s.cfg.silenceLimit) }).results = s.results := by
    rw [State.setTrunk_results _ _ (by simp)]
    simp
  exact completes_of _ ex (by simp [between.2]) ⟨((counted.cons (.link .outOfWindow) (by simp)).swap).close,
    sameLink_close (by simp [SameLink]),
    sameRest_close (by simp [SameRest, SameTables, SamePool, results]) (by simp [between.late])⟩

/-- The count of a good frame and the start of the silence timer, field by field (R140, R157). -/
theorem State.goodFrame_frame {s : State} (up : s.trunk.up = true) :
    s.goodFrame.trunk = { s.trunk with silenceTimer := some (s.clock + s.cfg.silenceLimit) } ∧
    s.goodFrame.clock = s.clock ∧ s.goodFrame.cfg = s.cfg ∧ s.goodFrame.intake = s.intake ∧
    s.goodFrame.pool.free = s.pool.free ∧ s.goodFrame.pool.held = s.pool.held ∧
    s.goodFrame.pool.reserved = s.pool.reserved ∧ s.goodFrame.pool.total = s.pool.total ∧
    s.goodFrame.pool.slotsUsed = s.pool.slotsUsed ∧ s.goodFrame.pool.hold = s.pool.hold ∧
    s.goodFrame.ctrs.read (.link .goBacks) = s.ctrs.read (.link .goBacks) := by
  simp [State.goodFrame_up s up]

/-- Where FramesReceived does not cross 32768, counting a frame raises no event (R191, R193). -/
theorem State.goodFrame_calm {s : State} (up : s.trunk.up = true)
    (calm : (s.ctrs.read (.link .framesReceived)).value ≠ 32767) :
    s.goodFrame.pool = s.pool ∧ s.goodFrame.uplink = s.uplink ∧ s.goodFrame.late = s.late := by
  have quiet : (s.ctrs.read (.link .framesReceived)).crosses = false := by
    simp only [Counter.crosses, Bool.and_eq_false_iff, beq_eq_false_iff_ne]
    exact .inl calm
  rw [State.goodFrame_up s up, State.bump_calm s _ quiet]
  exact ⟨rfl, rfl, rfl⟩

/-- A header with a valid AckSeq, in the terms of the state the frame arrived in (R147, R151, R155). -/
theorem State.headed_valid {s : State} {f : RxFrame} (up : s.trunk.up = true)
    (valid : s.trunk.ackValid f.ackSeq = true) (unserved : s.ackServesNone f) :
    let left := s.trunk.retransmits.drop (f.ackSeq - s.trunk.peerAck).toNat
    (s.headed f).trunk.peerAck = f.ackSeq ∧ (s.headed f).trunk.peerAllow = min 8 f.allow ∧
    (s.headed f).trunk.expiries = (if f.ackSeq = s.trunk.peerAck then s.trunk.expiries else 0) ∧
    (s.headed f).trunk.retransmits.map SentFrame.seq = left.map SentFrame.seq ∧
    (s.headed f).trunk.retransmits.map SentFrame.records = left.map SentFrame.records ∧
    (s.headed f).pool.held = s.pool.held - ((s.released f).map Record.blocks).sum ∧
    (s.headed f).pool.reserved = s.pool.reserved ∧ (s.headed f).pool.total = s.pool.total ∧
    (s.headed f).pool.slotsUsed = s.pool.slotsUsed - ((s.released f).filter (fun r => !r.isEvent)).length ∧
    (s.trunk.goBack = false → (s.headed f).ctrs.read (.link .goBacks) =
      if f.reject = true ∧ left ≠ [] then (s.ctrs.read (.link .goBacks)).inc else s.ctrs.read (.link .goBacks)) := by
  obtain ⟨trunk, _, _, _, _, held, reserved, total, slots, _, goBacks⟩ := State.goodFrame_frame up
  have law := s.goodFrame.takeHeader_valid f (by simpa [trunk, Trunk.ackValid] using valid)
    (State.goodFrame_serves unserved)
  rw [trunk, held, reserved, total, slots, goBacks] at law
  exact law

/-- The same of the go-back and the retransmit timer, to the end of a step with a frame on the line (R151, R155, R156). -/
theorem State.headed_timer {s : State} {f : RxFrame} (up : s.trunk.up = true)
    (valid : s.trunk.ackValid f.ackSeq = true) (unserved : s.ackServesNone f) (busy : s.trunk.tx.isSome = true) :
    let left := s.trunk.retransmits.drop (f.ackSeq - s.trunk.peerAck).toNat
    let rejects := f.reject = true ∧ left ≠ []
    let restart := if left = [] then none else some (s.clock + s.cfg.retransmitTimeout)
    let goesOn := left.any SentFrame.toResend = true ∨ s.trunk.tx.any TxFrame.goBack = true
    let t := (s.headed f).close
    (s.trunk.goBack = false → t.trunk.goBack = decide rejects ∧
      t.trunk.retransmits = (if rejects then left.map (fun g => { g with toResend := true }) else left) ∧
      t.trunk.retransmitTimer = (if rejects then none
        else if f.ackSeq = s.trunk.peerAck then s.trunk.retransmitTimer else restart)) ∧
    (s.trunk.goBack = true → goesOn → t.trunk.goBack = true ∧ t.trunk.retransmits = left ∧
      t.trunk.retransmitTimer = if f.ackSeq = s.trunk.peerAck then s.trunk.retransmitTimer else none) ∧
    (s.trunk.goBack = true → ¬ goesOn → f.ackSeq ≠ s.trunk.peerAck → f.reject = false →
      t.trunk.goBack = false ∧ t.trunk.retransmits = left ∧ t.trunk.retransmitTimer = restart) := by
  obtain ⟨trunk, clock, cfg, _⟩ := State.goodFrame_frame up
  have law := s.goodFrame.takeHeader_timer f (by simpa [trunk, Trunk.ackValid] using valid)
    (State.goodFrame_serves unserved) (by simpa [trunk] using busy)
  simp only [trunk, clock, cfg] at law
  exact law

/-- The same of the event store and PoolHold, where counting the frame raises no event (R95, R96, R100, R136, R161). -/
theorem State.headed_store {s : State} {f : RxFrame} (up : s.trunk.up = true) (between : s.between)
    (valid : s.trunk.ackValid f.ackSeq = true) (unserved : s.ackServesNone f) (busy : s.trunk.tx.isSome = true)
    (noReject : f.reject = false) (quiet : (s.ctrs.read (.link .framesReceived)).value ≠ 32767) :
    let blocks := ((s.released f).map Record.blocks).sum
    let events := ((s.released f).filter Record.isEvent).length
    let t := (s.headed f).close
    (s.pool.hold = false → s.cfg.lowMark ≤ s.pool.free → t.pool.hold = false ∧
        t.pool.eventsUsed = s.pool.eventsUsed - events) ∧
    ((f.ackSeq - s.trunk.peerAck).toNat = 1 → s.pool.hold = true → 1 ≤ blocks → blocks ≤ s.pool.held →
      s.cfg.highMark ≤ s.pool.free + blocks → s.pool.eventsUsed - events < 16 →
      t.pool.hold = false ∧ t.pool.eventsUsed = s.pool.eventsUsed - events + 1 ∧
      t.uplink = s.uplink ++ [s.stamp (.event .poolRecovered 0 s.pool.missedEvents
        (BitVec.ofNat 16 (s.pool.free + blocks) ++ BitVec.ofNat 16 s.cfg.highMark)) true 0] ∧
      (s.intake.frames.length < 8 → t.trunk.allowRose = true)) := by
  obtain ⟨trunk, clock, cfg, intake, _⟩ := State.goodFrame_frame up
  obtain ⟨pool, uplink, late⟩ := State.goodFrame_calm up quiet
  have law := s.goodFrame.takeHeader_store f (by simpa [trunk, Trunk.ackValid] using valid)
    (State.goodFrame_serves unserved) (by simpa [trunk] using busy) noReject (late.trans between.1) (by simp [trunk, up])
  have released : s.goodFrame.released f = s.released f := by simp [State.released, trunk]
  simp only [trunk, cfg, intake, pool, uplink, released] at law
  simp only [State.stamp, clock, cfg] at law
  exact law

/-- Settles O11: an AckSeq out of the window is `ctrlHeader_invalid`; a valid one leaves what `State.headed_frame`,
`State.headed_valid`, `State.headed_timer` and `State.headed_store` say, to the end of the step. -/
theorem ctrlHeaderTaken : Obligations.CtrlHeaderTaken := by
  intro b f s frame up between
  refine ⟨fun invalid => ctrlHeader_invalid frame up between (by simpa [Trunk.ackValid] using invalid), ?_⟩
  intro inWindow unserved acked left gone blocks events rejects restart goesOn calm
  have valid : s.trunk.ackValid f.ackSeq = true := by simpa [Trunk.ackValid] using inWindow
  have ex := exec_ctrlFrame_up frame up
  obtain ⟨tables, intake, granted, isUp, expect, _, _, _, _, tx, silence⟩ := State.headed_frame up unserved
  have counted := State.headed_ctrs f up (d := .link .framesReceived) (by simp [CtrId.sideways]) (by simp)
  obtain ⟨ack, credit, expiries, seqs, records, held, reserved, total, slots, goBacks⟩ :=
    State.headed_valid up valid unserved
  obtain ⟨seqsOn, recordsOn⟩ := (s.headed f).close_frames
  refine completes_of _ ex (granted.trans between.2) ⟨?_, ?_, ?_, ?_, ?_, ?_, ?_, ?_, fun idle => ?_, ?_, ?_, ?_, ?_, ?_,
    ?_, fun busy => (State.headed_timer up valid unserved busy).1,
    fun busy => (State.headed_timer up valid unserved busy).2.1,
    fun busy => (State.headed_timer up valid unserved busy).2.2,
    fun ⟨busy, noReject, quiet⟩ => (State.headed_store up between valid unserved busy noReject quiet).1,
    fun ⟨busy, noReject, quiet⟩ one hold some fits mark slot => ?_⟩
  · simp [ack]
  · simp [credit]
  · simp [expiries]
  · exact seqs ▸ seqsOn
  · exact records ▸ recordsOn
  · simp [expect]
  · simp [silence]
  · simp [counted]
  · exact (State.close_ctrs _ _ (by simp) (by simp) (by simp)).trans (goBacks idle)
  · simp [held, blocks, gone]
  · simp [reserved]
  · simpa [Pool.total] using total
  · simp [slots, gone]
  · simpa [SameTables] using tables
  · simp [intake]
  · obtain ⟨off, used, raised, rose⟩ :=
      (State.headed_store up between valid unserved busy noReject quiet).2 one hold some fits mark slot
    refine ⟨off, used, raised, ?_, rose⟩
    rw [State.allow, off]
    simp [State.freeSlots, intake, Config.intakeSlots]

end Sys2Proof.Machine
end

section
/-! The link enters UP: the fresh space, what stands with polling stopped, and polling that becomes active (R69, R143 to R146). -/

namespace Sys2Proof.Machine

/-- Trunks that agree with `allowRose` put aside differ in it alone. -/
theorem Trunk.of_calm {v w : Trunk} (h : v.calm = w.calm) : ∃ r, v = { w with allowRose := r } := by
  cases v
  cases w
  simp only [Trunk.calm, Trunk.mk.injEq] at h ⊢
  exact ⟨_, by tauto⟩

/-- A counter's increase takes one slot of the event store at most (R193, R197). -/
theorem State.bump_eventsUsed (s : State) (c : CtrId) : (s.bump c).pool.eventsUsed ≤ s.pool.eventsUsed + 1 := by
  unfold State.bump State.raiseHalf
  dsimp only
  split_ifs <;> simp [State.takeEventSlot]

/-- A fresh space whose first frame is a SYNC_ACK or a CTRL stands until the end of the step (R143 to R146, R160). -/
theorem FreshSpace.close {s u : State} (h : FreshSpace s u)
    (first : (∃ e, u.trunk.syncAckPending = some e) ∨ u.trunk.syncAckPending = none ∧ u.trunk.ctrlNow = true) :
    FreshSpace s u.close := by
  obtain ⟨up, pin, epoch, next, peer, expect, allow, sent, any, expiries, idle, silence, alive, rest⟩ := h
  have sends : u.close.trunk.nextSeq = 0 ∧ u.close.trunk.goBack = false ∧
      u.close.trunk.keepaliveTimer = some (s.clock + s.cfg.silenceLimit / 4) := by
    cases tx : u.trunk.tx with
    | some f =>
      rw [State.close_busy_trunk u (by simp [tx]) idle]
      exact ⟨next, idle, alive⟩
    | none =>
      rcases first with ⟨e, pending⟩ | ⟨none, reason⟩
      · rw [State.close_syncAck_free u e up idle pending tx]
        simp [Trunk.clearReasons, next, idle, rest]
      · rw [State.close_ctrl_free u up idle none reason tx]
        simp [Trunk.clearReasons, next, idle, rest]
  unfold FreshSpace
  simpa [up, pin, epoch, peer, expect, allow, sent, any, expiries, silence, sends] using rest

/-! The link enters UP (R145, R146). -/

/-- The trunk interface of `s` as it enters UP on a fresh space. -/
def State.restarted (s : State) : Trunk := Trunk.risen (s.setTrunk (Trunk.fresh s))

/-- The state in which the link has entered UP behind the count of the frame that led there. -/
def State.entered (s : State) : State := s.goodFrame.sequenceReset.enterUp

section
variable {s : State} (down : s.trunk.up = false)
include down

theorem State.reset_frame : let w := s.goodFrame.sequenceReset
    w.trunk = Trunk.fresh s ∧ w.clock = s.clock ∧ w.cfg = s.cfg ∧ w.intake = s.intake ∧ w.pollRun = s.pollRun ∧
    w.pending = s.pending ∧ w.granted = s.granted ∧ w.lines = s.lines ∧ w.polls = s.polls ∧ SamePool s w ∧
    w.results = s.results ∧ w.lateResults = s.lateResults ∧
    w.uplink = s.uplink ∧ w.pool.eventsUsed ≤ s.pool.eventsUsed + 2 ∧
    ∀ d, ¬ d.sideways → w.ctrs.read d =
      if d = .link .framesReceived ∨ d = .link .resyncs then (s.ctrs.read d).inc else s.ctrs.read d := by
  intro w
  have eq : w = ((s.bump (.link .framesReceived)).setTrunk (Trunk.fresh (s.bump (.link .framesReceived)))).bump
      (.link .resyncs) := by
    simp only [w, State.goodFrame_down down]
    exact (State.sequenceReset_eq _).2
  have results : ((s.bump (.link .framesReceived)).setTrunk (Trunk.fresh (s.bump (.link .framesReceived)))).results =
      s.results := by
    rw [State.setTrunk_results _ _ (by simp [Trunk.fresh])]
    simp
  have one := s.bump_eventsUsed (.link .framesReceived)
  have two := ((s.bump (.link .framesReceived)).setTrunk (Trunk.fresh (s.bump (.link .framesReceived)))).bump_eventsUsed (.link .resyncs)
  rw [eq]
  refine ⟨by simp [Trunk.fresh], by simp, by simp, by simp, by simp, by simp, by simp, by simp, by simp, by simp [SamePool],
    by simp [results], by simp, by simp, ?_, fun d counted => ?_⟩
  · simp only [State.pool_setTrunk] at two
    omega
  · obtain ⟨missed, _⟩ := sideways_ne counted
    by_cases resync : d = .link .resyncs
    · subst resync
      simp
    by_cases received : d = .link .framesReceived
    · subst received
      simp
    · simp [resync, received, missed]

/-- Entering UP leaves the trunk restarted, and counts nothing of its own (R145, R146). -/
theorem State.entered_frame : (∃ r, s.entered.trunk = { s.restarted with allowRose := r }) ∧
    s.entered.clock = s.clock ∧ s.entered.cfg = s.cfg ∧ s.entered.intake = s.intake ∧ s.entered.pollRun = s.pollRun ∧
    s.entered.pending = s.pending ∧ s.entered.granted = s.granted ∧
    s.entered.ctrs.read (.link .resyncs) = (s.ctrs.read (.link .resyncs)).inc ∧
    s.entered.ctrs.read (.link .framesReceived) = (s.ctrs.read (.link .framesReceived)).inc := by
  obtain ⟨trunk, clock, cfg, intake, pollRun, pending, granted, _, _, _, _, _, _, _, ctrs⟩ := State.reset_frame down
  have touch := s.goodFrame.sequenceReset.touch_enterUp
  have risen : Trunk.risen s.goodFrame.sequenceReset = s.restarted := by
    simp [Trunk.risen, State.restarted, trunk, clock, cfg]
  have grants : s.entered.granted = s.goodFrame.sequenceReset.granted := by
    unfold State.entered State.enterUp
    dsimp only
    split_ifs <;> simp [State.startUpTimers]
  rw [risen] at touch
  refine ⟨Trunk.of_calm touch.calm, touch.clock.trans clock, touch.cfg.trans cfg, touch.intake.trans intake,
    touch.pollRun.trans pollRun, touch.pending.trans pending, grants.trans granted, ?_, ?_⟩
  · rw [State.entered, touch.ctrs _ (by simp [CtrId.sideways]) (by simp [Touch.allows]), State.ctrs_setTrunk,
      ctrs _ (by simp [CtrId.sideways])]
    simp
  · rw [State.entered, touch.ctrs _ (by simp [CtrId.sideways]) (by simp [Touch.allows]), State.ctrs_setTrunk,
      ctrs _ (by simp [CtrId.sideways])]
    simp

/-- With polling stopped lines, polls, pool and results stand (R146). -/
theorem State.entered_still (off : s.pollRun = false) : s.entered.lines = s.lines ∧ s.entered.polls = s.polls ∧
    SamePool s s.entered ∧ s.entered.results = s.results ∧
    (s.trunk.upBefore = true → s.pool.eventsUsed + 3 ≤ 16 → ∃ m, s.entered.uplink = s.uplink ++
      [s.stamp (.event .linkRestored 0 m ((s.trunk.cause.code ++ 0#8) ++
        BitVec.ofNat 16 (min 65535 (s.clock - s.trunk.downSince)))) true 0]) ∧
    s.entered.lateResults = s.lateResults := by
  obtain ⟨trunk, clock, cfg, _, pollRun, _, _, lines, polls, pool, results, late, uplink, events, _⟩ :=
    State.reset_frame down
  obtain ⟨lines', polls', pool', results', restored, _, late'⟩ :=
    s.goodFrame.sequenceReset.enterUp_still (pollRun.trans off)
  refine ⟨lines'.trans lines, polls'.trans polls, ?_, results'.trans results, fun before slots => ?_, ?_⟩
  · obtain ⟨h1, h2, h3, h4, h5, h6, h7⟩ := pool
    obtain ⟨k1, k2, k3, k4, k5, k6, k7⟩ := pool'
    exact ⟨k1.trans h1, k2.trans h2, k3.trans h3, k4.trans h4, k5.trans h5, k6.trans h6, k7.trans h7⟩
  · obtain ⟨m, joined⟩ := restored (by simp [trunk, Trunk.fresh, before]) (by omega)
    refine ⟨m, ?_⟩
    rw [State.entered, joined, uplink, trunk]
    simp [State.stamp, clock, cfg, Trunk.fresh]
  · rw [← late]
    simp only [State.lateResults, State.entered, late']

/-- With PollRun on polling becomes active (R69, R146). -/
theorem State.entered_activates {t : State} (between : s.between) (on : s.pollRun = true)
    (lines : ∀ i, t.line i = s.entered.line i) (polls : ∀ id, t.poll id = s.entered.poll id)
    (reserved : t.pool.reserved = s.entered.pool.reserved) : Activated s t := by
  obtain ⟨trunk, clock, cfg, _, pollRun, _, granted, lines', polls', pool, results, late, uplink, events, _⟩ :=
    State.reset_frame down
  obtain ⟨free, reserved', _, slots, wait, _, _⟩ := pool
  let w := s.goodFrame.sequenceReset
  let r := (w.setTrunk { w.trunk with
    up := true, linkUpPin := true, syncPending := false, syncTimer := none, upBefore := true }).startUpTimers
  let v := if w.trunk.upBefore then r.raiseEvent .linkRestored 0 r.restoredDetail else r
  have active : s.entered = v.activate := by
    show (if w.pollRun then v.activate else v) = _
    rw [if_pos (pollRun.trans on)]
  have same : v.lines = w.lines ∧ v.polls = w.polls ∧ v.clock = w.clock ∧ v.granted = w.granted ∧
      v.pool.waitList = w.pool.waitList ∧ v.pool.free = w.pool.free ∧ v.pool.reserved = w.pool.reserved ∧
      v.pool.slotsUsed = w.pool.slotsUsed := by
    simp only [v]
    split <;> simp [r, State.startUpTimers]
  obtain ⟨l, p, c, g, wl, f, re, sl⟩ := same
  rw [active] at lines polls reserved
  exact State.activate_activated (fun i => congrArg (Vector.get · i) (l.trans lines'))
    (fun id => congrArg (Vector.get · id) (p.trans polls')) (c.trans clock) (wl.trans wait)
    (by rw [f, free]; omega) (re.trans reserved') (by rw [sl, slots]; omega) (g.trans (granted.trans between.2))
    lines polls reserved

end
end Sys2Proof.Machine
end

section
/-! SYNC and SYNC_ACK (R143 to R146). -/

namespace Sys2Proof.Machine

/-- The link enters UP with its first frame pending: `v` is the trunk interface, of which the pending frame is new. -/
theorem State.freshSpace_entered {s : State} (down : s.trunk.up = false) (v : Trunk)
    (h : ∃ r e o, v = { s.restarted with allowRose := r, syncAckPending := e, opening := o }) :
    FreshSpace s (s.entered.setTrunk v) := by
  obtain ⟨_, clock, cfg, intake, pollRun, pending, _⟩ := State.entered_frame down
  obtain ⟨r, e, o, rfl⟩ := h
  simp [FreshSpace, State.restarted, Trunk.risen, Trunk.fresh, down, clock, cfg, intake, pollRun, pending]

/-- A command that enters UP with its first frame pending: `v` is the trunk interface with that frame (R143 to R146). -/
theorem State.enters {c : Instr} {s : State} {v : Trunk} (down : s.trunk.up = false) (between : s.between)
    (ex : exec c s = finished (s.entered.setTrunk v))
    (h : ∃ r e o, v = { s.restarted with allowRose := r, syncAckPending := e, opening := o })
    (first : (∃ e, v.syncAckPending = some e) ∨ v.syncAckPending = none ∧ v.ctrlNow = true) :
    Completes c s (fun t => t = (s.entered.setTrunk v).close ∧ FreshSpace s t ∧ t.trunk.syncTimer = none ∧
      t.trunk.upBefore = true ∧ t.trunk.cause = s.trunk.cause ∧ t.trunk.lastAccepted = s.trunk.lastAccepted ∧
      t.ctrs.read (.link .resyncs) = (s.ctrs.read (.link .resyncs)).inc ∧
      t.ctrs.read (.link .framesReceived) = (s.ctrs.read (.link .framesReceived)).inc ∧
      (s.pollRun = true → Activated s t) ∧
      (s.pollRun = false → t.lines = s.lines ∧ t.polls = s.polls ∧ SamePool s t ∧ t.results = s.results ∧
        (s.trunk.upBefore = true → s.pool.eventsUsed + 3 ≤ 16 → ∃ m : Nat,
          JoinedBehind [s.stamp (.event .linkRestored 0 m ((s.trunk.cause.code ++ 0#8) ++
            BitVec.ofNat 16 (min 65535 (s.clock - s.trunk.downSince)))) true 0] s t))) := by
  have fresh := (State.freshSpace_entered down v h).close first
  obtain ⟨⟨r, trunk⟩, _, _, _, _, _, granted, resyncs, received⟩ := State.entered_frame down
  obtain ⟨r', e, o, rfl⟩ := h
  refine completes_of _ ex (granted.trans between.2) ⟨rfl, fresh, ?_, ?_, ?_, ?_, ?_, ?_, fun on => ?_, fun off => ?_⟩
  · simp [State.restarted, Trunk.risen]
  · simp [State.restarted, Trunk.risen]
  · simp [State.restarted, Trunk.risen, Trunk.fresh]
  · simp [State.restarted, Trunk.risen, Trunk.fresh]
  · simp [resyncs]
  · simp [received]
  · exact State.entered_activates down between on (by simp) (by simp) (by simp)
  · obtain ⟨lines, polls, ⟨p1, p2, p3, p4, p5, p6, p7⟩, results, restored, late⟩ := State.entered_still down off
    refine ⟨by simp [lines], by simp [polls], by simp [SamePool, p1, p2, p3, p4, p5, p6, p7], ?_, fun before slots => ?_⟩
    · rw [State.close_results, State.setTrunk_results _ _ (by rw [trunk]), results]
      simp [late, between.late]
    · obtain ⟨m, joined⟩ := restored before slots
      refine ⟨m, State.joinedBehind_of _ _ _ ?_⟩
      simp [State.stream, State.restarted, Trunk.risen, Trunk.fresh, joined]

section
variable {s u : State}

/-- The opening CTRL of a space just entered waits for the frame on the line, or starts (R143, R160). -/
theorem State.close_opening (trunk : ∃ r, u.trunk = { s.restarted with allowRose := r, opening := true })
    (noAck : s.trunk.syncAckPending = none) : u.close.trunk.syncPending = false ∧
      if s.trunk.tx.isSome then u.close.trunk.opening = true ∧ u.close.trunk.tx = s.trunk.tx
      else u.close.trunk.tx = some
        { kind := .ctrl, reject := false, seq := 0, ackSeq := 0, allow := u.close.allow, payload := [], goBack := false } := by
  obtain ⟨r, trunk⟩ := trunk
  cases tx : s.trunk.tx with
  | some x =>
    rw [State.close_busy_trunk u (by rw [trunk]; simp [State.restarted, Trunk.risen, Trunk.fresh, tx]) (by rw [trunk]; rfl),
      trunk]
    simp [State.restarted, Trunk.risen, Trunk.fresh, tx]
  | none =>
    rw [State.close_allow, State.close_ctrl_free u (by rw [trunk]; rfl) (by rw [trunk]; rfl) (by rw [trunk]; exact noAck)
      (by simp [trunk, Trunk.ctrlNow]) (by rw [trunk]; exact tx), trunk]
    simp [State.restarted, Trunk.risen, Trunk.fresh, Trunk.clearReasons]

/-- The SYNC_ACK of a space just entered waits for the frame on the line, or starts (R144, R160). -/
theorem State.close_answering {e : Byte} (trunk : ∃ r, u.trunk = { s.restarted with allowRose := r, syncAckPending := some e }) :
    u.close.trunk.syncPending = false ∧
      if s.trunk.tx.isSome then u.close.trunk.syncAckPending = some e ∧ u.close.trunk.tx = s.trunk.tx
      else SyncSent .syncAck e 0 u.close := by
  obtain ⟨r, trunk⟩ := trunk
  cases tx : s.trunk.tx with
  | some x =>
    rw [State.close_busy_trunk u (by rw [trunk]; simp [State.restarted, Trunk.risen, Trunk.fresh, tx]) (by rw [trunk]; rfl),
      trunk]
    simp [State.restarted, Trunk.risen, Trunk.fresh, tx]
  | none =>
    rw [SyncSent, State.close_allow, State.close_syncAck_free u e (by rw [trunk]; rfl) (by rw [trunk]; rfl)
      (by rw [trunk]) (by rw [trunk]; exact tx), trunk]
    simp [State.restarted, Trunk.risen, Trunk.fresh, Trunk.clearReasons]

end

/-- The count of a good frame and the start of the silence timer have no other effect (R140, R157). -/
theorem State.goodFrame_counts (s : State) : Counted [.link .framesReceived] s s.goodFrame ∧ SameLink s s.goodFrame ∧
    SameRest s s.goodFrame ∧ s.goodFrame.lateResults = s.lateResults ∧ s.goodFrame.granted = s.granted := by
  cases up : s.trunk.up with
  | false =>
    rw [State.goodFrame_down up]
    exact ⟨Counted.bump s _, sameLink_bump s _, sameRest_bump s _, by simp, by simp⟩
  | true =>
    rw [State.goodFrame_up s up]
    have results : ((s.bump (.link .framesReceived)).setTrunk
        { s.trunk with silenceTimer := some (s.clock + s.cfg.silenceLimit) }).results = s.results := by
      rw [State.setTrunk_results _ _ (by simp)]
      simp
    exact ⟨Counted.bump s _, by simp [SameLink], by simp [SameRest, SameTables, SamePool, results], by simp, by simp⟩

/-- Settles O13: a SYNC_ACK that is taken enters UP (`State.enters`) with the opening CTRL (`State.close_opening`); any other
is counted. -/
theorem syncAckTaken : Obligations.SyncAckTaken := by
  intro b f s frame between
  have ex : exec (.syncAck b) s = finished (s.goodFrame.takeSyncAck f.epoch) := by
    simp [exec, execSyncAck, frame]
  refine ⟨fun down epoch none => ?_, fun ignored => ?_⟩
  · obtain ⟨⟨r, trunk⟩, _, _, _, _, _, _, _, _⟩ := State.entered_frame down
    have taken : s.goodFrame.takeSyncAck f.epoch = s.entered.setTrunk { s.entered.trunk with opening := true } := by
      rw [State.takeSyncAck, if_pos (by simp [State.goodFrame_down down, down, RxFrame.epoch, epoch])]
      rfl
    rw [taken, trunk] at ex
    have noAck : s.restarted.syncAckPending = Option.none := none
    obtain ⟨t, ht, rfl, fresh, timer, before, _, _, resyncs, received, active, still⟩ :=
      State.enters down between ex ⟨r, _, _, rfl⟩ (.inr ⟨none, by simp [Trunk.ctrlNow]⟩)
    have sent := State.close_opening (u := s.entered.setTrunk _) ⟨r, rfl⟩ none
    refine ⟨_, ht, fresh, sent.1, timer, before, resyncs, received, sent.2, active, fun off => ?_⟩
    · obtain ⟨lines, polls, pool, results, _⟩ := still off
      exact ⟨lines, polls, pool, results⟩
  · have same : s.goodFrame.takeSyncAck f.epoch = s.goodFrame := by
      rw [State.takeSyncAck, if_neg]
      cases up : s.trunk.up
      · simpa [State.goodFrame_down up, up, RxFrame.epoch] using ignored
      · simp [State.goodFrame_up s up, up]
    rw [same] at ex
    obtain ⟨counted, link, rest, late, granted⟩ := s.goodFrame_counts
    exact completes_of _ ex (granted.trans between.2)
      ⟨counted.close, sameLink_close link, sameRest_close rest (late.trans between.late)⟩

/-- A SYNC in DOWN enters UP with the SYNC_ACK pending (R144, R146). -/
theorem State.takeSync_down {s : State} (down : s.trunk.up = false) (e : Byte) : ∃ r, s.goodFrame.takeSync e =
    s.entered.setTrunk { s.restarted with allowRose := r, syncAckPending := some e } := by
  obtain ⟨⟨r, trunk⟩, _⟩ := State.entered_frame down
  refine ⟨r, ?_⟩
  have still : s.goodFrame.trunk.up = false := by simp [State.goodFrame_down down, down]
  rw [State.takeSync, still, if_neg Bool.false_ne_true]
  show s.entered.setTrunk { s.entered.trunk with syncAckPending := some e } = _
  rw [trunk]

/-- The trunk interface when a SYNC in UP has ended the space and begun a fresh one (R118, R144, R145). -/
def State.resynced (s : State) (e : Byte) : Trunk :=
  { s.trunk.clearReasons with
    nextSeq := 0, peerAck := 0, expectSeq := 0, peerAllow := 0, rejectSent := false, anyAccepted := false, expiries := 0
    goBack := false, retransmits := [], cause := .peerSync, lastAccepted := s.trunk.captured
    retransmitTimer := none, ackDelayTimer := none, syncAckPending := some e
    silenceTimer := some (s.clock + s.cfg.silenceLimit), keepaliveTimer := some (s.clock + s.cfg.silenceLimit / 4) }

/-- A SYNC in UP: what it leaves and counts (R118, R144, R145). -/
theorem State.takeSync_up {s : State} (up : s.trunk.up = true) (e : Byte) : let u := s.goodFrame.takeSync e
    u.trunk = s.resynced e ∧ u.clock = s.clock ∧ u.cfg = s.cfg ∧ u.intake = s.intake ∧ u.pollRun = s.pollRun ∧
    u.pending = s.pending ∧ u.granted = s.granted ∧ u.lines = s.lines ∧ u.polls = s.polls ∧ SamePool s u ∧
    u.uplink = requeued s.trunk.retransmits ++ s.uplink ∧
    u.ctrs.read (.link .resyncs) = (s.ctrs.read (.link .resyncs)).inc ∧
    u.ctrs.read (.link .framesReceived) = (s.ctrs.read (.link .framesReceived)).inc := by
  intro u
  have isUp : s.goodFrame.trunk.up = true := by simp [State.goodFrame_up s up, up]
  simp only [u]
  rw [State.takeSync, if_pos isUp]
  simp [State.goodFrame_up s up, State.sequenceReset, State.startUpTimers, State.endSpace, State.resynced, Trunk.clearReasons,
    Trunk.captured, SamePool, State.timer, LinkConfig.keepalive]

/-- Its SYNC_ACK waits for the frame on the line, or starts (R144, R160). -/
theorem State.close_resynced {s u : State} {e : Byte} (up : s.trunk.up = true) (trunk : u.trunk = s.resynced e) :
    u.close.trunk.syncPending = s.trunk.syncPending ∧
      if s.trunk.tx.isSome then u.close.trunk.syncAckPending = some e ∧ u.close.trunk.tx = s.trunk.tx
      else SyncSent .syncAck e 0 u.close := by
  cases tx : s.trunk.tx with
  | some x =>
    rw [State.close_busy_trunk u (by rw [trunk]; simp [State.resynced, Trunk.clearReasons, tx]) (by rw [trunk]; rfl), trunk]
    simp [State.resynced, Trunk.clearReasons, tx]
  | none =>
    rw [SyncSent, State.close_allow, State.close_syncAck_free u e (by rw [trunk]; exact up) (by rw [trunk]; rfl)
      (by rw [trunk]; rfl) (by rw [trunk]; exact tx), trunk]
    simp [State.resynced, Trunk.clearReasons]

/-- Settles O12: in DOWN the link enters UP (`State.enters`), in UP a fresh space begins (`State.takeSync_up`); in both the
SYNC_ACK is the next frame. -/
theorem syncTaken : Obligations.SyncTaken := by
  intro b f s frame between
  have ex : exec (.sync b) s = finished (s.goodFrame.takeSync f.epoch) := by
    simp [exec, execSync, frame]
  cases up : s.trunk.up with
  | false =>
    obtain ⟨r, taken⟩ := State.takeSync_down up f.epoch
    rw [taken] at ex
    obtain ⟨t, ht, rfl, fresh, timer, before, cause, last, resyncs, received, active, still⟩ :=
      State.enters up between ex ⟨r, _, _, rfl⟩ (.inl ⟨_, rfl⟩)
    have sent := State.close_answering (s := s) (e := f.epoch) (u := s.entered.setTrunk _) ⟨r, rfl⟩
    exact ⟨_, ht, fresh, by simpa using sent.1, resyncs, received, sent.2,
      fun _ => ⟨cause, last, timer, before, active, still⟩, nofun⟩
  | true =>
    obtain ⟨trunk, clock, cfg, intake, pollRun, pending, granted, lines, polls, pool, uplink, resyncs, received⟩ :=
      State.takeSync_up up f.epoch
    generalize s.goodFrame.takeSync f.epoch = u at *
    have fresh : FreshSpace s u := by
      simp [FreshSpace, trunk, State.resynced, Trunk.clearReasons, up, clock, cfg, intake, pollRun, pending]
    obtain ⟨p1, p2, p3, p4, p5, p6, p7⟩ := pool
    obtain ⟨pendingSync, sent⟩ := State.close_resynced up trunk
    refine completes_of _ ex (granted.trans between.2) ⟨fresh.close (.inl ⟨f.epoch, by rw [trunk]; rfl⟩), pendingSync,
      by simp [resyncs], by simp [received], sent, nofun, fun _ => ⟨?_, by simp [lines], by simp [polls],
        by simp [SamePool, p1, p2, p3, p4, p5, p6, p7], ?_, ?_⟩⟩
    · simp [trunk, State.resynced]
    · simp [trunk, State.resynced, Trunk.captured]
    · have stream : u.stream = requeued s.trunk.retransmits ++ s.uplink := by
        simp [State.stream, trunk, State.resynced, uplink]
      rw [← requeued, ← stream]
      exact (List.prefix_append _ _).trans u.close_stream

end Sys2Proof.Machine
end

section
/-! The pool's class test and what an allocation takes, and the increase of a counter (R91 to R102, R136, R191 to R201). -/

namespace Sys2Proof.Machine
namespace State

/-- PoolHold turning on raises POOL_LOW where a slot is free, takes Allow to 0 and counts the episode (R100, R136). -/
theorem holdOn_told {s : State} (slot : s.pool.eventsUsed < 16) :
    s.holdOn.uplink = s.uplink ++ [s.stamp (.event .poolLow 0 s.pool.missedEvents
      (BitVec.ofNat 16 s.pool.free ++ BitVec.ofNat 16 s.cfg.lowMark)) true 0] ∧ s.holdOn.allow = 0 ∧
    s.holdOn.ctrs.read (.pool .poolLowEpisodes) = (s.ctrs.read (.pool .poolLowEpisodes)).inc := by
  have free : (s.setPool { s.pool with hold := true }).eventSlotFree = true := by
    exact (eventSlotFree_iff _).mpr slot
  refine ⟨?_, ?_, ?_⟩
  · simp [holdOn, raiseEvent, free, eventBody, takeEventSlot, join, stamp]
  · simp [holdOn, allow]
  · simp [holdOn]

/-- What an allocation takes, before the marks are tested (R91). -/
def taking (s : State) (n : Need) (into : Into) : State :=
  s.setPool { s.pool.taken n.blocks into with slotsUsed := s.pool.slotsUsed + (if n.slot then 1 else 0) }

theorem take_eq (s : State) (n : Need) (into : Into) : s.take n into = (s.taking n into).freeChanged := rfl

theorem taking_pool {s : State} {n : Need} (fits : n.blocks ≤ s.pool.free) (into : Into) :
    (s.taking n into).pool.free = s.pool.free - n.blocks ∧ (s.taking n into).pool.hold = s.pool.hold ∧
    (s.taking n into).pool.eventsUsed = s.pool.eventsUsed ∧ (s.taking n into).pool.missedEvents = s.pool.missedEvents := by
  cases into <;> simp [taking, Pool.taken, fits]

end State

/-- Settles O22: the class test by `State.passes_iff`, what is taken by `State.take_granted`; a fall below LowMark is
`State.holdOn_told`. -/
theorem classTest : Obligations.ClassTest := by
  intro n s ok
  have passes : s.pool.passes n = true ↔ ok := State.passes_iff s.pool n
  refine ⟨passes, by simp [State.grantsNow, passes, List.isEmpty_iff], fun passed into => ?_⟩
  have granted := passes.mpr passed
  obtain ⟨free, _, _, minFree⟩ := s.take_granted n into granted
  have fits : n.blocks ≤ s.pool.free := State.passes_free granted
  obtain ⟨left, holds, events, missed⟩ := State.taking_pool fits into
  refine ⟨free, by simp, by simp, minFree, ?_, fun off low slot => ?_⟩
  · rw [State.take_eq, State.freeChanged_hold, left, holds]
    rfl
  · have turns : s.take n into = ((s.taking n into).setPool { (s.taking n into).pool with
        minFree := min (s.taking n into).pool.minFree (s.taking n into).pool.free }).holdOn := by
      rw [State.take_eq, State.freeChanged, State.testHold]
      simp only [State.pool_setPool, State.cfg_setPool, holds, off, left, Bool.false_eq_true, if_false]
      rw [if_pos (show s.pool.free - n.blocks < (s.taking n into).cfg.lowMark from low)]
    obtain ⟨raised, allow, counted⟩ := State.holdOn_told (s := (s.taking n into).setPool { (s.taking n into).pool with
      minFree := min (s.taking n into).pool.minFree (s.taking n into).pool.free }) (events.trans_lt slot)
    rw [turns]
    refine ⟨raised.trans ?_, allow, counted⟩
    simp only [State.pool_setPool, left, missed]
    rfl


/-- A counter's increase (R191, R193). -/
theorem Counter.inc_values (c : Counter) : c.inc.value.toNat = min 65535 (c.value.toNat + 1) ∧
    c.inc.half = (c.half || decide (c.value.toNat = 32767)) := by
  have value : c.value = 65535 ↔ c.value.toNat = 65535 := BitVec.toNat_inj.symm
  have mark : c.value = 32767 ↔ c.value.toNat = 32767 := BitVec.toNat_inj.symm
  have bound := c.value.isLt
  constructor
  · simp only [Counter.inc, value]
    split
    · omega
    · rw [BitVec.toNat_add]
      simp
      omega
  · have same : decide (c.value.toNat = 32767) = decide (c.value = 32767) := decide_eq_decide.mpr mark.symm
    rw [same]
    cases h : c.half with
    | true => simp [Counter.inc, h]
    | false => simp [Counter.inc, Counter.crosses, h, Bool.beq_eq_decide_eq]

namespace State

/-- The counter CrcErrors about to cross 32768 (R193). -/
theorem crosses_of {s : State} {c : CtrId} (h : s.ctrs.read c = { value := 32767, half := false }) :
    (s.ctrs.read c).crosses = true := by
  rw [h]
  rfl

/-- Crossing 32768 with a slot free, COUNTER_HALF is kept back for the end of the step (R193, R197). -/
theorem bump_raises {s : State} {c : CtrId} (cross : (s.ctrs.read c).crosses = true) (slot : s.pool.eventsUsed < 16) :
    (s.bump c).stream = s.stream ∧
    (s.bump c).late = s.late ++ [s.stamp (.event .counterHalf c.line0 s.pool.missedEvents c.detail) true 0] := by
  have free : (s.setCtrs (s.ctrs.write c (s.ctrs.read c).inc)).eventSlotFree = true := (eventSlotFree_iff _).mpr slot
  simp only [bump, cross, if_true, raiseHalf, free]
  constructor
  · simp [stream, takeEventSlot]
  · simp [eventBody, stamp]

/-- Crossing 32768 with the event store full, COUNTER_HALF is lost and counted (R199). -/
theorem bump_loses {s : State} {c : CtrId} (cross : (s.ctrs.read c).crosses = true) (full : 16 ≤ s.pool.eventsUsed) :
    s.bump c = (s.setCtrs (s.ctrs.write c (s.ctrs.read c).inc)).loseEvent := by
  have none : (s.setCtrs (s.ctrs.write c (s.ctrs.read c).inc)).eventSlotFree = false := eventSlotFree_false full
  simp [bump, cross, raiseHalf, none]

/-- A lost event rises EventsMissed and the pending count by one; by two where EventsMissed crosses 32768 (R199, R201). -/
theorem loseEvent_counts (s : State) :
    ((s.ctrs.read (.pool .eventsMissed)).crosses = false →
      s.loseEvent.pool.missedEvents = min 255 (s.pool.missedEvents + 1) ∧
      s.loseEvent.ctrs.read (.pool .eventsMissed) = (s.ctrs.read (.pool .eventsMissed)).inc) ∧
    ((s.ctrs.read (.pool .eventsMissed)).crosses = true →
      s.loseEvent.pool.missedEvents = min 255 (s.pool.missedEvents + 2) ∧
      s.loseEvent.ctrs.read (.pool .eventsMissed) = (s.ctrs.read (.pool .eventsMissed)).inc.inc) := by
  refine ⟨fun calm => ?_, fun cross => ?_⟩
  · simp [loseEvent, calm, countMissed, Counters.read_write]
  · simp [loseEvent, cross, countMissed, Counters.read_write]
    omega

/-- A lost event leaves the stream, and keeps nothing back. -/
theorem loseEvent_stream (s : State) : s.loseEvent.stream = s.stream ∧ s.loseEvent.late = s.late ∧
    s.loseEvent.trunk = s.trunk := by
  simp [stream]

end State

/-- Settles O24: the increase is `Counter.inc_values`; COUNTER_HALF joins behind what the step had (`State.bump_raises`), or is
lost and counted (`State.bump_loses`, `State.loseEvent_counts`). -/
theorem counterIncrease : Obligations.CounterIncrease := by
  refine ⟨Counter.inc_values, fun b s bad between at32767 => ?_⟩
  have ex := exec_badFrame_crc s bad
  have cross := State.crosses_of at32767
  have half : (s.bump (.link .crcErrors)).close.ctrs.read (.link .crcErrors) = { value := 32768, half := true } := by
    rw [State.close_ctrs _ _ (by simp) (by simp) (by simp), State.bump_ctrs_same _ _ (by simp), at32767]
    rfl
  have rest : SameRest s (s.bump (.link .crcErrors)).close :=
    sameRest_close (sameRest_bump s _) (by simp [between.late])
  have granted : (s.bump (.link .crcErrors)).granted = [] := by simp [between.2]
  refine ⟨fun slot => completes_of _ ex granted ⟨?_, half, rest⟩, fun full busy => ?_⟩
  · obtain ⟨stream, late⟩ := State.bump_raises cross slot
    have kept := (s.bump (.link .crcErrors)).close_stream
    rw [stream, late, between.1] at kept
    exact kept
  · have lost := State.bump_loses cross full
    have closed : (s.bump (.link .crcErrors)).close = (s.bump (.link .crcErrors)).goBackEnds.flushLate.flushLate :=
      State.close_busy _ (by simpa using busy)
    obtain ⟨stream, pool⟩ :=
      State.close_calm (s.bump (.link .crcErrors)) (by simp [lost, between.1]) (.inl (by simpa using busy))
    have ctrs : (s.bump (.link .crcErrors)).close.ctrs = (s.bump (.link .crcErrors)).ctrs := by simp [closed]
    obtain ⟨once, twice⟩ :=
      State.loseEvent_counts (s.setCtrs (s.ctrs.write (.link .crcErrors) (s.ctrs.read (.link .crcErrors)).inc))
    refine completes_of _ ex granted ⟨?_, half, fun quiet => ?_, fun again => ?_, rest⟩
    · rw [stream, lost]
      simp [State.stream]
    · rw [pool, ctrs, lost]
      simpa [Counters.read_write] using once (by simpa [Counters.read_write] using quiet)
    · rw [pool, ctrs, lost]
      simpa [Counters.read_write] using twice (by simpa [Counters.read_write] using again)

end Sys2Proof.Machine
end

section
/-! Configuration bytes read back (R204), selection (R58), and a warm restart (R185). -/

namespace Sys2Proof.Machine

/-! Numbers read back from a field of a byte or of two (R204). -/

theorem numAt_eq {b : List Byte} {i n : Nat} (field : byteAt b i = natByte n) (fits : n ≤ 255) : numAt b i = n := by
  rw [numAt, field, byte_num fits]

theorem num16At_eq {b : List Byte} {i n : Nat} (high : byteAt b i = (BitVec.ofNat 16 n).extractLsb' 8 8)
    (low : byteAt b (i + 1) = (BitVec.ofNat 16 n).extractLsb' 0 8) (fits : n ≤ 65535) : num16At b i = n := by
  rw [num16At, halfAt, high, low]
  exact half_num fits

theorem LinkConfig.ofBytes_bytes {c : LinkConfig} (h : c.inRange = true) : LinkConfig.ofBytes c.bytes = c := by
  obtain ⟨ackDelay, _, retransmit, _, maxRetransmits, _, silence, _, sync, _, count, delay, hold, _, low, mark, high⟩ :=
    link_range h
  have f0 : numAt c.bytes 0 = c.ackDelay := numAt_eq rfl (by omega)
  have f1 : num16At c.bytes 1 = c.retransmitTimeout := num16At_eq rfl rfl (by omega)
  have f3 : numAt c.bytes 3 = c.maxRetransmits := numAt_eq rfl (by omega)
  have f4 : num16At c.bytes 4 = c.silenceLimit := num16At_eq rfl rfl (by omega)
  have f6 : num16At c.bytes 6 = c.syncInterval := num16At_eq rfl rfl (by omega)
  have f8 : numAt c.bytes 8 = c.batchCount := numAt_eq rfl (by omega)
  have f9 : numAt c.bytes 9 = c.batchDelay := numAt_eq rfl (by omega)
  have f10 : num16At c.bytes 10 = c.holdLimit := num16At_eq rfl rfl (by omega)
  have f12 : num16At c.bytes 12 = c.lowMark := num16At_eq rfl rfl (by omega)
  have f14 : num16At c.bytes 14 = c.highMark := num16At_eq rfl rfl (by omega)
  rw [LinkConfig.ofBytes, f0, f1, f3, f4, f6, f8, f9, f10, f12, f14]

/-- The fields a profile's range check bounds (R174). -/
theorem Profile.range {p : Profile} (h : p.inRange = true) : p.rateCode ≤ 8 ∧ p.divisor ≤ 4095 ∧ p.dataBits ≤ 8 ∧
    p.stopBits ≤ 2 ∧ p.deLead ≤ 15 ∧ p.deHold ≤ 15 ∧ p.retries ≤ 7 ∧ p.queueDepth ≤ 8 := by
  simp only [Profile.inRange, Bool.and_eq_true, Bool.or_eq_true, decide_eq_true_eq, beq_iff_eq] at h
  omega

theorem Profile.ofBytes_bytes {p : Profile} (h : p.inRange = true) (fits : p.fits) : Profile.ofBytes p.bytes = some p := by
  obtain ⟨rate, divisor, dataBits, stopBits, lead, hold, retries, depth⟩ := Profile.range h
  obtain ⟨gap, reply, timeout, guard, age⟩ := fits
  have f1 : numAt p.bytes 1 = p.rateCode := numAt_eq rfl (by omega)
  have f2 : num16At p.bytes 2 = p.divisor := num16At_eq rfl rfl (by omega)
  have f4 : numAt p.bytes 4 = p.dataBits := numAt_eq rfl (by omega)
  have f6 : numAt p.bytes 6 = p.stopBits := numAt_eq rfl (by omega)
  have f7 : numAt p.bytes 7 = p.deLead := numAt_eq rfl (by omega)
  have f8 : numAt p.bytes 8 = p.deHold := numAt_eq rfl (by omega)
  have f10 : numAt p.bytes 10 = p.gapTime := numAt_eq rfl gap
  have f13 : numAt p.bytes 13 = p.maxReply := numAt_eq rfl reply
  have f14 : num16At p.bytes 14 = p.replyTimeout := num16At_eq rfl rfl timeout
  have f16 : numAt p.bytes 16 = p.guardTime := numAt_eq rfl guard
  have f17 : numAt p.bytes 17 = p.retries := numAt_eq rfl (by omega)
  have f21 : numAt p.bytes 21 = p.queueDepth := numAt_eq rfl (by omega)
  have f22 : num16At p.bytes 22 = p.ageLimit := num16At_eq rfl rfl age
  have c0 : boolOf (byteAt p.bytes 0) = some p.enabled := boolOf_byte _
  have c5 : parityOf (byteAt p.bytes 5) = some p.parity := parityOf_code _
  have c9 : boolOf (byteAt p.bytes 9) = some p.echoCheck := boolOf_byte _
  have c11 : boolOf (byteAt p.bytes 11) = some p.termChar := boolOf_byte _
  have c18 : retryOnOf (byteAt p.bytes 18) = some p.retryOn := retryOnOf_code _
  have c19 : boolOf (byteAt p.bytes 19) = some p.matchFirst := boolOf_byte _
  have c20 : policyOf (byteAt p.bytes 20) = some p.policy := policyOf_code _
  rw [Profile.ofBytes, c0, c5, c9, c11, c18, c19, c20, f1, f2, f4, f6, f7, f8, f10, f13, f14, f16, f17, f21, f22]
  rfl

theorem checkedProfile_bytes {p : Profile} (h : p.inRange = true) (fits : p.fits) : checkedProfile p.bytes = some p := by
  rw [checkedProfile, Profile.ofBytes_bytes h fits]
  simp [h]

theorem pollSetParams_length (id : Fin 128) (d : PollDef) :
    (pollSetParams id d).length = 10 + d.request.length := by
  simp [pollSetParams]
  omega

/-- The expected length travels as a presence byte and a value byte (R84). -/
theorem pollExpectLen_params (id : Fin 128) {d : PollDef} (h : ∀ n, d.expectLen = some n → n ≤ 255) :
    pollExpectLen (pollSetParams id d) = d.expectLen := by
  have present : byteAt (pollSetParams id d) 8 = boolByte d.expectLen.isSome := rfl
  have value : byteAt (pollSetParams id d) 9 = natByte (d.expectLen.getD 0) := rfl
  rw [pollExpectLen, present]
  match e : d.expectLen with
  | none => rfl
  | some n =>
    rw [numAt_eq (value.trans (by rw [e]; rfl)) (h n e)]
    simp [boolByte]

theorem PollDef.ofBytes_params (id : Fin 128) {d : PollDef} {limit : Nat} (h : d.ok limit) :
    PollDef.ofBytes (pollSetParams id d) = some d := by
  obtain ⟨period, period', phase, force, expect, request, request'⟩ := h
  have f2 : num16At (pollSetParams id d) 2 = d.period := num16At_eq rfl rfl period'
  have f4 : num16At (pollSetParams id d) 4 = d.phase := num16At_eq rfl rfl (by omega)
  have f7 : numAt (pollSetParams id d) 7 = d.forceEvery := numAt_eq rfl force
  have c1 : lineOf (byteAt (pollSetParams id d) 1) = some d.line := lineOf_lineByte _
  have c6 : modeOf (byteAt (pollSetParams id d) 6) = some d.mode := modeOf_code _
  have e8 : pollExpectLen (pollSetParams id d) = d.expectLen := pollExpectLen_params id fun n hn => (expect n hn).2.2
  have rest : (pollSetParams id d).drop 10 = d.request := rfl
  rw [PollDef.ofBytes, c1, c6, f2, f4, f7, e8, rest, pollSetParams_length]
  simp
  omega

/-- Settles O43: every field of the bytes reads back the value it was written from. -/
theorem configurationBytesRoundTrip : Obligations.ConfigurationBytesRoundTrip :=
  ⟨fun _ h => ⟨rfl, LinkConfig.ofBytes_bytes h⟩, fun _ h fits => ⟨rfl, checkedProfile_bytes h fits⟩,
    fun id d _ h => ⟨pollSetParams_length id d, PollDef.ofBytes_params id h⟩⟩


/-! Selection, step by step (R58, R59). -/

theorem choose_urgent {l : Line} (now : Nat) {a b : List Request} {r : Request} (queue : l.queue = a ++ r :: b)
    (before : ∀ x, x ∈ a → x.urgent = false) (urgent : r.urgent = true) : choose l now = .request r (a ++ b) := by
  rw [choose, queue, takeFirst_some _ a r b before urgent]

theorem choose_calm {l : Line} (now : Nat) (calm : ∀ x, x ∈ l.queue → x.urgent = false) :
    choose l now = chooseAged l now := by
  rw [choose, takeFirst_none _ _ calm]

theorem aged_iff {r : Request} {now limit : Nat} :
    r.aged now limit = true ↔ limit ≤ min (now - r.arrival) (2 ^ 31) :=
  decide_eq_true_iff

/-- The first request of a queue without URGENT ones is its oldest NORMAL one. -/
theorem takeFirst_normal {r : Request} {q : List Request} (normal : r.urgent = false) :
    takeFirst (fun r : Request => !r.urgent) (r :: q) = some (r, q) :=
  takeFirst_some _ [] r q (by simp) (by simp [normal])

theorem chooseAged_cons {l : Line} (now : Nat) {r : Request} {q : List Request} (queue : l.queue = r :: q)
    (normal : r.urgent = false) :
    chooseAged l now = if r.aged now l.applied.ageLimit then .request r q else chooseDue l := by
  rw [chooseAged, queue, takeFirst_normal normal]

theorem chooseAged_nil {l : Line} (now : Nat) (queue : l.queue = []) : chooseAged l now = chooseDue l := by
  rw [chooseAged, queue]; rfl

theorem chooseDue_cons {l : Line} {d : DueItem} {ds : List DueItem} (due : l.due = d :: ds) :
    chooseDue l = .poll d ds := by
  rw [chooseDue, due]

theorem chooseDue_nil {l : Line} (due : l.due = []) : chooseDue l = chooseNormal l := by
  rw [chooseDue, due]

theorem chooseNormal_cons {l : Line} {r : Request} {q : List Request} (queue : l.queue = r :: q)
    (normal : r.urgent = false) : chooseNormal l = .request r q := by
  rw [chooseNormal, queue, takeFirst_normal normal]

theorem chooseNormal_nil {l : Line} (queue : l.queue = []) : chooseNormal l = .nothing := by
  rw [chooseNormal, queue]; rfl

/-- Settles O59, by the steps of R58 in their order. -/
theorem selectionOrder : Obligations.SelectionOrder := by
  intro l now
  refine ⟨fun a r b queue before urgent => choose_urgent now queue before urgent, fun calm => ?_⟩
  have normal : ∀ r q, l.queue = r :: q → r.urgent = false := fun r q e => calm r (by rw [e]; exact List.mem_cons_self)
  rw [choose_calm now calm]
  refine ⟨fun r q queue old => ?_, fun r q d ds queue young due => ?_, fun d ds queue due => ?_, fun r q queue due => ?_,
    fun queue due => ?_⟩
  · rw [chooseAged_cons now queue (normal r q queue), if_pos (aged_iff.mpr old)]
  · rw [chooseAged_cons now queue (normal r q queue), if_neg, chooseDue_cons due]
    exact aged_iff.not.mpr (by omega)
  · rw [chooseAged_nil now queue, chooseDue_cons due]
  · rw [chooseAged_cons now queue (normal r q queue), chooseDue_nil due, chooseNormal_cons queue (normal r q queue),
      ite_self]
  · rw [chooseAged_nil now queue, chooseDue_nil due, chooseNormal_nil queue]


/-! A warm restart to the end of its step (R185, R186). -/
namespace State
variable (s : State) (keep : Bool)

/-- With a frame on the line the end of the step adds nothing. -/
theorem warmRestart_close_busy (busy : s.trunk.tx.isSome = true) :
    (s.warmRestart keep).close = s.warmRestart keep := by
  rw [close_busy (s.warmRestart keep) busy, (goBackEnds_send (s.warmRestart keep)).2.2.2 rfl]
  rfl

/-- With the transmitter free the SYNC of the restart starts. -/
theorem warmRestart_close_free (free : s.trunk.tx = none) :
    (s.warmRestart keep).close = (s.warmRestart keep).sendSync.flushLate := by
  rw [close_free (s.warmRestart keep) free rfl]
  rfl

/-- The count of an event that crosses no mark loses no event, and changes its own counter alone (R181). -/
theorem bump_calm_frame {v : State} {c : CtrId} (h : (v.ctrs.read c).crosses = false) :
    (v.bump c).late = v.late ∧ (v.bump c).pool = v.pool ∧ (v.bump c).uplink = v.uplink ∧
      ∀ d, d ≠ c → (v.bump c).ctrs.read d = v.ctrs.read d := by
  rw [bump_calm _ _ h]
  exact ⟨rfl, rfl, rfl, fun d other => (Counters.read_write _ _ _ _).trans (if_neg other)⟩

/-- A SYNC whose count crosses no mark loses no event and keeps the pool (R142). -/
theorem sendSync_calm (v : State) (h : (v.ctrs.read (.link .framesSent)).crosses = false) :
    v.sendSync.late = v.late ∧ v.sendSync.pool = v.pool ∧ v.sendSync.uplink = v.uplink ∧
      ∀ c, c ≠ .link .framesSent → v.sendSync.ctrs.read c = v.ctrs.read c := by
  unfold sendSync startFrame
  exact bump_calm_frame h

/-- The end of the step of a warm restart: beside the trunk and the count of frames sent nothing moves. -/
theorem warmRestart_closed : let w := s.warmRestart keep
    w.close.pool = w.pool ∧ w.close.uplink = w.uplink ∧
      ∀ c, c ≠ .link .framesSent → w.close.ctrs.read c = Counter.zero := by
  intro w
  subst w
  cases tx : s.trunk.tx with
  | some f =>
    rw [warmRestart_close_busy s keep (by rw [tx]; rfl)]
    exact ⟨rfl, rfl, fun c _ => Counters.read_reset c⟩
  | none =>
    have zero : ∀ c, (s.warmRestart keep).ctrs.read c = Counter.zero := Counters.read_reset
    obtain ⟨late, pool, uplink, ctrs⟩ := sendSync_calm (s.warmRestart keep) (by rw [zero]; rfl)
    rw [warmRestart_close_free s keep tx]
    refine ⟨by simp [pool], ?_, fun c other => by simp [ctrs c other, zero]⟩
    rw [flushLate, late, uplink]
    exact List.append_nil _

/-- The SYNC of a restart waits for the frame on the line, which finishes its transmission, or starts (R142, R164). -/
theorem warmRestart_trunk : ∃ pending tx,
    (s.warmRestart keep).close.trunk = { s.warmTrunk with syncPending := pending, tx := tx } ∧
      if s.trunk.tx.isSome then pending = true ∧ tx = s.trunk.tx
      else tx = some { kind := .sync, reject := false, seq := 0, ackSeq := 0, allow := (s.warmRestart keep).close.allow
                       payload := syncPayload s.warmTrunk.epoch .warmRestart none, goBack := false } := by
  split
  case isTrue busy => exact ⟨true, s.trunk.tx, close_busy_trunk (s.warmRestart keep) busy rfl, rfl, rfl⟩
  case isFalse free =>
    rw [close_allow]
    exact ⟨false, _, close_sync_free (s.warmRestart keep) rfl rfl rfl (Option.not_isSome_iff_eq_none.mp free), rfl⟩

/-- The lines after a warm restart (R185). -/
theorem warmRestart_line (i : Fin 12) :
    (s.warmRestart keep).line i = if keep then (s.line i).kept else Line.reset := by
  cases keep <;> simp [line, warmRestart, reset]

/-- The poll table after a warm restart (R89, R185). -/
theorem warmRestart_poll (id : Fin 128) :
    (s.warmRestart keep).poll id = if keep then (s.poll id).bind Poll.kept else none := by
  cases keep <;> simp [poll, warmRestart, reset]

end State

/-- A one-byte flag of RESTART reads back (R185). -/
theorem restartFlag_byte (keep : Bool) : restartFlag [boolByte keep] = some keep := by cases keep <;> rfl

/-- RESTART with its flag is executed at once (R130). -/
theorem exec_restart {m : MgmtRequest} {keep : Bool} {s : State} (head : s.headRecord = some (.command m))
    (code : m.code = 0x40) (flag : m.params = [boolByte keep]) :
    exec .restart s = finished (s.warmRestart keep) := by
  have command : s.headCommand (some .restart) = some m := by simp [State.headCommand, head, code, commandOf]
  show execRestart s = _
  rw [execRestart, command]
  simp only [flag, restartFlag_byte]

/-- Settles O42: what stands after `State.warmRestart`, the frame that its SYNC is or waits for (`State.warmRestart_trunk`),
and that the end of the step moves nothing else (`State.warmRestart_closed`). -/
theorem warmRestart : Obligations.WarmRestart := by
  intro m keep s head code flag
  obtain ⟨pool, uplink, counters⟩ := s.warmRestart_closed keep
  refine completes_of _ (exec_restart head code flag) rfl ?_
  have lines : ∀ i, (s.warmRestart keep).close.line i = if keep then (s.line i).kept else Line.reset := fun i => by
    simp [s.warmRestart_line keep]
  have polls : ∀ id, (s.warmRestart keep).close.poll id = if keep then (s.poll id).bind Poll.kept else none :=
    fun id => by simp [s.warmRestart_poll keep]
  have record : (s.warmRestart keep).close.uplink =
      [(s.warmRestart keep).close.stamp (.event .warmRestart 0 0 (boolByte keep ++ 0#24)) true 0] := by
    rw [uplink]; simp [State.stamp]; rfl
  have kept : keep = true → (∀ i, (s.warmRestart keep).close.line i = (s.line i).kept) ∧
      (∀ id p, s.poll id = some p → (s.warmRestart keep).close.poll id = p.kept) ∧
      ∀ id, s.poll id = none → (s.warmRestart keep).close.poll id = none := by
    rintro rfl
    exact ⟨lines, fun id p e => by simp [polls, e], fun id e => by simp [polls, e]⟩
  have cleared : keep = false → (∀ i, (s.warmRestart keep).close.line i = Line.reset) ∧
      ∀ id, (s.warmRestart keep).close.poll id = none := by
    rintro rfl
    exact ⟨lines, polls⟩
  obtain ⟨pending, tx, trunk, sent⟩ := s.warmRestart_trunk keep
  have sync : if s.trunk.tx.isSome then
        (s.warmRestart keep).close.trunk.syncPending = true ∧ (s.warmRestart keep).close.trunk.tx = s.trunk.tx
      else SyncSent .sync (s.warmRestart keep).close.trunk.epoch 0 (s.warmRestart keep).close := by
    simp only [SyncSent, trunk]
    exact sent
  simp only [trunk, pool] at sync ⊢
  exact ⟨by simp; rfl, rfl, rfl, rfl, rfl, rfl, rfl, rfl, rfl, rfl, rfl, rfl, rfl, rfl, rfl, rfl, rfl, rfl, rfl, rfl,
    rfl, sync, by simp; rfl, rfl, rfl, rfl, rfl, rfl, rfl, rfl, rfl, rfl, record, by simp; rfl, by simp; rfl,
    by simp; rfl, by simp; rfl, counters, cleared, kept, by simp; rfl⟩

end Sys2Proof.Machine
end

section
/-! Management requests that are refused (R167, R168). -/

namespace Sys2Proof.Machine
namespace State

/-! Parameters that a command does not take (R167, R168). -/

/-- A request that is refused: one response without data, and everything else stands (R167). -/
theorem answers_refused {m : MgmtRequest} {s : State} {c : Option Command} {st : Status} (h : RequestReady m s)
    (code : commandOf m.code = c) (flag : c = some .restart → restartFlag m.params = none)
    (run : ∀ v : State, v.runCommand m = v.refuse st) :
    Completes (instrOf c) s (fun t => Answered m st [] s t ∧ Counted [] s t ∧ SameTables s t ∧ SameLink s t) := by
  obtain ⟨t, ht, answered, counted, tables, link, _⟩ := answers_quiet s m c st [] h code flag (run _) m.blocks_pos
  exact ⟨t, ht, answered, counted, tables, link⟩

/-- A length that a command does not take is refused (R168). -/
theorem runCommand_wrongLength (v : State) {m : MgmtRequest} {c : Command} (code : m.code = c.code)
    (wrong : lengthWrong c m.params) : v.runCommand m = v.refuse .badFormat := by
  rw [runCommand, commandOf_of_code c code]
  cases c <;> simp only [lengthWrong] at wrong
  case identify => rw [identify, if_neg wrong]
  case linkConfig => rw [linkConfig, if_neg wrong]
  case linkRead => rw [linkRead, if_neg wrong]
  case lineConfig => rw [lineConfig, if_neg wrong]
  case lineRead => rw [lineRead, if_neg wrong]
  case lineAbort => rw [lineAbort, if_neg wrong]
  case knownSet => exact knownSet_wrongLength v wrong
  case pollSet => rw [pollSet, if_neg (by omega)]
  case pollClear => rw [pollClear, if_neg wrong]
  case pollRead => rw [pollRead, if_neg wrong]
  case pollRun => rw [pollRunCmd, if_neg wrong]
  case counterRead => rw [counterRead, if_neg wrong]
  case restart => rw [badRestart, if_neg wrong]
  case echo => rw [echoCmd, if_neg (by omega)]

/-- A flag of another length than one is none (R185). -/
theorem restartFlag_wrongLength {p : List Byte} (wrong : p.length ≠ 1) : restartFlag p = none := if_neg wrong

/-- A byte that is neither 0 nor 1 is no setting. -/
theorem boolOf_none {x : Byte} (zero : x ≠ 0) (one : x ≠ 1) : boolOf x = none := by
  rw [boolOf, if_neg zero, if_neg one]

/-- A set id that is neither LINK, POOL nor a line's names no set (R183). -/
theorem counterSetOf_none {x : Byte} (link : x ≠ 0) (pool : x ≠ 1) (line : ∀ i, x ≠ 0x10 + lineByte i) :
    counterSetOf x = none := by
  have other : lineOf (x - 0x10) = none := lineOf_none fun i e => line i (by rw [← e]; bv_omega)
  rw [counterSetOf, if_neg link, if_neg pool, other]
  exact ite_self _

section
variable (v : State) {x : Byte}

theorem lineRead_noLine (line : ∀ i, x ≠ lineByte i) : v.lineRead [x] = v.refuse .badParam := by
  simp [lineRead, byteAt, lineOf_none line]

theorem lineAbort_noLine (y : Byte) (line : ∀ i, x ≠ lineByte i) : v.lineAbort [x, y] = v.refuse .badParam := by
  simp [lineAbort, byteAt, lineOf_none line]

theorem pollRead_noEntry (range : 128 ≤ x.toNat) : v.pollRead [x] = v.refuse .badParam := by
  simp [pollRead, byteAt, pollOf_none range]

theorem pollRun_noSetting (zero : x ≠ 0) (one : x ≠ 1) : v.pollRunCmd [x] = v.refuse .badParam := by
  simp [pollRunCmd, byteAt, boolOf_none zero one]

theorem counterRead_noSet (y : Byte) (link : x ≠ 0) (pool : x ≠ 1) (line : ∀ i, x ≠ 0x10 + lineByte i) :
    v.counterRead [x, y] = v.refuse .badParam := by
  simp [counterRead, byteAt, counterSetOf_none link pool line]

end

/-- A link configuration out of its ranges is refused (R171). -/
theorem linkConfig_badParam (v : State) {p : List Byte} (long : p.length = 16) (out : (LinkConfig.ofBytes p).inRange = false) :
    v.linkConfig p = v.refuse .badParam := by
  rw [linkConfig, if_pos long, out]
  rfl

/-- A profile that names no line or fails its checks is refused (R174). -/
theorem lineConfig_badParam (v : State) {p : List Byte} (long : p.length = 25)
    (out : lineOf (byteAt p 0) = none ∨ checkedProfile (p.drop 1) = none) : v.lineConfig p = v.refuse .badParam := by
  rw [lineConfig, if_pos long]
  cases line : lineOf (byteAt p 0) with
  | none => rfl
  | some i => rw [out.resolve_left (by simp [line])]

/-- A POLL_SET is refused unless it names an entry and its definition passes every check (R84). -/
theorem pollSet_badParam (v : State) {p : List Byte} (long : 10 ≤ p.length)
    (out : ∀ id d, pollOf (byteAt p 0) = some id → PollDef.ofBytes p = some d →
      expectLenOk d.expectLen (v.line d.line).applied.maxReply = false) : v.pollSet p = v.refuse .badParam := by
  rw [pollSet, if_pos long]
  cases entry : pollOf (byteAt p 0) with
  | none => rfl
  | some id =>
    cases defn : PollDef.ofBytes p with
    | none => rfl
    | some d => simp [out id d entry defn]

end State

theorem lineByte_inj {i j : Fin 12} (h : lineByte i = lineByte j) : i = j := by
  have read := lineOf_lineByte i
  rw [h, lineOf_lineByte] at read
  exact (Option.some.inj read).symm

/-- A PollId byte that names an entry is below 128. -/
theorem pollOf_some {x : Byte} {id : Fin 128} (h : pollOf x = some id) : x.toNat < 128 := by
  by_contra high
  rw [pollOf_none (by omega)] at h
  cases h

theorem modeOf_some {x : Byte} {mode : ReportMode} (h : modeOf x = some mode) : x.toNat ≤ 2 := by
  unfold modeOf at h
  split_ifs at h with e e e <;> simp [e]

/-- What the bytes of a definition that reads back satisfy (R84). -/
theorem PollDef.ofBytes_some {b : List Byte} {d : PollDef} (h : PollDef.ofBytes b = some d) :
    byteAt b 1 = lineByte d.line ∧ (byteAt b 6).toNat ≤ 2 ∧ 1 ≤ num16At b 2 ∧ num16At b 4 ≤ num16At b 2 ∧
      11 ≤ b.length ∧ b.length ≤ 74 ∧ d.expectLen = pollExpectLen b := by
  obtain ⟨line, hline, mode, hmode, h⟩ : ∃ line, lineOf (byteAt b 1) = some line ∧ ∃ mode, modeOf (byteAt b 6) = some mode ∧
      (if 1 ≤ num16At b 2 ∧ num16At b 4 ≤ num16At b 2 ∧ 11 ≤ b.length ∧ b.length ≤ 74 then
        some ({ line := line, period := num16At b 2, phase := num16At b 4, mode := mode, forceEvery := numAt b 7,
                expectLen := pollExpectLen b, request := b.drop 10 } : PollDef) else none) = some d := by
    simpa only [PollDef.ofBytes, bind, Option.bind_eq_some_iff] using h
  split_ifs at h with checks
  obtain ⟨period, phase, short, long⟩ := checks
  cases h
  exact ⟨lineOf_some hline, modeOf_some hmode, period, phase, short, long, rfl⟩

/-- Two bytes behind the first. -/
theorem halfAt_drop (b : List Byte) (k : Nat) : halfAt (b.drop 1) k = halfAt b (k + 1) := by
  rw [halfAt, byteAt_drop, byteAt_drop, halfAt]

/-- A profile behind its Line byte that passes the checks lies in its ranges (R174). -/
theorem checked_range_drop {b : List Byte} {p : Profile} (h : checkedProfile (b.drop 1) = some p) :
    let n := fun k => (byteAt b k).toNat
    let h := fun k => (halfAt b k).toNat
    n 1 ≤ 1 ∧ n 2 ≤ 8 ∧ 1 ≤ h 3 ∧ h 3 ≤ 4095 ∧ (n 5 = 7 ∨ n 5 = 8) ∧ n 6 ≤ 2 ∧ (n 7 = 1 ∨ n 7 = 2) ∧ n 8 ≤ 15 ∧ n 9 ≤ 15 ∧
      n 10 ≤ 1 ∧ 8 ≤ n 11 ∧ n 12 ≤ 1 ∧ 1 ≤ n 14 ∧ 1 ≤ h 15 ∧ n 18 ≤ 7 ∧ n 19 ≤ 1 ∧ n 20 ≤ 1 ∧ n 21 ≤ 2 ∧ 1 ≤ n 22 ∧
      n 22 ≤ 8 := by
  have range := checked_range h
  simp only [byteAt_drop, halfAt_drop, Nat.reduceAdd] at range
  exact range

/-- A definition whose ExpectLen fails its check is refused (R84). -/
theorem expectLenOk_out {d : PollDef} {b : List Byte} {limit : Nat} (len : d.expectLen = pollExpectLen b)
    (present : (byteAt b 8).getLsbD 0 = true) (out : numAt b 9 = 0 ∨ limit < numAt b 9) :
    expectLenOk d.expectLen limit = false := by
  rw [len, pollExpectLen, if_pos present]
  simp only [expectLenOk, Bool.and_eq_false_iff, decide_eq_false_iff_not]
  omega

/-- Settles O33: each refusal is one response (`State.answers_refused`); the lengths by the command
(`State.runCommand_wrongLength`), the parameters by what a passing one would satisfy (`link_range`, `checked_range_drop`,
`PollDef.ofBytes_some`). -/
theorem commandRefused : Obligations.CommandRefused := by
  intro m s h refused
  have plain : ∀ (c : Command) {st : Status}, m.code = c.code → c ≠ .restart → (∀ v : State, v.runCommand m = v.refuse st) →
      Completes (instrOf (some c)) s (refused st) := fun c st code other run =>
    State.answers_refused h (commandOf_of_code c code) (fun e => absurd (Option.some.inj e) other) run
  refine ⟨fun unknown => ?unknown, fun c code wrong => ?length, fun x y => ⟨fun code p line => ?lineRead,
    fun code p line => ?lineAbort, fun code p range => ?pollClear, fun code p range => ?pollRead,
    fun code p zero one => ?pollRun, fun code p link pool line => ?counterRead, fun code p zero one => ?restart,
    fun as code p count bad => ?knownSet⟩, ?_⟩
  case unknown =>
    have foreign := State.commandOf_none unknown
    exact State.answers_refused h foreign (by simp) fun v => by rw [State.runCommand, foreign]
  case length =>
    refine State.answers_refused h (commandOf_of_code c code) (fun e => ?_) fun v => v.runCommand_wrongLength code wrong
    cases Option.some.inj e
    exact State.restartFlag_wrongLength wrong
  case lineRead =>
    exact plain .lineRead code (by decide) fun v => by
      rw [State.runCommand, commandOf_of_code .lineRead code, p]; exact v.lineRead_noLine line
  case lineAbort =>
    exact plain .lineAbort code (by decide) fun v => by
      rw [State.runCommand, commandOf_of_code .lineAbort code, p]; exact v.lineAbort_noLine y line
  case pollClear =>
    exact plain .pollClear code (by decide) fun v => by
      rw [State.runCommand, commandOf_of_code .pollClear code, p]; exact v.pollClear_refused range
  case pollRead =>
    exact plain .pollRead code (by decide) fun v => by
      rw [State.runCommand, commandOf_of_code .pollRead code, p]; exact v.pollRead_noEntry range
  case pollRun =>
    exact plain .pollRun code (by decide) fun v => by
      rw [State.runCommand, commandOf_of_code .pollRun code, p]; exact v.pollRun_noSetting zero one
  case counterRead =>
    exact plain .counterRead code (by decide) fun v => by
      rw [State.runCommand, commandOf_of_code .counterRead code, p]; exact v.counterRead_noSet y link pool line
  case restart =>
    refine State.answers_refused h (commandOf_of_code .restart code)
      (fun _ => by rw [p]; exact State.boolOf_none zero one) fun v => ?_
    rw [State.runCommand, commandOf_of_code .restart code, p]
    rfl
  case knownSet =>
    exact plain .knownSet code (by decide) fun v => by
      rw [State.runCommand, commandOf_of_code .knownSet code, p]; exact v.knownSet_badParam count bad
  intro n h'
  refine ⟨fun code long out => ?linkConfig, fun code long out => ?lineConfig, fun code long out => ?pollSet⟩
  case linkConfig =>
    refine plain .linkConfig code (by decide) fun v => ?_
    rw [State.runCommand, commandOf_of_code .linkConfig code]
    refine v.linkConfig_badParam long ?_
    by_contra passes
    have range := link_range (Bool.eq_true_of_not_eq_false passes)
    simp only [LinkConfig.ofBytes, numAt, num16At] at range
    simp only [n, h'] at out
    omega
  case lineConfig =>
    refine plain .lineConfig code (by decide) fun v => ?_
    rw [State.runCommand, commandOf_of_code .lineConfig code]
    refine v.lineConfig_badParam long (out.imp lineOf_none fun out => ?_)
    by_contra passes
    obtain ⟨p, passes⟩ := Option.ne_none_iff_exists'.mp passes
    have range := checked_range_drop passes
    simp only [n, h'] at out range
    omega
  case pollSet =>
    refine State.answers_still .pollSet h code (by decide) ?_ m.blocks_pos
    rw [State.runCommand, commandOf_of_code .pollSet code]
    refine State.pollSet_badParam _ long fun poll d entry defn => ?_
    obtain ⟨line, mode, period, phase, short, fits, len⟩ := PollDef.ofBytes_some defn
    have named := pollOf_some entry
    have reply : ((s.take m.need .held).line d.line).applied.maxReply = (s.line d.line).applied.maxReply := by simp
    simp only [num16At] at period phase
    simp only [n, h'] at out
    rcases out with out | out | out | out | out | out | out | ⟨present, out⟩
    · omega
    · exact absurd line (out d.line)
    · omega
    · omega
    · omega
    · omega
    · omega
    · rw [reply]
      refine expectLenOk_out len present (out.imp id fun ⟨i, lineI, above⟩ => ?_)
      have same : i = d.line := lineByte_inj (lineI.symm.trans line)
      exact same ▸ above

end Sys2Proof.Machine
end

section
/-! LINK_CONFIG and COUNTER_READ (R171, R172, R183). -/

namespace Sys2Proof.Machine
namespace State

/-- A command that answers in its one block: the response joins, the request is dispatched (R129, R166). -/
theorem performCommand_one {w v : State} {m : MgmtRequest} {st : Status} (run : w.runCommand m = ⟨v, st, []⟩)
    (one : m.blocks = 1) (nobody : v.pool.waitList = []) :
    w.performCommand m = (v.join (.response m.tag m.code st []) true 1).dispatched m.size := by
  have used : Config.blocksFor (8 + ([] : List Byte).length) = 1 := by decide
  have still : (v.release 0 0).grantAll = v := grantAll_nobody nobody
  simp only [performCommand, run, CmdResult.respond, one, used, Nat.sub_self, still]

/-- PoolHold as an allocation leaves it (R91, R100). -/
theorem take_hold {s : State} {n : Need} (fits : n.blocks ≤ s.pool.free) (into : Into) :
    (s.take n into).pool.hold = holdAfter s.pool.hold (s.pool.free - n.blocks) s.cfg.lowMark s.cfg.highMark := by
  obtain ⟨left, holds, _⟩ := taking_pool fits into
  rw [take_eq, freeChanged_hold, left, holds]
  rfl

/-- An allocation that leaves FreeCount at LowMark or above, PoolHold off, raises nothing. -/
theorem take_calm {s : State} {n : Need} (fits : n.blocks ≤ s.pool.free) (into : Into) (off : s.pool.hold = false)
    (above : s.cfg.lowMark ≤ s.pool.free - n.blocks) :
    (s.take n into).stream = s.stream ∧ (s.take n into).ctrs = s.ctrs ∧
      (s.take n into).pool.missedEvents = s.pool.missedEvents ∧ (s.take n into).pool.eventsUsed = s.pool.eventsUsed := by
  obtain ⟨left, holds, events, missed⟩ := taking_pool fits into
  have calm : s.take n into = (s.taking n into).setPool { (s.taking n into).pool with
      minFree := min (s.taking n into).pool.minFree (s.taking n into).pool.free } := by
    rw [take_eq, freeChanged, testHold_calm]
    · exact holds.trans off
    · rw [pool_setPool, left]; exact above
  rw [calm]
  exact ⟨rfl, rfl, missed, events⟩

/-- A record joins behind the stream (R106). -/
theorem join_stream (s : State) (b : Body) (urgent : Bool) (n : Nat) :
    (s.join b urgent n).stream = s.stream ++ [s.stamp b urgent n] := by
  simp [stream, join]

/-- PoolHold turning on, with a slot free, puts POOL_LOW behind the stream (R100). -/
theorem holdOn_stream (s : State) (slot : s.pool.eventsUsed < 16) :
    s.holdOn.stream = s.stream ++ [s.stamp (.event .poolLow 0 s.pool.missedEvents
      (BitVec.ofNat 16 s.pool.free ++ BitVec.ofNat 16 s.cfg.lowMark)) true 0] := by
  have trunk : s.holdOn.trunk = s.trunk := by simp
  rw [stream, (holdOn_told slot).1, stream, trunk]
  simp

end State

theorem runCommand_linkConfig {m : MgmtRequest} {c : LinkConfig} (v : State) (code : m.code = 0x02) (p : m.params = c.bytes)
    (range : c.inRange = true) : v.runCommand m = ⟨(v.setCfg c).testHold, .done, []⟩ := by
  rw [State.runCommand, commandOf_of_code .linkConfig code, p]
  show v.linkConfig c.bytes = _
  rw [State.linkConfig, if_pos c.bytes_length, LinkConfig.ofBytes_bytes range, if_pos range]

/-- The response to a LINK_CONFIG is allocated one block (R168). -/
theorem blocks_linkConfig {m : MgmtRequest} (code : m.code = 0x02) : m.blocks = 1 := by
  simp [MgmtRequest.blocks, commandOf_of_code .linkConfig code]

/-- Settles O34: the new marks test PoolHold as `State.testHold_hold` says; where it turns on, `State.holdOn_stream` puts POOL_LOW
before the response. -/
theorem linkConfigReplaces : Obligations.LinkConfigReplaces := by
  intro m c s ready code params range before
  have one := blocks_linkConfig code
  have run := runCommand_linkConfig (s.take m.need .held) code params range
  obtain ⟨free, held, reserved, slots, nobody, _, results, late⟩ := State.take_need s m ready
  obtain ⟨⟨exec, granted⟩, answered⟩ := State.answered_of s _ m (some .linkConfig) .done [] ready
    (commandOf_of_code .linkConfig code) (by simp) run m.blocks_pos (by simp) (by simpa using late) (by simp)
    (by simpa using free) (by simpa using held) (by simpa using reserved) (by simpa using slots) (by simpa using nobody)
    (by simpa using ready.2.2.2.2.2)
  have hold : (s.take m.need .held).pool.hold = before := by
    rw [State.take_hold ready.2.2.1, show m.need.blocks = 1 from one]
  have perf := State.performCommand_one run one (by simpa using nobody)
  rw [one] at free
  refine completes_of _ exec granted ⟨answered, ?_, ?_, ?_, ?_, ?_, ?_, ?_, ?_, fun off calm low slot => ?_⟩
  · simp [perf]
  · rw [perf]
    simp only [State.close_frame, State.dispatched_frame, State.join_frame, State.testHold_hold]
    simp only [State.pool_setCfg, State.cfg_setCfg, hold, free]
  · refine Counted.close (Counted.quiet fun d straight => ?_)
    obtain ⟨missed, low, _⟩ := sideways_ne straight
    simp [perf, missed, low, State.take_quiet _ _ _ _ straight]
  · simp [perf]
  · simp [perf]
  · simp [perf]
  · simp [perf]
  · refine sameLink_close (sameLink_of_calm ?_)
    simp [perf]
  · have above : s.cfg.lowMark ≤ s.pool.free - m.need.blocks := by
      rw [show m.need.blocks = 1 from one]
      simpa [before, holdAfter, off] using calm
    obtain ⟨stream, ctrs, missed, events⟩ := State.take_calm ready.2.2.1 .held off above
    have turns : ((s.take m.need .held).setCfg c).testHold = ((s.take m.need .held).setCfg c).holdOn := by
      simp only [State.testHold, State.pool_setCfg, State.cfg_setCfg, hold, calm, free, if_pos low, Bool.false_eq_true,
        if_false]
    have slotFree : ((s.take m.need .held).setCfg c).pool.eventsUsed < 16 := by simpa [events] using slot
    refine ⟨State.joinedBehind_of _ _ _ ?_, ?_⟩
    · have stamps : ∀ b u n, (((s.take m.need .held).performCommand m).close).stamp b u n =
          ((s.take m.need .held).setCfg c).stamp b u n := fun b u n => State.stamp_congr _ _ (by simp [perf])
        (by simp [perf, turns]) b u n
      have joined : ((s.take m.need .held).performCommand m).stream = s.stream ++
          [((s.take m.need .held).setCfg c).stamp (.event .poolLow 0 s.pool.missedEvents
            (BitVec.ofNat 16 (s.pool.free - 1) ++ BitVec.ofNat 16 c.lowMark)) true 0,
          ((s.take m.need .held).setCfg c).stamp (.response m.tag m.code .done []) true 1] := by
        have raised := State.holdOn_stream _ slotFree
        simp only [State.pool_setCfg, State.cfg_setCfg, missed, free] at raised
        have same : ((s.take m.need .held).setCfg c).stream = s.stream := stream
        rw [perf, turns, (State.dispatched_stream _ _).1, State.join_stream, raised, same, List.append_assoc]
        simp [State.stamp]
      rw [stamps, stamps, joined]
    · rw [perf, turns]
      simp [(State.holdOn_told slotFree).2.2, ctrs]

/-! COUNTER_READ (R183, R194). -/

theorem counterSetOf_line (i : Fin 12) : counterSetOf (0x10 + lineByte i) = some (.line i) := by
  revert i; decide

namespace State

/-- What a COUNTER_READ leaves: the set cleared where it asks for that (R183). -/
def read (v : State) (y : Byte) (c : CounterSet) : State := if y.getLsbD 0 then v.clearSet c else v

/-- A COUNTER_READ writes counters and MinFree alone. -/
theorem read_only (v : State) (y : Byte) (c : CounterSet) : ∃ ctrs minFree,
    v.read y c = { v with ctrs := ctrs, pool := { v.pool with minFree := minFree } } := by
  unfold read clearSet
  split
  · cases c <;> exact ⟨_, _, rfl⟩
  · exact ⟨_, _, rfl⟩

theorem read_kept {v : State} {y : Byte} {c : CounterSet} (h : y.getLsbD 0 = false) : v.read y c = v := by
  rw [read, h]; rfl

theorem read_cleared {v : State} {y : Byte} {c : CounterSet} (h : y.getLsbD 0 = true) : v.read y c = v.clearSet c := by
  rw [read, h]; rfl

theorem runCommand_counterRead (v : State) {m : MgmtRequest} {x y : Byte} {c : CounterSet} (code : m.code = 0x30)
    (p : m.params = [x, y]) (set : counterSetOf x = some c) :
    v.runCommand m = ⟨v.read y c, .done, v.counterData x c⟩ := by
  rw [runCommand, commandOf_of_code .counterRead code, p]
  show v.counterRead [x, y] = _
  have first : byteAt [x, y] 0 = x := rfl
  have second : byteAt [x, y] 1 = y := rfl
  rw [counterRead, if_pos (by rfl), first, second, set]
  rfl

/-- The response to a COUNTER_READ is allocated two blocks (R168). -/
theorem blocks_counterRead {m : MgmtRequest} {x y : Byte} (code : m.code = 0x30) (p : m.params = [x, y]) :
    m.blocks = 2 := by
  simp [MgmtRequest.blocks, commandOf_of_code .counterRead code, p]

/-! What each set holds once cleared. -/

theorem clearSet_link (v : State) : (∀ c, (v.clearSet .link).ctrs.read (.link c) = Counter.zero) ∧
    ∀ i c, (v.clearSet .link).ctrs.read (.line i c) = v.ctrs.read (.line i c) :=
  ⟨fun c => by simp [clearSet, Counters.read, Vector.get_eq_getElem], fun _ _ => rfl⟩

theorem clearSet_line (v : State) (i : Fin 12) : (∀ c, (v.clearSet (.line i)).ctrs.read (.line i c) = Counter.zero) ∧
    ∀ j c, j ≠ i → (v.clearSet (.line i)).ctrs.read (.line j c) = v.ctrs.read (.line j c) := by
  refine ⟨fun c => by simp [clearSet, Counters.read, Vector.get_eq_getElem], fun j c other => ?_⟩
  have apart : i.val ≠ j.val := fun e => other (Fin.ext e.symm)
  simp [clearSet, Counters.read, Vector.get_eq_getElem, apart]

theorem clearSet_pool (v : State) : (∀ c, (v.clearSet .pool).ctrs.read (.pool c) = Counter.zero) ∧
    (v.clearSet .pool).pool = { v.pool with minFree := v.pool.free } :=
  ⟨fun c => by simp [clearSet, Counters.read, Vector.get_eq_getElem], rfl⟩

/-- A command performed while nobody waits: its spare blocks go back, the response joins, the request is dispatched
(R129). -/
theorem performCommand_nobody {w v : State} {m : MgmtRequest} {st : Status} {d : List Byte}
    (run : w.runCommand m = ⟨v, st, d⟩) (nobody : v.pool.waitList = []) : w.performCommand m =
      ((v.release 0 (m.blocks - used d)).join (.response m.tag m.code st d) true (used d)).dispatched m.size := by
  have still : (v.release 0 (m.blocks - used d)).grantAll = v.release 0 (m.blocks - used d) :=
    grantAll_nobody (by simpa using nobody)
  simp only [used] at still
  simp only [performCommand, run, CmdResult.respond, used, still]

/-- While a frame is on the line the end of a step counts nothing. -/
theorem close_busy_ctrs {v : State} (busy : v.trunk.tx.isSome = true) : v.close.ctrs = v.ctrs := by
  rw [close_busy v busy]
  simp

end State

/-- The counters a COUNTER_READ answers are those before its response space is taken, PoolHold staying as it is (R183). -/
theorem State.counterData_take (s : State) (n : Need) (into : Into) (x : Byte) :
    (s.take n into).counterData x .link = s.counterData x .link ∧
    ∀ i, (s.take n into).counterData x (.line i) = s.counterData x (.line i) := by
  have read : ∀ d, d ≠ .pool .eventsMissed → d ≠ .pool .poolLowEpisodes →
      (s.take n into).ctrs.read d = s.ctrs.read d := fun d a b => by simp [a, b]
  have link : (s.take n into).ctrs.link = s.ctrs.link := vector_ext_get fun k => by
    obtain ⟨c, rfl⟩ := LinkCtr.id_surj k
    exact read (.link c) (by simp) (by simp)
  refine ⟨by simp only [counterData, link], fun i => ?_⟩
  have line : (s.take n into).ctrs.line.get i = s.ctrs.line.get i := vector_ext_get fun k => by
    obtain ⟨c, rfl⟩ := LineCtr.id_surj k
    exact read (.line i c) (by simp) (by simp)
  simp only [counterData, line]

section
variable {m : MgmtRequest} {s : State} {x y : Byte} {c : CounterSet} {data : List Byte}

/-- A COUNTER_READ: one response with the data of the set; tables and link stand, and the counters are those that
`State.read` leaves. -/
theorem counterRead_answers (ready : RequestReady m s) (code : m.code = 0x30) (p : m.params = [x, y])
    (set : counterSetOf x = some c) (answer : (s.take m.need .held).counterData x c = data) (fits : State.used data ≤ 2) :
    let v := (s.take m.need .held).read y c
    ∃ u, exec .counterRead s = finished u ∧ u.granted = [] ∧
      u = ((v.release 0 (2 - State.used data)).join (.response m.tag m.code .done data) true
        (State.used data)).dispatched m.size ∧
      Answered m .done data s u.close ∧ SameTables s u.close ∧ SameLink s u.close ∧ u.trunk.tx = s.trunk.tx := by
  intro v
  have two := State.blocks_counterRead code p
  obtain ⟨free, held, reserved, slots, nobody, _, results, late⟩ := State.take_need s m ready
  have run := State.runCommand_counterRead (s.take m.need .held) code p set
  rw [answer] at run
  obtain ⟨ctrs, minFree, only⟩ := (s.take m.need .held).read_only y c
  have vNobody : v.pool.waitList = [] := by simp only [v, only]; exact nobody
  obtain ⟨⟨exec, granted⟩, answered⟩ := State.answered_of s _ m (some .counterRead) .done data ready
    (commandOf_of_code .counterRead code) (by simp) run (by rw [two]; exact fits) (by rw [only]; exact results)
    (by rw [only]; exact late) (by rw [only]; simp) (by rw [only]; exact free) (by rw [only]; exact held)
    (by rw [only]; exact reserved) (by rw [only]; exact slots) (by rw [only]; exact nobody)
    (by rw [only]; simp [ready.2.2.2.2.2])
  obtain ⟨_, lines, polls, cfg, pollRun, clock, pending, _, _, calm, tx, _⟩ :=
    State.performCommand_frame _ _ m .done data run (State.unserved_nobody vNobody _ _)
  have shape := State.performCommand_nobody run vNobody
  rw [two] at shape
  refine ⟨_, exec, granted, shape, answered, ?_, sameLink_close (sameLink_of_calm ?_), ?_⟩
  · simp [SameTables, lines, polls, cfg, pollRun, clock, pending, only]
  · rw [calm, only]; simp
  · rw [tx, only]; simp

end

section
variable {v u : State} {k n m : Nat} {b : Body}

/-- The counters after the response to a COUNTER_READ has joined. -/
theorem counterRead_ctrs (shape : u = ((v.release 0 k).join b true n).dispatched m) (d : CtrId)
    (missed : d ≠ .pool .eventsMissed) (low : d ≠ .pool .poolLowEpisodes) : u.ctrs.read d = v.ctrs.read d := by
  rw [shape]; simp [missed, low]

/-- Without Clear nothing is counted. -/
theorem counterRead_counted {s : State} {r : Need} {into : Into} {y : Byte} {c : CounterSet}
    (shape : u = ((((s.take r into).read y c).release 0 k).join b true n).dispatched m) (keep : y.getLsbD 0 = false) :
    Counted [] s u.close := by
  refine Counted.close (Counted.quiet fun d straight => ?_)
  obtain ⟨missed, low, _⟩ := sideways_ne straight
  rw [counterRead_ctrs shape d missed low, State.read_kept keep, State.take_ctrs _ _ _ _ missed low]

end

/-- A block given back while PoolHold is off and FreeCount not low (R102). -/
theorem State.release_one {v : State} (off : v.pool.hold = false) (above : v.cfg.lowMark ≤ v.pool.free)
    (held : 1 ≤ v.pool.held) : (v.release 0 1).ctrs = v.ctrs ∧
      (v.release 0 1).pool.minFree = min v.pool.minFree (v.pool.free + 1) := by
  have given : v.pool.free + min 0 v.pool.reserved + min 1 v.pool.held = v.pool.free + 1 := by omega
  rw [State.release, if_neg (by simp), given, State.freeChanged, State.testHold_calm]
  · exact ⟨rfl, rfl⟩
  · exact off
  · exact Nat.le_succ_of_le above

/-- Settles O40: the response and what it leaves by `counterRead_answers`, the counters cleared by `State.clearSet_link`,
`State.clearSet_line` and `State.clearSet_pool`; the block of POOL given back moves MinFree no further
(`State.release_one`). -/
theorem counterReadClears : Obligations.CounterReadClears := by
  intro m y s ready code data kept
  refine ⟨fun p => ?link, fun i p => ?line, fun p off high => ?pool⟩
  case link =>
    have answer : (s.take m.need .held).counterData 0 .link = data 0 s.ctrs.link.toList :=
      (s.counterData_take m.need .held 0).1
    have short : State.used (data 0 s.ctrs.link.toList) ≤ 2 := by
      simp [State.used, data, counterValues_length, Config.blocksFor, ceilDiv, Config.blockSize]
    obtain ⟨u, exec, granted, shape, answered, tables, link, tx⟩ := counterRead_answers ready code p rfl answer short
    refine completes_of u exec granted ⟨answered, ⟨tables, link⟩, fun keep => counterRead_counted shape keep,
      fun clear busy => ⟨fun c => ?_, fun i c => ?_⟩⟩
    · rw [State.close_busy_ctrs (by rw [tx]; exact busy), counterRead_ctrs shape _ (by simp) (by simp),
        State.read_cleared clear, (State.clearSet_link _).1]
    · rw [State.close_ctrs _ _ (by simp) (by simp) (by simp), counterRead_ctrs shape _ (by simp) (by simp),
        State.read_cleared clear, (State.clearSet_link _).2, State.take_ctrs _ _ _ _ (by simp) (by simp)]
  case line =>
    have answer : (s.take m.need .held).counterData (0x10 + lineByte i) (.line i) =
        data (0x10 + lineByte i) (s.ctrs.line.get i).toList := (s.counterData_take m.need .held _).2 i
    have short : State.used (data (0x10 + lineByte i) (s.ctrs.line.get i).toList) ≤ 2 := by
      simp [State.used, data, counterValues_length, Config.blocksFor, ceilDiv, Config.blockSize]
    obtain ⟨u, exec, granted, shape, answered, tables, link, tx⟩ :=
      counterRead_answers ready code p (counterSetOf_line i) answer short
    refine completes_of u exec granted ⟨answered, ⟨tables, link⟩, fun keep => counterRead_counted shape keep,
      fun clear => ⟨fun c => ?_, fun j c other => ?_⟩⟩
    · rw [State.close_ctrs _ _ (by simp) (by simp) (by simp), counterRead_ctrs shape _ (by simp) (by simp),
        State.read_cleared clear, (State.clearSet_line _ i).1]
    · rw [State.close_ctrs _ _ (by simp) (by simp) (by simp), counterRead_ctrs shape _ (by simp) (by simp),
        State.read_cleared clear, (State.clearSet_line _ i).2 j c other, State.take_ctrs _ _ _ _ (by simp) (by simp)]
  case pool =>
    have two : m.need.blocks = 2 := State.blocks_counterRead code p
    have free : s.cfg.lowMark ≤ s.pool.free - m.need.blocks := by omega
    obtain ⟨_, ctrs, _, _⟩ := State.take_calm ready.2.2.1 .held off free
    obtain ⟨left, held, _, _, _, minFree, _⟩ := State.take_need s m ready
    have holds : (s.take m.need .held).pool.hold = false := by
      rw [State.take_hold ready.2.2.1, off]
      exact decide_eq_false (Nat.not_lt.mpr free)
    rw [show m.blocks = 2 from two] at left minFree held
    have answer : (s.take m.need .held).counterData 1 .pool = [1] ++ counterValues s.ctrs.pool.toList ++
        natHalf (min s.pool.minFree (s.pool.free - 2)) ++ natHalf (halfFlags s.ctrs.pool.toList) := by
      simp only [State.counterData, ctrs, minFree]
    have short : State.used ([1] ++ counterValues s.ctrs.pool.toList ++
        natHalf (min s.pool.minFree (s.pool.free - 2)) ++ natHalf (halfFlags s.ctrs.pool.toList)) = 1 := by
      simp [State.used, counterValues_length, Config.blocksFor, ceilDiv, Config.blockSize]
    obtain ⟨u, exec, granted, shape, answered, tables, link, tx⟩ :=
      counterRead_answers ready code p rfl answer (by rw [short]; decide)
    rw [short] at shape
    have cfg : (s.take m.need .held).cfg = s.cfg := by simp
    have above : (s.take m.need .held).cfg.lowMark ≤ (s.take m.need .held).pool.free := by rw [left, cfg]; omega
    have filled : 1 ≤ (s.take m.need .held).pool.held := by rw [held]; omega
    refine completes_of u exec granted ⟨answered, ⟨tables, link⟩, fun keep => ⟨counterRead_counted shape keep, ?_⟩,
      fun clear => ⟨?_, fun busy c => ?_⟩⟩
    · obtain ⟨_, least⟩ := State.release_one holds above filled
      rw [minFree, left] at least
      rw [State.read_kept keep] at shape
      simp only [shape, State.close_frame, State.dispatched_frame, State.join_frame, least]
      omega
    · obtain ⟨_, least⟩ := State.release_one (v := (s.take m.need .held).clearSet .pool) holds above filled
      rw [(State.clearSet_pool _).2] at least
      rw [State.read_cleared clear] at shape
      simp only [shape, State.close_frame, State.dispatched_frame, State.join_frame, least, left]
      omega
    · obtain ⟨zero, _⟩ := State.release_one (v := (s.take m.need .held).clearSet .pool) holds above filled
      rw [State.read_cleared clear] at shape
      rw [State.close_busy_ctrs (by rw [tx]; exact busy), shape]
      simp only [State.dispatched_frame, State.join_frame, zero, (State.clearSet_pool _).1]

end Sys2Proof.Machine
end

section
/-! LINE_CONFIG, POLL_SET and POLL_RUN (R29, R31, R68 to R75, R84, R85, R175, R182). -/

namespace Sys2Proof.Machine
namespace State

/-! LINE_CONFIG by the state of its line (R29, R31, R175). -/

/-- A line written as it stands changes nothing. -/
theorem setLine_line (s : State) (i : Fin 12) : s.setLine i (s.line i) = s := by
  simp [setLine, line, Vector.get_eq_getElem]

/-- A second writing of a line replaces the first. -/
theorem setLine_twice (s : State) (i : Fin 12) (l l' : Line) : (s.setLine i l).setLine i l' = s.setLine i l' := by
  simp [setLine]

/-- An empty queue fits every QueueDepth (R32). -/
theorem shrinkQueue_empty {s : State} {i : Fin 12} (empty : (s.line i).queue = []) : s.shrinkQueue i = s := by
  have same : s.modLine i (fun l => { l with queue := l.queue.take l.applied.queueDepth }) = s := by
    rw [modLine, empty, List.take_nil, ← empty]
    exact s.setLine_line i
  rw [shrinkQueue, same, empty, List.drop_nil]
  rfl

/-- A line without work waiting selects nothing (R57, R58). -/
theorem selectIfIdle_empty {s : State} {i : Fin 12} (queue : (s.line i).queue = []) (due : (s.line i).due = []) :
    s.selectIfIdle i = s := by
  have none : choose (s.line i) s.clock = .nothing := by
    rw [choose_calm _ (by simp [queue]), chooseAged_nil _ queue, chooseDue_nil due, chooseNormal_nil queue]
  rw [selectIfIdle, select, none]
  exact ite_self _

/-- A line that is not IDLE selects nothing (R57). -/
theorem selectIfIdle_busy {s : State} {i : Fin 12} (busy : (s.line i).txn ≠ .idle) : s.selectIfIdle i = s := if_neg busy

/-- A line without work waiting is taken OFFLINE with nothing to refuse (R31). -/
theorem goOffline_empty {s : State} {i : Fin 12} (queue : (s.line i).queue = []) (due : (s.line i).due = []) :
    s.goOffline i = s.setLine i { ((s.line i).goto .offline).rxQuiet with queue := [], due := [] } := by
  rw [goOffline, queue, due]
  rfl

section
variable {s : State} {i : Fin 12} {p : Profile}

theorem configLine_staged (busy : (s.line i).txn ≠ .offline) (taken : (s.line i).txn ≠ .idle ∨ (s.line i).listen ≠ .quiet) :
    s.configLine i p = ⟨s.setLine i { s.line i with staged := some p }, .staged, []⟩ := by
  have waits : (s.line i).takesProfile = false := by
    rcases taken with h | h <;> simp [Line.takesProfile, busy, h]
  rw [configLine, waits]
  rfl

theorem configLine_offline_stays (offline : (s.line i).txn = .offline) (disabled : p.enabled = false) :
    s.configLine i p = ⟨s.setLine i { s.line i with applied := p }, .done, []⟩ := by
  have takes : (s.line i).takesProfile = true := by simp [Line.takesProfile, offline]
  have placed : s.putProfile i p = s.setLine i { s.line i with applied := p } := by
    simp only [putProfile, disabled, Bool.false_eq_true, if_false]
    rw [if_pos offline]
    rfl
  rw [configLine, if_pos takes, configNow, if_pos offline, placed, selectIfIdle_busy (by simp [offline])]

theorem configLine_offline_enters (offline : (s.line i).txn = .offline) (enabled : p.enabled = true)
    (queue : (s.line i).queue = []) (due : (s.line i).due = []) :
    s.configLine i p =
      ⟨s.setLine i (({ s.line i with applied := p } : Line).goto .idle).rxQuiet, .done, []⟩ := by
  have takes : (s.line i).takesProfile = true := by simp [Line.takesProfile, offline]
  have placed : s.putProfile i p = s.setLine i (({ s.line i with applied := p } : Line).goto .idle).rxQuiet := by
    simp only [putProfile, enabled, if_true]
    rw [if_pos offline, modLine, modLine, setLine_twice, line_setLine_same, shrinkQueue_empty (by rw [line_setLine_same]; exact queue)]
  rw [configLine, if_pos takes, configNow, if_pos offline, placed, selectIfIdle_empty]
  · simp [Line.goto, Line.rxQuiet, queue]
  · simp [Line.goto, Line.rxQuiet, due]

theorem configLine_idle_stays (idle : (s.line i).txn = .idle) (quiet : (s.line i).listen = .quiet)
    (enabled : p.enabled = true) (queue : (s.line i).queue = []) :
    s.configLine i p = ⟨s.setLine i { s.line i with applied := p }, .done, []⟩ := by
  have takes : (s.line i).takesProfile = true := by simp [Line.takesProfile, idle, quiet]
  have placed : s.putProfile i p = s.setLine i { s.line i with applied := p } := by
    simp only [putProfile, enabled, if_true]
    rw [if_neg (by simp [idle]), modLine, shrinkQueue_empty (by simp [queue])]
  rw [configLine, if_pos takes, configNow, if_neg (by simp [idle]), placed]

theorem configLine_idle_leaves (idle : (s.line i).txn = .idle) (quiet : (s.line i).listen = .quiet)
    (disabled : p.enabled = false) (queue : (s.line i).queue = []) (due : (s.line i).due = []) :
    s.configLine i p =
      ⟨s.setLine i { (({ s.line i with applied := p } : Line).goto .offline).rxQuiet with queue := [], due := [] }, .done, []⟩ := by
  have takes : (s.line i).takesProfile = true := by simp [Line.takesProfile, idle, quiet]
  have placed : s.putProfile i p =
      s.setLine i { (({ s.line i with applied := p } : Line).goto .offline).rxQuiet with queue := [], due := [] } := by
    simp only [putProfile, disabled, Bool.false_eq_true, if_false]
    rw [if_neg (by simp [idle]), modLine, goOffline_empty (by simp [queue]) (by simp [due]), setLine_twice,
      line_setLine_same]
  rw [configLine, if_pos takes, configNow, if_neg (by simp [idle]), placed]

end

theorem runCommand_lineConfig (v : State) {m : MgmtRequest} {i : Fin 12} {p : Profile} (code : m.code = 0x10)
    (params : m.params = lineByte i :: p.bytes) (range : p.inRange = true) (fits : p.fits) :
    v.runCommand m = v.configLine i p := by
  have line : lineOf (byteAt (lineByte i :: p.bytes) 0) = some i := lineOf_lineByte i
  have profile : checkedProfile ((lineByte i :: p.bytes).drop 1) = some p := checkedProfile_bytes range fits
  rw [runCommand, commandOf_of_code .lineConfig code, params]
  show v.lineConfig _ = _
  rw [lineConfig, if_pos (by simp), line, profile]

/-- The response to a LINE_CONFIG is allocated one block (R168). -/
theorem blocks_lineConfig {m : MgmtRequest} (code : m.code = 0x10) : m.blocks = 1 := by
  simp [MgmtRequest.blocks, commandOf_of_code .lineConfig code]

/-- A LINE_CONFIG that writes its line: one response, and beside the line everything stands. -/
theorem lineConfig_completes {m : MgmtRequest} {s : State} {i : Fin 12} {p : Profile} {l : Line} {st : Status}
    (ready : RequestReady m s) (code : m.code = 0x10) (params : m.params = lineByte i :: p.bytes)
    (range : p.inRange = true) (fits : p.fits)
    (acts : (s.take m.need .held).configLine i p = ⟨(s.take m.need .held).setLine i l, st, []⟩) :
    Completes .lineConfig s (fun t =>
      (Answered m st [] s t ∧ Counted [] s t ∧ SameLink s t ∧ SameSettings s t ∧ t.polls = s.polls ∧
        ∀ j, j ≠ i → t.line j = s.line j) ∧ t.line i = l) := by
  have run := (runCommand_lineConfig (s.take m.need .held) code params range fits).trans acts
  refine answers_acting s _ m .lineConfig st ready code (by decide) (blocks_lineConfig code) run rfl rfl rfl rfl rfl rfl rfl
    _ ?_
  intro t answered counted link _ polls cfg pollRun clock pending line _
  have settings : SameSettings s t := by simp [SameSettings, cfg, pollRun, clock, pending]
  exact ⟨⟨answered, counted, link, settings, by simp [polls], fun j other => by simp [line, other]⟩, by simp [line]⟩

end State

/-- Settles O35: by the state of the line and the Enabled of the profile (`State.configLine_staged` and the four after it),
each through `State.lineConfig_completes`. -/
theorem lineConfigActs : Obligations.LineConfigActs := by
  intro m i p s ready code params range fits l frame
  have same : (s.take m.need .held).line i = l := by simp [l]
  refine ⟨fun busy taken => ?_, fun offline disabled => ?_, fun offline enabled queue due => ?_,
    fun idle quiet enabled queue => ?_, fun idle quiet disabled queue due => ?_⟩
  · have acts := State.lineConfig_completes ready code params range fits
      (State.configLine_staged (by rw [same]; exact busy) (by rw [same]; exact taken))
    rwa [same] at acts
  · have acts := State.lineConfig_completes ready code params range fits
      (State.configLine_offline_stays (by rw [same]; exact offline) disabled)
    rwa [same] at acts
  · obtain ⟨t, step, stands, line⟩ := State.lineConfig_completes ready code params range fits
      (State.configLine_offline_enters (by rw [same]; exact offline) enabled (by rw [same]; exact queue)
        (by rw [same]; exact due))
    rw [same] at line
    exact ⟨t, step, stands, by simp [line, Line.goto, Line.rxQuiet, queue, due]⟩
  · have acts := State.lineConfig_completes ready code params range fits
      (State.configLine_idle_stays (by rw [same]; exact idle) (by rw [same]; exact quiet) enabled (by rw [same]; exact queue))
    rwa [same] at acts
  · obtain ⟨t, step, stands, line⟩ := State.lineConfig_completes ready code params range fits
      (State.configLine_idle_leaves (by rw [same]; exact idle) (by rw [same]; exact quiet) disabled
        (by rw [same]; exact queue) (by rw [same]; exact due))
    rw [same] at line
    exact ⟨t, step, stands, by simp [line, Line.goto, Line.rxQuiet, TxnState.drives]⟩

namespace State

/-! POLL_SET by the state of its entry (R84, R85). -/

/-- A second writing of an entry replaces the first. -/
theorem setPoll_twice (s : State) (id : Fin 128) (e e' : Option Poll) : (s.setPoll id e).setPoll id e' = s.setPoll id e' := by
  simp [setPoll]

/-- NextDue of a freshly written entry, by the setting of polling (R69, R85). -/
def firstDue (s : State) (d : PollDef) : Option Nat := if s.polling then some (s.clock + d.phase * 10) else none

/-- An entry that does not fall due as it is written (R85). -/
theorem rewritePoll_waits {s : State} {d : PollDef} (id : Fin 128) (later : s.polling = false ∨ d.phase ≠ 0) :
    s.rewritePoll id d = s.setPoll id (some (freshPoll d .waiting (s.firstDue d))) := by
  have not : (s.polling && d.phase == 0) = false := by
    rcases later with h | h <;> simp [h]
  rw [rewritePoll, not]
  rfl

section
variable {s : State} {d : PollDef} (id : Fin 128) (active : s.polling = true) (now : d.phase = 0)
include active now

theorem rewritePoll_reaches : s.rewritePoll id d = (s.setPoll id (some (s.newPoll d))).reachDue id (s.newPoll d) s.clock := by
  simp only [rewritePoll, active, now, Bool.true_and, beq_self_eq_true, if_true]

/-- On a line out of service the run is skipped (R75). -/
theorem rewritePoll_skips (offline : (s.line d.line).txn = .offline) :
    s.rewritePoll id d = s.setPoll id (some (freshPoll d .waiting (some (s.clock + d.period * 10)))) := by
  rw [rewritePoll_reaches id active now, reachDue_waiting _ _ _ _ rfl, if_pos (by simpa [newPoll] using offline),
    setPoll_twice]
  rfl

/-- On a line in service that has work in hand the entry waits in the due list (R55, R72). -/
theorem rewritePoll_due (inService : (s.line d.line).txn ≠ .offline) (busy : (s.line d.line).txn ≠ .idle) :
    s.rewritePoll id d = (s.setLine d.line { s.line d.line with
        due := dueInsert { poll := id, time := s.clock } (s.line d.line).due }).setPoll id
      (some (freshPoll d .due (some (s.clock + d.period * 10)))) := by
  rw [rewritePoll_reaches id active now, reachDue_waiting _ _ _ _ rfl, if_neg (by simpa [newPoll] using inService),
    becomeDue, setPoll_twice, selectIfIdle_busy (by simpa [newPoll] using busy)]
  rfl

end

theorem writePoll_running {s : State} {id : Fin 128} {p : Poll} (d : PollDef) (entry : s.poll id = some p)
    (running : p.state = .inFlight ∨ p.state = .retiring) : s.writePoll id d = s.refuse .busy := by
  rcases running with h | h <;> simp [writePoll, entry, h]

theorem writePoll_waiting {s : State} {id : Fin 128} (d : PollDef)
    (waiting : ∀ p, s.poll id = some p → p.state = .waiting) : s.writePoll id d = ⟨s.rewritePoll id d, .done, []⟩ := by
  cases entry : s.poll id with
  | none => simp [writePoll, entry]
  | some p => simp [writePoll, entry, waiting p entry]

theorem writePoll_due {s : State} {id : Fin 128} {p : Poll} (d : PollDef) (entry : s.poll id = some p)
    (due : p.state = .due) : s.writePoll id d = ⟨(s.leaveDue p.defn.line id).rewritePoll id d, .done, []⟩ := by
  simp [writePoll, entry, due]

theorem runCommand_pollSet (v : State) {m : MgmtRequest} {id : Fin 128} {d : PollDef} (code : m.code = 0x20)
    (params : m.params = pollSetParams id d) (ok : d.ok (v.line d.line).applied.maxReply) :
    v.runCommand m = v.writePoll id d := by
  have entry : pollOf (byteAt (pollSetParams id d) 0) = some id := pollOf_byte id
  have length : expectLenOk d.expectLen (v.line d.line).applied.maxReply = true := by
    obtain ⟨_, _, _, _, expect, _⟩ := ok
    cases e : d.expectLen with
    | none => rfl
    | some n =>
      obtain ⟨positive, below, _⟩ := expect n e
      simp [expectLenOk, positive, below]
  rw [runCommand, commandOf_of_code .pollSet code, params]
  show v.pollSet _ = _
  rw [pollSet, if_pos (by simp [pollSetParams_length]), entry, PollDef.ofBytes_params id ok]
  exact if_pos length

/-- The response to a POLL_SET is allocated one block (R168). -/
theorem blocks_pollSet {m : MgmtRequest} (code : m.code = 0x20) : m.blocks = 1 := by
  simp [MgmtRequest.blocks, commandOf_of_code .pollSet code]

/-- A POLL_SET that writes a line and its entry: one response, and everything else stands. -/
theorem pollSet_completes {m : MgmtRequest} {s : State} {id : Fin 128} {d : PollDef} {i : Fin 12} {l : Line}
    {e : Option Poll} {st : Status} (ready : RequestReady m s) (code : m.code = 0x20)
    (params : m.params = pollSetParams id d) (ok : d.ok (s.line d.line).applied.maxReply)
    (acts : (s.take m.need .held).writePoll id d = ⟨((s.take m.need .held).setLine i l).setPoll id e, st, []⟩) :
    Completes .pollSet s (fun t =>
      (Answered m st [] s t ∧ Counted [] s t ∧ SameLink s t ∧ SameSettings s t ∧ ∀ k, k ≠ id → t.poll k = s.poll k) ∧
      t.poll id = e ∧ t.lines = (s.setLine i l).lines) := by
  have run := (runCommand_pollSet (s.take m.need .held) code params (by simpa using ok)).trans acts
  refine answers_acting s _ m .pollSet st ready code (by decide) (blocks_pollSet code) run rfl rfl rfl rfl rfl rfl rfl _ ?_
  intro t answered counted link lines _ cfg pollRun clock pending _ poll
  have settings : SameSettings s t := by simp [SameSettings, cfg, pollRun, clock, pending]
  refine ⟨⟨answered, counted, link, settings, fun k other => by simp [poll, other]⟩, by simp [poll], ?_⟩
  rw [lines]
  simp [setLine]

end State

/-- Settles O37: the entry is written as `State.rewritePoll_waits`, `State.rewritePoll_skips` and `State.rewritePoll_due` say,
each through `State.pollSet_completes`. -/
theorem pollSetActs : Obligations.PollSetActs := by
  intro m id d s ready code params ok active frame
  have same : ∀ i, (s.take m.need .held).line i = s.line i := fun i => by simp
  have polling : (s.take m.need .held).polling = active := by simp [State.polling, active]
  have clock : (s.take m.need .held).clock = s.clock := by simp
  have poll : (s.take m.need .held).poll id = s.poll id := by simp
  have here : ∀ (e : Option Poll), (s.take m.need .held).setPoll id e = ((s.take m.need .held).setLine d.line
      ((s.take m.need .held).line d.line)).setPoll id e := fun e => by rw [State.setLine_line]
  have stands : (s.setLine d.line ((s.take m.need .held).line d.line)).lines = s.lines := by
    rw [same, State.setLine_line]
  refine ⟨fun p entry running => ?_, fun waiting => ⟨fun later => ?_, fun act now offline => ?_,
    fun act now inService busy => ?_⟩, fun p entry due later => ?_⟩
  · have acts : (s.take m.need .held).writePoll id d = ⟨((s.take m.need .held).setLine d.line
        ((s.take m.need .held).line d.line)).setPoll id (some p), .busy, []⟩ := by
      rw [State.writePoll_running d (poll.trans entry) running, ← here, State.setPoll_self (poll.trans entry)]
      rfl
    obtain ⟨t, step, stay, written, lines⟩ := State.pollSet_completes ready code params ok acts
    exact ⟨t, step, stay, written, lines.trans stands⟩
  · have acts := State.writePoll_waiting d (by rw [poll]; exact waiting)
    rw [State.rewritePoll_waits id (by rw [polling]; exact later), here] at acts
    obtain ⟨t, step, stay, written, lines⟩ := State.pollSet_completes ready code params ok acts
    rw [State.firstDue, polling, clock] at written
    exact ⟨t, step, stay, lines.trans stands, written⟩
  · have acts := State.writePoll_waiting d (by rw [poll]; exact waiting)
    rw [State.rewritePoll_skips id (polling.trans act) now (by rw [same]; exact offline), here] at acts
    obtain ⟨t, step, stay, written, lines⟩ := State.pollSet_completes ready code params ok acts
    rw [clock] at written
    exact ⟨t, step, stay, lines.trans stands, written⟩
  · have acts := State.writePoll_waiting d (by rw [poll]; exact waiting)
    rw [State.rewritePoll_due id (polling.trans act) now (by rw [same]; exact inService) (by rw [same]; exact busy)] at acts
    obtain ⟨t, step, stay, written, lines⟩ := State.pollSet_completes ready code params ok acts
    rw [clock] at written
    rw [same, clock] at lines
    have line : ∀ j, t.line j = (s.setLine d.line { s.line d.line with
        due := dueInsert { poll := id, time := s.clock } (s.line d.line).due }).line j := fun j =>
      congrArg (Vector.get · j) lines
    exact ⟨t, step, stay, written, by simp [line], fun j other => by simp [line, other]⟩
  · have acts := State.writePoll_due d (poll.trans entry) due
    rw [State.rewritePoll_waits id (by simpa [State.leaveDue, State.polling, active] using later)] at acts
    obtain ⟨t, step, stay, written, lines⟩ := State.pollSet_completes ready code params ok acts
    rw [same] at lines
    have line : ∀ j, t.line j = (s.leaveDue p.defn.line id).line j := fun j => congrArg (Vector.get · j) lines
    exact ⟨t, step, stay, by simpa [State.firstDue, State.polling, State.leaveDue, active] using written, by simp [line], fun j other => by simp [line, other]⟩

namespace State

/-! POLL_RUN by PollRun and the link (R68 to R70, R182). -/

theorem setRun_plain {s : State} {b : Bool} (h : s.pollRun = b ∨ s.trunk.up = false) : s.setRun b = s.setPollRun b := by
  by_cases same : b = s.pollRun
  · subst same
    simp [setRun, setPollRun]
  · simp [setRun, same, h.resolve_left (Ne.symm same)]

theorem setRun_ends {s : State} (up : s.trunk.up = true) (run : s.pollRun = true) :
    s.setRun false = (s.setPollRun false).deactivate := by
  simp [setRun, up, run]

theorem setRun_starts {s : State} (up : s.trunk.up = true) (run : s.pollRun = false) :
    s.setRun true = (s.setPollRun true).activate := by
  simp [setRun, up, run]

/-- With no entry of Phase 0 polling becoming active anchors every entry and no more (R69). -/
theorem activate_late {s : State} (later : ∀ id p, s.poll id = some p → p.defn.phase ≠ 0) :
    s.activate = { s with polls := mapVec (fun e => e.map (Poll.anchor s.clock)) s.polls } := by
  refine phaseZero_stays _ _ fun id _ q entry => ?_
  simp only [poll, get_mapVec] at entry
  obtain ⟨p, old, rfl⟩ := Option.map_eq_some_iff.mp entry
  have kept : (Poll.anchor s.clock p).defn = p.defn := by
    unfold Poll.anchor; split <;> rfl
  rw [kept]
  exact later id p old

theorem runCommand_pollRun (v : State) {m : MgmtRequest} {b : Bool} (code : m.code = 0x23) (p : m.params = [boolByte b]) :
    v.runCommand m = ⟨v.setRun b, .done, []⟩ := by
  have flag : boolOf (byteAt [boolByte b] 0) = some b := boolOf_byte b
  rw [runCommand, commandOf_of_code .pollRun code, p]
  show v.pollRunCmd _ = _
  rw [pollRunCmd, if_pos (by rfl), flag]

/-- The response to a POLL_RUN is allocated one block (R168). -/
theorem blocks_pollRun {m : MgmtRequest} (code : m.code = 0x23) : m.blocks = 1 := by
  simp [MgmtRequest.blocks, commandOf_of_code .pollRun code]

/-- Polling becoming active leaves clock and configuration, keeps no result back, and lets the head of the wait list
wait (R69). -/
theorem activate_leaves {s : State} (heads : s.headWaits) : s.activate.clock = s.clock ∧ s.activate.cfg = s.cfg ∧
    s.activate.lateResults = s.lateResults ∧ s.activate.pollRun = s.pollRun ∧ s.activate.headWaits := by
  have touch : Touch (fun _ => True) s s.activate := touch_activate (Touch.rfl' s) fun _ => trivial
  have keeps : Keeps s s.activate := keeps_activate (Keeps.rfl' s)
  exact ⟨touch.clock, touch.cfg, touch.late, touch.pollRun, keeps.head heads⟩

end State

section
variable {m : MgmtRequest} {b : Bool} {s : State}

/-- A POLL_RUN that writes PollRun, lines and entries: one response, and everything else stands. -/
theorem pollRun_completes {v : State} (ready : RequestReady m s) (code : m.code = 0x23) (p : m.params = [boolByte b])
    (acts : (s.take m.need .held).setRun b = v)
    (only : v = { s.take m.need .held with pollRun := b, lines := v.lines, polls := v.polls }) :
    Completes .pollRun s (fun t => (Answered m .done [] s t ∧ t.pollRun = b ∧ Counted [] s t ∧ SameLink s t ∧ t.cfg = s.cfg ∧
      t.clock = s.clock) ∧ t.lines = v.lines ∧ t.polls = v.polls) := by
  have run := (State.runCommand_pollRun (s.take m.need .held) code p).trans (by rw [acts])
  generalize v.lines = lines at only ⊢
  generalize v.polls = polls at only ⊢
  subst only
  refine State.answers_acting s _ m .pollRun .done ready code (by decide) (State.blocks_pollRun code) run rfl rfl rfl rfl rfl
    rfl rfl _ ?_
  intro t answered counted link lines polls cfg pollRun clock _ _ _
  exact ⟨⟨answered, pollRun, counted, link, by simp [cfg], by simp [clock]⟩, lines, polls⟩

end

/-- Settles O39: PollRun alone (`State.setRun_plain`), polling that ends (`State.setRun_ends`), polling that starts without an
entry of Phase 0 (`State.activate_late`), and polling that starts (`State.activate_activated`). -/
theorem pollRunSets : Obligations.PollRunSets := by
  intro m b s ready code params frame
  have clock : (s.take m.need .held).clock = s.clock := by simp
  have linkUp : (s.take m.need .held).trunk.up = s.trunk.up := by simp
  have running : (s.take m.need .held).pollRun = s.pollRun := by simp
  have entries : ∀ id, (s.take m.need .held).poll id = s.poll id := fun id => by simp
  refine ⟨fun same => ?_, fun up off run => ?_, fun up on stopped later => ?_, fun up on stopped => ?_⟩
  · obtain ⟨t, step, stands, lines, polls⟩ := pollRun_completes ready code params
      (State.setRun_plain (by rw [running, linkUp]; exact same)) rfl
    exact ⟨t, step, stands, by simp [lines], by simp [polls]⟩
  · subst off
    obtain ⟨t, step, stands, lines, polls⟩ := pollRun_completes ready code params
      (State.setRun_ends (linkUp.trans up) (running.trans run)) rfl
    refine ⟨t, step, stands, fun i => ?_, fun id => ?_⟩
    · rw [State.line, lines]; simp [State.deactivate, State.line]
    · rw [State.poll, polls]; simp [State.deactivate, State.poll]; rfl
  · subst on
    obtain ⟨t, step, stands, lines, polls⟩ := pollRun_completes ready code params
      ((State.setRun_starts (linkUp.trans up) (running.trans stopped)).trans
        (State.activate_late fun id p entry => (later id p (by rw [← entries]; exact entry)).2)) rfl
    refine ⟨t, step, stands, by simp [lines], fun id => ?_⟩
    have anchored : t.poll id = (s.poll id).map (Poll.anchor s.clock) := by
      rw [State.poll, polls]; simp [State.poll]
    rw [anchored]
    cases entry : s.poll id with
    | none => rfl
    | some p => simp [Poll.anchor, (later id p entry).1, PollDef.phaseMs]
  · subst on
    have starts := State.setRun_starts (linkUp.trans up) (running.trans stopped)
    have run := (State.runCommand_pollRun (s.take m.need .held) code params).trans (by rw [starts])
    obtain ⟨free, held, reserved, slots, nobody, _, results, late⟩ := State.take_need s m ready
    have one : m.blocks = 1 := State.blocks_pollRun code
    have waits : ((s.take m.need .held).setPollRun true).headWaits := fun w ws e =>
      absurd (nobody.symm.trans e) (by simp)
    obtain ⟨clock', cfg', late', pollRun', heads⟩ := State.activate_leaves waits
    obtain ⟨u, exec, granted, lines, polls, cfg, pollRun, clock, _, line, _, _, told, _, _, _, reserved', _, _⟩ :=
      State.answers_performing s _ m .pollRun .done [] ready code (by decide) one (by decide) run heads
    refine completes_of u exec ?_ ⟨?_, State.activate_activated (w := (s.take m.need .held).setPollRun true)
      (fun i => ?_) (fun id => ?_) ?_ ?_ ?_ ?_ ?_ ?_ (fun i => ?_) (fun id => ?_) ?_, ?_⟩
    · rw [granted, State.activate_grants]; simp [ready.2.2.2.2.2]
    · simp [pollRun, pollRun']
    · simp
    · simp
    · simp
    · exact nobody.trans ready.2.1.symm
    · show s.pool.free ≤ (s.take m.need .held).pool.free + 1
      omega
    · exact reserved
    · exact slots.le
    · simp [ready.2.2.2.2.2]
    · simp [line]
    · simp [State.poll, polls]
    · simp [reserved']
    · have stamps : ∀ b u' n, u.close.stamp b u' n = (((s.take m.need .held).setPollRun true).activate).stamp b u' n :=
        State.stamp_congr _ _ (by simp [clock]) (by simp [cfg])
      have none : (((s.take m.need .held).setPollRun true).activate).lateResults = [] := by
        rw [late']; simpa using late
      rw [told, stamps, none, State.activate_results]
      simp

end Sys2Proof.Machine
end

section
/-! LINE_REQUEST accepted: it joins its line queue, and an IDLE line sends it at once (R53, R54, R57, R126, R128). -/

namespace Sys2Proof.Machine

/-- A request that has joined the queue of line `i`: the line is `l` afterwards, `taken` blocks have gone to a reservation,
RequestsAccepted has risen, and beside them nothing has moved (R53, R54). -/
structure Joined (i : Fin 12) (l : Line) (taken : Nat) (w v : State) : Prop where
  line : v.line i = l
  outside : SameOutside i w v
  polls : v.polls = w.polls
  free : v.pool.free = w.pool.free - taken
  reserved : v.pool.reserved = w.pool.reserved + taken
  held : v.pool.held = w.pool.held
  slots : v.pool.slotsUsed = w.pool.slotsUsed
  wait : v.pool.waitList = w.pool.waitList
  results : v.results = w.results
  late : v.lateResults = w.lateResults
  calm : v.trunk.calm = w.trunk.calm
  granted : v.granted = w.granted
  counted : Counted [.line i .requestsAccepted] w v

theorem SameOutside.trans {i : Fin 12} {s t u : State} (h : SameOutside i s t) (k : SameOutside i t u) :
    SameOutside i s u := by
  obtain ⟨lines, intake, cfg, pollRun, clock, pending⟩ := h
  obtain ⟨lines', intake', cfg', pollRun', clock', pending'⟩ := k
  exact ⟨fun j other => (lines' j other).trans (lines j other), intake'.trans intake, cfg'.trans cfg,
    pollRun'.trans pollRun, clock'.trans clock, pending'.trans pending⟩

theorem SameOutside.modLine {i : Fin 12} {s t u : State} {f : Line → Line} (h : SameOutside i s t)
    (eq : u = t.modLine i f) : SameOutside i s u := by
  subst eq
  exact h.trans ⟨fun j other => by simp [other], rfl, rfl, rfl, rfl, rfl⟩

namespace State

/-- The line queue of line `i` with a request at its tail, counted (R54). -/
def enqueued (s : State) (i : Fin 12) (r : Request) : State :=
  (s.modLine i (fun l => { l with queue := l.queue ++ [r] })).bump (.line i .requestsAccepted)

theorem joinQueue_eq (s : State) (i : Fin 12) (r : Request) : s.joinQueue i r = (s.enqueued i r).selectIfIdle i := rfl

theorem enqueued_joined (w : State) (i : Fin 12) (r : Request) :
    Joined i { w.line i with queue := (w.line i).queue ++ [r] } 0 w (w.enqueued i r) where
  line := by simp [enqueued]
  outside := ⟨fun j other => by simp [enqueued, other], by simp [enqueued], by simp [enqueued], by simp [enqueued],
    by simp [enqueued], by simp [enqueued]⟩
  polls := by simp [enqueued]
  free := by simp [enqueued]
  reserved := by simp [enqueued]
  held := by simp [enqueued]
  slots := by simp [enqueued]
  wait := by simp [enqueued]
  results := by simp [enqueued]
  late := by simp [enqueued]
  calm := by simp [enqueued]
  granted := by simp [enqueued]
  counted := Counted.bump (w.modLine i (fun l => { l with queue := l.queue ++ [r] })) (.line i .requestsAccepted)

/-- On a line that is not IDLE the request waits in the queue (R54). -/
theorem joinQueue_waits {w : State} {i : Fin 12} (r : Request) (busy : (w.line i).txn ≠ .idle) :
    Joined i { w.line i with queue := (w.line i).queue ++ [r] } 0 w (w.joinQueue i r) := by
  have busy' : ((w.enqueued i r).line i).txn ≠ .idle := by
    rw [(enqueued_joined w i r).line]; exact busy
  rw [joinQueue_eq, selectIfIdle_busy busy']
  exact enqueued_joined w i r

/-- A line whose one piece of work is a request takes that (R58). -/
theorem choose_only {l : Line} {r : Request} (now : Nat) (queue : l.queue = [r]) (due : l.due = []) :
    choose l now = .request r [] := by
  cases urgent : r.urgent with
  | true => exact choose_urgent now (a := []) queue (by simp) urgent
  | false =>
    rw [choose_calm now (by simp [queue, urgent]), chooseAged_cons now queue urgent, chooseDue_nil due,
      chooseNormal_cons queue urgent, ite_self]

/-- On an IDLE line with nothing waiting and blocks free, listen QUIET, the request is taken into hand and sending begins
(R4, R6, R7, R57, R58). -/
theorem joinQueue_sends {w : State} {i : Fin 12} {r : Request} (idle : (w.line i).txn = .idle)
    (quiet : (w.line i).listen = .quiet) (queue : (w.line i).queue = []) (due : (w.line i).due = [])
    (nobody : w.pool.waitList = []) (granted : w.granted = [])
    (room : ((Work.request r).need (w.line i).applied).blocks + 16 ≤ w.pool.free) :
    let n := ((Work.request r).need (w.line i).applied).blocks
    Joined i (sendingLine (w.line i) { Txn.start (.request r) with reservation := some n } r.payload[0]?) n w
      (w.joinQueue i r) := by
  intro n
  have joined := enqueued_joined w i r
  have selects : (w.enqueued i r).selectIfIdle i =
      ((w.enqueued i r).modLine i (fun l => { l with queue := [] })).takeInHand i (.request r) := by
    rw [selectIfIdle_idle _ _ (by rw [joined.line]; exact idle), select,
      choose_only (r := r) _ (by rw [joined.line]; simp [queue]) (by rw [joined.line]; exact due)]
  obtain ⟨mid, hmid⟩ : ∃ mid, mid = (w.enqueued i r).modLine i (fun l => { l with queue := [] }) := ⟨_, rfl⟩
  have settings : mid.line i = w.line i := by rw [hmid, line_modLine_same, joined.line, ← queue]
  have midFree : mid.pool.free = w.pool.free := by rw [hmid, pool_modLine, joined.free]; rfl
  have passes : mid.pool.passes ((Work.request r).need (mid.line i).applied) = true := by
    rw [settings]
    exact (passes_iff _ _).mpr ⟨by rw [midFree]; exact room, fun slot => by cases slot⟩
  obtain ⟨line, free, reserved, slots, wait, polls, quietly, outside, none⟩ := takeInHand_free mid i (.request r)
    (by simpa [hmid, joined.wait] using nobody) (by simpa [hmid, joined.granted] using granted) passes
  obtain ⟨calm, results, late, ctrs, total⟩ := quietly
  rw [settings] at line free reserved slots
  have held : (mid.takeInHand i (.request r)).pool.held = mid.pool.held := by
    simp only [Pool.total, free, reserved] at total
    omega
  rw [joinQueue_eq, selects, ← hmid]
  refine
    { line := ?_, outside := ?_, polls := ?_, free := ?_, reserved := ?_, held := ?_, slots := ?_, wait := ?_,
      results := ?_, late := ?_, calm := ?_, granted := ?_, counted := fun d straight => ?_ }
  · rw [line, if_pos quiet]
    rfl
  · exact (SameOutside.modLine joined.outside hmid).trans outside
  · rw [polls, hmid]; simp [joined.polls]
  · rw [free, midFree]
  · rw [reserved, hmid]; simp [joined.reserved]; rfl
  · rw [held, hmid]; exact joined.held
  · rw [slots, hmid]; exact joined.slots
  · rw [wait, nobody]
  · rw [results, hmid]; simp [joined.results]
  · rw [late, hmid]; simp [joined.late]
  · rw [calm, hmid]; exact joined.calm
  · rw [none, granted]
  · rw [ctrs d straight, hmid]; exact joined.counted d straight

/-! The dispatch of a LINE_REQUEST (R126, R128). -/

theorem exec_lineRequest {s : State} {r : LineRequest} (head : s.headRecord = some (.lineRequest r)) :
    exec .lineRequest s = finished (s.dispatchRequest r) := by
  show execLineRequest s = _
  rw [execLineRequest, head]

theorem dispatchRequest_places {s : State} {r : LineRequest} (accepts : s.dispatchRefusal r = none)
    (grants : s.grantsNow (payloadNeed r) = true) :
    s.dispatchRequest r = (s.take (payloadNeed r) .held).placePayload r := by
  rw [dispatchRequest, accepts]
  exact if_pos grants

theorem placePayload_joins {w : State} {i : Fin 12} {r : LineRequest} (line : r.line = lineByte i)
    (accepts : (w.line i).joinRefusal r = none) :
    w.placePayload r = (w.joinQueue i (w.asRequest r)).dispatched r.size := by
  rw [placePayload, line, lineOf_lineByte]
  simp only [accepts]

end State

theorem expectLenOk_iff {e : Option Nat} {limit : Nat} :
    expectLenOk e limit = true ↔ ∀ n, e = some n → 1 ≤ n ∧ n ≤ limit := by
  cases e <;> simp [expectLenOk]

section
variable {l : Line} {r : LineRequest} (service : l.txn ≠ .offline) (room : l.queue.length < l.applied.queueDepth)
  (expect : ∀ n, r.expectLen = some n → 1 ≤ n ∧ n ≤ l.applied.maxReply)
include service room expect

/-- A request that passes the checks of its placing (R54, R128). -/
theorem Line.joinRefusal_none : l.joinRefusal r = none := by
  rw [Line.joinRefusal, expectLenOk_iff.mpr expect, if_neg (by simp), if_neg service, if_neg (Nat.not_le.mpr room)]

/-- A request that passes the checks of its dispatch (R126). -/
theorem Line.dispatchRefusal_none (some : 1 ≤ r.payload.length) (short : r.payload.length ≤ 255) :
    l.dispatchRefusal r = none := by
  rw [Line.dispatchRefusal, if_neg service, if_neg (Nat.not_le.mpr room), if_neg]
  rintro (empty | long | bad)
  · omega
  · omega
  · rw [expectLenOk_iff.mpr expect] at bad
    cases bad

end

theorem payloadBlocks_eq (p : List Byte) : payloadBlocks p = (p.length + 31) / 32 := rfl

/-- A LINE_REQUEST that passes its checks and finds its blocks: what its joining the line queue leaves, and its payload held
(R53, R54, R128). -/
theorem lineRequest_completes {i : Fin 12} {r : LineRequest} {s : State} {l : Line} {taken : Nat}
    (head : s.headRecord = some (.lineRequest r)) (line : r.line = lineByte i) (service : (s.line i).txn ≠ .offline)
    (room : (s.line i).queue.length < (s.line i).applied.queueDepth) (filled : 1 ≤ r.payload.length)
    (short : r.payload.length ≤ 255) (expect : ∀ n, r.expectLen = some n → 1 ≤ n ∧ n ≤ (s.line i).applied.maxReply)
    (nobody : s.pool.waitList = []) (free : (r.payload.length + 31) / 32 + 16 ≤ s.pool.free)
    (slots : s.pool.slotsUsed + 9 ≤ 256) (between : s.between)
    (joins : Joined i l taken (s.take (payloadNeed r) .held)
      ((s.take (payloadNeed r) .held).joinQueue i (s.asRequest r))) :
    Completes .lineRequest s (fun t => t.line i = l ∧
      t.pool.free = s.pool.free - (r.payload.length + 31) / 32 - taken ∧
      t.pool.held = s.pool.held + (r.payload.length + 31) / 32 ∧ t.pool.reserved = s.pool.reserved + taken ∧
      t.pool.slotsUsed = s.pool.slotsUsed + 1 ∧ t.pool.waitList = [] ∧
      Counted [.line i .requestsAccepted] s t ∧ Dispatched r.size s t ∧ t.intake.holdTimer = s.intake.holdTimer ∧
      (∀ j, j ≠ i → t.line j = s.line j) ∧ t.polls = s.polls ∧ t.results = s.results ∧ SameLink s t ∧
      SameSettings s t) := by
  have passes : s.pool.passes (payloadNeed r) = true :=
    (State.passes_iff _ _).mpr ⟨by simpa [payloadNeed, payloadBlocks_eq] using free, fun _ => by omega⟩
  have grants : s.grantsNow (payloadNeed r) = true := by simp [State.grantsNow, nobody, passes]
  have accepts : s.dispatchRefusal r = none := by
    rw [State.dispatchRefusal, line, lineOf_lineByte]
    exact Line.dispatchRefusal_none service room expect filled short
  obtain ⟨tFree, tReserved, tHeld, _⟩ := s.take_granted (payloadNeed r) .held passes
  have asked : (s.take (payloadNeed r) .held).asRequest r = s.asRequest r := by simp [State.asRequest]
  have placed : s.dispatchRequest r =
      ((s.take (payloadNeed r) .held).joinQueue i (s.asRequest r)).dispatched r.size := by
    rw [State.dispatchRequest_places accepts grants, State.placePayload_joins line, asked]
    simpa using Line.joinRefusal_none service room expect
  obtain ⟨jLine, ⟨jOthers, jIntake, jCfg, jRun, jClock, jPending⟩, jPolls, jFree, jReserved, jHeld, jSlots, jWait, jResults,
    jLate, jCalm, jGranted, jCounted⟩ := joins
  have headless := State.headRecord_stall head
  refine completes_of _ ((State.exec_lineRequest head).trans (congrArg finished placed))
    (by simp [jGranted, between.2]) ⟨?_, ?_, ?_, ?_, ?_, ?_, ?_, ?_, ?_, ?_, ?_, ?_, ?_, ?_⟩
  · simp [jLine]
  · simp only [State.close_frame, State.dispatched_frame, jFree, tFree]; rfl
  · simp only [State.close_frame, State.dispatched_frame, jHeld, tHeld]; rfl
  · simp only [State.close_frame, State.dispatched_frame, jReserved, tReserved]; rfl
  · simp only [State.close_frame, State.dispatched_frame, jSlots, State.take_frame]; rfl
  · simp [jWait, nobody]
  · refine Counted.close fun d straight => ?_
    have stands : ∀ v : State, (v.dispatched r.size).ctrs = v.ctrs := fun v => by simp
    rw [stands, jCounted d straight, State.take_quiet _ _ _ _ straight]
  · simp [Dispatched, jIntake, headless]
  · simp [jIntake]
  · intro j other; simp [jOthers j other]
  · simp [jPolls]
  · simp [jResults, jLate, between.late]
  · refine sameLink_close (sameLink_of_calm ?_)
    simp [jCalm]
  · simp [SameSettings, jCfg, jRun, jClock, jPending]

/-- Settles O25: the request waits in the queue (`State.joinQueue_waits`). -/
theorem lineRequestQueued : Obligations.LineRequestQueued := by
  intro i r s head line service busy room filled short expect nobody free slots between
  have same : (s.take (payloadNeed r) .held).line i = s.line i := by simp
  obtain ⟨t, step, line, free, held, reserved, slots, _, counted, dispatched, _, others, polls, results, link, settings⟩ :=
    lineRequest_completes head line service room filled short expect nobody free slots between
      (State.joinQueue_waits _ (by rw [same]; exact busy))
  rw [same] at line
  exact ⟨t, step, line, free, held, reserved, slots, counted, dispatched, others, polls, results, link, settings⟩

/-- Settles O26: the request is taken into hand at once (`State.joinQueue_sends`). -/
theorem requestOnIdleLine : Obligations.RequestOnIdleLine := by
  intro i r s head line idle quiet queue due depth filled short expect nobody blocks x free slots between
  have same : (s.take (payloadNeed r) .held).line i = s.line i := by simp
  have need : ((Work.request (s.asRequest r)).need (s.line i).applied).blocks = blocks := rfl
  have left : (s.take (payloadNeed r) .held).pool.free = s.pool.free - (r.payload.length + 31) / 32 := by
    have passes : s.pool.passes (payloadNeed r) = true :=
      (State.passes_iff _ _).mpr ⟨by simp only [payloadNeed, payloadBlocks_eq]; omega, fun _ => by omega⟩
    exact (s.take_granted (payloadNeed r) .held passes).1
  have joins := State.joinQueue_sends (w := s.take (payloadNeed r) .held) (i := i) (r := s.asRequest r)
    (by rw [same]; exact idle) (by rw [same]; exact quiet) (by rw [same]; exact queue) (by rw [same]; exact due)
    (by simpa using nobody) (by simpa using between.2) (by rw [same, need, left]; omega)
  rw [same, need] at joins
  exact lineRequest_completes head line (by rw [idle]; decide) (by rw [queue]; exact depth) filled short expect nobody
    (by omega) slots between joins

end Sys2Proof.Machine
end

section
/-! LINE_REQUEST refused, dispatch stalled, a malformed record, and the end of a stall (R125 to R135). -/

namespace Sys2Proof.Machine

/-! The refusal of a LINE_REQUEST (R126, R127). -/

/-- A bump of one more counter after others. -/
theorem State.countRefusal_line (s : State) {x : Byte} {i : Fin 12} (line : x = lineByte i) :
    s.countRefusal x = s.bump (.line i .requestsRefused) := by
  rw [State.countRefusal, line, lineOf_lineByte]

theorem State.countRefusal_noLine (s : State) {x : Byte} (line : ∀ i, x ≠ lineByte i) : s.countRefusal x = s := by
  rw [State.countRefusal, lineOf_none line]

theorem State.refusalBuilt_line (w : State) {r : LineRequest} {i : Fin 12} (o : TxnOutcome) (line : r.line = lineByte i) :
    Counted [.line i .requestsRefused] w (w.refusalBuilt r o) := by
  rw [State.refusalBuilt, State.countRefusal_line _ line]
  have bumped : Counted [.line i .requestsRefused] w
      ((w.join (.reply r.tag r.line o 0 none []) r.urgent 1).bump (.line i .requestsRefused)) :=
    Counted.bump (w.join (.reply r.tag r.line o 0 none []) r.urgent 1) _
  exact bumped.step (Counted.same (by simp))

theorem State.refusalBuilt_noLine (w : State) {r : LineRequest} (o : TxnOutcome) (line : ∀ i, r.line ≠ lineByte i) :
    Counted [] w (w.refusalBuilt r o) := by
  rw [State.refusalBuilt, State.countRefusal_noLine _ line]
  exact Counted.same (by simp)

section
variable {w s : State} {r : LineRequest} {o : TxnOutcome} {cs : List CtrId}

/-- A refusal found at dispatch, its REPLY built in a block and slot of its own (R127). -/
theorem refusal_completes (head : s.headRecord = some (.lineRequest r)) (nobody : s.pool.waitList = [])
    (free : 1 ≤ s.pool.free) (slot : s.pool.slotsUsed + 1 ≤ 256) (between : s.between)
    (refused : s.dispatchRefusal r = some o)
    (counts : Counted cs (s.take refusalNeed .held) ((s.take refusalNeed .held).refusalBuilt r o)) :
    Completes .lineRequest s (fun t =>
      t.results = s.results ++ [s.stamp (.reply r.tag r.line o 0 none []) r.urgent 1] ∧
      t.pool.free = s.pool.free - 1 ∧ t.pool.held = s.pool.held + 1 ∧ t.pool.reserved = s.pool.reserved ∧
      t.pool.slotsUsed = s.pool.slotsUsed + 1 ∧ Counted cs s t ∧ Dispatched r.size s t ∧ SameTables s t ∧
      SameLink s t) := by
  have passes : s.pool.passes refusalNeed = true := (State.passes_iff _ _).mpr ⟨free, fun _ => slot⟩
  have grants : s.grantsNow refusalNeed = true := by simp [State.grantsNow, nobody, passes]
  have asked : s.dispatchRequest r = (s.take refusalNeed .held).refusalBuilt r o := by
    rw [State.dispatchRequest, refused]
    exact if_pos grants
  obtain ⟨left, reserved, held, _⟩ := s.take_granted refusalNeed .held passes
  have headless := State.headRecord_stall head
  obtain ⟨results, granted, late, tables, free', held', reserved', slots', _, intake, calm⟩ :=
    State.refusalBuilt_frame (s.take refusalNeed .held) r o
  obtain ⟨lines, polls, cfg, pollRun, clock, pending⟩ := tables
  have stamps : (s.take refusalNeed .held).stamp (.reply r.tag r.line o 0 none []) r.urgent 1 =
      s.stamp (.reply r.tag r.line o 0 none []) r.urgent 1 := State.stamp_congr _ _ (by simp) (by simp) _ _ _
  refine completes_of _ ((State.exec_lineRequest head).trans (congrArg finished asked)) (by rw [granted]; simp [between.2])
    ⟨?_, ?_, ?_, ?_, ?_, ?_, ?_, ?_, ?_⟩
  · rw [State.close_results, results, late, stamps]
    simp [between.late]
  · simp only [State.close_frame, free', left]; rfl
  · simp only [State.close_frame, held', held]; rfl
  · simp only [State.close_frame, reserved', reserved]; rfl
  · simp only [State.close_frame, slots', State.take_frame]; rfl
  · refine Counted.close fun d straight => ?_
    rw [counts d straight, State.take_quiet _ _ _ _ straight]
  · simp [Dispatched, intake, headless]
  · simp [SameTables, lines, polls, cfg, pollRun, clock, pending]
  · refine sameLink_close (sameLink_of_calm ?_)
    rw [calm]; simp
end

/-- Settles O27: the first check that fails gives the outcome, and each refusal completes alike (`refusal_completes`). -/
theorem lineRequestRefused : Obligations.LineRequestRefused := by
  intro r s head nobody free slot between refused
  refine ⟨fun line => ?badLine, fun i line => ?_⟩
  case badLine =>
    refine refusal_completes head nobody free slot between ?_ (State.refusalBuilt_noLine _ _ line)
    rw [State.dispatchRefusal, lineOf_none line]
  have at_line : ∀ {o : TxnOutcome}, (s.line i).dispatchRefusal r = some o →
      Completes .lineRequest s (refused o [.line i .requestsRefused]) := fun found =>
    refusal_completes head nobody free slot between (by rw [State.dispatchRefusal, line, lineOf_lineByte]; exact found)
      (State.refusalBuilt_line _ _ line)
  refine ⟨fun offline => at_line ?_, fun service full => at_line ?_, fun service room bad => at_line ?_⟩
  · rw [Line.dispatchRefusal, if_pos offline]
  · rw [Line.dispatchRefusal, if_neg service, if_pos full]
  · rw [Line.dispatchRefusal, if_neg service, if_neg (Nat.not_le.mpr room), if_pos]
    refine bad.imp_right (Or.imp_right ?_)
    rintro ⟨n, expect, out⟩
    simp only [expect, expectLenOk, Bool.and_eq_false_iff, decide_eq_false_iff_not]
    omega

/-! Dispatch stalls (R131, R132). -/

/-- The unit joins the wait list with a record it cannot place. -/
theorem stall_completes {s : State} {c : Instr} {st : Stall} {need : Need} {timer : Option Nat}
    (exec : exec c s = finished (s.stallOn st need timer)) (between : s.between) :
    Completes c s (fun t => t.intake.stall = some st ∧ t.intake.frames = s.intake.frames ∧ t.intake.holdTimer = timer ∧
      t.pool.waitList = s.pool.waitList ++ [{ who := .intake, need := need }] ∧ t.pool.free = s.pool.free ∧
      t.pool.reserved = s.pool.reserved ∧ t.pool.held = s.pool.held ∧ t.pool.slotsUsed = s.pool.slotsUsed ∧
      Counted [.pool .waitSpaceEntries] s t ∧ SameTables s t ∧ SameLink s t ∧ t.results = s.results) := by
  refine completes_of _ exec (by simp [State.stallOn, between.2]) ⟨?_, ?_, ?_, ?_, ?_, ?_, ?_, ?_, ?_, ?_, ?_, ?_⟩
  case refine_9 => exact (Counted.bump ((s.setIntake _).setPool _) (.pool .waitSpaceEntries)).close
  case refine_10 => simp [State.stallOn, SameTables]
  case refine_11 => exact sameLink_close (sameLink_of_calm (by simp [State.stallOn]))
  case refine_12 => simp [State.stallOn, State.joinWait, between.late]
  all_goals simp [State.stallOn]

/-- A requester that finds a waiter before it, or fails its test, is not granted at once (R93). -/
theorem State.grantsNow_false {s : State} {n : Need} (h : s.pool.waitList ≠ [] ∨ s.pool.passes n = false) :
    s.grantsNow n = false := by
  rcases h with h | h <;> simp [State.grantsNow, h]

/-- A management request at the head goes through dispatch, a RESTART that is executed apart (R129, R130). -/
theorem exec_command {s : State} {m : MgmtRequest} (head : s.headRecord = some (.command m))
    (flag : commandOf m.code = some .restart → m.params ≠ [0] ∧ m.params ≠ [1]) :
    exec (instrOf (commandOf m.code)) s = finished (s.dispatchCommand m) := by
  have command : s.headCommand (commandOf m.code) = some m := by simp [State.headCommand, head]
  generalize named : commandOf m.code = c at command flag ⊢
  have dispatch : s.dispatchHead c = finished (s.dispatchCommand m) := by rw [State.dispatchHead, command]
  cases c with
  | none => exact dispatch
  | some c =>
    cases c
    case restart =>
      show execRestart s = _
      rw [execRestart, command]
      simp only [restartFlag_none (flag rfl).1 (flag rfl).2]
    all_goals exact dispatch

/-- Settles O28: each record that finds no space stalls alike (`stall_completes`). -/
theorem dispatchStalls : Obligations.DispatchStalls := by
  intro s between stalled limit
  refine ⟨?payload, ?refusal, ?command⟩
  case payload =>
    intro r head accepts need waits
    refine stall_completes ?_ between
    rw [State.exec_lineRequest head, State.dispatchRequest, accepts]
    simp only [State.askPayload, State.grantsNow_false (n := payloadNeed r) waits]
    rfl
  case refusal =>
    intro r o head refused need waits
    refine stall_completes ?_ between
    rw [State.exec_lineRequest head, State.dispatchRequest, refused]
    simp only [State.askRefusal, State.grantsNow_false (n := refusalNeed) waits]
    rfl
  case command =>
    intro m head flag need waits
    refine stall_completes ?_ between
    rw [exec_command head flag, State.dispatchCommand, State.grantsNow_false (n := m.need) waits]
    rfl

/-! A malformed record (R125). -/

/-- A counter that does not stand at 32767 does not become 32768 (R193). -/
theorem Counter.crosses_false {c : Counter} (h : c.value ≠ 32767) : c.crosses = false := by
  simp only [Counter.crosses, Bool.and_eq_false_iff, beq_eq_false_iff_ne]
  exact .inl h

theorem parseRecord_malformed {b : List Byte} (h : malformedAt b) : parseRecord b = .malformed := by
  unfold parseRecord
  rcases h with short | cut | foreign | ⟨mgmt, brief⟩ | ⟨request, brief⟩ | ⟨request, expect, brief⟩
  · rw [if_pos short]
  · rw [if_pos cut, ite_self]
  · rw [if_neg foreign.1, if_neg foreign.2, ite_self, ite_self]
  · have other : byteAt b 0 ≠ 0x10 := by rw [mgmt]; decide
    rw [if_neg other, if_pos mgmt, parseCommand, if_pos brief, ite_self, ite_self]
  · rw [if_pos request, parseLineRequest, if_pos brief, ite_self, ite_self]
  · rw [if_pos request, parseLineRequest, expect, if_pos (show (halfAt b 1).toNat < requestHeader true from brief),
      ite_self, ite_self, ite_self]

/-- Settles O29: BAD_RECORD stands next in the stream, and the frame is finished. -/
theorem malformedRecordDiscardsFrame : Obligations.MalformedRecordDiscardsFrame := by
  intro f fs s stall frames left malformed between
  have head : s.headRecord = some .malformed := by
    rw [State.headRecord, stall, frames]
    simp only [if_pos left, parseRecord_malformed malformed]
  have ex : exec .malformedRecord s = finished (s.dropMalformed f) := by
    show execMalformedRecord s = _
    rw [execMalformedRecord, head, frames]
  have finishedFrame : unfinished (moveOffset f.payload.length (f :: fs)) = unfinished fs := by
    simp [moveOffset, unfinished]
  refine completes_of _ ex (by simp [State.dropMalformed, between.2]) ⟨fun slot calm => ?_, ?_, ?_, ?_, ?_, ?_, ?_, ?_⟩
  · have quiet : ((s.raiseEvent .badRecord 0 (badRecordDetail f)).ctrs.read (.link .badRecords)).crosses = false := by
      rw [State.raiseEvent_ctrs _ _ _ _ _ (by simp)]
      exact Counter.crosses_false calm
    refine State.joinedBehind_of _ _ _ ?_
    rw [State.dropMalformed, (State.dispatched_stream _ _).1, State.bump_calm _ _ quiet]
    exact (State.raiseEvent_stream s _ _ _ slot) ▸ List.prefix_rfl
  · have bumped : Counted [.link .badRecords] s
        ((s.raiseEvent .badRecord 0 (badRecordDetail f)).bump (.link .badRecords)) := by
      refine Counted.cons (Counted.quiet fun d straight => ?_) _ (by simp)
      obtain ⟨missed, _⟩ := sideways_ne straight
      simp [missed]
    exact (bumped.step (Counted.same (by simp [State.dropMalformed]))).close
  · simp [State.dropMalformed, frames, finishedFrame]
  · simp [State.dropMalformed, stall]
  · simp [State.dropMalformed, SameTables]
  · simp [State.dropMalformed, SamePool]
  · exact sameLink_close (sameLink_of_calm (by simp [State.dropMalformed]))
  · simp [State.dropMalformed, between.late]


/-! The hold timer of a stall (R133 to R135). -/

namespace State

/-- The state after the hold timer has ended a stall, where the new head of the wait list fails its test (R133). -/
theorem holdExpired_eq {s : State}
    (fails : ∀ w ws, s.pool.waitList.filter (fun w => w.who != .intake) = w :: ws → s.pool.passes w.need = false) :
    s.holdExpired = ((s.leaveWait .intake).unstall).bump (.link .holdTimeouts) := by
  refine grantAll_none fun w ws head => ?_
  have others : s.pool.waitList.filter (fun w => w.who != .intake) = w :: ws := by
    simpa [leaveWait, unstall] using head
  exact Pool.passes_anti _ (by simp [unstall]) (by simp [unstall]) (fails w ws others)

end State

section
variable {s v : State}

/-- What the end of a stall leaves (R133). -/
structure Unstalled (s v : State) : Prop where
  stall : v.intake.stall = none
  timer : v.intake.holdTimer = none
  frames : v.intake.frames = s.intake.frames
  wait : v.pool.waitList = s.pool.waitList.filter (fun w => w.who != .intake)
  free : v.pool.free = s.pool.free
  held : v.pool.held = s.pool.held
  slots : v.pool.slotsUsed = s.pool.slotsUsed
  events : v.pool.eventsUsed ≤ s.pool.eventsUsed + 1
  tables : SameTables s v
  calm : v.trunk.calm = s.trunk.calm
  results : v.results = s.results
  stream : v.stream = s.stream
  late : v.lateResults = s.lateResults
  granted : v.granted = s.granted
  counted : Counted [.link .holdTimeouts] s v

theorem State.holdExpired_unstalled
    (fails : ∀ w ws, s.pool.waitList.filter (fun w => w.who != .intake) = w :: ws → s.pool.passes w.need = false) :
    Unstalled s s.holdExpired := by
  rw [State.holdExpired_eq fails]
  exact {
    stall := by simp [unstall]
    timer := by simp [unstall]
    frames := by simp [unstall]
    wait := by simp [unstall, leaveWait]
    free := by simp [unstall]
    held := by simp [unstall]
    slots := by simp [unstall]
    events := State.bump_eventsUsed ((s.leaveWait .intake).unstall) _
    tables := by simp [SameTables, unstall]
    calm := by simp [unstall]
    results := by simp [unstall, leaveWait]
    stream := by simp [State.stream, unstall]
    late := by simp [unstall, leaveWait]
    granted := by simp [unstall]
    counted := Counted.bump ((s.leaveWait .intake).unstall) _ }

end

theorem Counted.stalled {cs : List CtrId} {s t : State} (h : Counted cs s t) (st : Stall) (n : Need) (timer : Option Nat)
    (fresh : CtrId.pool .waitSpaceEntries ∉ cs) :
    Counted (.pool .waitSpaceEntries :: cs) s (t.stallOn st n timer) := by
  have queued : ∀ u : State, u.ctrs = t.ctrs → Counted (.pool .waitSpaceEntries :: cs) s (u.bump (.pool .waitSpaceEntries)) :=
    fun u same => (h.step (Counted.same same)).cons _ fresh
  exact queued _ rfl

section
variable {s v : State} {r : LineRequest} {m : MgmtRequest} (ended : Unstalled s v) (between : s.between)
include ended between

/-- The stalled request is refused NO_SPACE (R134). -/
theorem Unstalled.refuses (ex : exec .holdTimerExpiry s = finished (v.askRefusal r .noSpace)) {i : Fin 12}
    (line : r.line = lineByte i) (alone : v.pool.waitList = []) (room : 1 ≤ s.pool.free)
    (slot : s.pool.slotsUsed + 1 ≤ 256) : Completes .holdTimerExpiry s (fun t =>
      t.results = s.results ++ [s.stamp (.reply r.tag r.line .noSpace 0 none []) r.urgent 1] ∧
      t.pool.waitList = [] ∧ t.pool.free = s.pool.free - 1 ∧ t.pool.held = s.pool.held + 1 ∧
      t.pool.slotsUsed = s.pool.slotsUsed + 1 ∧ t.intake.holdTimer = none ∧
      Counted [.link .holdTimeouts, .line i .requestsRefused] s t ∧ Dispatched r.size s t ∧ SameTables s t ∧
      SameLink s t) := by
  obtain ⟨stall, timer, frames, _, free, held, slots, _, tables, calm, results, _, late, granted, counted⟩ := ended
  obtain ⟨lines, polls, cfg, pollRun, clock, pending⟩ := tables
  have passes : v.pool.passes refusalNeed = true :=
    (State.passes_iff _ _).mpr ⟨by rw [free]; exact room, fun _ => by rw [slots]; exact slot⟩
  rw [State.askRefusal, if_pos (by simp [State.grantsNow, alone, passes])] at ex
  obtain ⟨tFree, _, tHeld, _⟩ := State.take_granted v refusalNeed .held passes
  obtain ⟨rResults, rGranted, rLate, ⟨rLines, rPolls, rCfg, rRun, rClock, rPending⟩, rFree, rHeld, _, rSlots, rWait,
    rIntake, rCalm, rCounted⟩ := State.refusalBuilt_told (v.take refusalNeed .held) r .noSpace (by simpa using stall)
  have stamps := State.stamp_congr (v.take refusalNeed .held) s (by simp [clock]) (by simp [cfg])
  have taken : Counted [.link .holdTimeouts] s (v.take refusalNeed .held) := fun d straight =>
    (State.take_quiet _ _ _ _ straight).trans (counted d straight)
  refine completes_of _ ex (by rw [rGranted]; simp [granted, between.2]) ⟨?_, ?_, ?_, ?_, ?_, ?_, ?_, ?_, ?_, ?_⟩
  · rw [State.close_results, rResults, rLate, stamps]
    simp [results, late, between.late]
  · simp [rWait, alone]
  · simp only [State.close_frame, rFree, tFree, free]; rfl
  · simp only [State.close_frame, rHeld, tHeld, held]; rfl
  · simp only [State.close_frame, rSlots, State.take_frame, slots]; rfl
  · simp [rIntake, timer]
  · exact (rCounted [.link .holdTimeouts] s taken i line (by simp)).swap.close
  · simp [Dispatched, rIntake, frames, stall]
  · simp [SameTables, rLines, rPolls, rCfg, rRun, rClock, rPending, lines, polls, cfg, pollRun, clock, pending]
  · exact sameLink_close (sameLink_of_calm (by rw [rCalm]; simp [calm]))

/-- The stalled request waits again, for the space of its refusal (R134). -/
theorem Unstalled.waits (ex : exec .holdTimerExpiry s = finished (v.askRefusal r .noSpace))
    (behind : v.pool.waitList ≠ []) : Completes .holdTimerExpiry s (fun t =>
      t.intake.stall = some (.refusal r .noSpace) ∧ t.intake.holdTimer = none ∧
      t.intake.frames = s.intake.frames ∧ t.pool.waitList = v.pool.waitList ++
        [{ who := .intake, need := { blocks := 1, slot := true, cls := .response } }] ∧
      Counted [.link .holdTimeouts, .pool .waitSpaceEntries] s t ∧ SameTables s t ∧ SameLink s t ∧
      t.results = s.results ∧ t.pool.free = s.pool.free) := by
  obtain ⟨stall, timer, frames, _, free, held, slots, _, tables, calm, results, _, late, granted, counted⟩ := ended
  obtain ⟨lines, polls, cfg, pollRun, clock, pending⟩ := tables
  rw [State.askRefusal, State.grantsNow_false (.inl behind), if_neg (by simp)] at ex
  refine completes_of _ ex (by simp [State.stallOn, granted, between.2]) ⟨?_, ?_, ?_, ?_, ?_, ?_, ?_, ?_, ?_⟩
  · simp [State.stallOn]
  · simp [State.stallOn]
  · simp [State.stallOn, frames]
  · simp [State.stallOn, refusalNeed]
  · exact (counted.stalled _ _ _ (by simp)).swap.close
  · simp [State.stallOn, SameTables, lines, polls, cfg, pollRun, clock, pending]
  · exact sameLink_close (sameLink_of_calm (by simp [State.stallOn, calm]))
  · simp [State.stallOn, State.joinWait, results, late, between.late]
  · simp [State.stallOn, free]

/-- The stalled command is dropped (R135). -/
theorem Unstalled.drops (ex : exec .holdTimerExpiry s = finished (v.dropCommand m)) :
    Completes .holdTimerExpiry s (fun t =>
      (s.pool.eventsUsed + 2 ≤ 16 → ∃ n : Nat,
        JoinedBehind [s.stamp (.event .mgmtDropped 0 n ((m.tag ++ m.code) ++ 0#8)) true 0] s t) ∧
      t.pool.waitList = v.pool.waitList ∧ t.intake.holdTimer = none ∧ Counted [.link .holdTimeouts] s t ∧
      Dispatched m.size s t ∧ SameTables s t ∧ SameLink s t ∧ t.results = s.results ∧
      t.pool.free = s.pool.free) := by
  obtain ⟨stall, timer, frames, _, free, held, slots, events, tables, calm, results, stream, late, granted, counted⟩ := ended
  obtain ⟨lines, polls, cfg, pollRun, clock, pending⟩ := tables
  refine completes_of _ ex (by simp [State.dropCommand, granted, between.2])
    ⟨fun room => ⟨v.pool.missedEvents, State.joinedBehind_of _ _ _ ?_⟩, ?_, ?_, ?_, ?_, ?_, ?_, ?_, ?_⟩
  · rw [State.dropCommand, (State.dispatched_stream _ _).1, State.raiseEvent_stream _ _ _ _ (by omega), stream,
      State.stamp_congr v s clock cfg]
    exact List.prefix_rfl
  · simp [State.dropCommand]
  · simp [State.dropCommand, timer]
  · refine Counted.close fun d straight => ?_
    obtain ⟨missed, _⟩ := sideways_ne straight
    rw [← counted d straight]
    simp [State.dropCommand, missed]
  · simp [State.dropCommand, Dispatched, frames, stall]
  · simp [State.dropCommand, SameTables, lines, polls, cfg, pollRun, clock, pending]
  · exact sameLink_close (sameLink_of_calm (by simp [State.dropCommand, calm]))
  · simp [State.dropCommand, results, late, between.late]
  · simp [State.dropCommand, free]

end

/-- Settles O30: the stall ends (`State.holdExpired_unstalled`); then the request is refused, or waits for its refusal's space,
or the command is dropped. -/
theorem holdTimerExpiry : Obligations.HoldTimerExpiry := by
  intro d s timer reached between others fails
  have expired := State.expired_some timer reached
  have ended := State.holdExpired_unstalled fails
  refine ⟨fun r stall => ?_, fun m stall => ?_⟩
  · have ex : exec .holdTimerExpiry s = finished (s.holdExpired.askRefusal r .noSpace) := by
      show execHoldTimerExpiry s = _
      rw [execHoldTimerExpiry, if_pos expired, stall]
    refine ⟨fun i line alone => ended.refuses between ex line (ended.wait.trans alone), fun behind => ?_⟩
    have waits := ended.waits between ex (by rw [ended.wait]; exact behind)
    rwa [ended.wait] at waits
  · have ex : exec .holdTimerExpiry s = finished (s.holdExpired.dropCommand m) := by
      show execHoldTimerExpiry s = _
      rw [execHoldTimerExpiry, if_pos expired, stall]
    have drops := ended.drops between ex
    rwa [ended.wait] at drops

end Sys2Proof.Machine
end

section
/-! What an acknowledgement frees and whom it serves, and the granted intake unit (R54, R57, R96, R97, R127 to R129, R147). -/

namespace Sys2Proof.Machine

/-- What the acknowledgement of one frame frees, before anybody is granted: `blocks` blocks and `gone` record slots
(R96, R117, R140, R151). -/
structure Freed (blocks gone : Nat) (ack : Seq) (s u : State) : Prop where
  tables : SameTables s u
  intake : u.intake = s.intake
  granted : u.granted = s.granted
  wait : u.pool.waitList = s.pool.waitList
  free : u.pool.free = s.pool.free + blocks
  held : u.pool.held = s.pool.held - blocks
  reserved : u.pool.reserved = s.pool.reserved
  slots : u.pool.slotsUsed = s.pool.slotsUsed - gone
  up : u.trunk.up = s.trunk.up
  ack : u.trunk.peerAck = ack
  results : u.results = s.results.drop gone
  late : u.lateResults = s.lateResults
  counted : Counted [.link .framesReceived] s u

namespace State

/-- The release of a frame before it grants anybody (R96, R117). -/
def releasing (s : State) (g : SentFrame) : State :=
  ((s.freeRecordSlots (g.records.length - (g.records.filter Record.isEvent).length)).freeEventSlots
    (g.records.filter Record.isEvent).length).release 0 (g.records.map Record.blocks).sum

theorem releaseFrame_eq (s : State) (g : SentFrame) : s.releaseFrame g = (s.releasing g).grantAll := rfl

/-- The steps of a header behind the grants of its acknowledgement (R147, R155, R156). -/
def behindAck (v : State) (f : RxFrame) : State := (v.goBackEnds.takeAllow f.allow).takeReject f.reject

section
variable {s : State} {f : RxFrame} {g : SentFrame} {gs : List SentFrame}

/-- A header that acknowledges one frame grants behind its release, once (R147, R151). -/
theorem headed_one (up : s.trunk.up = true) (valid : s.trunk.ackValid f.ackSeq = true)
    (one : (f.ackSeq - s.trunk.peerAck).toNat = 1) (sent : s.trunk.retransmits = g :: gs) :
    s.headed f = ((s.goodFrame.acked f.ackSeq).releasing g).grantAll.behindAck f := by
  obtain ⟨trunk, _⟩ := goodFrame_frame up
  have new : f.ackSeq ≠ s.goodFrame.trunk.peerAck := by
    rw [trunk]
    intro same
    rw [same] at one
    simp at one
  have taken : s.goodFrame.takeAck f.ackSeq = ((s.goodFrame.acked f.ackSeq).releasing g).grantAll.goBackEnds := by
    have count : s.goodFrame.trunk.ackCount f.ackSeq = 1 := by rw [trunk]; exact one
    have frames : s.goodFrame.trunk.retransmits = g :: gs := by rw [trunk]; exact sent
    rw [takeAck, count, frames]
    rfl
  have valid' : s.goodFrame.trunk.ackValid f.ackSeq = true := by rw [trunk]; exact valid
  rw [headed, takeHeader, if_pos valid', if_neg new, taken, behindAck]

/-- The results behind a frame's records, once it has left the retransmit list (R151). -/
theorem acked_results {v : State} {ack : Seq} (one : v.trunk.ackCount ack = 1) (sent : v.trunk.retransmits = g :: gs) :
    (v.acked ack).results = v.results.drop (g.records.filter (fun r => !r.isEvent)).length := by
  simp [results, stream, acked, one, sent]

/-- What that release frees. -/
theorem releasing_freed (up : s.trunk.up = true) (one : (f.ackSeq - s.trunk.peerAck).toNat = 1)
    (sent : s.trunk.retransmits = g :: gs) (held : (g.records.map Record.blocks).sum ≤ s.pool.held) :
    Freed (g.records.map Record.blocks).sum (g.records.filter (fun r => !r.isEvent)).length f.ackSeq s
      ((s.goodFrame.acked f.ackSeq).releasing g) := by
  have good := goodFrame_up s up
  have count : s.goodFrame.trunk.ackCount f.ackSeq = 1 := by rw [good]; exact one
  have frames : s.goodFrame.trunk.retransmits = g :: gs := by rw [good]; exact sent
  have results : s.goodFrame.results = s.results := by
    rw [good, setTrunk_results _ _ (by simp)]
    simp
  have records : g.records.length - (g.records.filter Record.isEvent).length =
      (g.records.filter (fun r => !r.isEvent)).length := by
    have := List.length_eq_length_filter_add (l := g.records) Record.isEvent
    omega
  exact {
    tables := by simp [releasing, acked, SameTables, good]
    intake := by simp [releasing, acked, good]
    granted := by simp [releasing, acked, good]
    wait := by simp [releasing, acked, good]
    free := by simp [releasing, acked, good, held]
    held := by simp [releasing, acked, good, held]
    reserved := by simp [releasing, acked, good]
    slots := by simp [releasing, acked, good, records]
    up := by simp [releasing, acked, good]
    ack := by simp [releasing, acked, good]
    results := by
      rw [← results, ← acked_results count frames]
      simp [releasing]
    late := by simp [releasing, acked, good]
    counted := fun d straight => by
      obtain ⟨missed, low, _⟩ := sideways_ne straight
      rw [← Counted.bump s (.link .framesReceived) d straight]
      simp [releasing, acked, good, missed, low] }

end

/-- The steps behind the grants of an acknowledgement move the send side of the trunk alone (R147, R155, R156). -/
theorem sendOnly_behindAck (v : State) (f : RxFrame) : SendOnly v (v.behindAck f) ∧ SamePool v (v.behindAck f) ∧
    (v.behindAck f).pool.total = v.pool.total := by
  obtain ⟨ends, _, pool, _⟩ := v.goBackEnds_send
  have allow : SendOnly v (v.goBackEnds.takeAllow f.allow) := ends.trans ⟨rfl, rfl, rfl, rfl, rfl, rfl, rfl, rfl, rfl⟩
  have samePool : (v.goBackEnds.takeAllow f.allow).pool = v.pool := pool
  unfold behindAck takeReject
  split
  · refine ⟨allow.trans (sendOnly_startGoBack _), ?_, ?_⟩
    · simp [startGoBack, SamePool, samePool]
    · simp [startGoBack, samePool]
  · exact ⟨allow, by simp [SamePool, samePool], by rw [samePool]⟩

/-- Without a Reject they count nothing and leave the results. -/
theorem behindAck_plain (v : State) {f : RxFrame} (plain : f.reject = false) :
    (v.behindAck f).ctrs = v.ctrs ∧ (v.behindAck f).results = v.results ∧ (v.behindAck f).lateResults = v.lateResults ∧
    (v.behindAck f).trunk.peerAck = v.trunk.peerAck := by
  rw [behindAck, takeReject, plain]
  refine ⟨by simp [takeAllow], ?_, by simp [takeAllow], by simp [takeAllow]⟩
  simp only [Bool.false_and, Bool.false_eq_true, if_false]
  exact v.goBackEnds_results.1

end State

/-- The end of a step in which the intake unit alone has been granted its allocation `n`: `cs` have been counted, `gone` results
acknowledged, and `free`, `held` and `slots` were the pool's counts before the grant (R97). -/
structure IntakeGrant (n : Need) (cs : List CtrId) (gone free held slots : Nat) (link : State → Prop) (s g : State) : Prop where
  granted : g.granted = [.intake]
  intake : g.intake = s.intake
  tables : SameTables s g
  wait : g.pool.waitList = []
  fits : n.blocks ≤ free
  free : g.pool.free = free - n.blocks
  held : g.pool.held = held + n.blocks
  reserved : g.pool.reserved = s.pool.reserved
  slots : g.pool.slotsUsed = slots + if n.slot then 1 else 0
  results : g.results = s.results.drop gone
  late : g.lateResults = []
  counted : Counted cs s g
  plain : ∀ c ∈ cs, ∃ k, c = .link k
  link : ∀ t : State, t.trunk.calm = g.trunk.calm → link t.close

/-- What an acting intake unit tells: `taken` of the free blocks gone, `placed` more held, `ds` counted, `rs` joined. -/
def IntakeTold (n : Need) (cs : List CtrId) (gone free held slots : Nat) (link : State → Prop) (s : State)
    (taken placed : Nat) (ds : List CtrId) (rs : List Record) (t : State) : Prop :=
  t.pool.waitList = [] ∧ t.pool.free = free - taken ∧ t.pool.held = held + placed ∧
  t.pool.slotsUsed = slots + (if n.slot then 1 else 0) ∧ t.intake.holdTimer = none ∧ SameSettings s t ∧
  t.results = s.results.drop gone ++ rs ∧ Counted (cs ++ ds) s t ∧ t.polls = s.polls ∧ link t

/-- Counters counted by one operation, others by the next. -/
theorem Counted.append {cs ds : List CtrId} {s t u : State} (h : Counted cs s t) (k : Counted ds t u)
    (apart : ∀ c ∈ cs, c ∉ ds) : Counted (cs ++ ds) s u := by
  intro d straight
  rw [k d straight, h d straight]
  by_cases first : d ∈ cs
  · simp [first, apart d first]
  · simp [first]

/-- The state in which the granted intake unit acts. -/
def State.acting (g : State) : State := (g.setGranted []).unstall

section
variable {n : Need} {cs ds : List CtrId} {gone free held slots taken placed : Nat} {link : State → Prop} {s g p : State}
  {rs : List Record} {cmd : Instr}

/-- What it tells at the end of the step, from what it has done. -/
theorem IntakeGrant.told (grant : IntakeGrant n cs gone free held slots link s g) (wait : p.pool.waitList = [])
    (hfree : p.pool.free = free - taken) (hheld : p.pool.held = held + placed) (hslots : p.pool.slotsUsed = g.pool.slotsUsed)
    (timer : p.intake.holdTimer = none) (settings : SameSettings g p) (results : p.results = g.results ++ rs)
    (late : p.lateResults = []) (counted : Counted ds g p) (lines : ∀ d ∈ ds, ∃ i k, d = .line i k) (polls : p.polls = g.polls)
    (calm : p.trunk.calm = g.trunk.calm) : IntakeTold n cs gone free held slots link s taken placed ds rs p.close := by
  obtain ⟨_, gPolls, gCfg, gRun, gClock, gPending⟩ := grant.tables
  obtain ⟨cfg, run, clock, pending⟩ := settings
  refine ⟨by simp [wait], by simp [hfree], by simp [hheld], by simp [hslots, grant.slots], by simp [timer],
    by simp [SameSettings, cfg, run, clock, pending, gCfg, gRun, gClock, gPending], ?_, ?_, by simp [polls, gPolls],
    grant.link p calm⟩
  · rw [State.close_results, results, late, grant.results, List.append_nil]
  · refine (grant.counted.append counted fun c one other => ?_).close
    obtain ⟨k, rfl⟩ := grant.plain c one
    obtain ⟨i, k', e⟩ := lines _ other
    cases e

/-- The step of which the acting is the end. -/
theorem IntakeGrant.completes (grant : IntakeGrant n cs gone free held slots link s g) (ex : exec cmd s = finished g)
    (acts : (g.setGranted []).intakeGranted = p) (stall : p.intake.stall = none) (nobody : p.granted = [])
    {P : State → Prop} (told : P p.close) : Completes cmd s P := by
  refine ⟨p.close, ?_, told⟩
  rw [ex]
  show Host.Outcome.next g.finish = _
  rw [State.finish_intake grant.granted acts stall, State.finish_none nobody]

/-- The acting state, field by field. -/
theorem IntakeGrant.acting (grant : IntakeGrant n cs gone free held slots link s g) :
    g.acting.pool = g.pool ∧ g.acting.ctrs = g.ctrs ∧ g.acting.lines = s.lines ∧ (∀ i, g.acting.line i = s.line i) ∧
    g.acting.polls = s.polls ∧ SameSettings g g.acting ∧ g.acting.results = g.results ∧ g.acting.lateResults = [] ∧
    g.acting.granted = [] ∧ g.acting.trunk = g.trunk ∧ g.acting.intake.frames = s.intake.frames ∧
    g.acting.intake.stall = none ∧ g.acting.intake.holdTimer = none ∧ g.acting.clock = s.clock ∧ g.acting.cfg = s.cfg := by
  obtain ⟨lines, polls, cfg, run, clock, pending⟩ := grant.tables
  refine ⟨rfl, rfl, lines, fun i => ?_, polls, ⟨rfl, rfl, rfl, rfl⟩, rfl, grant.late, rfl, rfl, ?_, rfl, rfl, clock, cfg⟩
  · exact congrArg (Vector.get · i) lines
  · show g.intake.frames = _
    rw [grant.intake]

/-- The stalled record as the intake unit finds it when it acts. -/
theorem IntakeGrant.intakeGranted (grant : IntakeGrant n cs gone free held slots link s g) {st : Stall}
    (stall : s.intake.stall = some st) : (g.setGranted []).intakeGranted = match st with
      | .payload r => g.acting.placePayload r
      | .refusal r o => g.acting.refusalBuilt r o
      | .command m => g.acting.performCommand m := by
  have stalled : (g.setGranted []).intake.stall = some st := by
    show g.intake.stall = _
    rw [grant.intake, stall]
  rw [State.intakeGranted, stalled]
  cases st <;> rfl

/-- A refusal that waited for its space is built in it (R127, R134). -/
theorem IntakeGrant.refusal (grant : IntakeGrant n cs gone free held slots link s g) (ex : exec cmd s = finished g)
    {r : LineRequest} {o : TxnOutcome} (stall : s.intake.stall = some (.refusal r o))
    (counts : Counted ds g.acting (g.acting.refusalBuilt r o)) (lines : ∀ d ∈ ds, ∃ i k, d = .line i k) :
    Completes cmd s (fun t => IntakeTold n cs gone free held slots link s n.blocks n.blocks ds
      [s.stamp (.reply r.tag r.line o 0 none []) r.urgent 1] t ∧ Dispatched r.size s t ∧ t.lines = s.lines) := by
  obtain ⟨aPool, aCtrs, aLines, _, aPolls, aSettings, aResults, aLate, aGranted, aTrunk, aFrames, aStall, aTimer, aClock, aCfg⟩ :=
    grant.acting
  obtain ⟨results, granted, late, ⟨rLines, rPolls, rCfg, rRun, rClock, rPending⟩, rFree, rHeld, rReserved, rSlots, rWait,
    rIntake, rCalm⟩ := State.refusalBuilt_frame g.acting r o
  have stamps := State.stamp_congr g.acting s aClock aCfg
  refine grant.completes ex (grant.intakeGranted stall) (by rw [rIntake]; exact aStall) (granted.trans aGranted)
    ⟨grant.told (rWait.trans grant.wait) (rFree.trans grant.free) (rHeld.trans grant.held) rSlots
      (by rw [rIntake]; exact aTimer) ⟨rCfg, rRun, rClock, rPending⟩ (by rw [results, aResults, stamps])
      (late.trans aLate) counts lines rPolls rCalm, ?_, ?_⟩
  · simp [Dispatched, rIntake, aFrames, aStall]
  · simp [rLines, aLines]

/-- A request refused in the first block of its payload, as it is placed (R54, R128). -/
theorem IntakeGrant.payloadRefused (grant : IntakeGrant n cs gone free held slots link s g) (ex : exec cmd s = finished g)
    {r : LineRequest} {o : TxnOutcome} {i : Fin 12} (stall : s.intake.stall = some (.payload r)) (line : r.line = lineByte i)
    (refused : (s.line i).joinRefusal r = some o) (blocks : n.blocks = payloadBlocks r.payload) (some : 1 ≤ r.payload.length) :
    Completes cmd s (fun t => IntakeTold n cs gone free held slots link s 1 1 [.line i .requestsRefused]
      [s.stamp (.reply r.tag r.line o 0 none []) r.urgent 1] t ∧ Dispatched r.size s t ∧ t.lines = s.lines) := by
  obtain ⟨aPool, aCtrs, aLines, aLine, aPolls, aSettings, aResults, aLate, aGranted, aTrunk, aFrames, aStall, aTimer, aClock, aCfg⟩ :=
    grant.acting
  have acts : (g.setGranted []).intakeGranted = (g.acting.refuseOwn i o (g.acting.asRequest r)).dispatched r.size := by
    rw [grant.intakeGranted stall]
    simp only [State.placePayload, line, lineOf_lineByte, aLine, refused]
  obtain ⟨rLines, rPolls, rCfg, rRun, rClock, rPending, rIntake, rCalm, rSlots, rWait, rLate, rGranted, _, _, rFree, rHeld,
    rResults, rCtrs⟩ := State.refuseOwn_frame g.acting i o (g.acting.asRequest r)
      (State.unserved_nobody (by rw [aPool]; exact grant.wait) _ _)
  have stamps := State.stamp_congr g.acting s aClock aCfg
  have payload : payloadBlocks (g.acting.asRequest r).payload = n.blocks := blocks.symm
  have positive : 1 ≤ n.blocks := by rw [blocks, payloadBlocks_eq]; omega
  have fits := grant.fits
  rw [payload, aPool, grant.free, grant.held] at rFree
  rw [payload, aPool, grant.held] at rHeld
  refine grant.completes ex acts ?_ ?_ ⟨grant.told ?_ ?_ ?_ ?_ ?_ ?_ ?_ ?_ ?_ ?_ ?_ ?_, ?_, ?_⟩
  · simp [rIntake, aStall]
  · simp [rGranted, aGranted]
  · simp [rWait, aPool, grant.wait]
  · simp only [State.dispatched_frame, rFree]; omega
  · simp only [State.dispatched_frame, rHeld]; omega
  · simp [rSlots, aPool]
  · simp [rIntake, aTimer]
  · simp only [SameSettings, State.dispatched_frame, rCfg, rRun, rClock, rPending]; exact aSettings
  · rw [(State.dispatched_stream _ _).2.1, rResults, aResults, stamps, line]
    rfl
  · simp [rLate, aLate]
  · intro d straight
    simp [rCtrs d straight, aCtrs]
  · simp
  · simp only [State.dispatched_frame, rPolls]; rfl
  · simp [rCalm, aTrunk]
  · simp [Dispatched, rIntake, aFrames, aStall]
  · simp [rLines, aLines]

/-- A request that is placed and joins its line queue (R54, R57, R128). -/
theorem IntakeGrant.payloadJoins (grant : IntakeGrant n cs gone free held slots link s g) (ex : exec cmd s = finished g)
    {r : LineRequest} {i : Fin 12} {l : Line} (stall : s.intake.stall = some (.payload r)) (line : r.line = lineByte i)
    (accepted : (s.line i).joinRefusal r = none)
    (joins : Joined i l taken g.acting (g.acting.joinQueue i (s.asRequest r))) :
    Completes cmd s (fun t => (IntakeTold n cs gone free held slots link s (n.blocks + taken) n.blocks
        [.line i .requestsAccepted] [] t ∧ Dispatched r.size s t ∧ ∀ j, j ≠ i → t.line j = s.line j) ∧
      t.pool.reserved = s.pool.reserved + taken ∧ t.line i = l) := by
  obtain ⟨aPool, aCtrs, aLines, aLine, aPolls, aSettings, aResults, aLate, aGranted, aTrunk, aFrames, aStall, aTimer, aClock, aCfg⟩ :=
    grant.acting
  have asked : g.acting.asRequest r = s.asRequest r := by simp [State.asRequest, aClock]
  have acts : (g.setGranted []).intakeGranted = (g.acting.joinQueue i (s.asRequest r)).dispatched r.size := by
    rw [grant.intakeGranted stall, ← asked]
    exact State.placePayload_joins line (by rw [aLine]; exact accepted)
  obtain ⟨jLine, ⟨jOthers, jIntake, jCfg, jRun, jClock, jPending⟩, jPolls, jFree, jReserved, jHeld, jSlots, jWait, jResults,
    jLate, jCalm, jGranted, jCounted⟩ := joins
  refine grant.completes ex acts ?_ ?_ ⟨⟨grant.told ?_ ?_ ?_ ?_ ?_ ?_ ?_ ?_ ?_ ?_ ?_ ?_, ?_, ?_⟩, ?_, ?_⟩
  · simp [jIntake, aStall]
  · simp [jGranted, aGranted]
  · simp [jWait, aPool, grant.wait]
  · simp only [State.dispatched_frame, jFree, aPool, grant.free]; omega
  · simp only [State.dispatched_frame, jHeld, aPool, grant.held]
  · simp [jSlots, aPool]
  · simp [jIntake, aTimer]
  · simp only [SameSettings, State.dispatched_frame, jCfg, jRun, jClock, jPending]; exact aSettings
  · simp [jResults, aResults]
  · simp [jLate, aLate]
  · intro d straight
    simp [jCounted d straight, aCtrs]
  · simp
  · simp only [State.dispatched_frame, jPolls]; rfl
  · simp [jCalm, aTrunk]
  · simp [Dispatched, jIntake, aFrames, aStall]
  · intro j other; simp [jOthers j other, aLine]
  · simp [jReserved, aPool, grant.reserved]
  · simp [jLine]

/-- A stalled ECHO answers in the space it waited for (R129, R184). -/
theorem IntakeGrant.echo (grant : IntakeGrant n cs gone free held slots link s g) (ex : exec cmd s = finished g)
    {m : MgmtRequest} (stall : s.intake.stall = some (.command m)) (code : m.code = 0x41) (short : m.params.length ≤ 200)
    (blocks : n.blocks = (8 + m.params.length + 31) / 32) :
    Completes cmd s (fun t => IntakeTold n cs gone free held slots link s n.blocks n.blocks []
      [s.stamp (.response m.tag m.code .done m.params) true n.blocks] t ∧ Dispatched m.size s t ∧ t.lines = s.lines) := by
  obtain ⟨aPool, aCtrs, aLines, _, aPolls, aSettings, aResults, aLate, aGranted, aTrunk, aFrames, aStall, aTimer, aClock, aCfg⟩ :=
    grant.acting
  have used : State.used m.params = n.blocks := blocks.symm
  have spare : m.blocks - State.used m.params = 0 := by rw [State.blocks_echo code short, used, blocks, Nat.sub_self]
  obtain ⟨eGranted, eLines, ePolls, eCfg, eRun, eClock, ePending, _, _, eCalm, _, eIntake, eResults, eLate, eCtrs, eSlots,
    eWait, _, eBooks⟩ := State.performCommand_frame g.acting _ m .done m.params (State.runCommand_echo g.acting code short)
      (State.unserved_nobody (by rw [aPool]; exact grant.wait) _ _)
  obtain ⟨eHeld, eFree⟩ := eBooks (by rw [spare]; exact Nat.zero_le _)
  rw [spare, aPool] at eHeld eFree
  have stamps := State.stamp_congr g.acting s aClock aCfg
  refine grant.completes ex (grant.intakeGranted stall) (by rw [eIntake]; exact aStall) (eGranted.trans aGranted)
    ⟨grant.told (eWait.trans grant.wait) (eFree.trans grant.free) (eHeld.trans grant.held) eSlots
      (by rw [eIntake]; exact aTimer) ⟨eCfg, eRun, eClock, ePending⟩ (by rw [eResults, aResults, stamps, used])
      (eLate.trans aLate) (Counted.quiet eCtrs) (by simp) ePolls eCalm, ?_, ?_⟩
  · simp [Dispatched, eIntake, aFrames, aStall]
  · simp [eLines, aLines]

end

/-- What a granting does that serves the intake unit, alone on the wait list (R97). -/
structure IntakeServed (n : Need) (u g : State) : Prop where
  granted : g.granted = [.intake]
  intake : g.intake = u.intake
  tables : SameTables u g
  wait : g.pool.waitList = []
  free : g.pool.free = u.pool.free - n.blocks
  held : g.pool.held = u.pool.held + n.blocks
  reserved : g.pool.reserved = u.pool.reserved
  slots : g.pool.slotsUsed = u.pool.slotsUsed + if n.slot then 1 else 0
  results : g.results = u.results
  late : g.lateResults = u.lateResults
  counted : Counted [] u g
  calm : g.trunk.calm = u.trunk.calm

namespace State

/-- The state in which the intake unit, alone on the wait list, takes its allocation (R97). -/
def listCleared (s : State) : State := (s.setPool { s.pool with waitList := [] }).setGranted [.intake]

theorem grantAll_intake {u : State} {n : Need} (alone : u.pool.waitList = [{ who := .intake, need := n }])
    (passes : u.pool.passes n = true) (granted : u.granted = []) : u.grantAll = u.listCleared.take n .held := by
  have one : u.grantOne { who := .intake, need := n } [] = u.listCleared.take n .held := by
    rw [grantOne, granted]
    rfl
  rw [grantAll_one alone passes, one]
  intro w ws head
  rw [one] at head
  simp [listCleared] at head

theorem grantAll_served {u : State} {n : Need} (alone : u.pool.waitList = [{ who := .intake, need := n }])
    (passes : u.pool.passes n = true) (granted : u.granted = []) : IntakeServed n u u.grantAll := by
  obtain ⟨free, reserved, held, _⟩ := take_granted u.listCleared n .held
    ((passes_iff _ _).mpr ((passes_iff _ _).mp passes))
  rw [grantAll_intake alone passes granted]
  exact {
    granted := by simp [listCleared]
    intake := by simp [listCleared]
    tables := by simp [SameTables, listCleared]
    wait := by simp [listCleared]
    free := free
    held := held
    reserved := reserved
    slots := by simp [listCleared]
    results := by simp [listCleared]; rfl
    late := by simp [listCleared]; rfl
    counted := Counted.quiet fun d straight => take_quiet _ _ _ _ straight
    calm := by simp [listCleared] }

end State
section
variable {l : Line} {r : LineRequest}

theorem Line.joinRefusal_badParam (bad : ¬ ∀ n, r.expectLen = some n → 1 ≤ n ∧ n ≤ l.applied.maxReply) :
    l.joinRefusal r = some .badParam := by
  have fails : expectLenOk r.expectLen l.applied.maxReply = false :=
    Bool.eq_false_of_not_eq_true fun ok => bad (expectLenOk_iff.mp ok)
  rw [Line.joinRefusal, fails]
  rfl

theorem Line.joinRefusal_offline (ok : ∀ n, r.expectLen = some n → 1 ≤ n ∧ n ≤ l.applied.maxReply)
    (offline : l.txn = .offline) : l.joinRefusal r = some .lineOffline := by
  rw [Line.joinRefusal, expectLenOk_iff.mpr ok, if_neg (by simp), if_pos offline]

theorem Line.joinRefusal_full (ok : ∀ n, r.expectLen = some n → 1 ≤ n ∧ n ≤ l.applied.maxReply)
    (service : l.txn ≠ .offline) (full : l.applied.queueDepth ≤ l.queue.length) :
    l.joinRefusal r = some .queueFull := by
  rw [Line.joinRefusal, expectLenOk_iff.mpr ok, if_neg (by simp), if_neg service, if_pos full]

end

section
variable {n : Need} {s : State} (alone : s.pool.waitList = [{ who := .intake, need := n }]) (between : s.between)
include alone between

/-- The grant made by a WAIT_LIST_GRANT (R97). -/
theorem grantAll_grant (passes : s.pool.passes n = true) :
    IntakeGrant n [] 0 s.pool.free s.pool.held s.pool.slotsUsed (SameLink s) s s.grantAll := by
  obtain ⟨granted, intake, tables, wait, free, held, reserved, slots, results, late, counted, calm⟩ :=
    State.grantAll_served alone passes between.2
  exact ⟨granted, intake, tables, wait, State.passes_free passes, free, held, reserved, slots, results,
    late.trans between.late, counted, by simp, fun t same => sameLink_close (sameLink_of_calm (same.trans calm))⟩

/-- The grant made by the acknowledgement of one frame (R97, R117, R151). -/
theorem headed_grant {f : RxFrame} {g : SentFrame} {gs : List SentFrame} (up : s.trunk.up = true) (plain : f.reject = false)
    (valid : s.trunk.ackValid f.ackSeq = true) (one : (f.ackSeq - s.trunk.peerAck).toNat = 1)
    (sent : s.trunk.retransmits = g :: gs) (held : (g.records.map Record.blocks).sum ≤ s.pool.held)
    (passes : Pool.passes { s.pool with
      free := s.pool.free + (g.records.map Record.blocks).sum
      slotsUsed := s.pool.slotsUsed - (g.records.filter (fun r => !r.isEvent)).length } n = true) :
    IntakeGrant n [.link .framesReceived] (g.records.filter (fun r => !r.isEvent)).length
      (s.pool.free + (g.records.map Record.blocks).sum) (s.pool.held - (g.records.map Record.blocks).sum)
      (s.pool.slotsUsed - (g.records.filter (fun r => !r.isEvent)).length)
      (fun t => t.trunk.up = true ∧ t.trunk.peerAck = f.ackSeq) s (s.headed f) := by
  obtain ⟨fTables, fIntake, fGranted, fWait, fFree, fHeld, fReserved, fSlots, fUp, fAck, fResults, fLate, fCounted⟩ :=
    State.releasing_freed up one sent held
  have room := State.passes_free passes
  have passes' : ((s.goodFrame.acked f.ackSeq).releasing g).pool.passes n = true := by
    rw [State.passes_iff] at passes ⊢
    rw [fFree, fSlots]
    exact passes
  obtain ⟨granted, intake, tables, wait, free, held, reserved, slots, results, late, counted, calm⟩ :=
    State.grantAll_served (fWait.trans alone) passes' (fGranted.trans between.2)
  obtain ⟨⟨bClock, bCfg, bIntake, bLines, bPolls, bRun, bPending, bGranted, bRx⟩, bPool, _⟩ :=
    State.sendOnly_behindAck ((s.goodFrame.acked f.ackSeq).releasing g).grantAll f
  obtain ⟨bFree, bReserved, bHeld, bSlots, bWait, _⟩ := bPool
  obtain ⟨bCtrs, bResults, bLate, bAck⟩ :=
    State.behindAck_plain ((s.goodFrame.acked f.ackSeq).releasing g).grantAll plain
  obtain ⟨bUp, _⟩ := (State.sendOnly_behindAck ((s.goodFrame.acked f.ackSeq).releasing g).grantAll f).1.fields
  have gUp : ((s.goodFrame.acked f.ackSeq).releasing g).grantAll.trunk.up = true := by simp [fUp, up]
  have gAck : ((s.goodFrame.acked f.ackSeq).releasing g).grantAll.trunk.peerAck = f.ackSeq :=
    (congrArg Trunk.peerAck calm).trans fAck
  rw [State.headed_one up valid one sent]
  refine
    { granted := bGranted.trans granted, intake := bIntake.trans (intake.trans fIntake), tables := ?_
      wait := bWait.trans wait, fits := room, free := by rw [bFree, free, fFree], held := by rw [bHeld, held, fHeld]
      reserved := by rw [bReserved, reserved, fReserved], slots := by rw [bSlots, slots, fSlots]
      results := bResults.trans (results.trans fResults), late := bLate.trans (late.trans (fLate.trans between.late))
      counted := fun d straight => ?_, plain := by simp, link := fun t same => ⟨?_, ?_⟩ }
  · obtain ⟨lines, polls, cfg, run, clock, pending⟩ := tables
    obtain ⟨lines', polls', cfg', run', clock', pending'⟩ := fTables
    exact ⟨bLines.trans (lines.trans lines'), bPolls.trans (polls.trans polls'), bCfg.trans (cfg.trans cfg'),
      bRun.trans (run.trans run'), bClock.trans (clock.trans clock'), bPending.trans (pending.trans pending')⟩
  · rw [bCtrs, counted d straight, ← fCounted d straight]
    rfl
  · obtain ⟨up', _⟩ := sameLink_of_calm same
    rw [show t.close.trunk.up = t.trunk.up by simp, up', bUp, gUp]
  · obtain ⟨_, _, _, _, _, _, _, _, ack', _⟩ := sameLink_of_calm same
    rw [show t.close.trunk.peerAck = t.trunk.peerAck by simp, ack', bAck, gAck]

end

/-- The intake unit acts on what it finds as at a dispatch (R129). -/
theorem acting_eq {s : State} {n : Need} (alone : s.pool.waitList = [{ who := .intake, need := n }])
    (passes : s.pool.passes n = true) (between : s.between) :
    s.grantAll.acting = ((s.setIntake { s.intake with stall := none, holdTimer := none }).setPool
      { s.pool with waitList := [] }).take n .held := by
  have cleared : (s.setIntake { s.intake with stall := none, holdTimer := none }).setPool { s.pool with waitList := [] } =
      s.listCleared.put { s.intake with stall := none, holdTimer := none } := by
    have nobody : s = s.setGranted [] := by rw [State.setGranted_self between.2]
    rw [nobody]
    rfl
  rw [cleared, State.put_take { s.intake with stall := none, holdTimer := none } s.listCleared n .held rfl,
    State.grantAll_intake alone passes between.2]
  have intake : (s.listCleared.take n .held).intake = s.intake := by simp [State.listCleared]
  rw [State.acting, State.unstall, State.put]
  show _ = (State.setIntake _ _).setGranted []
  rw [show ((s.listCleared.take n .held).setGranted []).intake = s.intake from intake]
  rfl

/-- Settles O31: once granted (`grantAll_grant`, `headed_grant`), the unit acts on what is stalled (`IntakeGrant.refusal` and the
three after it); a command acts in the state in which its dispatch would find its space (`acting_eq`). -/
theorem stalledRecordGranted : Obligations.StalledRecordGranted := by
  intro n s alone between acts
  have general : ∀ cmd cs gone free held slots link g, exec cmd s = finished g →
      IntakeGrant n cs gone free held slots link s g → acts cmd cs gone free held slots link := by
    intro cmd cs gone free held slots link g ex grant
    obtain ⟨aPool, _, _, aLine, _, _, _, _, aGranted, _⟩ := grant.acting
    refine ⟨fun r o stall => ⟨fun i line => ?_, fun line => ?_⟩, fun i r stall line => ?_, fun m stall code short blocks => ?_⟩
    · exact grant.refusal ex stall (State.refusalBuilt_line _ _ line) (by simp)
    · exact grant.refusal ex stall (State.refusalBuilt_noLine _ _ line) (by simp)
    · refine ⟨fun bad blocks some => ?_, fun ok offline blocks some => ?_, fun ok service full blocks some => ?_,
        fun ok service busy room => ?_, ?_⟩
      · exact grant.payloadRefused ex stall line (Line.joinRefusal_badParam bad) blocks some
      · exact grant.payloadRefused ex stall line (Line.joinRefusal_offline ok offline) blocks some
      · exact grant.payloadRefused ex stall line (Line.joinRefusal_full ok service full) blocks some
      · have joins := State.joinQueue_waits (w := g.acting) (i := i) (s.asRequest r) (by rw [aLine]; exact busy)
        obtain ⟨t, step, told, _, line'⟩ := grant.payloadJoins ex stall line (Line.joinRefusal_none service room ok) joins
        rw [aLine] at line'
        exact ⟨t, step, told, line'⟩
      · intro ok idle quiet queue due depth work enough
        have fits := grant.fits
        have left : g.acting.pool.free = free - n.blocks := by rw [aPool, grant.free]
        have joins := State.joinQueue_sends (w := g.acting) (i := i) (r := s.asRequest r) (by rw [aLine]; exact idle)
          (by rw [aLine]; exact quiet) (by rw [aLine]; exact queue) (by rw [aLine]; exact due)
          (by rw [aPool]; exact grant.wait) aGranted (by
            rw [aLine, left]
            have blocks : ((Work.request (s.asRequest r)).need (s.line i).applied).blocks = work := rfl
            omega)
        rw [aLine] at joins
        exact grant.payloadJoins ex stall line
          (Line.joinRefusal_none (by rw [idle]; decide) (by rw [queue]; exact depth) ok) joins
    · exact grant.echo ex stall code short blocks
  refine ⟨fun passes => ⟨general _ _ _ _ _ _ _ _ rfl (grantAll_grant alone between passes), ?_⟩, ?_⟩
  · intro m stall k u head need flag
    have same : n = m.need := need
    have fits := State.passes_free passes
    have slot : s.pool.slotsUsed + 1 ≤ 256 := by
      rw [need] at passes
      exact ((State.passes_iff _ _).mp passes).2 rfl
    have ready : RequestReady m u := ⟨head, rfl, by rw [same] at fits; exact fits, slot, between⟩
    have grant := grantAll_grant alone between passes
    have acts : (s.grantAll.setGranted []).intakeGranted = (u.take m.need .held).performCommand m := by
      rw [grant.intakeGranted stall, ← same]
      exact congrArg (State.performCommand · m) (acting_eq alone passes between)
    have idle : ((u.take m.need .held).performCommand m).intake.stall = none := by
      rw [State.performCommand_stall]
      simp [u, k]
    rw [State.exec_granted u m _ ready rfl fun e => restartFlag_none (flag e).1 (flag e).2]
    exact congrArg Host.Outcome.next (State.finish_intake grant.granted acts idle)
  · intro b f frame up plain valid one sent blocks gone held passes
    obtain ⟨g, gs, frames⟩ := List.exists_cons_of_ne_nil sent
    have released : s.released f = g.records := by simp [State.released, one, frames]
    have freed := headed_grant (s := s) (n := n) alone between up plain (by simpa [Trunk.ackValid] using valid) one frames
      (by simpa [blocks, released] using held) (by simpa [blocks, gone, released] using passes)
    simp only [blocks, gone, released]
    exact general _ _ _ _ _ _ _ _ (exec_ctrlFrame_up frame up) freed

end Sys2Proof.Machine
end

section
/-! How a transaction ends: completions, retries and strays (R10 to R18, R20, R76 to R87). -/

namespace Sys2Proof.Machine

/-- A final outcome moves its counter, a break's apart, which was counted when it began (R17, R192). -/
theorem TxnOutcome.counter_final {o : TxnOutcome} (final : o = .ok ∨ o = .charError ∨ o = .overlength ∨ o = .brk ∨
    o = .noReply ∨ o = .collision ∨ o = .aborted) (k : LineCtr) :
    o.counter = some k ↔ o ≠ .brk ∧ k = outcomeCounter o := by
  rcases final with rfl | rfl | rfl | rfl | rfl | rfl | rfl <;>
    simp [TxnOutcome.counter, outcomeCounter, eq_comm]

/-- Where the head of the wait list would be served, a completion's statement asks nothing (R97). -/
theorem CompletedTo.of_served {i : Fin 12} {x : Txn} {a : Assembly} {r : Request} {o : TxnOutcome} {cs : List CtrId}
    {rs : List Record} {s : State} (served : ¬ s.headWaits) (t : State) : CompletedTo i x a r o cs rs s t :=
  ⟨fun _ unserved => absurd (unserved.heads rfl (by omega) (by omega)) served,
    fun _ nobody => absurd (fun w ws more => by rw [nobody] at more; cases more) served⟩

/-- A request whose last attempt has ended completes (R12 to R18, R20). -/
theorem Ended.completedTo {c : Instr} {i : Fin 12} {x : Txn} {a : Assembly} {r : Request} {o : TxnOutcome}
    {cs ks : List CtrId} {rs : List Record} {s w : State} {y : Txn} (e : Ended c i x a o cs ks rs s w y)
    (hw : x.work = .request r) :
    CompletedTo i (if o = .noReply then { x with noReplyLast := true } else x) a r o cs rs s
      (w.completeToGuard i y o).finish := by
  have header : x.work.header = 10 := by rw [hw]; rfl
  have books := e.books
  have most := e.most
  rw [header] at books most
  obtain ⟨z, hz⟩ : ∃ z, z = if o = .noReply then { x with noReplyLast := true } else x := ⟨_, rfl⟩
  have fields : z.attempts = x.attempts ∧ z.reservation = x.reservation ∧ z.reply = x.reply ∧
      z.noReplyLast = (x.noReplyLast || decide (o = .noReply)) := by
    rw [hz]
    split <;> simp_all
  obtain ⟨attempts, reservation, reply, late⟩ := fields
  rw [← hz]
  refine completedTo_of e.upto (by rw [e.work, hw]) e.data (by rw [e.attempts, attempts]) (by rw [e.late, late])
    (by rw [e.res, reservation]) (fun d => ?_) (fun k counter => ?_) e.steady ?_ ?_
  · simp only [e.counts, TxnOutcome.counter_final e.fins]
    constructor
    · rintro (early | ⟨ends, rfl⟩)
      · exact Or.inl early
      · exact Or.inr ⟨_, ⟨ends, rfl⟩, rfl⟩
    · rintro (early | ⟨k, ⟨ends, rfl⟩, rfl⟩)
      · exact Or.inl early
      · exact Or.inr ⟨ends, rfl⟩
  · obtain ⟨ends, rfl⟩ := (TxnOutcome.counter_final e.fins k).mp counter
    exact e.fresh ends
  · intro n _ filled data reserved held
    rw [reply] at filled reserved held
    exact books n _ filled data reserved held
  · rw [e.res, reservation, reply]
    exact most _

/-- Settles O52: every end of a last attempt is one completion, from the state in which it happens; where the head of the wait
list could be served the statement asks nothing. -/
theorem requestCompletes : Obligations.RequestCompletes := by
  intro c i x a r o cs rs s ends hw b
  show Completes c s (CompletedTo i (if o = .noReply then { x with noReplyLast := true } else x) a r o cs rs s)
  by_cases heads : s.headWaits
  · obtain ⟨w, y, ks, e⟩ := ends.ended b heads
    exact completes_finish _ e.run (e.completedTo hw)
  · obtain ⟨t, run, _⟩ := everyCommandAnswers c s
    exact ⟨t, run, CompletedTo.of_served heads t⟩


/-- The line as it enters GUARD (R20, R24). -/
def Line.intoGuard (l : Line) (now : Nat) (late : Option Half) : Line :=
  { l.fixListen.goto .guard with
    guardEnd := some (now + l.applied.guardTime), lateMark := late, window := none, deLead := none, deHold := none,
    charOut := none }

/-- A GuardTime of 0 ends GUARD as soon as it is entered (R20). -/
theorem State.enterGuard_over {s : State} {i : Fin 12} (late : Option Half) (ends : (s.line i).applied.guardTime = 0) :
    s.enterGuard i late = (s.modLine i (fun l => l.intoGuard s.clock late)).guardOver i := by
  rw [State.enterGuard, if_pos ends]
  rfl

/-- A transaction of line `i` has completed from `s` to `v`, and the line has not moved yet: `cs` have risen, `rs` have joined,
nothing is in hand (R17). -/
structure Over (i : Fin 12) (cs : List CtrId) (rs : List Record) (s v : State) : Prop where
  outside : SameOutside i s v
  calm : v.trunk.calm = s.trunk.calm
  results : v.results = s.results ++ rs
  late : v.lateResults = []
  granted : v.granted = []
  line : SameTableOfLine (s.line i) (v.line i)
  hand : (v.line i).hand = none
  wait : v.pool.waitList = s.pool.waitList
  total : v.pool.total = s.pool.total
  counted : Counted cs s v

namespace Over

variable {i : Fin 12} {cs : List CtrId} {rs : List Record} {s v : State}

/-- Behind a completion the line passes through GUARD for its GuardTime (R17, R20). -/
theorem inGuard (o : Over i cs rs s v) (late : Option Half) (guards : (s.line i).applied.guardTime ≠ 0) :
    (v.enterGuard i late).granted = [] ∧ InGuard i none late s (v.enterGuard i late).close ∧
    SameOutside i s (v.enterGuard i late).close ∧ SameLink s (v.enterGuard i late).close ∧
    Counted cs s (v.enterGuard i late).close ∧ (v.enterGuard i late).close.polls = v.polls ∧
    (v.enterGuard i late).close.results = s.results ++ rs ∧ SamePool v (v.enterGuard i late).close := by
  have only := State.onlyLine_enterGuard v i late (by rw [o.line.1]; exact guards)
  obtain ⟨lines, intake, cfg, run, clock, pending⟩ := o.outside
  refine ⟨only.granted.trans o.granted, inGuard_of o.line clock none late guards o.hand, sameOutside_close ?_,
    sameLink_close (sameLink_of_calm ?_), Counted.close (fun d straight => ?_), ?_, ?_, ?_⟩
  · exact ⟨fun j ne => (only.line j ne).trans (lines j ne), only.intake.trans intake, only.cfg.trans cfg,
      only.pollRun.trans run, only.clock.trans clock, only.pending.trans pending⟩
  · rw [only.trunk, o.calm]
  · rw [only.ctrs, o.counted d straight]
  · simp [only.polls]
  · simp [only.results, only.lateResults, o.late, o.results]
  · simp [SamePool, only.pool]

/-- A GuardTime of 0 ends GUARD as soon as it is entered, with whatever follows it (R20, R30, R57). -/
theorem noGuard (o : Over i cs rs s v) (late : Option Half) (none' : (s.line i).applied.guardTime = 0)
    (nobody : s.pool.waitList = []) (steady : ∀ d, d ∈ cs → d.steady i) :
    ((v.enterGuard i late).finish.line i).outOfGuard ∧ SameOutside i s (v.enterGuard i late).finish ∧
    SameLink s (v.enterGuard i late).finish ∧
    (∀ d, d ∈ cs → (v.enterGuard i late).finish.ctrs.read d = (s.ctrs.read d).inc) ∧
    s.results ++ rs <+: (v.enterGuard i late).finish.results := by
  have fact : Fact ((fun j => j = i) i) := ⟨rfl⟩
  have touch : Touch (fun j => j = i) v (v.enterGuard i late) := State.touch_enterGuard (Touch.rfl' v) i late
  have waits : Waits (fun j => j = i) v := waits_nobody (o.wait.trans nobody) o.granted
  have acted := State.touch_actGranted touch (touch.wait waits)
  have follows := State.follows_actGranted (Follows.rfl' i _) (touch.wait waits)
  have out := State.guardOver_out (v.modLine i (fun l => l.intoGuard v.clock late)) i
  rw [← State.enterGuard_over late (by rw [o.line.1]; exact none')] at out
  obtain ⟨lines, intake, cfg, run, clock, pending⟩ := o.outside
  obtain ⟨lines', intake', cfg', run', clock', pending'⟩ := acted.outside waits
  refine ⟨?_, sameOutside_close ⟨fun j ne => (lines' j ne).trans (lines j ne), intake'.trans intake, cfg'.trans cfg,
    run'.trans run, clock'.trans clock, pending'.trans pending⟩, sameLink_close (sameLink_of_calm ?_),
    fun d counts => ?_, ?_⟩
  · have left := follows.line out.1
    simpa [State.finish] using left
  · rw [acted.calm, o.calm]
  · have straight := (steady d counts).ne.1
    obtain ⟨missed, _, sent, resent⟩ := sideways_ne straight
    rw [State.finish, State.close_ctrs _ _ missed sent resent, follows.ctrs d (steady d counts), out.2 d (steady d counts),
      State.ctrs_modLine, o.counted d straight, if_pos counts]
  · show _ <+: (State.close _).results
    rw [State.close_results, ← o.results]
    exact acted.results.trans (List.prefix_append _ _)

end Over

/-- What a stray's disposal counts is no suppressed poll (R14, R81). -/
theorem Disposal.reported {i : Fin 12} {a : Assembly} {cs : List CtrId} {rs : List Record} {s : State}
    (d : Disposal i a cs rs s) : CtrId.line i .pollSuppressed ∉ cs := by
  rcases d with ⟨_, rfl, _⟩ | ⟨_, _, rfl, _⟩ | ⟨_, _, ⟨_, rfl, _⟩ | ⟨_, b, bs, _, ⟨k, _, rfl, _⟩ | ⟨_, rfl, _⟩⟩⟩ <;> simp

/-- What ends an attempt counts no suppressed poll (R17, R81). -/
theorem Ends.reported {c : Instr} {i : Fin 12} {x : Txn} {a : Assembly} {o : TxnOutcome} {cs : List CtrId}
    {rs : List Record} {s : State} (h : Ends c i x a o cs rs s) : CtrId.line i .pollSuppressed ∉ cs := by
  have own : outcomeCounter o ≠ .pollSuppressed := by cases o <;> simp [outcomeCounter]
  have own' : ¬ LineCtr.pollSuppressed = outcomeCounter o := fun e => own e.symm
  obtain ⟨_, ⟨_, _, _, _, rfl, _⟩ | ⟨_, _, _, _, _, ds, disposal, rfl⟩ | ⟨_, _, h⟩⟩ := h
  · simp [own']
  · have := disposal.reported
    simp [own', this]
  · rcases h with ⟨_, _, _, _, rfl⟩ | ⟨_, _, _, _, _, rfl⟩ | ⟨_, _, _, rfl, _⟩ | ⟨_, _, _, rfl⟩ | ⟨_, _, _, rfl⟩ |
      ⟨_, _, _, _, _, _, _, rfl⟩ <;> simp [own']

namespace Ended

variable {c : Instr} {i : Fin 12} {x y : Txn} {a : Assembly} {o : TxnOutcome} {cs ks : List CtrId} {rs : List Record}
  {s w : State}

/-- With the outcome counted, all that the end of an attempt counts has risen (R17). -/
theorem counted (e : Ended c i x a o cs ks rs s w y) (f : Line → Line) :
    Counted cs s ((w.modLine i f).countOutcome i o) := by
  intro d straight
  rw [State.countOutcome_counts _ i o e.fins d straight]
  have early := e.upto.ctrs d straight
  simp only [e.counts, State.ctrs_modLine]
  split
  · rename_i own
    obtain ⟨final, rfl⟩ := own
    simp [early, e.fresh final, final]
  · rename_i own
    simp [early, own]

/-- A poll's last attempt has ended, and the poll table has acted: what `Handed` says of the table, `Over` says beside it
(R17, R76). -/
theorem completed {id : Fin 128} {entry : Option Poll} {joined : List Record} {k n h kept : Nat} {ds : List CtrId}
    (e : Ended c i x a o cs ks rs s w y) (apart : ∀ d ∈ cs, d ∉ ds)
    (handed : Handed i id entry joined k ds n h kept ((w.modLine i (fun l => { l with hand := none })).countOutcome i o)
      (w.complete i y o)) :
    Over i (cs ++ ds) (rs ++ joined) s (w.complete i y o) := by
  obtain ⟨_, _, _, _, lines0, _, _, _, line0, _, _, _, _, _, _, _, results0, late0⟩ :=
    State.countOutcome_frame (w.modLine i (fun l => { l with hand := none })) i o
  have line : (w.complete i y o).line i = { w.line i with hand := none } := by
    have := line0 i
    simp only [State.line, handed.lines] at this ⊢
    rw [this]
    exact State.line_modLine_same w i _
  have fact : Fact ((fun j => j = i) i) := ⟨rfl⟩
  have touch : Touch (fun j => j = i) w (w.complete i y o) := State.touch_complete (Touch.rfl' w) i y o
  obtain ⟨lines, intake, cfg, run, clock, pending⟩ := e.upto.outside
  obtain ⟨applied, staged, known, queue, due⟩ := e.upto.line
  refine ⟨⟨fun j ne => ?_, touch.intake.trans intake, touch.cfg.trans cfg, touch.pollRun.trans run,
    touch.clock.trans clock, touch.pending.trans pending⟩, touch.calm.trans e.upto.calm, ?_, touch.late.trans e.upto.late, ?_,
    ?_, by rw [line], ?_, ?_, ?_⟩
  · have := line0 j
    simp only [State.line, handed.lines] at this ⊢
    rw [this]
    exact (State.line_modLine_ne w i j _ ne).trans (lines j ne)
  · rw [handed.results, results0]
    simp [e.upto.results]
  · rw [handed.granted]
    simp [State.countOutcome_frame, e.upto.granted]
  · rw [line]
    exact ⟨applied, staged, known, queue, due⟩
  · rw [handed.wait]
    simp [State.countOutcome_frame, e.upto.wait]
  · exact (State.keeps_complete (Keeps.rfl' w) i y o).total.trans e.upto.total
  · exact (e.counted _).append handed.ctrs apart

end Ended


/-- The conditions of R78 other than Forced, in the words of the statement. -/
theorem Poll.mustReport_iff (p : Poll) (o : TxnOutcome) (d : List Byte) : p.mustReport o d = true ↔
    p.defn.mode = .every ∨ (o = .ok ∧ p.lastDigest ≠ some (digest d)) ∨ (o ≠ .ok ∧ p.defn.mode = .change) ∨
    (o ≠ .ok ∧ p.defn.mode = .changeQuietErrors ∧ p.lastOutcome ≠ some o) ∨ 0 < p.missed ∨ o = .aborted := by
  simp [Poll.mustReport, or_assoc, and_assoc]

/-- The Forced condition of R78, in the words of the statement. -/
theorem Poll.forceDue_iff (p : Poll) :
    p.forceDue = true ↔ p.defn.forceEvery ≠ 0 ∧ p.defn.forceEvery ≤ p.suppressed + 1 := by
  simp [Poll.forceDue]

namespace Ended

variable {c : Instr} {i : Fin 12} {x y : Txn} {a : Assembly} {o : TxnOutcome} {cs ks : List CtrId} {rs : List Record}
  {s w : State} {id : Fin 128} {m : Nat}

/-- The Late mark a completed poll leaves (R24). -/
theorem lateMark (e : Ended c i x a o cs ks rs s w y) (hw : x.work = .poll id m) :
    y.lateMark = if x.noReplyLast ∨ o = .noReply then some (0xFF00 + BitVec.ofNat 16 id.val) else none := by
  rw [Txn.lateMark, e.late, e.work, hw]
  simp [Work.lateTag]

/-- The state in which the poll table acts on a completed poll (R81, R87). -/
def tableState (i : Fin 12) (o : TxnOutcome) (w : State) : State :=
  (w.modLine i (fun l => { l with hand := none })).countOutcome i o

theorem complete_poll (e : Ended c i x a o cs ks rs s w y) (hw : x.work = .poll id m) :
    w.complete i y o = (tableState i o w).pollDone id o y.reply
      (some (y.reservation.getD 0, filledBlocks 11 y.reply.kept.length)) := by
  rw [State.complete, e.work, hw]
  rfl

theorem tableState_frame (i : Fin 12) (o : TxnOutcome) (w : State) :
    (tableState i o w).polls = w.polls ∧ (tableState i o w).clock = w.clock ∧ (tableState i o w).cfg = w.cfg ∧
    (tableState i o w).pool.free = w.pool.free ∧ (tableState i o w).pool.reserved = w.pool.reserved ∧
    (tableState i o w).pool.held = w.pool.held ∧ (tableState i o w).pool.slotsUsed = w.pool.slotsUsed ∧
    (tableState i o w).pool.waitList = w.pool.waitList := by
  simp [tableState, State.countOutcome_frame]

/-- What the poll table frees of a completed poll serves no waiter where no more of its reservation would. -/
theorem table_unserved (e : Ended c i x a o cs ks rs s w y) (hw : x.work = .poll id m)
    (unserved : s.unserved (max (x.reservation.getD 0) (max (filledBlocks 11 x.reply.kept.length)
      (Config.blocksFor (11 + (o.dataOf a).length)))) 1) :
    (tableState i o w).unserved (max (y.reservation.getD 0) (filledBlocks 11 y.reply.kept.length)) 1 := by
  obtain ⟨_, _, _, free, _, _, slots, wait⟩ := tableState_frame i o w
  have most := e.most (x.reservation.getD 0)
  rw [show x.work.header = 11 by rw [hw]; rfl] at most
  have less := e.upto.free
  refine unserved.mono (wait.trans e.upto.wait) ?_ ?_
  · rw [free, e.res]
    omega
  · rw [slots, e.upto.slots]
    omega

/-- A poll's completion to the end of its step, with `kept` blocks of its reservation in the record `joined`, and what the table
does with the entry (R17, R76 to R82, R87). -/
theorem polled {entry : Option Poll} {joined : List Record} {k kept : Nat} {ds : List CtrId}
    (e : Ended c i x a o cs ks rs s w y) (hw : x.work = .poll id m) (apart : ∀ d ∈ cs, d ∉ ds)
    (fits : kept ≤ Config.blocksFor (11 + (o.dataOf a).length)) (guards : (s.line i).applied.guardTime ≠ 0)
    (handed : Handed i id entry joined k ds (y.reservation.getD 0) (filledBlocks 11 y.reply.kept.length) kept
      (tableState i o w) (w.complete i y o)) :
    Completes c s (fun t =>
      (InGuard i none (if x.noReplyLast ∨ o = .noReply then some (0xFF00 + BitVec.ofNat 16 id.val) else none) s t ∧
        SameOutside i s t ∧ SameLink s t ∧ t.pool.total = s.pool.total ∧ t.pool.waitList = s.pool.waitList ∧
        (∀ k, k ≠ id → t.poll k = s.poll k) ∧
        ∀ n, x.reservation = some n → Config.blocksFor (11 + (o.dataOf a).length) ≤ n →
          filledBlocks 11 x.reply.kept.length ≤ n → filledBlocks 11 a.kept.length ≤ n →
          n - filledBlocks 11 x.reply.kept.length ≤ s.pool.reserved → filledBlocks 11 x.reply.kept.length ≤ s.pool.held →
          t.pool.free + (rs.map Record.blocks).sum = s.pool.free + (n - kept)) ∧
      Counted (cs ++ ds) s t ∧ t.pool.slotsUsed = s.pool.slotsUsed + rs.length - k ∧
      t.results = s.results ++ (rs ++ joined) ∧ t.poll id = entry) := by
  obtain ⟨polls0, _, _, free0, reserved0, held0, slots0, _⟩ := tableState_frame i o w
  have ended := e.completed apart handed
  obtain ⟨granted, guard, outside, link, counted, polls, results, pool⟩ := ended.inGuard y.lateMark guards
  obtain ⟨free, reserved, held, slots, wait, _, _⟩ := pool
  refine completes_of _ e.run granted ⟨⟨?_, outside, link, ?_, wait.trans ended.wait, fun q ne => ?_, ?_⟩, counted, ?_,
    results, ?_⟩
  · rw [← e.lateMark hw]
    exact guard
  · have total := ended.total
    simp only [Pool.total] at total ⊢
    rw [State.completeToGuard, free, reserved, held]
    exact total
  · show State.poll _ q = _
    simp only [State.poll, State.completeToGuard, polls]
    have table := handed.polls q
    simp only [State.poll, if_neg ne, polls0, e.upto.polls] at table
    exact table
  · intro n res record filled data enough more
    have header : x.work.header = 11 := by rw [hw]; rfl
    have books := e.books n 0
    rw [header] at books
    obtain ⟨filled', enough', more'⟩ := books filled data enough more
    have size : y.reservation.getD 0 = n := by rw [e.res, res]; rfl
    obtain ⟨freed, _⟩ := handed.books (by rw [size]; exact filled') (by rw [size]; omega)
      (by rw [size, reserved0]; exact enough') (by rw [held0]; exact more')
    rw [size, free0] at freed
    have before := e.upto.free
    rw [State.completeToGuard, free, freed]
    omega
  · rw [State.completeToGuard, slots, handed.slots, slots0, e.upto.slots]
  · simp only [State.poll, State.completeToGuard, polls]
    have table := handed.polls id
    rw [if_pos rfl] at table
    exact table

/-- A poll's completion with a GuardTime of 0 (R20). -/
theorem polledAtOnce {entry : Option Poll} {joined : List Record} {k kept : Nat} {ds : List CtrId}
    (e : Ended c i x a o cs ks rs s w y) (apart : ∀ d ∈ cs, d ∉ ds) (ds' : ∀ d ∈ ds, d.steady i)
    (guards : (s.line i).applied.guardTime = 0) (nobody : s.pool.waitList = [])
    (handed : Handed i id entry joined k ds (y.reservation.getD 0) (filledBlocks 11 y.reply.kept.length) kept
      (tableState i o w) (w.complete i y o)) :
    Completes c s (fun t => (t.line i).txn ≠ .guard ∧ (t.line i).guardEnd = none ∧ (t.line i).lateMark = none ∧
      SameOutside i s t ∧ SameLink s t ∧ (∀ d, d ∈ cs → t.ctrs.read d = (s.ctrs.read d).inc) ∧
      s.results ++ (rs ++ joined) <+: t.results) := by
  obtain ⟨⟨txn, guardEnd, late⟩, outside, link, rises, results⟩ := (e.completed apart handed).noGuard y.lateMark guards nobody
    (fun d counts => (List.mem_append.mp counts).elim (e.steady d) (ds' d))
  exact completes_finish _ e.run ⟨txn, guardEnd, late, outside, link,
    fun d counts => rises d (List.mem_append_left _ counts), results⟩

end Ended


/-- Settles O53: the completion of `Ended`, with what the poll table does of the entry: reported, suppressed, or discarded. -/
theorem pollCompletes : Obligations.PollCompletes := by
  intro c i x a id m p o cs rs s ends hw hp own b
  intro d blocks filled must forced late ran frame record
  subst own
  have reported := ends.reported
  have entry : ∀ w : State, w.polls = s.polls → (Ended.tableState p.defn.line o w).poll id = some p := by
    intro w polls
    simp only [State.poll, (Ended.tableState_frame p.defn.line o w).1, polls]
    exact hp
  have data : ∀ y : Txn, resultData o y.reply = resultData o a → resultData o y.reply = (d, o.errorOf a) := by
    intro y same
    rw [same, TxnOutcome.resultData_eq]
  have stamp : ∀ w : State, w.clock = s.clock → w.cfg = s.cfg → ∀ body,
      (Ended.tableState p.defn.line o w).stamp body false blocks = s.stamp body false blocks := by
    intro w clock cfg body
    obtain ⟨_, clock0, cfg0, _⟩ := Ended.tableState_frame p.defn.line o w
    exact State.stamp_congr _ _ (clock0.trans clock) (cfg0.trans cfg) body false blocks
  have reports : p.reports o d = true ↔ must ∨ forced := by
    rw [Poll.reports, Bool.or_eq_true, Poll.mustReport_iff, Poll.forceDue_iff]
  have flag : p.forcedFlag o d = decide (forced ∧ ¬ must) := by
    rw [Bool.eq_iff_iff, decide_eq_true_iff, Poll.forcedFlag, Bool.and_eq_true, Poll.forceDue_iff, Bool.not_eq_true',
      ← Bool.not_eq_true, Poll.mustReport_iff]
  refine ⟨fun guards unserved => ?_, fun guards nobody => ?_⟩
  · have heads : s.headWaits := unserved.heads rfl (by omega) (by omega)
    obtain ⟨w, y, ks, e⟩ := ends.ended b heads
    have quiet := e.table_unserved hw unserved
    have now := entry w e.upto.polls
    have table := State.pollDone_handed _ id p o y.reply (y.reservation.getD 0) (filledBlocks 11 y.reply.kept.length) now
    rw [← e.complete_poll hw] at table
    refine ⟨fun stays tells => ?_, fun stays dull calm => ?_, fun retires => ?_⟩
    · have handed := (table stays d _ (data y e.data) quiet).1 (reports.mpr tells)
      rw [flag, stamp w e.upto.outside.2.2.2.2.1 e.upto.outside.2.2.1] at handed
      obtain ⟨t, run, after, counted, slots, results, poll⟩ := e.polled hw (by simp) (Nat.le_refl _) guards handed
      exact ⟨t, run, after, by simpa using counted, slots, by rw [results, List.append_assoc], poll⟩
    · have handed := (table stays d _ (data y e.data) quiet).2
        (by rw [← Bool.not_eq_true, reports]; exact not_or_intro dull calm)
      obtain ⟨t, run, after, counted, slots, results, poll⟩ := e.polled hw
        (fun c mem => by rintro (_ | ⟨_, ⟨⟩⟩); exact reported mem) (Nat.zero_le _) guards handed
      exact ⟨t, run, after, counted, slots, by simpa using results, poll⟩
    · have handed := State.pollDone_retiring _ id p o y.reply (y.reservation.getD 0) (filledBlocks 11 y.reply.kept.length)
        now retires quiet
      rw [← e.complete_poll hw] at handed
      obtain ⟨t, run, after, counted, slots, results, poll⟩ := e.polled hw (by simp) (Nat.zero_le _) guards handed
      exact ⟨t, run, after, by simpa using counted, slots, by simpa using results, poll⟩
  · obtain ⟨w, y, ks, e⟩ := ends.ended b (fun w ws more => by rw [nobody] at more; cases more)
    have quiet := e.table_unserved hw (State.unserved_nobody nobody _ _)
    have now := entry w e.upto.polls
    have table := State.pollDone_handed _ id p o y.reply (y.reservation.getD 0) (filledBlocks 11 y.reply.kept.length) now
    rw [← e.complete_poll hw] at table
    by_cases retires : p.state = .retiring
    · have handed := State.pollDone_retiring _ id p o y.reply (y.reservation.getD 0) (filledBlocks 11 y.reply.kept.length)
        now retires quiet
      rw [← e.complete_poll hw] at handed
      have done := e.polledAtOnce (by simp) (by simp) guards nobody handed
      simpa [retires] using done
    · by_cases tells : must ∨ forced
      · have handed := (table retires d _ (data y e.data) quiet).1 (reports.mpr tells)
        rw [flag, stamp w e.upto.outside.2.2.2.2.1 e.upto.outside.2.2.1] at handed
        have done := e.polledAtOnce (by simp) (by simp) guards nobody handed
        rw [← List.append_assoc] at done
        rw [if_pos ⟨retires, tells⟩]
        exact done
      · have handed := (table retires d _ (data y e.data) quiet).2 (by rw [← Bool.not_eq_true, reports]; exact tells)
        have done := e.polledAtOnce (fun c mem => by rintro (_ | ⟨_, ⟨⟩⟩); exact reported mem)
          (fun c mem => Or.inr ⟨.pollSuppressed, by simp, by simpa using mem⟩) guards nobody handed
        rw [List.append_nil] at done
        rw [if_neg (fun both => tells both.2)]
        exact done


/-- What stands behind an unfinished transaction, to the end of a step that grants nobody. -/
theorem Upto.closed {i : Fin 12} {cs : List CtrId} {rs : List Record} {s w : State} (h : Upto i cs rs s w) :
    SameOutside i s w.close ∧ w.close.polls = s.polls ∧ SameLink s w.close ∧ w.close.pool.total = s.pool.total ∧
    w.close.pool.waitList = s.pool.waitList ∧ w.close.results = s.results ++ rs ∧
    w.close.pool.slotsUsed = s.pool.slotsUsed + rs.length ∧
    w.close.pool.free + (rs.map Record.blocks).sum = s.pool.free ∧ Counted cs s w.close :=
  ⟨sameOutside_close h.outside, by simp [h.polls], sameLink_close (sameLink_of_calm h.calm),
    by simpa [Pool.total] using h.total, by simp [h.wait], by simp [h.results, h.late], by simp [h.slots],
    by simpa using h.free, Counted.close h.ctrs⟩

namespace State

/-- A discarded reply leaves the held blocks but its own (R16, R91). -/
theorem discardReply_held {v : State} {i : Fin 12} {x : Txn}
    (held : filledBlocks x.work.header x.reply.kept.length ≤ v.pool.held) :
    (v.discardReply i x).pool.held + filledBlocks x.work.header x.reply.kept.length = v.pool.held := by
  have books := (unfill_books (v.modLine i (fun l => { l with hand := some { x with reply := Assembly.empty } }))
    (filledBlocks x.work.header x.reply.kept.length)).2 (by simpa using held)
  rw [pool_modLine] at books
  rw [discardReply, books.1]
  omega

theorem discardReply_line (v : State) (i : Fin 12) (x : Txn) :
    (v.discardReply i x).line i = { v.line i with hand := some { x with reply := Assembly.empty } } := by
  simp [discardReply]

/-- An attempt that is retried (R15, R16). -/
theorem attemptEnds_retried {v : State} {i : Fin 12} {x : Txn} {o : TxnOutcome}
    (again : x.retried (v.line i).applied o = true) :
    v.attemptEnds i x o = ((v.discardReply i x).bump (.line i .retriedAttempts)).enterGuard i x.lateMark := by
  rw [attemptEnds, if_pos again]

/-- An attempt without a reply that is retried (R10, R16). -/
theorem noReplyEnds_retried {v : State} {i : Fin 12} {x y : Txn}
    (hy : y = { x with noReplyLast := true, reply := Assembly.empty })
    (again : y.retried (v.line i).applied .noReply = true) :
    v.noReplyEnds i x = (((v.discardReply i x).discardReply i y).bump (.line i .retriedAttempts)).enterGuard i y.lateMark := by
  rw [noReplyEnds, ← hy, attemptEnds_retried]
  rw [discardReply_line]
  exact again

end State

/-- A transaction with attempts left is retried at NO_REPLY, and at CHAR_ERROR where its profile says so (R15). -/
theorem Txn.retried_noReply {x : Txn} {p : Profile} (left : x.attempts < p.retries + 1)
    (lets : x.work.suppressRetry = false) : x.retried p .noReply = true := by
  simp [Txn.retried, lets, left]

theorem Txn.retried_charError {x : Txn} {p : Profile} (left : x.attempts < p.retries + 1)
    (lets : x.work.suppressRetry = false) (also : p.retryOn = .noReplyAndCharError) : x.retried p .charError = true := by
  simp [Txn.retried, lets, left, also]

/-- The retry of `x`, in hand as `z` with what it received by then in the blocks `held` says (R15, R16, R20). -/
theorem Upto.retries {i : Fin 12} {cs : List CtrId} {rs : List Record} {s v : State} {x z : Txn} {a : Assembly} {nr : Bool}
    (h : Upto i cs rs s v) (first : CtrId.line i .retriedAttempts ∉ cs)
    (hz : ({ z with reply := Assembly.empty } : Txn) = { x with noReplyLast := nr, reply := Assembly.empty })
    (held : filledBlocks x.work.header a.kept.length - filledBlocks x.work.header x.reply.kept.length ≤ s.pool.reserved →
      filledBlocks x.work.header x.reply.kept.length ≤ s.pool.held →
      v.pool.held + filledBlocks x.work.header x.reply.kept.length =
        s.pool.held + filledBlocks z.work.header z.reply.kept.length + (rs.map Record.blocks).sum) :
    Retried i x a nr cs rs s (((v.discardReply i z).bump (.line i .retriedAttempts)).enterGuard i z.lateMark).finish := by
  have late : z.lateMark = ({ z with reply := Assembly.empty } : Txn).lateMark := rfl
  have most : filledBlocks z.work.header z.reply.kept.length ≤ v.pool.held →
      (v.discardReply i z).pool.held + filledBlocks z.work.header z.reply.kept.length = v.pool.held :=
    State.discardReply_held
  rw [late, hz]
  refine retried_of ((h.discard z).bump _ first) ?_ rfl (fun enough more => ?_)
  · rw [← hz]
    simp [State.discardReply_line]
  · have before := held enough more
    simp only [State.bump_frame]
    omega

/-- Settles O54: an attempt that is retried passes `attemptEnds`, with its data discarded into its reservation. -/
theorem attemptRetried : Obligations.AttemptRetried := by
  intro i x s hand b left lets
  refine ⟨fun d awaits window due => ?_, fun c a ends plain short bad also => ?_⟩
  · obtain ⟨y, hy⟩ : ∃ y, y = ({ x with noReplyLast := true, reply := Assembly.empty } : Txn) := ⟨_, rfl⟩
    have again : y.retried (s.line i).applied .noReply = true := by
      rw [hy]
      exact Txn.retried_noReply left lets
    refine completes_finish (s.noReplyEnds i x) ?_ ?_
    · show execReplyWindowExpiry i s = _
      simp [execReplyWindowExpiry, hand, awaits, window, State.expired, due]
    · rw [State.noReplyEnds_retried hy again]
      refine Upto.retries ((upto_rfl i s b).discard x) (by simp) (by rw [hy]) (fun _ more => ?_)
      rw [State.discardReply_held more, hy]
      rfl
  · obtain ⟨w, r⟩ := ends.replied b
    have applied : (w.line i).applied = (s.line i).applied := by rw [r.line]
    have bytes : w.workBytes x.work = s.workBytes x.work := by
      cases x.work with
      | request r => rfl
      | poll id _ => simp [State.workBytes, State.poll, r.upto.polls]
    have outcome : a.outcome false = .charError := by simp [Assembly.outcome, short, bad]
    have again : ({ x with reply := a } : Txn).retried (w.line i).applied (a.outcome false) = true := by
      rw [outcome, applied]
      exact Txn.retried_charError left lets also
    have answers : isStray (w.line i).applied (w.workBytes x.work) a = false := by
      rw [applied, bytes, ← Bool.not_eq_true]
      exact fun stray => plain ((isStray_iff { x with reply := a } i s).mp stray)
    refine completes_finish _ r.run ?_
    rw [State.endReply, if_neg (by rw [Bool.not_eq_true]; exact answers), State.attemptEnds_retried again]
    refine r.upto.retries (by simp) rfl (fun enough more => ?_)
    have mono := filledBlocks_mono x.work.header _ _ r.more
    obtain ⟨grown, _⟩ := r.books enough
    rw [grown]
    show _ = _ + filledBlocks x.work.header a.kept.length + _
    simp
    omega

/-- Settles O55: a stray is counted and disposed of, then the window runs on, or with none left the attempt is retried. -/
theorem strayFound : Obligations.StrayFound := by
  intro c i x a cs rs s ends stray disposal b heads
  obtain ⟨w, r⟩ := ends.replied b
  obtain ⟨v, run, upto, line, _, held⟩ := r.stray stray heads disposal
  have steady := disposal.steady
  refine ⟨fun some' => ?_, fun none' left lets => ?_⟩
  · rw [if_neg some'] at run
    have moved := (upto.discard { x with reply := a }).only
      (State.onlyLine_modLine _ i (fun l =>
        { l.goto .awaiting with window := some (s.clock + x.windowLeft), gap := none, awaitMark := false }))
      (by simp [SameTableOfLine, Line.goto])
    obtain ⟨outside, polls, link, total, wait, results, slots, free, counted⟩ := moved.closed
    refine completes_of _ run moved.granted ⟨outside, polls, link, total, wait, results, slots, free, counted, ?_⟩
    simp [State.discardReply_line, line, r.line, Line.goto, TxnState.drives]
  · rw [if_pos none'] at run
    obtain ⟨y, hy⟩ : ∃ y, y = ({ ({ x with reply := a } : Txn) with noReplyLast := true, reply := Assembly.empty } : Txn) :=
      ⟨_, rfl⟩
    have again : y.retried (v.line i).applied .noReply = true := by
      rw [hy, line, r.line]
      exact Txn.retried_noReply left lets
    refine completes_finish _ run ?_
    rw [State.noReplyEnds_retried hy again]
    refine (upto.discard _).retries ?_ (by rw [hy]) (fun enough more => ?_)
    · rintro (_ | ⟨_, counted⟩)
      exact (steady _ counted).2.2.2 rfl
    · have mono := filledBlocks_mono x.work.header _ _ r.more
      obtain ⟨grown, _⟩ := r.books enough
      have kept : (v.discardReply i { x with reply := a }).pool.held + filledBlocks x.work.header a.kept.length = v.pool.held :=
        State.discardReply_held (by rw [held, grown]; show filledBlocks x.work.header a.kept.length ≤ _; omega)
      have none0 : filledBlocks y.work.header y.reply.kept.length = 0 := by rw [hy]; rfl
      rw [none0]
      omega

end Sys2Proof.Machine
end

section
/-! The moves of a line: sending, turnaround, start bits, breaks, gaps and GUARD, and the reach of a NextDue (R2 to R11, R20 to R26, R30 to R46, R57, R72 to R75). -/

namespace Sys2Proof.Machine

section
variable {c : Instr} {i : Fin 12} {s : State}

/-- A command whose whole effect is a change of its line. -/
theorem completes_modLine {f : Line → Line} {m : Line} (run : exec c s = finished (s.modLine i f)) (b : s.between)
    (becomes : f (s.line i) = m) : Completes c s (fun t => LineMoves i s t ∧ t.line i = m) :=
  completes_line run (State.onlyLine_modLine s i f) b ((State.line_modLine_same s i f).trans becomes)

/-- A request that completes where nothing but its line has moved (R17, R20). -/
theorem completes_plain {w : State} {y : Txn} {r : Request} {o : TxnOutcome} {k : LineCtr}
    (run : exec c s = finished (w.completeToGuard i y o)) (only : State.OnlyLine i s w)
    (tables : SameTableOfLine (s.line i) (w.line i)) (b : s.between) (hw : y.work = .request r) (counts : o.counter = some k) :
    Completes c s (CompletedTo i y y.reply r o [.line i k] [] s) :=
  completes_finish _ run (completedTo_plain ((upto_rfl i s b).only only tables)
    ⟨by rw [only.pool], by rw [only.pool]⟩ hw counts (by simp) (by simp) (by simp))

end

namespace State

variable {v : State} {i : Fin 12} {x : Txn}

/-- TURNAROUND ends with a NoReply transaction completed OK (R8). -/
theorem turnaroundOver_noReply (hand : (v.line i).hand = some x) (noReply : x.work.noReply = true) :
    v.turnaroundOver i = v.completeToGuard i { x with attempts := 1 } .ok := by
  simp [turnaroundOver, hand, noReply]

/-- TURNAROUND ends in AWAITING (R8). -/
theorem turnaroundOver_awaits (hand : (v.line i).hand = some x) (replies : x.work.noReply = false) :
    v.turnaroundOver i = v.modLine i (fun l =>
      { l.goto .awaiting with deHold := none, window := some (v.clock + l.applied.replyTimeout) }) := by
  simp [turnaroundOver, hand, replies]

/-- A start bit in TURNAROUND completes a NoReply transaction OK (R9). -/
theorem earlyAnswer_noReply (hand : (v.line i).hand = some x) (noReply : x.work.noReply = true) :
    v.earlyAnswer i = v.completeToGuard i { x with attempts := 1 } .ok := by
  simp [earlyAnswer, hand, noReply]

/-- A start bit in TURNAROUND begins an early answer (R9). -/
theorem earlyAnswer_receives (hand : (v.line i).hand = some x) (replies : x.work.noReply = false) :
    v.earlyAnswer i = v.modLine i (fun l => { l.goto .receiving with
      deHold := none, hand := some { x with windowLeft := l.applied.replyTimeout, reply := Assembly.empty } }) := by
  simp [earlyAnswer, hand, replies]

/-- TURNAROUND with the receiver at rest and a DeHold count left (R8, R37). -/
theorem enterTurnaround_counts (rest : (v.line i).rxBusy = false) (count : (v.line i).deHold.isSome = true) :
    v.enterTurnaround i = v.modLine i (fun l => l.goto .turnaround) := by
  simp [enterTurnaround, rest, Option.isSome_iff_ne_none.mp count]

/-- TURNAROUND with the receiver at rest and the DeHold count over ends at once (R8, R37). -/
theorem enterTurnaround_over (rest : (v.line i).rxBusy = false) (done : (v.line i).deHold = none) :
    v.enterTurnaround i = (v.modLine i (fun l => l.goto .turnaround)).turnaroundOver i := by
  simp [enterTurnaround, rest, done]

/-- TURNAROUND with a start bit already taken is an early answer (R38). -/
theorem enterTurnaround_busy (busy : (v.line i).rxBusy = true) :
    v.enterTurnaround i = (v.modLine i (fun l => l.goto .turnaround)).earlyAnswer i := by
  simp [enterTurnaround, busy]

/-- An abort or an echo failure already pending stands (R45). -/
theorem echoFails_pending (pending : x.abortPending = true ∨ x.echoFailed = true) : v.echoFails i x = v := by
  rw [echoFails, if_pos (by simpa using pending)]

/-- An echo failure with a character in progress is noted (R44). -/
theorem echoFails_later (noAbort : x.abortPending = false) (noFailure : x.echoFailed = false)
    (out : (v.line i).charOut.isSome = true) :
    v.echoFails i x = v.modLine i (fun l => { l with hand := some { x with echoFailed := true } }) := by
  simp [echoFails, noAbort, noFailure, out]

/-- An echo failure with no character in progress completes COLLISION (R44). -/
theorem echoFails_now (noAbort : x.abortPending = false) (noFailure : x.echoFailed = false)
    (out : (v.line i).charOut = none) : v.echoFails i x = v.completeToGuard i x .collision := by
  simp [echoFails, noAbort, noFailure, out]

end State

/-- A request that asks for no reply is a transaction that does not. -/
theorem Txn.noReply_request {x : Txn} {r : Request} (hw : x.work = .request r) (noReply : r.noReply = true) :
    x.work.noReply = true := by
  rw [hw]
  exact noReply

/-- Settles O45: the three ends of a driver count, each one move of the line or the completion of a NoReply request. -/
theorem driverCountEnds : Obligations.DriverCountEnds := by
  intro i x s hand b
  have turned : (s.line i).txn = .turnaround → (s.line i).deHold.isSome = true →
      exec (.deholdEnd i) s = finished (s.turnaroundOver i) := fun turns hold => by
    show execDeholdEnd i s = _
    simp [execDeholdEnd, Option.isSome_iff_ne_none.mp hold, turns]
  refine ⟨fun v vs sending lead first bytes => ?_, fun turns hold replies => ?_, fun r turns hold hw noReply empty => ?_,
    fun sending hold => ?_⟩
  · have next : (s.workBytes x.work)[(s.line i).sent]? = some v := by
      rw [first, bytes]
      rfl
    refine completes_line (u := s.startChar i) ?_ (State.onlyLine_startChar s i) b ?_
    · show execDeleadEnd i s = _
      simp [execDeleadEnd, sending, lead]
    · rw [State.startChar_line s i x hand, next]
      rfl
  · refine completes_modLine ((turned turns hold).trans (congrArg finished (State.turnaroundOver_awaits hand replies))) b rfl
  · have ends := State.turnaroundOver_noReply hand (Txn.noReply_request hw noReply)
    exact completes_plain ((turned turns hold).trans (congrArg finished ends)) (State.onlyLine_rfl i s)
      ⟨rfl, rfl, rfl, rfl, rfl⟩ b hw rfl
  · refine completes_modLine (f := fun l => { l with deHold := none }) ?_ b rfl
    show execDeholdEnd i s = _
    simp [execDeholdEnd, Option.isSome_iff_ne_none.mp hold, sending]

/-- Settles O47: an echo that has not come fails the attempt, unless an abort or a failure already pending stands. -/
theorem echoDeadline : Obligations.EchoDeadline := by
  intro i x s sending hand checks missing b
  have run : exec (.echoDeadline i) s = finished (s.echoFails i x) := by
    show execEchoDeadline i s = _
    simp [execEchoDeadline, Line.sendingTxn, sending, hand, checks, missing]
  refine ⟨fun c out noAbort noFailure => ?_, fun pending => ?_, fun r out noAbort noFailure hw => ?_⟩
  · exact completes_modLine (run.trans (congrArg finished (State.echoFails_later noAbort noFailure (by simp [out])))) b rfl
  · exact completes_line (run.trans (congrArg finished (State.echoFails_pending pending))) (State.onlyLine_rfl i s) b rfl
  · exact completes_plain (run.trans (congrArg finished (State.echoFails_now noAbort noFailure out)))
      (State.onlyLine_rfl i s) ⟨rfl, rfl, rfl, rfl, rfl⟩ b hw rfl


/-- The line behind the stop bits of a character (R37). -/
def Line.charOver (l : Line) : Line := { l with charOut := none, sent := l.sent + 1 }

/-- The line behind the stop bits of the last character, with its DeHold count (R37). -/
def Line.lastOver (l : Line) : Line := { l.charOver with deHold := countOf l.applied.deHold }

namespace State

variable {s : State} {i : Fin 12} {x : Txn}

theorem modLine_twice (s : State) (i : Fin 12) (f g : Line → Line) :
    (s.modLine i f).modLine i g = s.modLine i (fun l => g (f l)) := by
  rw [modLine, line_modLine_same, modLine, setLine_twice]
  rfl

/-- The stop bits of a character with an abort pending complete ABORTED (R26). -/
theorem charSent_aborted (abort : x.abortPending = true) :
    s.charSent i x = (s.modLine i Line.charOver).completeToGuard i x .aborted := by
  simp only [charSent, abort, if_true]
  rfl

/-- The stop bits of a character behind an echo failure complete COLLISION (R44). -/
theorem charSent_collides (noAbort : x.abortPending = false) (failed : x.echoFailed = true) :
    s.charSent i x = (s.modLine i Line.charOver).completeToGuard i x .collision := by
  simp only [charSent, noAbort, failed, Bool.false_eq_true, if_true, if_false]
  rfl

/-- The next character follows at once (R37). -/
theorem charSent_next (noAbort : x.abortPending = false) (noFailure : x.echoFailed = false)
    (more : (s.line i).sent + 1 < (s.workBytes x.work).length) :
    s.charSent i x = (s.modLine i Line.charOver).startChar i := by
  simp only [charSent, noAbort, noFailure, Bool.false_eq_true, if_false, more, if_true]
  rfl

/-- Behind the last character the DeHold count begins (R37, R43). -/
theorem charSent_last (noAbort : x.abortPending = false) (noFailure : x.echoFailed = false)
    (last : (s.workBytes x.work).length ≤ (s.line i).sent + 1) :
    s.charSent i x = if (s.line i).applied.echoCheck && (s.line i).echoed < (s.line i).sent + 1
      then s.modLine i Line.lastOver else (s.modLine i Line.lastOver).enterTurnaround i := by
  simp only [charSent, noAbort, noFailure, Bool.false_eq_true, if_false, Nat.not_lt.mpr last, allSent, line_modLine_same,
    modLine_twice]
  rfl

/-- TURNAROUND of a NoReply transaction that ends as it is entered completes OK (R8, R9, R38). -/
theorem enterTurnaround_noReply (hand : (s.line i).hand = some x) (noReply : x.work.noReply = true)
    (early : (s.line i).rxBusy = true ∨ (s.line i).deHold = none) : s.enterTurnaround i =
      (s.modLine i (fun l => l.goto .turnaround)).completeToGuard i { x with attempts := 1 } .ok := by
  have hand' : ((s.modLine i (fun l => l.goto .turnaround)).line i).hand = some x := by
    rw [line_modLine_same]
    exact hand
  by_cases busy : (s.line i).rxBusy = true
  · rw [enterTurnaround_busy busy, earlyAnswer_noReply hand' noReply]
  · rw [enterTurnaround_over (by simpa using busy) (early.resolve_left busy), turnaroundOver_noReply hand' noReply]

end State

/-- Settles O46: the stop bits of a character, by what is pending, by what is left to send and by what the receiver and the DeHold
count allow. -/
theorem characterSent : Obligations.CharacterSent := by
  intro i x c s sending hand out b
  have run : exec (.characterSent i) s = finished (s.charSent i x) := by
    show execCharacterSent i s = _
    simp [execCharacterSent, Line.sendingTxn, sending, hand, out]
  have only := State.onlyLine_modLine s i Line.lastOver
  have line := State.line_modLine_same s i Line.lastOver
  have hand' : ((s.modLine i Line.lastOver).line i).hand = some x := by rw [line]; exact hand
  intro l bytes last matched
  have turns : last → matched →
      exec (.characterSent i) s = finished ((s.modLine i Line.lastOver).enterTurnaround i) := by
    rintro ⟨noAbort, noFailure, all⟩ echoes
    rw [run, State.charSent_last noAbort noFailure all, if_neg]
    simp only [Bool.and_eq_true, decide_eq_true_eq, not_and, Nat.not_lt]
    exact echoes
  have count : l.applied.deHold ≠ 0 → ((s.modLine i Line.lastOver).line i).deHold = some l.applied.deHold := fun some' => by
    rw [line]
    exact if_neg some'
  have noCount : l.applied.deHold = 0 → ((s.modLine i Line.lastOver).line i).deHold = none := fun none' => by
    rw [line]
    exact if_pos none'
  refine ⟨fun noAbort noFailure more => ?_, fun ⟨noAbort, noFailure, all⟩ checks missing => ?_, fun ends echoes rest hold => ?_,
    fun ends echoes rest noHold replies => ?_, fun ends echoes busy replies => ?_, fun r ends echoes early hw noReply empty => ?_,
    fun r hw abort => ?_, fun r hw noAbort failed => ?_⟩
  · refine completes_line (run.trans (congrArg finished (State.charSent_next noAbort noFailure more)))
      ((State.onlyLine_modLine s i _).trans (State.onlyLine_startChar _ i)) b ?_
    rw [State.startChar_line _ i x (by rw [State.line_modLine_same]; exact hand), State.line_modLine_same]
    rfl
  · have holds := State.charSent_last noAbort noFailure all
    rw [if_pos (by rw [Bool.and_eq_true, decide_eq_true_eq]; exact ⟨checks, missing⟩)] at holds
    exact completes_modLine (run.trans (congrArg finished holds)) b rfl
  · have turned := State.enterTurnaround_counts (v := s.modLine i Line.lastOver) (i := i) (by rw [line]; exact rest)
      (by rw [count hold]; rfl)
    refine completes_line ((turns ends echoes).trans (congrArg finished turned))
      (only.trans (State.onlyLine_modLine _ i _)) b ?_
    rw [State.line_modLine_same, line]
    simp [Line.lastOver, Line.charOver, Line.goto, TxnState.drives, countOf, hold, l]
  · have turned := State.enterTurnaround_over (v := s.modLine i Line.lastOver) (i := i) (by rw [line]; exact rest) (noCount noHold)
    rw [State.turnaroundOver_awaits (x := x) (by rw [State.line_modLine_same]; exact hand') replies] at turned
    refine completes_line ((turns ends echoes).trans (congrArg finished turned))
      ((only.trans (State.onlyLine_modLine _ i _)).trans (State.onlyLine_modLine _ i _)) b ?_
    simp [Line.lastOver, Line.charOver, Line.goto, TxnState.drives, l]
  · have turned := State.enterTurnaround_busy (v := s.modLine i Line.lastOver) (i := i) (by rw [line]; exact busy)
    rw [State.earlyAnswer_receives (x := x) (by rw [State.line_modLine_same]; exact hand') replies] at turned
    refine completes_line ((turns ends echoes).trans (congrArg finished turned))
      ((only.trans (State.onlyLine_modLine _ i _)).trans (State.onlyLine_modLine _ i _)) b ?_
    simp [Line.lastOver, Line.charOver, Line.goto, TxnState.drives, l]
  · have early' : ((s.modLine i Line.lastOver).line i).rxBusy = true ∨ ((s.modLine i Line.lastOver).line i).deHold = none :=
      early.imp (fun busy => by rw [line]; exact busy) noCount
    have done := State.enterTurnaround_noReply hand' (Txn.noReply_request hw noReply) early'
    exact completes_plain ((turns ends echoes).trans (congrArg finished done)) (only.trans (State.onlyLine_modLine _ i _))
      (by simp [SameTableOfLine, Line.lastOver, Line.charOver, Line.goto]) b hw rfl
  · exact completes_plain (run.trans (congrArg finished (State.charSent_aborted abort))) (State.onlyLine_modLine s i _)
      (by simp [SameTableOfLine, Line.charOver]) b hw rfl
  · exact completes_plain (run.trans (congrArg finished (State.charSent_collides noAbort failed))) (State.onlyLine_modLine s i _)
      (by simp [SameTableOfLine, Line.charOver]) b hw rfl


/-- A line whose receive side belongs to no transaction, its listen state neither LISTENING (R2, R21, R24, R42). -/
theorem Line.quietStart_begins {l : Line} (fresh : l.listen ≠ .listening) :
    l.quietStart = l.beginUnsolicited l.listen (if l.txn = .guard then l.lateMark else none) := by
  cases h : l.listen with
  | quiet => simp [Line.quietStart, h]
  | brk => simp [Line.quietStart, h]
  | listening => exact absurd h fresh

/-- A start bit inside an unsolicited frame (R21, R46). -/
theorem Line.quietStart_listening {l : Line} (listening : l.listen = .listening) :
    l.quietStart = { l with rxBusy := true, edgeListen := .listening, gap := none, awaitMark := false } := by
  simp [Line.quietStart, listening]

/-- The receiver examines a line in a state that listens (R38). -/
theorem Line.examines_listens {l : Line} (listens : l.txn.listens) : l.examines = true := by
  rcases listens with h | h | h | h <;> simp [Line.examines, h]

/-- It examines a line in SENDING for its echoes alone, and none out of service (R38). -/
theorem Line.examines_not {l : Line} (closed : l.txn = .offline ∨ (l.txn = .sending ∧ l.applied.echoCheck = false)) :
    l.examines = false := by
  rcases closed with h | ⟨h, echo⟩
  · simp [Line.examines, h]
  · simp [Line.examines, h, echo]

/-- A start bit on a line whose receive side belongs to no transaction (R2). -/
theorem State.takeStart_listens {s : State} {i : Fin 12} (listens : (s.line i).txn.listens) :
    s.takeStart i = s.modLine i Line.quietStart := by
  rcases listens with h | h | h | h <;> simp [State.takeStart, h]

/-- The end of a step leaves every line. -/
theorem State.close_line (v : State) (i : Fin 12) : v.close.line i = v.line i := by
  simp

/-- A line that enters GUARD with its receiver busy and no break begins an unsolicited frame (R2, R21). -/
theorem Line.fixListen_begins {l : Line} (owns : l.txn.ownsReceiver = true) (calm : l.brk = false) (busy : l.rxBusy = true) :
    l.fixListen = l.beginUnsolicited .quiet none := by
  simp [Line.fixListen, owns, calm, busy]

/-- A request without a reply that completes OK with the receiver busy: behind its GUARD entry the line receives an unsolicited
frame (R2, R9). -/
theorem State.complete_begins {w : State} {i : Fin 12} {y : Txn} {r : Request} (hw : y.work = .request r)
    (empty : y.reply = Assembly.empty) (owns : (w.line i).txn.ownsReceiver = true) (calm : (w.line i).brk = false)
    (busy : (w.line i).rxBusy = true) (guards : (w.line i).applied.guardTime ≠ 0) (granted : w.granted = [])
    (unserved : w.unserved (y.reservation.getD 0 - 1 + payloadBlocks r.payload) 0) :
    ((w.completeToGuard i y .ok).finish.line i).listen = .listening ∧
    ((w.completeToGuard i y .ok).finish.line i).unsolicited =
      some { mode := .undecided, frame := Assembly.empty, late := none } := by
  have quiet : w.unserved (max (y.reservation.getD 0) (filledBlocks 10 y.reply.kept.length) -
      Config.blocksFor (10 + (resultData .ok y.reply).1.length) + payloadBlocks r.payload) 0 := by
    rw [empty]
    refine unserved.mono rfl ?_ (Nat.le_refl _)
    have none0 : filledBlocks 10 Assembly.empty.kept.length = 0 := rfl
    have one : Config.blocksFor (10 + (resultData .ok Assembly.empty).1.length) = 1 := rfl
    rw [none0, one]
    omega
  obtain ⟨granted', line, _⟩ := State.complete_request w i y r .ok hw quiet
  have guards' : ((w.complete i y .ok).line i).applied.guardTime ≠ 0 := by rw [line]; exact guards
  have only := State.onlyLine_enterGuard (w.complete i y .ok) i y.lateMark guards'
  have entered := State.enterGuard_line (w.complete i y .ok) i y.lateMark guards'
  rw [line, Line.fixListen_begins (l := { w.line i with hand := none }) owns calm busy] at entered
  rw [State.completeToGuard, State.finish_none (only.granted.trans (granted'.trans granted)),
    State.close_line, entered]
  exact ⟨rfl, rfl⟩

/-- Settles O48: a start bit, by the state of the line. -/
theorem startBit : Obligations.StartBit := by
  intro i s rest noBreak b
  intro l quiet moves
  have run : l.examines = true → exec (.startBit i) s = finished (s.takeStart i) := fun examines => by
    show execStartBit i s = _
    have can : (s.line i).canStart = true := by simp [Line.canStart, rest, noBreak, show (s.line i).examines = true from examines]
    simp [execStartBit, can]
  have listens : quiet → exec (.startBit i) s = finished (s.modLine i Line.quietStart) := fun still => by
    rw [run (Line.examines_listens still), State.takeStart_listens still]
  refine ⟨fun still fresh => ?_, fun still listening => ?_, fun x w awaits hand window => ?_, fun receives => ?_,
    fun x turns hand replies => ?_, fun x r turns hand hw noReply empty => ?_, fun sending checks => ?_, fun closed => ?_⟩
  · exact completes_modLine (listens still) b (Line.quietStart_begins fresh)
  · exact completes_modLine (listens still) b (Line.quietStart_listening listening)
  · have start : s.takeStart i = s.modLine i (fun l => l.suspend s.clock) := by simp [State.takeStart, show (s.line i).txn = _ from awaits]
    refine completes_modLine ((run (by simp [Line.examines, awaits])).trans (congrArg finished start)) b ?_
    simp [Line.suspend, Line.goto, TxnState.drives, show (s.line i).hand = _ from hand, show (s.line i).window = _ from window, l]
  · have start : s.takeStart i = s.modLine i (fun l => { l with rxBusy := true, gap := none, awaitMark := false }) := by
      simp [State.takeStart, show (s.line i).txn = _ from receives]
    exact completes_modLine ((run (by simp [Line.examines, receives])).trans (congrArg finished start)) b rfl
  · have start : s.takeStart i = (s.modLine i (fun l => { l with rxBusy := true })).earlyAnswer i := by
      simp [State.takeStart, show (s.line i).txn = _ from turns]
    rw [State.earlyAnswer_receives (x := x) (by rw [State.line_modLine_same]; exact hand) replies] at start
    refine completes_line ((run (by simp [Line.examines, turns])).trans (congrArg finished start))
      ((State.onlyLine_modLine s i _).trans (State.onlyLine_modLine _ i _)) b ?_
    simp [Line.goto, TxnState.drives, l]
  · have start : s.takeStart i = (s.modLine i (fun l => { l with rxBusy := true })).earlyAnswer i := by
      simp [State.takeStart, show (s.line i).txn = _ from turns]
    rw [State.earlyAnswer_noReply (x := x) (by rw [State.line_modLine_same]; exact hand)
      (Txn.noReply_request hw noReply)] at start
    have done := (run (by simp [Line.examines, turns])).trans (congrArg finished start)
    obtain ⟨t, next, completed⟩ := completes_plain done (State.onlyLine_modLine s i _) (by simp [SameTableOfLine]) b hw rfl
    refine ⟨t, next, completed, fun guards unserved => ?_⟩
    obtain rfl : t = (State.completeToGuard (s.modLine i (fun l => { l with rxBusy := true })) i { x with attempts := 1 } .ok).finish := by
      rw [done] at next
      cases next
      rfl
    refine State.complete_begins (r := r) hw empty ?_ ?_ ?_ ?_ b.2 unserved
    · simp [TxnState.ownsReceiver, show (s.line i).txn = _ from turns]
    · simp [noBreak]
    · simp
    · simpa using guards
  · have start : s.takeStart i = s.modLine i (fun l => { l with rxBusy := true }) := by
      simp [State.takeStart, show (s.line i).txn = _ from sending]
    exact completes_modLine ((run (by simp [Line.examines, sending, checks])).trans (congrArg finished start)) b rfl
  · refine ⟨s, ?_, rfl⟩
    show execStartBit i s = _
    have cannot : (s.line i).canStart = false := by
      simp [Line.canStart, show (s.line i).examines = false from Line.examines_not closed]
    simp [execStartBit, cannot, go]


namespace State

variable {w : State} {i : Fin 12}

/-- The listen state becomes QUIET and nothing waits for it (R2). -/
theorem becomeQuiet_still
    (still : ((w.line i).txn = .idle ∧ (w.line i).staged = none) ∨ (w.line i).txn = .waitSpace ∨ (w.line i).txn = .guard) :
    w.becomeQuiet i = w.modLine i quietLine := by
  rcases still with ⟨idle, none'⟩ | waits | guard
  · have : ((w.modLine i quietLine).line i).staged = none := by rw [line_modLine_same]; exact none'
    rw [becomeQuiet, idle]
    show (w.modLine i quietLine).applyStaged i = _
    rw [applyStaged, this]
  · rw [becomeQuiet, waits]
    rfl
  · rw [becomeQuiet, guard]
    rfl

/-- A line in READY sends as its listen state becomes QUIET (R6). -/
theorem becomeQuiet_ready (ready : (w.line i).txn = .ready) :
    w.becomeQuiet i = (w.modLine i quietLine).enterSending i := by
  rw [becomeQuiet, ready]
  rfl

/-- An IDLE line applies a staged profile as its listen state becomes QUIET (R30). -/
theorem becomeQuiet_idle (idle : (w.line i).txn = .idle) :
    w.becomeQuiet i = (w.modLine i quietLine).applyStaged i := by
  rw [becomeQuiet, idle]
  rfl

/-- A line that enters SENDING, in the words of the statements (R7, R36). -/
theorem enterSending_sends {x : Txn} (hand : (w.line i).hand = some x) :
    (w.enterSending i).line i = sendingLine (w.line i) x (w.workBytes x.work)[0]? := by
  rw [enterSending_line w i x hand]
  rfl

/-- What a line becomes as its listen state becomes QUIET with no profile staged (R2, R6). -/
theorem becomeQuiet_line {m : Line}
    (becomes : ((((w.line i).txn = .idle ∧ (w.line i).staged = none) ∨ (w.line i).txn = .waitSpace ∨
        (w.line i).txn = .guard) ∧ m = quietLine (w.line i)) ∨
      ∃ x, (w.line i).txn = .ready ∧ (w.line i).hand = some x ∧
        m = sendingLine (quietLine (w.line i)) x (w.workBytes x.work)[0]?) :
    OnlyLine i w (w.becomeQuiet i) ∧ (w.becomeQuiet i).line i = m := by
  rcases becomes with ⟨still, rfl⟩ | ⟨x, ready, hand, rfl⟩
  · rw [becomeQuiet_still still]
    exact ⟨onlyLine_modLine w i _, line_modLine_same w i _⟩
  · rw [becomeQuiet_ready ready]
    refine ⟨(onlyLine_modLine w i _).trans (onlyLine_enterSending _ i), ?_⟩
    rw [enterSending_sends (x := x) (by rw [line_modLine_same]; exact hand), line_modLine_same]
    exact congrArg (sendingLine _ x) (congrArg (·[0]?) ((onlyLine_modLine w i _).workBytes x.work))

/-- A staged profile put in place as the listen state of an IDLE line becomes QUIET (R30 to R32). -/
theorem becomeQuiet_placed {p : Profile} (idle : (w.line i).txn = .idle) (staged : (w.line i).staged = some p)
    (nobody : w.pool.waitList = []) :
    Placed i p { quietLine (w.line i) with staged := none } (w.modLine i quietLine) (w.becomeQuiet i) := by
  have placed := (w.modLine i quietLine).applyStaged_placed i p (by rw [line_modLine_same]; exact idle)
    (by rw [line_modLine_same]; exact staged) (by rw [pool_modLine]; exact nobody)
  rw [line_modLine_same] at placed
  rw [becomeQuiet_idle idle]
  exact placed

end State

/-- An event of a profile put in place joins next behind the stream of the state where nothing else has joined (R30, R197). -/
theorem Placed.joined {i : Fin 12} {p : Profile} {l : Line} {s x v u : State} (placed : Placed i p l x v)
    (only : State.OnlyLine i s x) (more : v.stream <+: u.stream) (room : s.pool.eventsUsed < 16) :
    JoinedBehind [s.stamp (.event .profileApplied (lineByte i) s.pool.missedEvents (boolByte p.enabled ++ 0#24)) true 0]
      s u.close := by
  have event := placed.event (by rw [only.pool]; exact room)
  rw [only.stream, only.pool, State.stamp_congr _ _ only.clock only.cfg] at event
  exact ((event.trans more).trans (List.prefix_append _ _)).trans u.close_stream

/-- Settles O51: the ends of a break, of the idle behind it, and of the wait for mark. -/
theorem breakAndMarkEnd : Obligations.BreakAndMarkEnd := by
  intro i s b
  refine ⟨fun lasts => ?_, fun awaits => ?_, fun idles => ?_⟩
  · refine completes_modLine (f := Line.breakOver) ?_ b rfl
    show execBreakEnd i s = _
    simp [execBreakEnd, lasts]
  · refine completes_modLine (f := fun l => l.startGap true) ?_ b rfl
    show execReturnToMark i s = _
    simp [execReturnToMark, awaits]
  · have run : exec (.postBreakIdleEnd i) s = finished (s.becomeQuiet i) := by
      show execPostBreakIdleEnd i s = _
      simp [execPostBreakIdleEnd, idles]
    refine ⟨fun _ idle none' => ?_, fun still => ?_, fun x ready hand => ?_, fun p idle staged nobody => ?_⟩
    · obtain ⟨only, line⟩ := State.becomeQuiet_line (Or.inl ⟨Or.inl ⟨idle, none'⟩, rfl⟩)
      exact completes_line run only b line
    · obtain ⟨only, line⟩ := State.becomeQuiet_line (Or.inl ⟨Or.inr still.symm, rfl⟩)
      exact completes_line run only b line
    · obtain ⟨only, line⟩ := State.becomeQuiet_line (Or.inr ⟨x, ready, hand, rfl⟩)
      exact completes_line run only b line
    · have placed := State.becomeQuiet_placed idle staged nobody
      have only := State.onlyLine_modLine s i quietLine
      obtain ⟨granted, outside, link, line, applied, slots, reserved, total, _⟩ :=
        told_placed (told_rfl s) only placed b nobody (by simp) ⟨rfl, rfl⟩
      refine completes_of _ run granted ⟨outside, link, line, applied, slots, reserved, total, fun held => ?_,
        placed.joined only (List.prefix_refl _)⟩
      have books := placed.books (by
        rw [only.pool]
        exact (spare_le _).trans held)
      rw [only.pool] at books
      have closed : (s.becomeQuiet i).close.pool.free = (s.becomeQuiet i).pool.free := by simp
      exact closed.trans books

/-- A gap count that ends in an unsolicited frame finishes with it, then the line is QUIET (R22, R46). -/
theorem exec_gapCountEnd_listens {i : Fin 12} {s : State} {u : Unsolicited} (listens : (s.line i).txn.listens)
    (frame : (s.line i).unsolicited = some u) (gap : (s.line i).gap.isSome = true) :
    exec (.gapCountEnd i) s = finished ((s.finishUnsolicited i u false).becomeQuiet i) := by
  show execGapCountEnd i s = _
  rcases listens with h | h | h | h <;>
    simp [execGapCountEnd, gap, State.takeGapEnd, h, State.endUnsolicited, frame]

/-- Settles O56: the policy finishes with the frame, then the listen state becomes QUIET. -/
theorem unsolicitedFrameEnds : Obligations.UnsolicitedFrameEnds := by
  intro i u cs rs slots s frame gap b ends
  obtain ⟨told, slots', freed⟩ := ends.told
  have line : (s.finishUnsolicited i u false).line i = s.line i := told.line i
  have bytes : ∀ x : Txn, (s.finishUnsolicited i u false).workBytes x.work = s.workBytes x.work := fun x => by
    cases x.work with
    | request r => rfl
    | poll id _ => simp [State.workBytes, State.poll, told.polls]
  refine ⟨fun m becomes => ?_, fun p idle staged nobody => ?_⟩
  · have listens : (s.line i).txn.listens := by
      rcases becomes with ⟨⟨idle, _⟩ | waits | guard, _⟩ | ⟨x, ready, _⟩
      · exact Or.inl idle
      · exact Or.inr (Or.inl waits)
      · exact Or.inr (Or.inr (Or.inr guard))
      · exact Or.inr (Or.inr (Or.inl ready))
    obtain ⟨only, line'⟩ := State.becomeQuiet_line (w := s.finishUnsolicited i u false) (i := i) (m := m)
      (by simpa only [line, bytes] using becomes)
    obtain ⟨outside, polls, link, total, wait, results, counted⟩ := told_only told only b
    have granted := only.granted.trans (told.granted.trans b.2)
    rw [State.finish_none granted] at outside polls link total wait results counted
    refine completes_of _ (exec_gapCountEnd_listens listens frame gap) granted
      ⟨⟨outside, link, total, wait, ?_⟩, polls, results, counted, ?_, freed.on ?_ ?_ ?_⟩
    · simp [only.pool, slots']
    · rw [State.close_line, line']
    · simp [only.pool]
    · simp [only.pool]
    · simp [only.pool]
  · have nobody' : (s.finishUnsolicited i u false).pool.waitList = [] := told.wait.trans nobody
    have placed := State.becomeQuiet_placed (w := s.finishUnsolicited i u false) (i := i) (p := p)
      (by rw [line]; exact idle) (by rw [line]; exact staged) nobody'
    rw [line] at placed
    have only := State.onlyLine_modLine (s.finishUnsolicited i u false) i quietLine
    obtain ⟨granted, outside, link, line', applied, slots0, _, total, wait⟩ :=
      told_placed told only placed b nobody ends.refuses ⟨rfl, rfl⟩
    refine completes_of _ (exec_gapCountEnd_listens (Or.inl idle) frame gap) granted
      ⟨⟨outside, link, total, wait.trans nobody.symm, slots0.trans slots'⟩, line', applied,
        (freed.placed only placed).on (by simp) (by simp) (by simp), fun room given => ?_⟩
    have same : s.finishUnsolicited i u false = s := by
      rcases given with lost | aborted
      · simp [State.finishUnsolicited, lost]
      · simp [State.finishUnsolicited, aborted]
    rw [same] at only
    rw [same] at placed ⊢
    exact placed.joined only (List.prefix_refl _) room


/-- What NEXTDUE_REACHED leaves whatever becomes of the entry: everything but the entry, its line and the pool (R72). -/
def DueFrame (id : Fin 128) (i : Fin 12) (s t : State) : Prop :=
  SameSettings s t ∧ SameLink s t ∧ t.intake = s.intake ∧ t.results = s.results ∧ Counted [] s t ∧
  (∀ k, k ≠ id → t.poll k = s.poll k) ∧ ∀ j, j ≠ i → t.line j = s.line j

/-- An entry written and its line moved, to the end of the step (R72). -/
theorem dueFrame_of {id : Fin 128} {i : Fin 12} {e : Option Poll} {s u : State}
    (only : State.OnlyLine i (s.setPoll id e) u) (b : s.between) :
    DueFrame id i s u.close ∧ SamePool s u.close ∧ u.close.poll id = e := by
  refine ⟨⟨?_, sameLink_close (sameLink_of_calm ?_), ?_, ?_, Counted.close (Counted.same ?_), fun k ne => ?_,
    fun j ne => ?_⟩, ?_, ?_⟩
  · simp [SameSettings, only.cfg, only.pollRun, only.clock, only.pending]
  · rw [only.trunk]
    rfl
  · simp [only.intake]
  · simp [only.results, only.lateResults, b.late]
  · rw [only.ctrs]
    rfl
  · simp only [State.close_frame, only.poll, State.setPoll_poll, if_neg ne]
  · rw [State.close_line, only.line j ne]
    rfl
  · simp [SamePool, only.pool]
  · simp only [State.close_frame, only.poll, State.setPoll_poll, if_pos]

/-- Settles O44: the entry's NextDue moves on, and its state decides whether it falls due, is skipped, or counts an overrun. -/
theorem nextDueReached : Obligations.NextDueReached := by
  intro id p d s hp next due active up b
  have run : exec (.nextDueReached id) s = finished (s.reachDue id p d) := by
    show execNextDueReached id s = _
    simp [execNextDueReached, State.dueNow, hp, next, State.polling, active, up, due]
  refine ⟨fun waits offline => ?_, fun waits online busy => ?_, fun waits idle queue dueList nobody room slots => ?_,
    fun busy => ?_⟩
  · rw [State.reachDue_waiting s id p d waits, if_pos offline] at run
    obtain ⟨frame, pool, poll⟩ := dueFrame_of (State.onlyLine_rfl p.defn.line (s.setPoll id (some (p.moveOn d)))) b
    exact completes_of _ run b.2 ⟨frame, pool, by rw [State.close_line]; rfl, poll⟩
  · rw [State.reachDue_waiting s id p d waits, if_neg online] at run
    have falls : s.becomeDue id p d = (s.setPoll id (some { p.moveOn d with state := .due })).modLine p.defn.line
        (fun l => { l with due := dueInsert { poll := id, time := d } l.due }) := by
      rw [State.becomeDue, State.selectIfIdle_busy]
      rw [State.line_modLine_same]
      exact busy
    rw [falls] at run
    obtain ⟨frame, pool, poll⟩ := dueFrame_of (State.onlyLine_modLine (s.setPoll id (some { p.moveOn d with state := .due }))
      p.defn.line (fun l => { l with due := dueInsert { poll := id, time := d } l.due })) b
    refine completes_of _ run b.2 ⟨frame, pool, ?_, poll⟩
    rw [State.close_line, State.line_modLine_same]
    rfl
  · rw [State.reachDue_waiting s id p d waits, if_neg (by rw [idle]; simp)] at run
    obtain ⟨polls, line, free, reserved, slots', wait, quietly, outside, granted⟩ :=
      State.becomeDue_selects s id p d idle queue dueList nobody b.2 room slots
    obtain ⟨lines, intake, cfg, pollRun, clock, pending⟩ := outside
    refine completes_of _ run (granted) ⟨⟨?_, sameLink_close (sameLink_of_calm quietly.calm), ?_, ?_,
      Counted.close (Counted.quiet quietly.ctrs), fun k ne => ?_, fun j ne => ?_⟩, ?_, ?_, ?_, ?_, ?_, ?_⟩
    · exact State.sameSettings_close _ _ ⟨cfg, pollRun, clock, pending⟩
    · simp [intake]
    · simp [quietly.results, quietly.late, b.late]
    · simp only [State.close_frame, polls, if_neg ne]
    · rw [State.close_line, lines j ne]
    · simp only [State.close_frame, polls, if_pos]
    · simpa using free
    · simpa using reserved
    · simpa using slots'
    · simpa using wait
    · rw [State.close_line]
      exact line
  · rw [State.reachDue_busy s id p d busy] at run
    obtain ⟨frame, pool, poll⟩ := dueFrame_of (State.onlyLine_rfl p.defn.line (s.setPoll id (some (p.overrun.moveOn d)))) b
    exact completes_of _ run b.2 ⟨frame, pool, by rw [State.close_line]; rfl, poll⟩


namespace State

/-- A line takes work in hand that must wait for its space (R4, R93). -/
theorem takeInHand_waits {z : State} {i : Fin 12} {w : Work} (later : z.grantsNow (w.need (z.line i).applied) = false) :
    z.takeInHand i w = (z.modLine i (fun l => { l.goto .waitSpace with hand := some (Txn.start w) })).joinWait
      { who := .line i, need := w.need (z.line i).applied } := by
  rw [takeInHand, if_neg (by rw [Bool.not_eq_true]; exact later)]

/-- An allocation of a line waits where another waits, or where its blocks or its slot are not free (R92, R93). -/
theorem grantsNow_line {z : State} {n : Need} (cls : n.cls = .line)
    (full : z.pool.waitList ≠ [] ∨ z.pool.free < n.blocks + 16 ∨ (n.slot = true ∧ 256 < z.pool.slotsUsed + 9)) :
    z.grantsNow n = false := by
  rw [grantsNow, Bool.and_eq_false_iff]
  rcases full with queue | blocks | ⟨slot, slots⟩
  · exact Or.inl (by simpa using queue)
  · refine Or.inr (Bool.eq_false_iff.mpr fun passes => ?_)
    rw [passes_iff, cls] at passes
    exact absurd passes.1 (by omega)
  · refine Or.inr (Bool.eq_false_iff.mpr fun passes => ?_)
    rw [passes_iff, cls] at passes
    have := passes.2 slot
    omega

end State

section
variable {i : Fin 12} {k : Fin 128} {e : Option Poll} {w : Work} {s z : State}

/-- Work taken in hand with its space granted, behind an entry written and a move of the line, to the end of the step (R4, R93). -/
theorem taken_closed (only : State.OnlyLine i (s.setPoll k e) z) (late : s.lateResults = [])
    (granted : s.granted = []) (nobody : s.pool.waitList = [])
    (fits : s.pool.passes (w.need (z.line i).applied) = true) :
    let n := w.need (z.line i).applied
    let y : Txn := { Txn.start w with reservation := some n.blocks }
    let t := (z.takeInHand i w).close
    (z.takeInHand i w).granted = [] ∧ SameOutside i s t ∧ SameLink s t ∧ t.results = s.results ∧ t.pool.total = s.pool.total ∧
    Counted [] s t ∧ t.polls = (s.setPoll k e).polls ∧ t.pool.waitList = [] ∧ t.pool.free = s.pool.free - n.blocks ∧
    t.pool.reserved = s.pool.reserved + n.blocks ∧ t.pool.slotsUsed = s.pool.slotsUsed + (if n.slot then 1 else 0) ∧
    t.line i = if (z.line i).listen = .quiet then sendingLine (z.line i) y (z.workBytes w)[0]?
      else { z.line i with txn := .ready, lde := false, hand := some y } := by
  intro n y t
  have pool : z.pool = s.pool := only.pool
  obtain ⟨line, free, reserved, slots, wait, polls, quietly, outside, granted'⟩ :=
    z.takeInHand_free i w (by rw [pool]; exact nobody) (only.granted.trans granted) (by rw [pool]; exact fits)
  obtain ⟨lines, intake, cfg, run, clock, pending⟩ := outside
  rw [pool] at free reserved slots
  refine ⟨granted', sameOutside_close ⟨fun j ne => (lines j ne).trans (only.line j ne), intake.trans only.intake,
    cfg.trans only.cfg, run.trans only.pollRun, clock.trans only.clock, pending.trans only.pending⟩,
    sameLink_close (sameLink_of_calm ?_), ?_, ?_, Counted.close (Counted.quiet fun d straight => ?_), ?_, ?_, ?_, ?_, ?_, ?_⟩
  · rw [quietly.calm, only.trunk]
    rfl
  · simp [t, quietly.results, quietly.late, only.results, only.lateResults, late]
  · have total := quietly.total
    rw [pool] at total
    simpa [t, Pool.total] using total
  · rw [quietly.ctrs d straight, only.ctrs]
    rfl
  · simp [t, polls, only.polls]
  · simp [t, wait]
  · simpa [t] using free
  · simpa [t] using reserved
  · simpa [t] using slots
  · rw [State.close_line]
    exact line

/-- Work taken in hand that waits for its space, to the end of the step (R4, R93). -/
theorem waiting_closed (only : State.OnlyLine i (s.setPoll k e) z) (b : s.between)
    (later : s.grantsNow (w.need (z.line i).applied) = false) :
    let t := (z.takeInHand i w).close
    (z.takeInHand i w).granted = [] ∧ SameOutside i s t ∧ SameLink s t ∧ t.results = s.results ∧ t.pool.total = s.pool.total ∧
    Counted [.pool .waitSpaceEntries] s t ∧ t.polls = (s.setPoll k e).polls ∧ t.pool.free = s.pool.free ∧
    t.pool.slotsUsed = s.pool.slotsUsed ∧
    t.pool.waitList = s.pool.waitList ++ [{ who := .line i, need := w.need (z.line i).applied }] ∧
    t.line i = { z.line i with txn := .waitSpace, lde := false, hand := some (Txn.start w) } := by
  intro t
  have pool : z.pool = s.pool := only.pool
  have moved := only.trans (State.onlyLine_modLine z i (fun l => { l.goto .waitSpace with hand := some (Txn.start w) }))
  have waits := State.takeInHand_waits (z := z) (i := i) (w := w) (by
    rw [State.grantsNow, pool]
    exact later)
  obtain ⟨v, hv⟩ : ∃ v, v = z.modLine i (fun l => { l.goto .waitSpace with hand := some (Txn.start w) }) := ⟨_, rfl⟩
  have line : v.line i = { z.line i with txn := .waitSpace, lde := false, hand := some (Txn.start w) } := by
    rw [hv, State.line_modLine_same]
    rfl
  rw [← hv] at moved waits
  simp only [t, waits]
  refine ⟨?_, sameOutside_close ?_, sameLink_close (sameLink_of_calm ?_), ?_, ?_, Counted.close ?_, ?_, ?_, ?_, ?_, ?_⟩
  · simp [moved.granted, b.2]
  · obtain ⟨lines, intake, cfg, run, clock, pending⟩ := moved.outside
    exact ⟨fun j ne => by simpa using lines j ne, by simpa using intake,
      by simpa using cfg, by simpa using run, by simpa using clock,
      by simpa using pending⟩
  · simp [moved.trunk]
  · simp [moved.results, moved.lateResults, b.late]
  · simpa [Pool.total] using congrArg Pool.total moved.pool
  · intro d straight
    rw [State.joinWait, Counted.bump _ (.pool .waitSpaceEntries) d straight]
    simp [moved.ctrs]
  · simp [moved.polls]
  · simp [moved.pool]
  · simp [moved.pool]
  · simp [moved.pool]
  · rw [State.close_line, ← line]
    simp [State.joinWait]

end


/-- A line as GUARD has ended, before it moves on (R20, R24). -/
def Line.guardDone (l : Line) : Line := { l with guardEnd := none, lateMark := none, lde := false }

/-- A line in IDLE behind GUARD (R20). -/
def Line.idleAgain (l : Line) : Line := { l.guardDone with txn := .idle }

/-- A line as a retry leaves GUARD, before it is READY (R16). -/
def Line.again (l : Line) (x : Txn) : Line :=
  { l with guardEnd := none, lateMark := none, hand := some { x with attempts := x.attempts + 1 } }

/-- Selection looks at queue, due list and AgeLimit alone (R58). -/
theorem choose_idleAgain (l : Line) (now : Nat) : choose l.idleAgain now = choose l now := rfl

namespace State

variable {s : State} {i : Fin 12}

/-- GUARD ends with a retry pending (R16). -/
theorem guardOver_retry {x : Txn} (hand : (s.line i).hand = some x) :
    s.guardOver i = (s.modLine i (fun l => l.again x)).enterReady i := by
  simp only [guardOver, hand, Option.isSome_some, if_true, modLine_twice]
  congr 1
  simp [modLine, hand, Line.again]

/-- GUARD ends with nothing in hand (R20, R30, R57). -/
theorem guardOver_idle (hand : (s.line i).hand = none) : s.guardOver i =
    if (s.line i).listen = .quiet then ((s.modLine i Line.idleAgain).applyStaged i).selectIfIdle i
      else (s.modLine i Line.idleAgain).select i := by
  have idle : ((s.modLine i Line.idleAgain).line i).txn = .idle := by rw [line_modLine_same]; rfl
  simp only [guardOver, hand, Option.isSome_none, Bool.false_eq_true, if_false, enterIdle, modLine_twice, line_modLine_same]
  rw [← selectIfIdle_idle _ i idle]
  rfl

/-- GUARD ends with nothing in hand and no profile to put in place: the line selects (R20, R57). -/
theorem guardOver_selects (hand : (s.line i).hand = none) (keeps : (s.line i).listen ≠ .quiet ∨ (s.line i).staged = none) :
    s.guardOver i = (s.modLine i Line.idleAgain).select i := by
  have idle : ((s.modLine i Line.idleAgain).line i).txn = .idle := by rw [line_modLine_same]; rfl
  rw [guardOver_idle hand]
  rcases keeps with busy | none'
  · rw [if_neg busy]
  · have still : ((s.modLine i Line.idleAgain).line i).staged = none := by rw [line_modLine_same]; exact none'
    have same : (s.modLine i Line.idleAgain).applyStaged i = s.modLine i Line.idleAgain := by
      rw [applyStaged, still]
    rw [same, selectIfIdle_idle _ i idle]
    exact ite_self _

/-- Selection of a request (R58). -/
theorem select_request {v : State} {r : Request} {q : List Request} (takes : choose (v.line i) v.clock = .request r q) :
    v.select i = (v.modLine i (fun l => { l with queue := q })).takeInHand i (.request r) := by
  rw [select, takes]

/-- Selection of a due poll (R58, R75). -/
theorem select_poll {v : State} {d : DueItem} {ds : List DueItem} {p : Poll}
    (takes : choose (v.line i) v.clock = .poll d ds) (hp : v.poll d.poll = some p) :
    v.select i = ((v.modLine i (fun l => { l with due := ds })).setPoll d.poll (some p.selected)).takeInHand i
      (.poll d.poll p.missed) := by
  rw [select, takes]
  simp only [hp]
  rfl

/-- Selection of nothing. -/
theorem select_nothing {v : State} (none' : choose (v.line i) v.clock = .nothing) : v.select i = v := by
  rw [select, none']

end State

/-- What a profile put in place has done reads the same on a state that differs in blocks and lines alone. -/
theorem ProfileApplied.congr {i : Fin 12} {p : Profile} {cs : List CtrId} {rs : List Record} {s t u : State}
    (h : ProfileApplied i p cs rs s t) (results : u.results = t.results)
    (ctrs : ∀ d, ¬ d.sideways → u.ctrs.read d = t.ctrs.read d) (polls : u.polls = t.polls) : ProfileApplied i p cs rs s u := by
  obtain ⟨told, counted, entries⟩ := h
  exact ⟨results.trans told, fun d straight => (ctrs d straight).trans (counted d straight),
    fun id => by rw [State.poll, polls]; exact entries id⟩

section
variable {i : Fin 12} {s : State}

/-- A retry behind GUARD enters READY with its Attempts increased (R16). -/
theorem guardEnd_retries {c : Instr} {x : Txn} (run : exec c s = finished (s.guardOver i)) (hand : (s.line i).hand = some x)
    (b : s.between) : Completes c s (fun t => LineMoves i s t ∧
      t.line i = if (s.line i).listen = .quiet
        then sendingLine (s.line i).guardDone { x with attempts := x.attempts + 1 } (s.workBytes x.work)[0]?
        else { (s.line i).guardDone with txn := .ready, hand := some { x with attempts := x.attempts + 1 } }) := by
  rw [State.guardOver_retry hand] at run
  have moved := State.onlyLine_modLine s i (fun l => l.again x)
  have line := State.line_modLine_same s i (fun l => l.again x)
  refine completes_line run (moved.trans (State.onlyLine_enterReady _ i)) b ?_
  rw [State.enterReady_moves _ i { x with attempts := x.attempts + 1 } (by rw [line]; rfl), line, moved.workBytes]
  split
  · exact (sendingLine_ext _ _ _ _ rfl).trans (if_pos ‹_›).symm
  · exact (if_neg ‹_›).symm

/-- A request selected behind GUARD (R57, R93). -/
theorem guardEnd_request {c : Instr} {r : Request} {q : List Request} (run : exec c s = finished (s.guardOver i))
    (hand : (s.line i).hand = none) (keeps : (s.line i).listen ≠ .quiet ∨ (s.line i).staged = none)
    (takes : choose (s.line i) s.clock = .request r q) :
    ∃ z : State, exec c s = finished (z.takeInHand i (.request r)) ∧ State.OnlyLine i s z ∧
      z.line i = { (s.line i).idleAgain with queue := q } := by
  refine ⟨(s.modLine i Line.idleAgain).modLine i (fun l => { l with queue := q }), ?_,
    (State.onlyLine_modLine s i _).trans (State.onlyLine_modLine _ i _), ?_⟩
  · rw [run, State.guardOver_selects hand keeps, State.select_request (r := r) (q := q)]
    rw [State.line_modLine_same, choose_idleAgain]
    exact takes
  · rw [State.line_modLine_same, State.line_modLine_same]

/-- A due poll selected behind GUARD (R57, R75, R93). -/
theorem guardEnd_poll {c : Instr} {d : DueItem} {ds : List DueItem} {p : Poll} (run : exec c s = finished (s.guardOver i))
    (hand : (s.line i).hand = none) (keeps : (s.line i).listen ≠ .quiet ∨ (s.line i).staged = none)
    (takes : choose (s.line i) s.clock = .poll d ds) (hp : s.poll d.poll = some p) :
    ∃ z : State, exec c s = finished (z.takeInHand i (.poll d.poll p.missed)) ∧
      State.OnlyLine i (s.setPoll d.poll (some p.selected)) z ∧ z.line i = { (s.line i).idleAgain with due := ds } := by
  refine ⟨((s.modLine i Line.idleAgain).modLine i (fun l => { l with due := ds })).setPoll d.poll (some p.selected), ?_, ?_, ?_⟩
  · rw [run, State.guardOver_selects hand keeps, State.select_poll (v := s.modLine i Line.idleAgain) (d := d) (ds := ds) (p := p) ?_ hp]
    rw [State.line_modLine_same, choose_idleAgain]
    exact takes
  · exact (State.onlyLine_modLine (s.setPoll d.poll (some p.selected)) i Line.idleAgain).trans
      (State.onlyLine_modLine _ i (fun l => { l with due := ds }))
  · rw [State.line_setPoll, State.line_modLine_same, State.line_modLine_same]

end


/-- What stands behind GUARD with a staged profile put in place, nothing selected yet (R20, R30 to R32). -/
theorem guardEnd_placed {i : Fin 12} {s : State} {p : Profile} (hand : (s.line i).hand = none)
    (quiet : (s.line i).listen = .quiet) (staged : (s.line i).staged = some p) (nobody : s.pool.waitList = []) :
    ∃ v : State, s.guardOver i = v.selectIfIdle i ∧
      Placed i p { (s.line i).idleAgain with staged := none } (s.modLine i Line.idleAgain) v := by
  have placed := (s.modLine i Line.idleAgain).applyStaged_placed i p (by rw [State.line_modLine_same]; rfl)
    (by rw [State.line_modLine_same]; exact staged) (by rw [State.pool_modLine]; exact nobody)
  rw [State.line_modLine_same] at placed
  exact ⟨_, by rw [State.guardOver_idle hand, if_pos quiet], placed⟩

/-- What is outside a line stands through the end of a step as it stood before. -/
theorem sameOutside_of_close {i : Fin 12} {s v : State} (h : SameOutside i s v.close) : SameOutside i s v := by
  simpa [SameOutside] using h

/-- The trunk interface stands through the end of a step as it stood before. -/
theorem sameLink_of_close {s v : State} (h : SameLink s v.close) : SameLink s v := by
  simpa [SameLink] using h

theorem sameLink_trans {s v t : State} (h : SameLink s v) (k : SameLink v t) : SameLink s t := by
  simp only [SameLink] at h k ⊢
  simp only [k, h, and_self]

section
variable {i : Fin 12} {s v : State} {p : Profile}

/-- What GuardEnd says of a profile put in place, whatever is selected behind it. -/
def GuardPlaced (i : Fin 12) (p : Profile) (s t : State) : Prop :=
  SameOutside i s t ∧ SameLink s t ∧ t.pool.total = s.pool.total ∧ t.pool.slotsUsed = s.pool.slotsUsed ∧
  t.pool.waitList = [] ∧ ProfileApplied i p [] [] s t ∧
  (s.pool.eventsUsed < 16 → JoinedBehind [s.stamp (.event .profileApplied (lineByte i) s.pool.missedEvents
    (boolByte p.enabled ++ 0#24)) true 0] s t)

/-- It holds where nothing is selected. -/
theorem guardPlaced_close (b : s.between) (nobody : s.pool.waitList = [])
    (placed : Placed i p { (s.line i).idleAgain with staged := none } (s.modLine i Line.idleAgain) v) :
    v.granted = [] ∧ GuardPlaced i p s v.close ∧
    v.close.line i = Line.under { (s.line i).idleAgain with staged := none } p ∧
    (queueBlocks ((s.line i).turnedOut p) ≤ s.pool.held →
      v.pool.free = s.pool.free + spareBlocks ((s.line i).turnedOut p)) := by
  have only := State.onlyLine_modLine s i Line.idleAgain
  obtain ⟨granted, outside, link, line, applied, slots, _, total, wait⟩ :=
    told_placed (told_rfl s) only placed b nobody (by simp) ⟨rfl, rfl⟩
  refine ⟨granted, ⟨outside, link, total, slots, wait, applied, placed.joined only (List.prefix_refl _)⟩, line, fun held => ?_⟩
  have books := placed.books (by
    rw [only.pool]
    exact (spare_le _).trans held)
  rw [only.pool] at books
  exact books

/-- It holds where a request is selected behind it. -/
theorem guardPlaced_taken {r : Request} {q : List Request} (b : s.between) (nobody : s.pool.waitList = [])
    (placed : Placed i p { (s.line i).idleAgain with staged := none } (s.modLine i Line.idleAgain) v)
    (fits : v.pool.passes ((Work.request r).need (v.line i).applied) = true) :
    let n := (Work.request r).need (v.line i).applied
    let u := (v.modLine i (fun l => { l with queue := q })).takeInHand i (.request r)
    u.granted = [] ∧ GuardPlaced i p s u.close ∧ u.close.pool.free = v.pool.free - n.blocks ∧
    u.close.pool.reserved = s.pool.reserved + n.blocks ∧
    u.close.line i = if (v.line i).listen = .quiet
      then sendingLine { v.line i with queue := q } { Txn.start (.request r) with reservation := some n.blocks } r.payload[0]?
      else { v.line i with
        queue := q, txn := .ready, lde := false
        hand := some { Txn.start (.request r) with reservation := some n.blocks } } := by
  intro n u
  have moved := State.onlyLine_modLine v i (fun l => { l with queue := q })
  have line := State.line_modLine_same v i (fun l => { l with queue := q })
  obtain ⟨granted, ⟨outside, link, total, slots, wait, applied, _⟩, _⟩ := guardPlaced_close b nobody placed
  have late : v.lateResults = [] := placed.touch.late.trans b.late
  have still : v.setPoll 0 (v.poll 0) = v := State.setPoll_self rfl
  obtain ⟨granted', outside', link', results', total', counted', polls', wait', free', reserved', slots', line'⟩ :=
    taken_closed (k := 0) (e := v.poll 0) (w := .request r) (by rw [still]; exact moved) late granted placed.wait
      (by rw [line]; exact fits)
  have fact : Fact ((fun j => j = i) i) := ⟨rfl⟩
  have touch : Touch (fun j => j = i) v u := State.touch_takeInHand (P := fun j => j = i)
    (State.touch_modLine (Touch.rfl' v) i (fun l => { l with queue := q }) rfl) i (.request r)
  rw [line] at free' reserved' slots' line'
  refine ⟨granted', ⟨(sameOutside_of_close outside).trans outside',
    sameLink_trans (sameLink_of_close link) link', ?_, ?_, wait', applied.congr ?_ (fun d straight => ?_) ?_,
    placed.joined (State.onlyLine_modLine s i _) touch.stream⟩, free', ?_, line'⟩
  · refine total'.trans ?_
    simpa [Pool.total] using total
  · exact slots'.trans placed.slots
  · rw [results', State.close_results, late, List.append_nil]
  · rw [counted' d straight]
    exact (Counted.close (Counted.same rfl) d straight).symm
  · rw [polls', still]
    simp
  · exact reserved'.trans (congrArg (· + n.blocks) placed.reserved)

end


/-- The work of a selected poll is its entry's request (R75). -/
theorem workBytes_selected {s z : State} {i : Fin 12} {id : Fin 128} {p : Poll} (m : Nat)
    (only : State.OnlyLine i (s.setPoll id (some p.selected)) z) : z.workBytes (.poll id m) = p.defn.request := by
  simp [State.workBytes, only.poll, Poll.selected]

/-- What the poll table holds once an entry has been selected (R75). -/
theorem poll_selected {s t : State} {id : Fin 128} {p : Poll} (polls : t.polls = (s.setPoll id (some p.selected)).polls) :
    t.poll id = some { p with state := .inFlight, pollSeq := p.pollSeq + 1 } ∧ ∀ k, k ≠ id → t.poll k = s.poll k := by
  have entries : ∀ k, t.poll k = (s.setPoll id (some p.selected)).poll k := fun k => by rw [State.poll, polls]; rfl
  exact ⟨by rw [entries, State.setPoll_poll, if_pos rfl]; rfl, fun k ne => by rw [entries, State.setPoll_poll, if_neg ne]⟩

/-- Settles O57: GUARD ends for a retry or for IDLE, there with a staged profile first and with whatever selection takes. -/
theorem guardEnd : Obligations.GuardEnd := by
  intro i d s guard deadline due b
  have run : exec (.guardEnd i) s = finished (s.guardOver i) := by
    show execGuardEnd i s = _
    simp [execGuardEnd, guard, State.expired, deadline, due]
  refine ⟨fun x hand => guardEnd_retries run hand b, fun hand queue dueList keeps => ?_, fun r q hand keeps takes => ?_,
    fun d ds p hand keeps takes hp => ?_, fun p hand quiet staged nobody held => ?_⟩
  · refine completes_line (run.trans (congrArg finished (State.guardOver_selects hand keeps))) ?_ b ?_
    all_goals
      rw [State.select_nothing (by
        rw [State.line_modLine_same, choose_idleAgain, choose_calm _ (by simp [queue]), chooseAged_nil _ queue,
          chooseDue_nil dueList, chooseNormal_nil queue])]
    · exact State.onlyLine_modLine s i _
    · exact State.line_modLine_same s i _
  · obtain ⟨z, taken, only, line⟩ := guardEnd_request run hand keeps takes
    have still : s.setPoll 0 (s.poll 0) = s := State.setPoll_self rfl
    rw [← still] at only
    refine ⟨fun nobody room => ?_, fun full => ?_⟩
    · obtain ⟨granted, outside, link, results, total, counted, polls, wait, free, reserved, slots, line'⟩ :=
        taken_closed (w := .request r) only b.late b.2 nobody
          (by rw [line]; exact (State.passes_iff _ _).mpr ⟨room, fun slot => by simp [Work.need] at slot⟩)
      rw [line] at reserved line'
      refine completes_of _ taken granted ⟨⟨outside, polls.trans (congrArg State.polls still), link, results, total, ?_⟩,
        counted, wait, reserved, line'.trans ?_⟩
      · rw [slots, line]
        rfl
      · split
        · exact (sendingLine_ext _ _ _ _ rfl).trans (if_pos ‹_›).symm
        · exact (if_neg ‹_›).symm
    · obtain ⟨granted, outside, link, results, total, counted, polls, free, slots, wait, line'⟩ :=
        waiting_closed (w := .request r) only b
          (by rw [line]; exact State.grantsNow_line rfl (full.imp_right Or.inl))
      rw [line] at wait line'
      exact completes_of _ taken granted ⟨⟨outside, polls.trans (congrArg State.polls still), link, results, total, slots⟩,
        counted, free, wait, line'⟩
  · obtain ⟨z, taken, only, line⟩ := guardEnd_poll run hand keeps takes hp
    refine ⟨fun nobody room slot => ?_, fun full => ?_⟩
    · obtain ⟨granted, outside, link, results, total, counted, polls, wait, free, reserved, slots, line'⟩ :=
        taken_closed (w := .poll d.poll p.missed) only b.late b.2 nobody
          (by rw [line]; exact (State.passes_iff _ _).mpr ⟨room, fun _ => by omega⟩)
      rw [line] at free reserved slots line'
      obtain ⟨entry, others⟩ := poll_selected polls
      refine completes_of _ taken granted ⟨⟨outside, link, results, total, entry, others⟩, counted, wait, free, reserved,
        slots, line'.trans ?_⟩
      rw [workBytes_selected p.missed only]
      split
      · exact (sendingLine_ext _ _ _ _ rfl).trans (if_pos ‹_›).symm
      · exact (if_neg ‹_›).symm
    · obtain ⟨granted, outside, link, results, total, counted, polls, free, slots, wait, line'⟩ :=
        waiting_closed (w := .poll d.poll p.missed) only b
          (by rw [line]; exact State.grantsNow_line rfl (full.imp_right (Or.imp_right (fun slot => ⟨rfl, slot⟩))))
      rw [line] at wait line'
      obtain ⟨entry, others⟩ := poll_selected polls
      exact completes_of _ taken granted ⟨⟨outside, link, results, total, entry, others⟩, counted, free, slots, wait, line'⟩
  · obtain ⟨v, selects, placed⟩ := guardEnd_placed hand quiet staged nobody
    obtain ⟨granted, after, line, free⟩ := guardPlaced_close b nobody placed
    rw [State.close_line] at line
    refine ⟨fun none' => ?_, fun r q enabled takes => ?_⟩
    · have still : v.selectIfIdle i = v := by
        rcases none' with disabled | nothing
        · refine State.selectIfIdle_busy ?_
          rw [line, Line.under, disabled]
          simp
        · have clock : v.clock = s.clock := by simpa using after.1.2.2.2.2.1
          rw [State.selectIfIdle, State.select_nothing]
          · exact ite_self _
          · rw [line, clock]
            exact nothing
      rw [still] at selects
      refine completes_of _ (run.trans (congrArg finished selects)) granted ⟨?_, ?_, by rw [State.close_line]; exact line⟩
      · obtain ⟨outside, link, total, slots, wait, applied, joined⟩ := after
        exact ⟨outside, link, total, slots, wait, applied, joined⟩
      · simpa using free held
    · intro n room
      have idle : (v.line i).txn = .idle := by rw [line, Line.under, if_pos enabled]; rfl
      have silent : (v.line i).listen = .quiet := by rw [line, Line.under, if_pos enabled]; exact quiet
      have applied : (v.line i).applied = p := by rw [line, Line.under, if_pos enabled]
      have clock : v.clock = s.clock := by simpa using after.1.2.2.2.2.1
      have need : (Work.request r).need (v.line i).applied = { blocks := n, slot := false, cls := .line } := by
        rw [applied]
        rfl
      have taken : v.selectIfIdle i = (v.modLine i (fun l => { l with queue := q })).takeInHand i (.request r) := by
        rw [State.selectIfIdle, if_pos idle, State.select_request]
        rw [line, clock]
        exact takes
      have size := free held
      obtain ⟨granted', after', free', reserved', line'⟩ := guardPlaced_taken (q := q) (r := r) b nobody placed
        (by rw [need, State.passes_iff]; exact ⟨by rw [size]; exact room, fun slot => by simp at slot⟩)
      rw [need] at free' reserved' line'
      rw [if_pos silent, line] at line'
      obtain ⟨outside, link, total, slots, wait, told, joined⟩ := after'
      refine completes_of _ (run.trans (congrArg finished (selects.trans taken))) granted'
        ⟨⟨outside, link, total, slots, wait, told, joined⟩, ?_, reserved', line'⟩
      rw [free', size]
      show _ - n + n = _
      omega

end Sys2Proof.Machine
end

section
/-! Received characters, echoes and break starts (R12, R21 to R25, R35, R40 to R49, R192). -/

namespace Sys2Proof.Machine

/-- The line as a break begins: its receiver is at rest (R41). -/
def Line.breakBegins (l : Line) : Line := { l with rxBusy := false, brk := true }

/-- The line as a break begins on a receive side no transaction uses: listen is BREAK (R2, R25). -/
def Line.broken (l : Line) : Line :=
  { l with
    rxBusy := false, brk := true, listen := .brk, unsolicited := none, gap := none, awaitMark := false, postBreak := none }

namespace State

variable {s : State} {i : Fin 12}

/-- A break has begun and been counted (R25, R41, R192). -/
def breakBegun (s : State) (i : Fin 12) : State := (s.modLine i Line.breakBegins).bump (.line i .breaks)

theorem breakBegun_line (s : State) (i : Fin 12) : (s.breakBegun i).line i = (s.line i).breakBegins := by
  simp [breakBegun]

/-- A break start on a receive side no transaction uses (R25). -/
theorem exec_breakStart_listens (listens : (s.line i).txn.listens) (busy : (s.line i).rxBusy = true) :
    exec (.breakStart i) s = finished ((s.breakBegun i).quietBreak i) := by
  have receives : (s.line i).receives = true := by simp [Line.receives, Line.examines_listens listens, busy]
  show execBreakStart i s = _
  rw [execBreakStart, if_pos receives, takeBreak]
  rcases listens with h | h | h | h <;> rw [h] <;> rfl

/-- A break start while the line sends (R25, R44). -/
theorem exec_breakStart_sending {x : Txn} (sending : (s.line i).txn = .sending) (checks : (s.line i).applied.echoCheck = true)
    (busy : (s.line i).rxBusy = true) (hand : (s.line i).hand = some x) :
    exec (.breakStart i) s = finished ((s.breakBegun i).echoFails i x) := by
  have receives : (s.line i).receives = true := by simp [Line.receives, Line.examines, sending, checks, busy]
  show execBreakStart i s = _
  rw [execBreakStart, if_pos receives, takeBreak, sending, hand]
  rfl

/-- The listen state becomes BREAK (R2, R25). -/
theorem becomeBreak_line {v : State} (begun : v.line i = (s.line i).breakBegins) :
    OnlyLine i v (v.becomeBreak i) ∧ (v.becomeBreak i).line i = (s.line i).broken := by
  refine ⟨onlyLine_modLine v i _, ?_⟩
  rw [becomeBreak, line_modLine_same, begun]
  rfl

end State

/-- An event raised tells the host nothing but itself (R197, R199). -/
theorem told_event (s : State) (k : EventKind) (l : Byte) (d : BitVec 32) : Told [] [] s (s.raiseEvent k l d) := by
  constructor
  case ctrs =>
    intro c straight
    obtain ⟨missed, _⟩ := sideways_ne straight
    simp [missed]
  all_goals simp [Pool.total]

section
variable {i : Fin 12} {s v u : State} {cs : List CtrId} {rs : List Record}

/-- What a move of a line, a told change and another move of the line leave, to the end of the step. -/
theorem moved_told {f : Line → Line} (told : Told cs rs (s.modLine i f) v) (only : State.OnlyLine i v u) (b : s.between) :
    u.granted = [] ∧ SameOutside i s u.close ∧ u.close.polls = s.polls ∧ SameLink s u.close ∧
    u.close.pool.total = s.pool.total ∧ u.close.pool.waitList = s.pool.waitList ∧ u.close.results = s.results ++ rs ∧
    Counted cs s u.close := by
  have moved := State.onlyLine_modLine s i f
  have granted := only.granted.trans (told.granted.trans b.2)
  obtain ⟨outside, polls, link, total, wait, results, counted⟩ := told_only told only b
  rw [State.finish_none granted] at outside polls link total wait results counted
  exact ⟨granted, moved.outside.trans outside, polls, link, total, wait, results.trans (by rw [moved.results]), counted⟩

/-- The same where the pool stands. -/
theorem moved_plain {f : Line → Line} (told : Told cs [] (s.modLine i f) v) (pool : SamePool s v)
    (only : State.OnlyLine i v u) (b : s.between) :
    u.granted = [] ∧ (SameOutside i s u.close ∧ u.close.polls = s.polls ∧ SameLink s u.close) ∧ SamePool s u.close ∧
    u.close.results = s.results ∧ Counted cs s u.close := by
  obtain ⟨granted, outside, polls, link, _, _, results, counted⟩ := moved_told told only b
  refine ⟨granted, ⟨outside, polls, link⟩, ?_, by simpa using results, counted⟩
  simp only [SamePool] at pool ⊢
  simp only [State.close_frame, only.pool, pool, and_self]

end

/-- A break that has been counted stands behind the line's move as a told change. -/
theorem told_breakBegun (s : State) (i : Fin 12) :
    Told [.line i .breaks] [] (s.modLine i Line.breakBegins) (s.breakBegun i) ∧ SamePool s (s.breakBegun i) :=
  ⟨told_lineCounter _ i .breaks, by simp [SamePool, State.breakBegun]⟩

/-- So does the event of a break on a quiet line (R25). -/
theorem told_lineBreak (s : State) (i : Fin 12) (k : EventKind) (l : Byte) (d : BitVec 32) :
    Told [.line i .breaks] [] (s.modLine i Line.breakBegins) ((s.breakBegun i).raiseEvent k l d) ∧
    SamePool s ((s.breakBegun i).raiseEvent k l d) := by
  obtain ⟨told, pool⟩ := told_breakBegun s i
  have both := told.trans (told_event (s.breakBegun i) k l d) (by simp)
  exact ⟨by simpa using both, by simpa [SamePool] using pool⟩

/-- A break whose counter does not cross 32768 leaves pool, stream and what is kept back (R193). -/
theorem breakBegun_calm {s : State} {i : Fin 12} (calm : (s.ctrs.read (.line i .breaks)).crosses = false) :
    (s.breakBegun i).pool = s.pool ∧ (s.breakBegun i).stream = s.stream ∧ (s.breakBegun i).late = s.late ∧
    ∀ d, d ≠ .line i .breaks → (s.breakBegun i).ctrs.read d = s.ctrs.read d := by
  have begun := State.bump_calm (s.modLine i Line.breakBegins) (.line i .breaks) calm
  rw [State.breakBegun, begun]
  refine ⟨rfl, rfl, rfl, fun d ne => ?_⟩
  simp [Counters.read_write, ne]


namespace State

variable {s : State} {i : Fin 12}

/-- What a break does by the listen state that stood before its edge (R25). -/
theorem quietBreak_of (s : State) (i : Fin 12) : (s.breakBegun i).quietBreak i =
    match (s.line i).edgeListen with
    | .quiet => ((s.breakBegun i).raiseEvent .lineBreak (lineByte i) 0).becomeBreak i
    | .listening => ((s.breakBegun i).endUnsolicited i true).becomeBreak i
    | .brk => (s.breakBegun i).becomeBreak i := by
  rw [quietBreak, breakBegun_line]
  rfl

end State

/-- What ends an unsolicited frame counts no break (R22, R192). -/
theorem UnsolicitedEnds.unbroken {s : State} {i : Fin 12} {u : Unsolicited} {o : TxnOutcome} {cs : List CtrId}
    {rs : List Record} {n : Nat} (h : UnsolicitedEnds i u o cs rs n s) : CtrId.line i .breaks ∉ cs := by
  rcases h with ⟨_, rfl, _⟩ | ⟨_, rfl, _⟩ | ⟨_, _, ⟨_, rfl, _⟩ | ⟨_, _, _, _, ⟨_, _, rfl, _⟩ | ⟨_, rfl, _⟩⟩, _⟩ <;> simp

/-- What counts its blocks alike before. -/
theorem FrameFreed.since {u : Unsolicited} {rs : List Record} {gone : List Request} {s v t : State}
    (h : FrameFreed u rs gone v t) (free : v.pool.free = s.pool.free) (reserved : v.pool.reserved = s.pool.reserved)
    (held : v.pool.held = s.pool.held) : FrameFreed u rs gone s t := by
  simpa only [FrameFreed, free, reserved, held] using h

section
variable {i : Fin 12} {s : State} (b : s.between) (busy : (s.line i).rxBusy = true) (listens : (s.line i).txn.listens)
include b busy listens

/-- A break on a quiet line (R25, R192, R197, R199). -/
theorem breakStart_quiet (edge : (s.line i).edgeListen = .quiet)
    (calm : (s.ctrs.read (.line i .breaks)).value ≠ 32767) :
    let p := fun t => (SameOutside i s t ∧ t.polls = s.polls ∧ SameLink s t) ∧ SamePool s t ∧ t.results = s.results ∧
      Counted [.line i .breaks] s t ∧ t.line i = (s.line i).broken
    (s.pool.eventsUsed < 16 → Completes (.breakStart i) s (fun t => p t ∧
      JoinedBehind [s.stamp (.event .lineBreak (lineByte i) s.pool.missedEvents 0) true 0] s t)) ∧
    (16 ≤ s.pool.eventsUsed → (s.ctrs.read (.pool .eventsMissed)).value ≠ 32767 → s.trunk.tx.isSome = true →
      Completes (.breakStart i) s (fun t => p t ∧ t.stream = s.stream ∧
        t.pool.missedEvents = min 255 (s.pool.missedEvents + 1) ∧
        t.ctrs.read (.pool .eventsMissed) = (s.ctrs.read (.pool .eventsMissed)).inc)) := by
  intro p
  have run := State.exec_breakStart_listens listens busy
  rw [State.quietBreak_of, edge] at run
  obtain ⟨pool0, stream0, late0, ctrs0⟩ := breakBegun_calm (i := i) (Counter.crosses_false calm)
  obtain ⟨told, pool⟩ := told_lineBreak s i .lineBreak (lineByte i) 0
  obtain ⟨only, line⟩ := State.becomeBreak_line (v := (s.breakBegun i).raiseEvent .lineBreak (lineByte i) 0) (s := s) (i := i)
    (by simp [State.breakBegun_line])
  obtain ⟨granted, frame, samePool, results, counted⟩ := moved_plain told pool only b
  refine ⟨fun room => completes_of _ run granted
      ⟨⟨frame, samePool, results, counted, by rw [State.close_line]; exact line⟩, ?_⟩,
    fun full missed sends => completes_of _ run granted
      ⟨⟨frame, samePool, results, counted, by rw [State.close_line]; exact line⟩, ?_⟩⟩
  · refine State.joinedBehind_of _ _ _ ?_
    rw [only.stream, State.raiseEvent_stream _ _ _ _ (by rw [pool0]; exact room), stream0, pool0,
      State.stamp_congr _ s (told_breakBegun s i).1.clock (told_breakBegun s i).1.cfg]
  · have lost : (s.breakBegun i).raiseEvent .lineBreak (lineByte i) 0 = (s.breakBegun i).loseEvent := by
      rw [State.raiseEvent, State.eventSlotFree_false (by rw [pool0]; exact full)]
      rfl
    rw [lost] at only ⊢
    obtain ⟨stream1, late1, _⟩ := State.loseEvent_stream (s.breakBegun i)
    obtain ⟨once, _⟩ := State.loseEvent_counts (s.breakBegun i)
    rw [ctrs0 _ (by simp), pool0] at once
    obtain ⟨missed', counted'⟩ := once (Counter.crosses_false missed)
    have sends' : ((s.breakBegun i).loseEvent.becomeBreak i).trunk.tx.isSome = true := by
      rw [only.trunk]
      simpa [State.breakBegun] using sends
    obtain ⟨stream2, pool2⟩ := State.close_calm _ (by rw [only.late, late1, late0, b.1]) (.inl sends')
    rw [stream2, pool2, State.close_busy_ctrs sends', only.stream, only.pool, only.ctrs, stream1, stream0]
    exact ⟨rfl, missed', counted'⟩

/-- A break in the idle behind a break (R25, R42, R192). -/
theorem breakStart_again (edge : (s.line i).edgeListen = .brk) :
    Completes (.breakStart i) s (fun t => (SameOutside i s t ∧ t.polls = s.polls ∧ SameLink s t) ∧ SamePool s t ∧
      t.results = s.results ∧ Counted [.line i .breaks] s t ∧ t.line i = (s.line i).broken ∧
      ((s.ctrs.read (.line i .breaks)).value ≠ 32767 →
        s.trunk.tx.isSome = true ∨ ((s.ctrs.read (.link .framesSent)).value ≠ 32767 ∧
          (s.ctrs.read (.link .retransmissions)).value ≠ 32767) →
        t.stream = s.stream ∧ t.pool.eventsUsed = s.pool.eventsUsed ∧ t.pool.missedEvents = s.pool.missedEvents)) := by
  have run := State.exec_breakStart_listens listens busy
  rw [State.quietBreak_of, edge] at run
  obtain ⟨told, pool⟩ := told_breakBegun s i
  obtain ⟨only, line⟩ := State.becomeBreak_line (State.breakBegun_line s i)
  obtain ⟨granted, frame, samePool, results, counted⟩ := moved_plain told pool only b
  refine completes_of _ run granted
    ⟨frame, samePool, results, counted, by rw [State.close_line]; exact line, fun calm still => ?_⟩
  obtain ⟨pool0, stream0, late0, ctrs0⟩ := breakBegun_calm (i := i) (Counter.crosses_false calm)
  obtain ⟨stream, pool⟩ := State.close_calm ((s.breakBegun i).becomeBreak i) (by rw [only.late, late0, b.1]) (by
    rw [only.trunk, only.ctrs, ctrs0 _ (by simp), ctrs0 _ (by simp)]
    exact still.imp (fun sends => by simpa [State.breakBegun] using sends)
      (fun quiet => ⟨Counter.crosses_false quiet.1, Counter.crosses_false quiet.2⟩))
  rw [stream, pool, only.stream, only.pool, stream0, pool0]
  exact ⟨rfl, rfl, rfl⟩

/-- A break that ends an unsolicited frame (R22, R25). -/
theorem breakStart_ends {u : Unsolicited} {cs : List CtrId} {rs : List Record} {slots : Nat}
    (edge : (s.line i).edgeListen = .listening) (frame : (s.line i).unsolicited = some u)
    (ends : UnsolicitedEnds i u .brk cs rs slots s) :
    Completes (.breakStart i) s (fun t => (SameOutside i s t ∧ t.polls = s.polls ∧ SameLink s t) ∧
      t.results = s.results ++ rs ∧ t.pool.slotsUsed = slots ∧ t.pool.total = s.pool.total ∧
      t.pool.waitList = s.pool.waitList ∧ Counted (.line i .breaks :: cs) s t ∧ t.line i = (s.line i).broken ∧
      FrameFreed u rs [] s t) := by
  have run := State.exec_breakStart_listens listens busy
  rw [State.quietBreak_of, edge] at run
  have begun := State.breakBegun_line s i
  have finishes : (s.breakBegun i).endUnsolicited i true = (s.breakBegun i).finishUnsolicited i u true := by
    rw [State.endUnsolicited, begun, show (s.line i).breakBegins.unsolicited = some u from frame]
  rw [finishes] at run
  obtain ⟨told0, pool0⟩ := told_breakBegun s i
  obtain ⟨free, reserved, held, used, wait, _⟩ := pool0
  have ends' : UnsolicitedEnds i u (u.frame.outcome true) cs rs slots (s.breakBegun i) :=
    UnsolicitedEnds.congr (o := .brk) ends (by rw [begun]; rfl) (by rw [begun]; rfl) free used told0.clock told0.cfg wait
  obtain ⟨told1, slots', freed⟩ := ends'.told
  obtain ⟨only, line⟩ := State.becomeBreak_line (v := (s.breakBegun i).finishUnsolicited i u true) (s := s) (i := i)
    (by rw [told1.line]; exact begun)
  have told := told0.trans told1 (fun c counts => by
    rw [List.mem_singleton.mp counts]
    exact ends.unbroken)
  obtain ⟨granted, outside, polls, link, total, wait', results, counted⟩ := moved_told told only b
  refine completes_of _ run granted ⟨⟨outside, polls, link⟩, results, ?_, total, wait', counted, ?_,
    (freed.since free reserved held).on ?_ ?_ ?_⟩
  · simp [only.pool, slots']
  · rw [State.close_line]
    exact line
  · simp [only.pool]
  · simp [only.pool]
  · simp [only.pool]

end

/-- Settles O50: a break start, by the listen state that stood before its edge, and in SENDING. -/
theorem breakStart : Obligations.BreakStart := by
  intro i s busy b
  refine ⟨fun listens edge => ⟨fun room calm => ?_, fun full calm missed sends => ?_⟩,
    fun listens edge => breakStart_again b busy listens edge,
    fun u cs rs slots listens edge frame ends => breakStart_ends b busy listens edge frame ends,
    fun x sending checks hand noAbort noFailure => ⟨fun out => ?_, fun r out hw => ?_⟩, fun closed => ?_⟩
  · obtain ⟨t, run, ⟨frame, pool, results, counted, line⟩, joined⟩ := (breakStart_quiet b busy listens edge calm).1 room
    exact ⟨t, run, frame, pool, results, counted, line, joined⟩
  · obtain ⟨t, run, ⟨frame, pool, _, counted, line⟩, stream, pending, events⟩ :=
      (breakStart_quiet b busy listens edge calm).2 full missed sends
    exact ⟨t, run, frame, pool, counted, line, stream, pending, events⟩
  · have run := State.exec_breakStart_sending sending checks busy hand
    have begun := State.breakBegun_line s i
    rw [State.echoFails_later noAbort noFailure (by rw [begun]; exact out)] at run
    obtain ⟨told, pool⟩ := told_breakBegun s i
    obtain ⟨granted, frame, samePool, results, counted⟩ := moved_plain told pool
      (State.onlyLine_modLine (s.breakBegun i) i (fun l => { l with hand := some { x with echoFailed := true } })) b
    refine completes_of _ run granted ⟨frame, samePool, results, counted, ?_⟩
    rw [State.close_line, State.line_modLine_same, begun]
    rfl
  · exact requestCompletes (.breakStart i) i x x.reply r .collision _ [] s
      ⟨hand, Or.inr (Or.inr ⟨rfl, rfl, Or.inr (Or.inr (Or.inr (Or.inr (Or.inl
        ⟨rfl, ⟨sending, checks, out, noAbort, noFailure, rfl⟩, busy, rfl⟩))))⟩)⟩ hw b
  · refine ⟨s, ?_, rfl⟩
    show execBreakStart i s = _
    have deaf : (s.line i).receives = false := by
      simp [Line.receives, show (s.line i).examines = false from Line.examines_not closed]
    simp [execBreakStart, deaf, go]


/-- The value of a received character, with its parity bit counted (R35, R40). -/
theorem rxChar_facts (p : Profile) (data : Byte) (parity stop : Bool) :
    let c := rxChar p data parity stop
    let v := if p.dataBits = 7 then data &&& 0x7F else data
    let ones := ((List.range 8).filter (fun k => v.getLsbD k)).length + (if p.parityBit data then 1 else 0)
    c.value = v ∧ (p.parity = .even → ones % 2 = 0) ∧ (p.parity = .odd → ones % 2 = 1) ∧
      c.framingError = !stop ∧ (c.parityError = true ↔ p.parity ≠ .none ∧ parity ≠ p.parityBit data) ∧
      (stop = true → c.atMark = true) := by
  intro c v ones
  have odd := oddOnes_count v
  refine ⟨rfl, fun even => ?_, fun odd' => ?_, rfl, by simp [c, rxChar], fun mark => by simp [c, rxChar, mark]⟩
  · have bit : p.parityBit data = oddOnes v := by simp [Profile.parityBit, even, v, Profile.onLine]
    simp only [ones, bit, odd, decide_eq_true_eq]
    split <;> omega
  · have bit : p.parityBit data = !oddOnes v := by simp [Profile.parityBit, odd', v, Profile.onLine]
    simp only [ones, bit, odd, Bool.not_eq_true', decide_eq_false_iff_not]
    split <;> omega

/-- What a character adds to what is kept (R12, R21). -/
theorem Assembly.take_facts (a : Assembly) (most : Nat) (c : RxChar) :
    (a.take most c).kept = (if a.kept.length < most then a.kept ++ [c.value] else a.kept) ∧
    (a.take most c).count = a.count + 1 ∧ (a.take most c).overlong = (a.overlong || decide (most ≤ a.kept.length)) ∧
    (a.take most c).errorAt = if a.kept.length < most ∧ a.errorAt = none ∧ c.bad = true then some a.kept.length
      else a.errorAt := by
  by_cases room : a.kept.length < most
  · simp [Assembly.take, room]
  · simp [Assembly.take, room, Nat.not_lt.mp room]

/-- The line behind a completed character (R40). -/
def Line.rxDone (l : Line) : Line := { l with rxBusy := false }

/-- The gap count behind a character (R46). -/
theorem Line.startGap_eq (l : Line) (mark : Bool) :
    l.startGap mark = { l with gap := if mark then some l.applied.gapTime else none, awaitMark := !mark } := by
  cases mark <;> rfl

namespace State

variable {s : State} {i : Fin 12} {x : Txn}

/-- A completed character on a line the receiver examines (R40). -/
theorem exec_characterComplete {data : Byte} {parity stop : Bool} (examines : (s.line i).examines = true)
    (busy : (s.line i).rxBusy = true) : exec (.characterComplete i data parity stop) s =
      finished (s.takeChar i (rxChar (s.line i).applied data parity stop)) := by
  show execCharacterComplete i data parity stop s = _
  simp [execCharacterComplete, Line.receives, examines, busy]

/-- A character of a line whose receive side belongs to no transaction (R21, R40). -/
theorem takeChar_listens {c : RxChar} {u : Unsolicited} (listens : (s.line i).txn.listens)
    (frame : (s.line i).unsolicited = some u) :
    s.takeChar i c = (s.modLine i Line.rxDone).unsolicitedChar i u c := by
  have frame' : ((s.modLine i Line.rxDone).line i).unsolicited = some u := by rw [line_modLine_same]; exact frame
  have quiet : (s.modLine i Line.rxDone).quietChar i c = (s.modLine i Line.rxDone).unsolicitedChar i u c := by
    rw [quietChar, frame']
  rw [← quiet, takeChar]
  rcases listens with h | h | h | h <;> rw [h] <;> rfl

/-- A character of a reply (R12, R40). -/
theorem takeChar_receiving {c : RxChar} (receives : (s.line i).txn = .receiving) (hand : (s.line i).hand = some x) :
    s.takeChar i c = (s.modLine i Line.rxDone).replyChar i x c := by
  rw [takeChar, receives, hand]
  rfl

/-- A character received while the line sends (R40, R43). -/
theorem takeChar_sending {c : RxChar} (sending : (s.line i).txn = .sending) (hand : (s.line i).hand = some x) :
    s.takeChar i c = (s.modLine i Line.rxDone).echoChar i x c := by
  rw [takeChar, sending, hand]
  rfl

theorem fill_modLine (v : State) (i : Fin 12) (f : Line → Line) (n : Nat) :
    (v.modLine i f).fill n = (v.fill n).modLine i f := rfl

/-- A reply that goes on behind a character (R12, R46). -/
theorem replyChar_goesOn {v : State} {c : RxChar} {a : Assembly} {n : Nat} (ha : a = x.reply.take (v.line i).applied.maxReply c)
    (hn : n = filledBlocks x.work.header a.kept.length - filledBlocks x.work.header x.reply.kept.length)
    (more : (expectReached (v.workExpect x.work) a.count || isTerminator (v.line i).applied c) = false) :
    v.replyChar i x c = (v.fill n).modLine i (fun l => { l with hand := some { x with reply := a } }.startGap c.atMark) := by
  rw [replyChar]
  simp only [← ha, ← hn, more, Bool.false_eq_true, if_false]
  rw [fill_modLine, modLine_twice]

/-- A character kept of an unsolicited frame (R21). -/
theorem keepUnsolicited_eq {v : State} {c : RxChar} {u : Unsolicited} {n k : Nat} {a : Assembly}
    (ha : a = u.frame.take (v.line i).applied.maxReply c)
    (hk : k = filledBlocks 10 a.kept.length - filledBlocks 10 u.frame.kept.length) :
    v.keepUnsolicited i u n c = (v.fill k).modLine i
      (fun l => { l with unsolicited := some { u with mode := .keep n, frame := a } }.startGap c.atMark) := by
  rw [keepUnsolicited]
  simp only [← ha, ← hk]
  rfl

/-- A character behind an abort or an echo failure pending is not compared (R45). -/
theorem echoChar_pending {v : State} {c : RxChar} (pending : x.abortPending = true ∨ x.echoFailed = true) :
    v.echoChar i x c = v := by
  rw [echoChar]
  simp only [show (x.abortPending || x.echoFailed) = true by simpa using pending, if_true]

/-- A good echo, the last one entering TURNAROUND (R37, R43). -/
theorem echoChar_good {v : State} {c : RxChar} (noAbort : x.abortPending = false) (noFailure : x.echoFailed = false)
    (good : goodEcho i x c v) : v.echoChar i x c =
      if (v.line i).echoed + 1 = (v.workBytes x.work).length ∧ (v.line i).charOut = none
        then (v.modLine i (fun l => { l with echoed := l.echoed + 1 })).enterTurnaround i
        else v.modLine i (fun l => { l with echoed := l.echoed + 1 }) := by
  obtain ⟨started, sound, same⟩ := good
  have matches' : ((v.line i).echoed < (v.line i).started && !c.bad &&
      ((v.workBytes x.work)[(v.line i).echoed]?).map (v.line i).applied.onLine == some c.value) = true := by
    rw [Bool.and_eq_true, Bool.and_eq_true, beq_iff_eq]
    exact ⟨⟨decide_eq_true started, by rw [sound]; rfl⟩, same⟩
  rw [echoChar]
  simp only [noAbort, noFailure, Bool.or_self, Bool.false_eq_true, if_false, matches', if_true]
  simp

/-- Anything else received fails the echo (R44). -/
theorem echoChar_bad {v : State} {c : RxChar} (noAbort : x.abortPending = false) (noFailure : x.echoFailed = false)
    (bad : ¬ goodEcho i x c v) : v.echoChar i x c = v.echoFails i x := by
  have differs : ((v.line i).echoed < (v.line i).started && !c.bad &&
      ((v.workBytes x.work)[(v.line i).echoed]?).map (v.line i).applied.onLine == some c.value) = false := by
    rw [Bool.eq_false_iff]
    intro holds
    simp only [Bool.and_eq_true, decide_eq_true_eq, Bool.not_eq_true', beq_iff_eq] at holds
    obtain ⟨⟨started, sound⟩, same⟩ := holds
    exact bad ⟨started, sound, same⟩
  rw [echoChar]
  simp only [noAbort, noFailure, Bool.or_self, Bool.false_eq_true, if_false, differs]

end State


/-- What a character leaves beside its line, the pool's counts and the counters. -/
def CharBooks (i : Fin 12) (s t : State) : Prop :=
  SameOutside i s t ∧ t.polls = s.polls ∧ SameLink s t ∧ t.results = s.results ∧ t.pool.total = s.pool.total ∧
  t.pool.waitList = s.pool.waitList

/-- The line behind a character of a frame that goes on: its gap count begins, or waits for mark (R46). -/
def Line.gapAfter (l : Line) (mark : Bool) : Line :=
  { l with gap := if mark then some l.applied.gapTime else none, awaitMark := !mark, rxBusy := false }

/-- A fill of a reservation tells nothing. -/
theorem told_fill (s : State) (n : Nat) : Told [] [] s (s.fill n) := by
  refine ⟨rfl, rfl, rfl, rfl, rfl, rfl, rfl, rfl, by simp, rfl, rfl, rfl, ?_, fun c _ => by simp⟩
  exact (State.fill_books s n).2.2.2.2.2.2.2.2.2.2.2.2.2.1

section
variable {i : Fin 12} {s v : State} {cs : List CtrId} {c : RxChar} {cmd : Instr} (b : s.between)
include b

/-- A character whose effect is a told change and a move of the line. -/
theorem completes_char {g : Line → Line} (run : exec cmd s = finished (v.modLine i g))
    (told : Told cs [] (s.modLine i Line.rxDone) v) :
    Completes cmd s (fun t => CharBooks i s t ∧ Counted cs s t ∧ t.pool.free = v.pool.free ∧
      t.pool.slotsUsed = v.pool.slotsUsed ∧ t.pool.held = v.pool.held ∧ t.line i = g (s.line i).rxDone) := by
  obtain ⟨granted, outside, polls, link, total, wait, results, counted⟩ := moved_told told (State.onlyLine_modLine v i g) b
  refine completes_of _ run granted
    ⟨⟨outside, polls, link, by simpa using results, total, wait⟩, counted, by simp, by simp, by simp, ?_⟩
  rw [State.close_line, State.line_modLine_same, told.line, State.line_modLine_same]

/-- The same where the pool stands. -/
theorem completes_char_plain {g : Line → Line} (run : exec cmd s = finished (v.modLine i g))
    (told : Told cs [] (s.modLine i Line.rxDone) v) (pool : SamePool s v) :
    Completes cmd s (fun t => CharBooks i s t ∧ SamePool s t ∧ Counted cs s t ∧ t.line i = g (s.line i).rxDone) := by
  obtain ⟨_, _, _, _, total, wait, _⟩ := moved_told told (State.onlyLine_modLine v i g) b
  obtain ⟨granted, ⟨outside, polls, link⟩, pool', results, counted⟩ :=
    moved_plain told pool (State.onlyLine_modLine v i g) b
  refine completes_of _ run granted ⟨⟨outside, polls, link, results, total, wait⟩, pool', counted, ?_⟩
  rw [State.close_line, State.line_modLine_same, told.line, State.line_modLine_same]

/-- A character of a reply that goes on (R12, R46). -/
theorem char_replyGoesOn {x : Txn} {a : Assembly} {n : Nat} (run : exec cmd s = finished (s.takeChar i c))
    (receives : (s.line i).txn = .receiving) (hand : (s.line i).hand = some x)
    (ha : a = x.reply.take (s.line i).applied.maxReply c)
    (hn : n = filledBlocks x.work.header a.kept.length - filledBlocks x.work.header x.reply.kept.length)
    (more : (expectReached (s.workExpect x.work) a.count || isTerminator (s.line i).applied c) = false) :
    Completes cmd s (fun t => CharBooks i s t ∧ Counted [] s t ∧ t.pool.free = s.pool.free ∧
      t.pool.slotsUsed = s.pool.slotsUsed ∧ (n ≤ s.pool.reserved → t.pool.held = s.pool.held + n) ∧
      t.line i = Line.gapAfter { s.line i with hand := some { x with reply := a } } c.atMark) := by
  have line := State.line_modLine_same s i Line.rxDone
  have expects : (s.modLine i Line.rxDone).workExpect x.work = s.workExpect x.work := by cases x.work <;> rfl
  have goes := State.replyChar_goesOn (v := s.modLine i Line.rxDone) (i := i) (x := x) (c := c) (by rw [line]; exact ha) hn
    (by rw [line, expects]; exact more)
  rw [State.takeChar_receiving receives hand, goes] at run
  obtain ⟨t, next, books, counted, free, slots, held, moved⟩ := completes_char b run (told_fill _ n)
  obtain ⟨_, _, _, _, _, _, _, _, _, _, _, slots', _, _, free', held'⟩ := State.fill_books (s.modLine i Line.rxDone) n
  exact ⟨t, next, books, counted, free.trans free', slots.trans slots', fun enough => held.trans (held' enough).1,
    moved.trans (Line.startGap_eq _ _)⟩

section
variable {u : Unsolicited} (run : exec cmd s = finished (s.takeChar i c)) (listens : (s.line i).txn.listens)
  (frame : (s.line i).unsolicited = some u)
include run listens frame

/-- A further character kept of an unsolicited frame (R21). -/
theorem char_keeps {n : Nat} (keeps : u.mode = .keep n) :
    Completes cmd s (fun t => CharBooks i s t ∧ Counted [] s t ∧ t.pool.free = s.pool.free ∧
      t.pool.slotsUsed = s.pool.slotsUsed ∧
      t.line i = Line.gapAfter { s.line i with
        unsolicited := some { u with frame := u.frame.take (s.line i).applied.maxReply c } } c.atMark) := by
  have line := State.line_modLine_same s i Line.rxDone
  have same : ∀ a, ({ u with mode := .keep n, frame := a } : Unsolicited) = { u with frame := a } := fun a => by rw [← keeps]
  have kept := State.keepUnsolicited_eq (v := s.modLine i Line.rxDone) (i := i) (u := u) (n := n) (c := c)
    (a := u.frame.take (s.line i).applied.maxReply c) (by rw [line]; rfl) rfl
  have away : s.takeChar i c = (s.modLine i Line.rxDone).keepUnsolicited i u n c := by
    rw [State.takeChar_listens listens frame, State.unsolicitedChar, keeps]
  rw [away, kept] at run
  obtain ⟨t, next, books, counted, free, slots, _, moved⟩ := completes_char b run (told_fill _ _)
  refine ⟨t, next, books, counted, free, slots, moved.trans ?_⟩
  rw [Line.startGap_eq, same]
  rfl

/-- A character received in discard mode (R21, R23, R26). -/
theorem char_discards (discards : u.mode = .drop ∨ u.mode = .lost ∨ u.mode = .aborted) :
    Completes cmd s (fun t => LineMoves i s t ∧ t.line i = (s.line i).gapAfter c.atMark) := by
  have away : s.takeChar i c = (s.modLine i Line.rxDone).discardUnsolicited i u u.mode c := by
    rw [State.takeChar_listens listens frame, State.unsolicitedChar]
    rcases discards with h | h | h <;> rw [h]
  rw [away, State.discardUnsolicited, State.modLine_twice] at run
  refine completes_modLine run b ?_
  rw [Line.startGap_eq]
  have same : ({ u with mode := u.mode } : Unsolicited) = u := rfl
  rw [same, ← frame]
  rfl

/-- The first character of an unsolicited frame, under each policy and in each state of the pool (R21, R23, R24). -/
theorem char_first (fresh : u.mode = .undecided) :
    let late := if u.late = none then [] else [CtrId.line i .lateFrames]
    let n := Config.blocksFor (10 + (s.line i).applied.maxReply)
    ((s.line i).applied.policy = .drop →
      Completes cmd s (fun t => CharBooks i s t ∧ SamePool s t ∧ Counted late s t ∧
        t.line i = Line.gapAfter { s.line i with unsolicited := some { u with mode := .drop } } c.atMark)) ∧
    ((s.line i).applied.policy ≠ .drop → n + 16 ≤ s.pool.free → s.pool.slotsUsed + 9 ≤ 256 →
      Completes cmd s (fun t => CharBooks i s t ∧ Counted late s t ∧ t.pool.free = s.pool.free - n ∧
        t.pool.slotsUsed = s.pool.slotsUsed + 1 ∧
        t.line i = Line.gapAfter { s.line i with
          unsolicited := some { u with mode := .keep n, frame := u.frame.take (s.line i).applied.maxReply c } } c.atMark)) ∧
    ((s.line i).applied.policy ≠ .drop → s.pool.free < n + 16 ∨ 256 < s.pool.slotsUsed + 9 →
      Completes cmd s (fun t => CharBooks i s t ∧ SamePool s t ∧ Counted (.pool .unsolicitedLost :: late) s t ∧
        t.line i = Line.gapAfter { s.line i with unsolicited := some { u with mode := .lost } } c.atMark)) := by
  intro late n
  have line := State.line_modLine_same s i Line.rxDone
  obtain ⟨w, hw⟩ : ∃ w, w = (s.modLine i Line.rxDone).countLate i u := ⟨_, rfl⟩
  have told : Told late [] (s.modLine i Line.rxDone) w := by
    rw [hw, State.countLate]
    cases h : u.late with
    | none => simpa [late, h] using told_rfl (s.modLine i Line.rxDone)
    | some tag => simpa [late, h] using told_lineCounter (s.modLine i Line.rxDone) i .lateFrames
  have pool : SamePool s w := by
    rw [hw, State.countLate]
    split <;> simp [SamePool]
  have ⟨free, _, _, slots, _⟩ := pool
  have first : s.takeChar i c =
      if (s.line i).applied.policy = .drop then w.discardUnsolicited i u .drop c
      else if w.mayTake (unsolicitedNeed (s.line i).applied) then
        (w.take (unsolicitedNeed (s.line i).applied) .reserved).keepUnsolicited i u n c
      else (w.bump (.pool .unsolicitedLost)).discardUnsolicited i u .lost c := by
    rw [State.takeChar_listens listens frame, State.unsolicitedChar, fresh, hw]
    show State.firstUnsolicited _ i u c = _
    rw [State.firstUnsolicited, line]
    rfl
  have fits : w.mayTake (unsolicitedNeed (s.line i).applied) = true ↔ n + 16 ≤ s.pool.free ∧ s.pool.slotsUsed + 9 ≤ 256 := by
    rw [State.mayTake, State.passes_iff, free, slots]
    simp only [unsolicitedNeed, forall_const, n]
  rw [first] at run
  refine ⟨fun drops => ?_, fun keeps room slot => ?_, fun keeps full => ?_⟩
  · rw [if_pos drops] at run
    obtain ⟨t, next, books, pool', counted, moved⟩ := completes_char_plain b run told pool
    exact ⟨t, next, books, pool', counted, moved.trans (Line.startGap_eq _ _)⟩
  · have passes := fits.mpr ⟨room, slot⟩
    have linew : (w.take (unsolicitedNeed (s.line i).applied) .reserved).line i = (s.line i).rxDone := by
      rw [(told_take w _ passes).line, told.line, line]
    rw [if_neg keeps, if_pos passes, State.keepUnsolicited_eq (a := u.frame.take (s.line i).applied.maxReply c)
      (by rw [linew]; rfl) rfl] at run
    have taken := (told.trans (told_take w _ passes) (by simp)).trans (told_fill _
      (filledBlocks 10 (u.frame.take (s.line i).applied.maxReply c).kept.length - filledBlocks 10 u.frame.kept.length)) (by simp)
    simp only [List.append_nil] at taken
    obtain ⟨t, next, books, counted, free', slots', _, moved⟩ := completes_char b run taken
    obtain ⟨size, _⟩ := State.take_granted w (unsolicitedNeed (s.line i).applied) .reserved passes
    refine ⟨t, next, books, counted, free'.trans (size.trans (by rw [free]; rfl)), slots'.trans ?_,
      moved.trans (Line.startGap_eq _ _)⟩
    show (w.take (unsolicitedNeed (s.line i).applied) .reserved).pool.slotsUsed = _
    simp [unsolicitedNeed, slots]
  · have misses : ¬ w.mayTake (unsolicitedNeed (s.line i).applied) = true := fun passes => by
      have := fits.mp passes
      omega
    rw [if_neg keeps, if_neg misses] at run
    have lost := (told_poolCounter w .unsolicitedLost)
    have both := told.trans lost (fun d counts => by
      rintro (_ | ⟨_, ⟨⟩⟩)
      simp only [late] at counts
      split at counts <;> simp at counts)
    obtain ⟨t, next, books, pool', counted, moved⟩ :=
      completes_char_plain b run both (by simpa [SamePool] using pool)
    refine ⟨t, next, books, pool', fun d straight => ?_, moved.trans (Line.startGap_eq _ _)⟩
    rw [counted d straight]
    simp [or_comm]

end

end


/-- The line behind a good echo (R43). -/
def Line.echoTaken (l : Line) : Line := { l with rxBusy := false, echoed := l.echoed + 1 }

/-- A good echo is the same once the character has been taken. -/
theorem goodEcho_rxDone {i : Fin 12} {s : State} {c : RxChar} {x : Txn} : goodEcho i x c (s.modLine i Line.rxDone) ↔ goodEcho i x c s := by
  have line := State.line_modLine_same s i Line.rxDone
  simp only [goodEcho, line, (State.onlyLine_modLine s i Line.rxDone).workBytes]
  exact Iff.rfl

section
variable {i : Fin 12} {s : State} {c : RxChar} {cmd : Instr} {x : Txn} (b : s.between)
  (run : exec cmd s = finished ((s.modLine i Line.rxDone).echoChar i x c))
include b run

/-- An echo behind an abort or an echo failure (R45). -/
theorem echo_pending (pending : x.abortPending = true ∨ x.echoFailed = true) :
    Completes cmd s (fun t => LineMoves i s t ∧ t.line i = (s.line i).rxDone) := by
  rw [State.echoChar_pending pending] at run
  exact completes_modLine run b rfl

section
variable (noAbort : x.abortPending = false) (noFailure : x.echoFailed = false)
include noAbort noFailure

/-- A good echo that is not the last, or comes before the last character has been sent (R43). -/
theorem echo_good (good : goodEcho i x c s)
    (more : (s.line i).echoed + 1 ≠ (s.workBytes x.work).length ∨ (s.line i).charOut.isSome = true) :
    Completes cmd s (fun t => LineMoves i s t ∧ t.line i = (s.line i).echoTaken) := by
  rw [State.echoChar_good noAbort noFailure (goodEcho_rxDone.mpr good), if_neg, State.modLine_twice] at run
  · exact completes_modLine run b rfl
  · rw [State.line_modLine_same, (State.onlyLine_modLine s i Line.rxDone).workBytes]
    rintro ⟨last, done⟩
    rcases more with other | out
    · exact other last
    · rw [show (s.line i).charOut = none from done] at out
      simp at out

omit b in
/-- The last good echo enters TURNAROUND (R37, R43). -/
theorem echo_last (good : goodEcho i x c s) (last : (s.line i).echoed + 1 = (s.workBytes x.work).length)
    (done : (s.line i).charOut = none) :
    exec cmd s = finished ((s.modLine i Line.echoTaken).enterTurnaround i) := by
  rw [State.echoChar_good noAbort noFailure (goodEcho_rxDone.mpr good), if_pos, State.modLine_twice] at run
  · exact run
  · rw [State.line_modLine_same, (State.onlyLine_modLine s i Line.rxDone).workBytes]
    exact ⟨last, done⟩

/-- Anything else received fails the echo (R44). -/
theorem echo_bad (bad : ¬ goodEcho i x c s) :
    ((s.line i).charOut.isSome = true → Completes cmd s (fun t => LineMoves i s t ∧
      t.line i = { s.line i with rxBusy := false, hand := some { x with echoFailed := true } })) ∧
    (∀ r, (s.line i).charOut = none → x.work = .request r →
      Completes cmd s (CompletedTo i x x.reply r .collision [.line i .collisions] [] s)) := by
  rw [State.echoChar_bad noAbort noFailure (fun good => bad (goodEcho_rxDone.mp good))] at run
  have line := State.line_modLine_same s i Line.rxDone
  refine ⟨fun out => ?_, fun r out hw => ?_⟩
  · rw [State.echoFails_later noAbort noFailure (by rw [line]; exact out), State.modLine_twice] at run
    exact completes_modLine run b rfl
  · rw [State.echoFails_now noAbort noFailure (by rw [line]; exact out)] at run
    exact completes_plain run (State.onlyLine_modLine s i _) (by simp [SameTableOfLine, Line.rxDone]) b hw rfl

end

end

/-- The last good echo, by what is left of the DeHold count and by the reply it waits for (R8, R37, R43). -/
theorem echo_turns {i : Fin 12} {s : State} {cmd : Instr} {x : Txn} (b : s.between) (hand : (s.line i).hand = some x)
    (run : exec cmd s = finished ((s.modLine i Line.echoTaken).enterTurnaround i)) :
    ((s.line i).deHold.isSome = true → Completes cmd s (fun t => LineMoves i s t ∧
      t.line i = { (s.line i).echoTaken with txn := .turnaround, lde := true })) ∧
    ((s.line i).deHold = none → x.work.noReply = false → Completes cmd s (fun t => LineMoves i s t ∧
      t.line i = { (s.line i).echoTaken with
        txn := .awaiting, lde := false, window := some (s.clock + (s.line i).applied.replyTimeout) })) ∧
    (∀ r, (s.line i).deHold = none → x.work = .request r → r.noReply = true →
      Completes cmd s (CompletedTo i { x with attempts := 1 } x.reply r .ok [.line i .txnOk] [] s)) := by
  have only := State.onlyLine_modLine s i Line.echoTaken
  have line := State.line_modLine_same s i Line.echoTaken
  have rest : ((s.modLine i Line.echoTaken).line i).rxBusy = false := by rw [line]; rfl
  have hand' : ((s.modLine i Line.echoTaken).line i).hand = some x := by rw [line]; exact hand
  refine ⟨fun count => ?_, fun none' replies => ?_, fun r none' hw noReply => ?_⟩
  · rw [State.enterTurnaround_counts rest (by rw [line]; exact count), State.modLine_twice] at run
    exact completes_modLine run b rfl
  · rw [State.enterTurnaround_over rest (by rw [line]; exact none'), State.turnaroundOver_awaits (x := x)
      (by rw [State.line_modLine_same]; exact hand') replies, State.modLine_twice, State.modLine_twice] at run
    refine completes_modLine run b ?_
    rw [← none']
    rfl
  · rw [State.enterTurnaround_noReply hand' (Txn.noReply_request hw noReply) (Or.inr (by rw [line]; exact none'))] at run
    exact completes_plain run (only.trans (State.onlyLine_modLine _ i _))
      (by simp [SameTableOfLine, Line.echoTaken, Line.goto]) b hw rfl

/-- A reply goes on while neither its expected length nor its terminator has come (R48, R49). -/
theorem goesOn_iff {e : Option Nat} {n : Nat} {p : Profile} {c : RxChar} (short : ∀ k, e = some k → n < k)
    (plain : p.termChar = false ∨ c.bad = true ∨ c.value ≠ p.onLine p.termValue) :
    (expectReached e n || isTerminator p c) = false := by
  rw [← Bool.not_eq_true, reachesEnd_iff]
  rintro (⟨k, expects, reached⟩ | ⟨ends, sound, last⟩)
  · exact absurd (short k expects) (by omega)
  · rcases plain with h | h | h
    · simp [h] at ends
    · simp [h] at sound
    · exact h last

/-- Settles O49: a character, in a reply, in an unsolicited frame, and as an echo. -/
theorem characterComplete : Obligations.CharacterComplete := by
  intro i data parity stop s busy b
  have run : (s.line i).examines = true → exec (.characterComplete i data parity stop) s =
      finished (s.takeChar i (rxChar (s.line i).applied data parity stop)) :=
    fun examines => State.exec_characterComplete examines busy
  refine ⟨rxChar_facts _ data parity stop, fun a => Assembly.take_facts a _ _, fun x receives hand => ?_,
    fun x r receives hand hw => ?_, fun u listens frame fresh => ?_, fun u n listens frame keeps => ?_,
    fun u listens frame discards => ?_, fun x sending checks hand => ?_, fun closed => ?_⟩
  · intro a n short plain
    exact char_replyGoesOn b (run (by simp [Line.examines, receives])) receives hand rfl rfl
      (goesOn_iff (by rw [Assembly.take_count]; exact short) plain)
  · intro a ends answers final
    have final' := Assembly.outcome_cases a
    have completed := requestCompletes (.characterComplete i data parity stop) i x a r (a.outcome false) _ [] s
      ⟨hand, Or.inl ⟨⟨hand, receives, Or.inr ⟨data, parity, stop, rfl, busy, rfl, by rw [hw]; exact ends⟩⟩, answers, rfl, final,
        rfl, rfl⟩⟩ hw b
    rw [if_neg (by rcases final' with h | h | h <;> simp [h])] at completed
    exact completed
  · exact char_first b (run (Line.examines_listens listens)) listens frame fresh
  · exact char_keeps b (run (Line.examines_listens listens)) listens frame keeps
  · exact char_discards b (run (Line.examines_listens listens)) listens frame discards
  · have echo := run (by simp [Line.examines, sending, checks])
    rw [State.takeChar_sending sending hand] at echo
    refine ⟨echo_pending b echo, fun noAbort noFailure => ⟨echo_good b echo noAbort noFailure,
      fun good last done => ?_, fun good last done => ?_, fun r good last done none' hw noReply _ => ?_,
      fun bad => (echo_bad b echo noAbort noFailure bad).1, fun r bad => (echo_bad b echo noAbort noFailure bad).2 r⟩⟩
    · exact (echo_turns b hand (echo_last echo noAbort noFailure good last done)).1
    · exact (echo_turns b hand (echo_last echo noAbort noFailure good last done)).2.1
    · exact (echo_turns b hand (echo_last echo noAbort noFailure good last done)).2.2 r none' hw noReply
  · refine ⟨s, ?_, rfl⟩
    show execCharacterComplete i data parity stop s = _
    have deaf : (s.line i).receives = false := by
      simp [Line.receives, show (s.line i).examines = false from Line.examines_not closed]
    simp [execCharacterComplete, deaf, go]

end Sys2Proof.Machine
end

section
/-! The reach of a line's command (R97). -/

namespace Sys2Proof.Machine

/-- What a command of line `i` may answer: nothing changed, or an operation that keeps the invariant and touches no other line
but one that waits, then the end of the step. -/
def LineEvent (i : Fin 12) (s : State) (o : Host.Outcome State Fault Refusal) : Prop :=
  o = go s ∨ ∃ u, o = finished u ∧ Keeps s u ∧ ∀ P : Fin 12 → Prop, Fact (P i) → Touch P s u

/-- A command that has its effect under a condition. -/
theorem lineEvent_ite {i : Fin 12} {s u : State} {p : Prop} [Decidable p] (keeps : Keeps s u)
    (touch : ∀ P : Fin 12 → Prop, Fact (P i) → Touch P s u) : LineEvent i s (if p then finished u else go s) := by
  split
  · exact Or.inr ⟨u, rfl, keeps, touch⟩
  · exact Or.inl rfl

section
variable (i : Fin 12) (s : State)

theorem lineEvent_deleadEnd : LineEvent i s (exec (.deleadEnd i) s) :=
  lineEvent_ite (State.keeps_startChar (Keeps.rfl' s) i) (fun _ _ => State.touch_startChar (Touch.rfl' s) i)

theorem lineEvent_characterSent : LineEvent i s (exec (.characterSent i) s) := by
  show LineEvent i s (execCharacterSent i s)
  unfold execCharacterSent
  split
  · exact Or.inr ⟨_, rfl, State.keeps_charSent (Keeps.rfl' s) i _, fun _ _ => State.touch_charSent (Touch.rfl' s) i _⟩
  · exact Or.inl rfl
  · exact Or.inl rfl

theorem lineEvent_deholdEnd : LineEvent i s (exec (.deholdEnd i) s) := by
  show LineEvent i s (execDeholdEnd i s)
  unfold execDeholdEnd
  split_ifs
  · exact Or.inl rfl
  · exact Or.inr ⟨_, rfl, State.keeps_turnaroundOver (Keeps.rfl' s) i, fun _ _ => State.touch_turnaroundOver (Touch.rfl' s) i⟩
  · exact Or.inr ⟨_, rfl, State.keeps_modLine_same (Keeps.rfl' s) i _, fun _ _ => State.touch_modLine_same (Touch.rfl' s) i _⟩
  · exact Or.inl rfl

theorem lineEvent_echoDeadline : LineEvent i s (exec (.echoDeadline i) s) := by
  show LineEvent i s (execEchoDeadline i s)
  unfold execEchoDeadline
  split
  · exact lineEvent_ite (State.keeps_echoFails (Keeps.rfl' s) i _) (fun _ _ => State.touch_echoFails (Touch.rfl' s) i _)
  · exact Or.inl rfl

theorem lineEvent_startBit : LineEvent i s (exec (.startBit i) s) :=
  lineEvent_ite (State.keeps_takeStart (Keeps.rfl' s) i) (fun _ _ => State.touch_takeStart (Touch.rfl' s) i)

theorem lineEvent_characterComplete (data : Byte) (parity stop : Bool) :
    LineEvent i s (exec (.characterComplete i data parity stop) s) :=
  lineEvent_ite (State.keeps_takeChar (Keeps.rfl' s) i _) (fun _ _ => State.touch_takeChar (Touch.rfl' s) i _)

theorem lineEvent_breakStart : LineEvent i s (exec (.breakStart i) s) :=
  lineEvent_ite (State.keeps_takeBreak (Keeps.rfl' s) i) (fun _ _ => State.touch_takeBreak (Touch.rfl' s) i)

theorem lineEvent_breakEnd : LineEvent i s (exec (.breakEnd i) s) :=
  lineEvent_ite (State.keeps_modLine_same (Keeps.rfl' s) i Line.breakOver)
    (fun _ _ => State.touch_modLine_same (Touch.rfl' s) i _)

theorem lineEvent_postBreakIdleEnd : LineEvent i s (exec (.postBreakIdleEnd i) s) :=
  lineEvent_ite (State.keeps_becomeQuiet (Keeps.rfl' s) i) (fun _ _ => State.touch_becomeQuiet (Touch.rfl' s) i)

theorem lineEvent_gapCountEnd : LineEvent i s (exec (.gapCountEnd i) s) :=
  lineEvent_ite (State.keeps_takeGapEnd (Keeps.rfl' s) i) (fun _ _ => State.touch_takeGapEnd (Touch.rfl' s) i)

theorem lineEvent_replyWindowExpiry : LineEvent i s (exec (.replyWindowExpiry i) s) := by
  show LineEvent i s (execReplyWindowExpiry i s)
  unfold execReplyWindowExpiry
  split
  · exact lineEvent_ite (State.keeps_noReplyEnds (Keeps.rfl' s) i _) (fun _ _ => State.touch_noReplyEnds (Touch.rfl' s) i _)
  · exact Or.inl rfl

theorem lineEvent_guardEnd : LineEvent i s (exec (.guardEnd i) s) :=
  lineEvent_ite (State.keeps_guardOver (Keeps.rfl' s) i) (fun _ _ => State.touch_guardOver (Touch.rfl' s) i)

theorem lineEvent_returnToMark : LineEvent i s (exec (.returnToMark i) s) :=
  lineEvent_ite (State.keeps_modLine_same (Keeps.rfl' s) i _ (fun l => State.startGap_pins l true))
    (fun _ _ => State.touch_modLine_same (Touch.rfl' s) i _)

end

/-- The end of a step keeps the trunk interface, the intake unit, the settings, and every line but those that wait or act. -/
theorem lineEvent_frame {i : Fin 12} {s u : State} (b : s.between) (keeps : Keeps s u)
    (touch : ∀ P : Fin 12 → Prop, Fact (P i) → Touch P s u) (lines : ∀ w, w ∈ s.pool.waitList → w.who ≠ .intake) :
    (∀ j, j ≠ i → (∀ w, w ∈ s.pool.waitList → w.who ≠ .line j) → u.finish.line j = s.line j) ∧
    u.finish.intake = s.intake ∧ SameSettings s u.finish ∧ SameLink s u.finish ∧ u.finish.pool.total = s.pool.total ∧
    u.finish.between ∧
    ∀ d : CtrId, ¬ d.sideways → (∀ k, d ≠ .pool k) → (∀ k, d ≠ .line i k) → (∀ j, d ≠ .line j .pollSuppressed) →
      u.finish.ctrs.read d = s.ctrs.read d := by
  obtain ⟨P, hP⟩ : ∃ P : Fin 12 → Prop, P = fun j => j = i ∨ ∃ w ∈ s.pool.waitList, w.who = .line j := ⟨_, rfl⟩
  have touched := touch P ⟨by rw [hP]; exact Or.inl rfl⟩
  have waits : Waits P s := by
    refine ⟨fun w mem => ?_, fun w mem => by rw [b.2] at mem; simp at mem⟩
    cases who : w.who with
    | line j => exact ⟨j, rfl, by rw [hP]; exact Or.inr ⟨w, mem, who⟩⟩
    | intake => exact absurd who (lines w mem)
  have waits' := touched.wait waits
  have acted := State.touch_actGranted touched waits'
  refine ⟨fun j ne waits'' => ?_, ?_, ?_, sameLink_close (sameLink_of_calm acted.calm), (State.keeps_finish keeps).total,
    State.finish_between u, fun d straight pool own suppressed => ?_⟩
  · rw [State.finish, State.close_line, acted.line waits j]
    rw [hP]
    rintro (rfl | ⟨w, mem, who⟩)
    · exact ne rfl
    · exact waits'' w mem who
  · simp [State.finish, acted.intake]
  · exact State.sameSettings_close _ _ ⟨acted.cfg, acted.pollRun, acted.clock, acted.pending⟩
  · obtain ⟨missed, _, sent, resent⟩ := sideways_ne straight
    rw [State.finish, State.close_ctrs _ _ missed sent resent,
      State.actGranted_ctrs u (fun w mem => (waits'.2 w mem).imp fun _ h => h.1)]
    refine (touch (fun j => j = i) ⟨rfl⟩).ctrs d straight ?_
    cases d with
    | link c => exact id
    | pool k => exact absurd rfl (pool k)
    | line j c =>
      rintro (rfl | rfl)
      · exact own c rfl
      · exact suppressed j rfl

/-- Settles O58: every command of a line is a `LineEvent`. -/
theorem lineCommandFrame : Obligations.LineCommandFrame := by
  intro c i s b command lines
  have event : LineEvent i s (exec c s) := by
    rcases command with rfl | rfl | rfl | rfl | rfl | ⟨data, parity, stop, rfl⟩ | rfl | rfl | rfl | rfl | rfl | rfl | rfl
    · exact lineEvent_deleadEnd i s
    · exact lineEvent_characterSent i s
    · exact lineEvent_deholdEnd i s
    · exact lineEvent_echoDeadline i s
    · exact lineEvent_startBit i s
    · exact lineEvent_characterComplete i s data parity stop
    · exact lineEvent_breakStart i s
    · exact lineEvent_breakEnd i s
    · exact lineEvent_postBreakIdleEnd i s
    · exact lineEvent_gapCountEnd i s
    · exact lineEvent_replyWindowExpiry i s
    · exact lineEvent_guardEnd i s
    · exact lineEvent_returnToMark i s
  rcases event with still | ⟨u, run, keeps, touch⟩
  · exact ⟨s, still, fun _ _ _ => rfl, rfl, ⟨rfl, rfl, rfl, rfl⟩, sameLink_of_calm rfl, rfl, b, fun _ _ _ _ _ => rfl⟩
  · exact completes_finish u run (lineEvent_frame b keeps touch lines)

end Sys2Proof.Machine
end

section
/-! A line served: by the granting, an acknowledgement, another line's completion (R97). -/

namespace Sys2Proof.Machine

/-- The class test reads the free blocks and the used slots alone (R93). -/
theorem Pool.passes_congr {p q : Pool} (n : Need) (free : p.free = q.free) (slots : p.slotsUsed = q.slotsUsed) :
    p.passes n = q.passes n := by
  simp only [Pool.passes, free, slots]

/-- What a release leaves before anybody is granted: `free` blocks free, `slots` record slots used, and of what a granting
reads and of what is told of it nothing else moved. -/
structure Granting (i : Fin 12) (free slots : Nat) (s u : State) : Prop where
  granted : u.granted = []
  wait : u.pool.waitList = s.pool.waitList
  free : u.pool.free = free
  slots : u.pool.slotsUsed = slots
  total : u.pool.total = s.pool.total
  polls : u.polls = s.polls
  intake : u.intake = s.intake
  settings : SameSettings s u
  line : u.line i = s.line i

/-- The end of a step in which line `i` alone was granted, with `free` blocks free and `slots` record slots used before; it has
still to act (R97). -/
structure LineGrant (i : Fin 12) (n : Need) (ws : List Waiter) (x : Txn) (free slots : Nat) (s g : State) : Prop where
  granted : g.granted = [.line i]
  wait : g.pool.waitList = ws
  free : g.pool.free = free - n.blocks
  slots : g.pool.slotsUsed = slots + if n.slot then 1 else 0
  total : g.pool.total = s.pool.total
  polls : g.polls = s.polls
  intake : g.intake = s.intake
  settings : SameSettings s g
  line : g.line i = { s.line i with hand := some { x with reservation := some n.blocks } }

/-- The head passes with `free` blocks free and `slots` record slots used, and the next fails behind its grant. -/
def HeadServed (n : Need) (ws : List Waiter) (free slots : Nat) (s : State) : Prop :=
  Pool.passes { s.pool with free := free, slotsUsed := slots } n = true ∧
  ∀ w rest, ws = w :: rest → Pool.passes
    { s.pool with free := free - n.blocks, slotsUsed := slots + if n.slot then 1 else 0 } w.need = false

/-- What is told of a line that has been granted and has acted (R5, R6, R97). -/
def LineGranted (i : Fin 12) (n : Need) (ws : List Waiter) (x : Txn) (free slots : Nat) (s t : State) : Prop :=
  let y := { x with reservation := some n.blocks }
  t.pool.waitList = ws ∧ t.pool.free = free - n.blocks ∧ t.pool.total = s.pool.total ∧
  t.pool.slotsUsed = slots + (if n.slot then 1 else 0) ∧ t.polls = s.polls ∧ t.intake = s.intake ∧ SameSettings s t ∧
  t.line i = if (s.line i).listen = .quiet then sendingLine (s.line i) y (s.workBytes x.work)[0]?
    else { s.line i with txn := .ready, lde := false, hand := some y }

section
variable {i : Fin 12} {n : Need} {ws : List Waiter} {x : Txn} {free slots : Nat} {s u g : State}

/-- The granting behind a release serves the line at the head, and nobody else. -/
theorem Granting.serves (b : Granting i free slots s u) (head : s.pool.waitList = { who := .line i, need := n } :: ws)
    (hand : (s.line i).hand = some x) (served : HeadServed n ws free slots s) : State.Served i n ws x u u.grantAll := by
  obtain ⟨passes, next⟩ := served
  refine State.grantAll_serves b.granted (b.wait.trans head) ?_ (by rw [b.line, hand]) fun w rest more => ?_
  · exact (Pool.passes_congr n b.free b.slots).trans passes
  · exact (Pool.passes_congr w.need (congrArg (· - n.blocks) b.free)
      (congrArg (· + if n.slot then 1 else 0) b.slots)).trans (next w rest more)

/-- So it ends in a grant of that line. -/
theorem Granting.grants (b : Granting i free slots s u) (head : s.pool.waitList = { who := .line i, need := n } :: ws)
    (hand : (s.line i).hand = some x) (served : HeadServed n ws free slots s) :
    LineGrant i n ws x free slots s u.grantAll := by
  have v := b.serves head hand served
  obtain ⟨cfg, run, clock, pending⟩ := b.settings
  obtain ⟨_, intake', cfg', run', clock', pending'⟩ := v.outside
  exact {
    granted := v.granted
    wait := v.wait
    free := by rw [v.free, b.free]
    slots := by rw [v.slots, b.slots]
    total := v.quiet.total.trans b.total
    polls := v.polls.trans b.polls
    intake := intake'.trans b.intake
    settings := ⟨cfg'.trans cfg, run'.trans run, clock'.trans clock, pending'.trans pending⟩
    line := by rw [v.line, b.line] }

/-- The granted line acts at the end of the step (R5, R6, R97). -/
theorem LineGrant.acts (gr : LineGrant i n ws x free slots s g) (waits : (s.line i).txn = .waitSpace) :
    LineGranted i n ws x free slots s g.finish ∧ SameOutside i g g.finish ∧ SamePool g g.finish ∧
    g.finish.results = g.results ++ g.lateResults ∧ SameLink g g.finish := by
  obtain ⟨cfg, run, clock, pending⟩ := gr.settings
  obtain ⟨line, outside, polls, pool, results, link, _⟩ := State.finish_line gr.granted (by rw [gr.line, waits])
    (by rw [gr.line]) rfl
  obtain ⟨_, intake', cfg', run', clock', pending'⟩ := id outside
  obtain ⟨free', reserved', held', slots', wait', _⟩ := id pool
  refine ⟨⟨wait'.trans gr.wait, free'.trans gr.free, ?_, slots'.trans gr.slots, polls.trans gr.polls,
    intake'.trans gr.intake, ⟨cfg'.trans cfg, run'.trans run, clock'.trans clock, pending'.trans pending⟩, ?_⟩,
    outside, pool, results, link⟩
  · rw [← gr.total]
    simp only [Pool.total, free', reserved', held']
  · have bytes : g.workBytes x.work = s.workBytes x.work := by
      cases x.work with
      | request r => rfl
      | poll id _ => simp only [State.workBytes, State.poll, gr.polls]
    rw [line, gr.line]
    simp only [bytes]
    rfl

/-- A pool whose free, reserved and held blocks stand holds as many blocks. -/
theorem total_of {s u : State} (pool : SamePool s u) : u.pool.total = s.pool.total := by
  obtain ⟨free, reserved, held, _⟩ := pool
  simp only [Pool.total, free, reserved, held]

/-- A grant stands through what leaves the pool, the granted and all but another line and the link. -/
theorem LineGrant.through {v : State} (gr : LineGrant i n ws x free slots s g) (granted : v.granted = g.granted)
    (pool : SamePool g v) (polls : v.polls = g.polls) (intake : v.intake = g.intake) (settings : SameSettings g v)
    (line : v.line i = g.line i) : LineGrant i n ws x free slots s v := by
  obtain ⟨cfg, run, clock, pending⟩ := gr.settings
  obtain ⟨cfg', run', clock', pending'⟩ := settings
  have total := total_of pool
  obtain ⟨free', _, _, slots', wait', _⟩ := pool
  exact ⟨granted.trans gr.granted, wait'.trans gr.wait, free'.trans gr.free, slots'.trans gr.slots, total.trans gr.total,
    polls.trans gr.polls, intake.trans gr.intake,
    ⟨cfg'.trans cfg, run'.trans run, clock'.trans clock, pending'.trans pending⟩, line.trans gr.line⟩

end


section
variable {i : Fin 12} {n : Need} {ws : List Waiter} {x : Txn} {s : State}

/-- WAIT_LIST_GRANT finds the state as it is (R97). -/
theorem granting_self (between : s.between) (i : Fin 12) : Granting i s.pool.free s.pool.slotsUsed s s :=
  ⟨between.2, rfl, rfl, rfl, rfl, rfl, rfl, ⟨rfl, rfl, rfl, rfl⟩, rfl⟩

/-- WAIT_LIST_GRANT serves the line at the head (R97). -/
theorem waitListGrant_serves (between : s.between) (head : s.pool.waitList = { who := .line i, need := n } :: ws)
    (waits : (s.line i).txn = .waitSpace) (hand : (s.line i).hand = some x)
    (served : HeadServed n ws s.pool.free s.pool.slotsUsed s) :
    Completes .waitListGrant s (fun t => LineGranted i n ws x s.pool.free s.pool.slotsUsed s t ∧
      t.pool.reserved = s.pool.reserved + n.blocks ∧ t.pool.held = s.pool.held ∧
      t.pool.minFree = min s.pool.minFree (s.pool.free - n.blocks) ∧ SameOutside i s t ∧ t.results = s.results ∧
      SameLink s t) := by
  have before := granting_self between i
  have v := before.serves head hand served
  obtain ⟨told, outside, pool, results, link⟩ := (before.grants head hand served).acts waits
  obtain ⟨_, reserved, held, _, _, _, minFree⟩ := pool
  refine completes_finish s.grantAll rfl ⟨told, reserved.trans v.reserved, held.trans v.held, minFree.trans v.minFree,
    v.outside.trans outside, ?_, sameLink_trans (sameLink_of_calm v.quiet.calm) link⟩
  rw [results, v.quiet.results, v.quiet.late, between.late, List.append_nil]

/-- Blocks that an acknowledgement frees serve the line at the head (R97, R117). -/
theorem ctrlFrame_serves {b : List Byte} {f : RxFrame} (between : s.between)
    (head : s.pool.waitList = { who := .line i, need := n } :: ws) (waits : (s.line i).txn = .waitSpace)
    (hand : (s.line i).hand = some x) (frame : frameOf .ctrl b = some f) (up : s.trunk.up = true)
    (valid : s.trunk.ackValid f.ackSeq = true) (one : (f.ackSeq - s.trunk.peerAck).toNat = 1)
    (sent : s.trunk.retransmits ≠ []) (held : ((s.released f).map Record.blocks).sum ≤ s.pool.held)
    (served : HeadServed n ws (s.pool.free + ((s.released f).map Record.blocks).sum)
      (s.pool.slotsUsed - ((s.released f).filter (fun r => !r.isEvent)).length) s) :
    Completes (.ctrlFrame b) s (fun t => LineGranted i n ws x
      (s.pool.free + ((s.released f).map Record.blocks).sum)
      (s.pool.slotsUsed - ((s.released f).filter (fun r => !r.isEvent)).length) s t ∧ SameOutside i s t) := by
  obtain ⟨g, gs, frames⟩ := List.exists_cons_of_ne_nil sent
  have released : s.released f = g.records := by simp [State.released, one, frames]
  rw [released] at held served ⊢
  obtain ⟨u, hu⟩ : ∃ u, u = (s.goodFrame.acked f.ackSeq).releasing g := ⟨_, rfl⟩
  have freed := State.releasing_freed up one frames held
  have ends := State.headed_one up valid one frames
  rw [← hu] at freed ends
  obtain ⟨lines, polls, cfg, run, clock, pending⟩ := freed.tables
  have before : Granting i (s.pool.free + (g.records.map Record.blocks).sum)
      (s.pool.slotsUsed - (g.records.filter (fun r => !r.isEvent)).length) s u :=
    { granted := freed.granted.trans between.2, wait := freed.wait, free := freed.free, slots := freed.slots
      total := by simp only [Pool.total, freed.free, freed.reserved, freed.held]; omega
      polls, intake := freed.intake, settings := ⟨cfg, run, clock, pending⟩, line := congrArg (Vector.get · i) lines }
  have v := before.serves head hand served
  obtain ⟨only, pool, _⟩ := State.sendOnly_behindAck u.grantAll f
  have lines' : ∀ d, (u.grantAll.behindAck f).line d = u.grantAll.line d := fun d => congrArg (Vector.get · d) only.lines
  have grant := (before.grants head hand served).through only.granted pool only.polls only.intake
    ⟨only.cfg, only.pollRun, only.clock, only.pending⟩ (lines' i)
  obtain ⟨told, outside, _⟩ := grant.acts waits
  refine completes_finish _ (exec_ctrlFrame_up frame up) ?_
  rw [ends]
  refine ⟨told, SameOutside.trans ?_ outside⟩
  obtain ⟨others, intake', cfg', run', clock', pending'⟩ := v.outside
  exact ⟨fun j ne => (lines' j).trans ((others j ne).trans (congrArg (Vector.get · j) lines)),
    only.intake.trans (intake'.trans freed.intake), only.cfg.trans (cfg'.trans cfg), only.pollRun.trans (run'.trans run),
    only.clock.trans (clock'.trans clock), only.pending.trans (pending'.trans pending)⟩

end

/-- A head that fails its test is granted nothing (R97). -/
theorem waitListGrant_waits {s : State} (between : s.between) (heads : s.headWaits) :
    Completes .waitListGrant s (fun t => Counted [] s t ∧ SameLink s t ∧ SameRest s t) := by
  have run : exec .waitListGrant s = finished s := congrArg finished (State.grantAll_none heads)
  exact completes_of s run between.2 ⟨(Counted.same rfl).close, sameLink_close (sameLink_of_calm rfl),
    sameRest_close ⟨⟨rfl, rfl, rfl, rfl, rfl, rfl⟩, ⟨rfl, rfl, rfl, rfl, rfl, rfl, rfl⟩, rfl, rfl⟩ between.late⟩

/-- A completed request's reply joins and its reservation and payload are settled, before anybody is granted (R17, R18). -/
def State.replySettled (s : State) (j : Fin 12) (r : Request) (y : Txn) (o : TxnOutcome) : State :=
  ((s.modLine j (fun l => { l with hand := none })).join
    (.reply r.tag (lineByte j) o y.attempts (resultData o y.reply).2 (resultData o y.reply).1) r.urgent
    (Config.blocksFor (10 + (resultData o y.reply).1.length))).settle (y.reservation.getD 0)
    (filledBlocks 10 y.reply.kept.length) (Config.blocksFor (10 + (resultData o y.reply).1.length)) (payloadBlocks r.payload)

/-- A request's completion grants behind that settling (R17, R97). -/
theorem State.complete_grants {w : State} {j : Fin 12} {r : Request} {y : Txn} (o : TxnOutcome) (work : y.work = .request r) :
    w.complete j y o = (w.replySettled j r y o).grantAll.countOutcome j o := by
  rw [complete, work]
  rfl

section
variable {w : State} {j : Fin 12} {r : Request} {y : Txn} {o : TxnOutcome} {k : Nat}

/-- What the settling frees, and what it leaves. -/
theorem State.replySettled_books (reservation : y.reservation = some k)
    (record : Config.blocksFor (10 + (resultData o y.reply).1.length) ≤ k) (filled : filledBlocks 10 y.reply.kept.length ≤ k)
    (reserved : k - filledBlocks 10 y.reply.kept.length ≤ w.pool.reserved)
    (held : filledBlocks 10 y.reply.kept.length + payloadBlocks r.payload ≤ w.pool.held) :
    (w.replySettled j r y o).pool.free =
      w.pool.free + (k - Config.blocksFor (10 + (resultData o y.reply).1.length)) + payloadBlocks r.payload ∧
    (w.replySettled j r y o).pool.total = w.pool.total := by
  obtain ⟨v, hv⟩ : ∃ v, v = (w.modLine j (fun l => { l with hand := none })).join
      (.reply r.tag (lineByte j) o y.attempts (resultData o y.reply).2 (resultData o y.reply).1) r.urgent
      (Config.blocksFor (10 + (resultData o y.reply).1.length)) := ⟨_, rfl⟩
  have pool : v.pool = w.pool := by simp [hv]
  obtain ⟨free', reserved', held'⟩ := State.settle_books v k (filledBlocks 10 y.reply.kept.length)
    (Config.blocksFor (10 + (resultData o y.reply).1.length)) (payloadBlocks r.payload) filled record
    (by rw [pool]; exact reserved) (by rw [pool]; exact held)
  have settled : w.replySettled j r y o = v.settle k (filledBlocks 10 y.reply.kept.length)
      (Config.blocksFor (10 + (resultData o y.reply).1.length)) (payloadBlocks r.payload) := by
    rw [State.replySettled, ← hv, reservation]
    rfl
  rw [pool] at free' reserved' held'
  rw [settled]
  refine ⟨free', ?_⟩
  simp only [Pool.total]
  omega

end

/-- A reply's settling leaves all but the line's hand, its record and the pool's blocks (R17, R18). -/
theorem State.replySettled_frame (w : State) (j : Fin 12) (r : Request) (y : Txn) (o : TxnOutcome) :
    (w.replySettled j r y o).granted = w.granted ∧ (w.replySettled j r y o).pool.waitList = w.pool.waitList ∧
    (w.replySettled j r y o).pool.slotsUsed = w.pool.slotsUsed ∧ (w.replySettled j r y o).polls = w.polls ∧
    (w.replySettled j r y o).intake = w.intake ∧ SameSettings w (w.replySettled j r y o) ∧
    (∀ d, d ≠ j → (w.replySettled j r y o).line d = w.line d) ∧
    (w.replySettled j r y o).line j = { w.line j with hand := none } ∧
    (w.replySettled j r y o).lateResults = w.lateResults ∧
    (w.replySettled j r y o).results = w.results ++
      [w.stamp (.reply r.tag (lineByte j) o y.attempts (resultData o y.reply).2 (resultData o y.reply).1) r.urgent
        (Config.blocksFor (10 + (resultData o y.reply).1.length))] := by
  refine ⟨?_, ?_, ?_, ?_, ?_, ?_, fun d ne => ?_, ?_, ?_, ?_⟩
  · simp [State.replySettled]
  · simp [State.replySettled]
  · simp [State.replySettled]
  · simp [State.replySettled]
  · simp [State.replySettled]
  · simp [State.replySettled, SameSettings]
  · simp [State.replySettled, State.line_modLine_ne w j d _ ne]
  · simp [State.replySettled]
  · simp [State.replySettled]
  · simp [State.replySettled]
    rfl

section
variable {i j : Fin 12} {n : Need} {ws : List Waiter} {x z : Txn} {s : State} {c : Instr} {a : Assembly} {o : TxnOutcome}
  {cs : List CtrId} {r : Request} {k : Nat}

/-- Blocks that another line's completion frees serve the line at the head (R17, R97). -/
theorem completion_serves (between : s.between) (head : s.pool.waitList = { who := .line i, need := n } :: ws)
    (waits : (s.line i).txn = .waitSpace) (hand : (s.line i).hand = some x) (other : j ≠ i)
    (ends : Ends c j z a o cs [] s) (work : z.work = .request r) (reservation : z.reservation = some k)
    (guards : (s.line j).applied.guardTime ≠ 0) (heads : s.headWaits)
    (record : Config.blocksFor (10 + (o.dataOf a).length) ≤ k) (filled : filledBlocks 10 z.reply.kept.length ≤ k)
    (data : filledBlocks 10 a.kept.length ≤ k) (reserved : k - filledBlocks 10 z.reply.kept.length ≤ s.pool.reserved)
    (held : filledBlocks 10 z.reply.kept.length + payloadBlocks r.payload ≤ s.pool.held)
    (served : HeadServed n ws
      (s.pool.free + (k - Config.blocksFor (10 + (o.dataOf a).length)) + payloadBlocks r.payload) s.pool.slotsUsed s) :
    Completes c s (fun t => LineGranted i n ws x
      (s.pool.free + (k - Config.blocksFor (10 + (o.dataOf a).length)) + payloadBlocks r.payload) s.pool.slotsUsed s t ∧
      (t.line j).txn = .guard ∧ (∀ d, d ≠ i → d ≠ j → t.line d = s.line d) ∧
      t.results = s.results ++
        [s.stamp (.reply r.tag (lineByte j) o z.attempts (o.errorOf a) (o.dataOf a)) r.urgent
          (Config.blocksFor (10 + (o.dataOf a).length))]) := by
  obtain ⟨w, y, ks, e⟩ := ends.ended between heads
  have work' : y.work = .request r := e.work.trans work
  have result : resultData o y.reply = (o.dataOf a, o.errorOf a) := e.data.trans (TxnOutcome.resultData_eq o a)
  have books := e.books k (payloadBlocks r.payload)
  rw [show z.work.header = 10 by rw [work]; rfl] at books
  obtain ⟨filled', reserved', held'⟩ := books filled data reserved held
  obtain ⟨outside, intakeW, cfgW, runW, clockW, pendingW⟩ := e.upto.outside
  obtain ⟨applied, _⟩ := e.upto.line
  obtain ⟨u, hu⟩ : ∃ u, u = w.replySettled j r y o := ⟨_, rfl⟩
  obtain ⟨granted, wait, slots, polls, intake, ⟨cfg, run, clock, pending⟩, lines, own, late, results⟩ :=
    w.replySettled_frame j r y o
  obtain ⟨free, total⟩ := State.replySettled_books (w := w) (j := j) (r := r) (y := y) (o := o) (e.res.trans reservation)
    (by rw [result]; exact record) filled' reserved' held'
  rw [result] at results free
  rw [← hu] at granted wait slots polls intake cfg run clock pending lines own late results free total
  have freeW : w.pool.free = s.pool.free := by simpa using e.upto.free
  have slotsW : w.pool.slotsUsed = s.pool.slotsUsed := by simpa using e.upto.slots
  have before : Granting i (s.pool.free + (k - Config.blocksFor (10 + (o.dataOf a).length)) + payloadBlocks r.payload)
      s.pool.slotsUsed s u :=
    ⟨granted.trans e.upto.granted, wait.trans e.upto.wait, by rw [free, freeW], slots.trans slotsW,
      total.trans e.upto.total, polls.trans e.upto.polls, intake.trans intakeW,
      ⟨cfg.trans cfgW, run.trans runW, clock.trans clockW, pending.trans pendingW⟩,
      (lines i other.symm).trans (outside i other.symm)⟩
  have v := before.serves head hand served
  obtain ⟨lines', _⟩ := v.outside
  obtain ⟨g, hg⟩ : ∃ g, g = u.grantAll.countOutcome j o := ⟨_, rfl⟩
  obtain ⟨gGranted, gClock, gCfg, gIntake, _, gPolls, gRun, gPending, gLine, _, gFree, gReserved, gHeld, gSlots, gWait, _,
    gResults, gLate⟩ := State.countOutcome_frame u.grantAll j o
  rw [← hg] at gGranted gClock gCfg gIntake gPolls gRun gPending gLine gFree gReserved gHeld gSlots gWait gResults gLate
  have guards' : (g.line j).applied.guardTime ≠ 0 := by
    rw [gLine, lines' j other, own, applied]
    exact guards
  have only := State.onlyLine_enterGuard g j y.lateMark guards'
  obtain ⟨grGranted, grWait, grFree, grSlots, grTotal, grPolls, grIntake, grSettings, grLine⟩ := before.grants head hand served
  obtain ⟨grCfg, grRun, grClock, grPending⟩ := grSettings
  have grant : LineGrant i n ws x (s.pool.free + (k - Config.blocksFor (10 + (o.dataOf a).length)) + payloadBlocks r.payload)
      s.pool.slotsUsed s (g.enterGuard j y.lateMark) :=
    { granted := only.granted.trans (gGranted.trans grGranted)
      wait := by rw [only.pool, gWait, grWait]
      free := by rw [only.pool, gFree, grFree]
      slots := by rw [only.pool, gSlots, grSlots]
      total := by rw [only.pool, ← grTotal]; simp only [Pool.total, gFree, gReserved, gHeld]
      polls := only.polls.trans (gPolls.trans grPolls)
      intake := only.intake.trans (gIntake.trans grIntake)
      settings := ⟨only.cfg.trans (gCfg.trans grCfg), only.pollRun.trans (gRun.trans grRun),
        only.clock.trans (gClock.trans grClock), only.pending.trans (gPending.trans grPending)⟩
      line := (only.line i other.symm).trans ((gLine i).trans grLine) }
  obtain ⟨told, ⟨others, _⟩, _, results', _⟩ := grant.acts waits
  refine completes_finish (g.enterGuard j y.lateMark) ?_ ⟨told, ?_, fun d ne ne' => ?_, ?_⟩
  · rw [e.run, hg, hu, ← State.complete_grants o work']
    rfl
  · rw [others j other, State.enterGuard_line g j y.lateMark guards']
  · rw [others d ne, only.line d ne', gLine, lines' d ne, lines d ne', outside d ne']
  · rw [results', only.results, only.lateResults, gResults, gLate, v.quiet.results, v.quiet.late, late, results,
      e.upto.late, List.append_nil, e.upto.results, List.append_nil, State.stamp_congr w s clockW cfgW, e.attempts]

end

/-- Settles O23: a granting behind a release (`Granting.grants`) that serves a line alone ends with that line acting
(`LineGrant.acts`); the release is none, an acknowledgement's, or another line's completion's. -/
theorem waitListGrant : Obligations.WaitListGrant := by
  intro s between
  refine ⟨waitListGrant_waits between, fun i n ws x head waits hand => ?_⟩
  intro served granted
  refine ⟨fun passes => waitListGrant_serves between head waits hand passes, fun b f frame up valid one sent => ?_,
    fun c j z a o cs r k other ends work reservation guards heads => ?_⟩
  · intro free slots held passes
    exact ctrlFrame_serves between head waits hand frame up (by simpa [Trunk.ackValid] using valid) one sent held passes
  · intro blocks filled free record filled' data reserved held passes
    exact completion_serves between head waits hand other ends work reservation guards heads record filled' data reserved
      held passes

end Sys2Proof.Machine
end

section
/-! LINE_ABORT at a dispatch and at a grant (R26 to R28, R98). -/

namespace Sys2Proof.Machine

/-- A LINE_ABORT of line `i` about to act in the state `x`, in the step of `c` from `s`; `y` is its Flush byte. -/
structure Aborting (c : Instr) (m : MgmtRequest) (i : Fin 12) (y : Byte) (s x : State) : Prop where
  begun : Begun s x
  run : exec c s = finished (x.performCommand m)
  code : m.code = 0x12
  params : m.params = [lineByte i, y]

/-- The requests that a LINE_ABORT with the Flush byte `y` flushes (R28). -/
def Line.flushed (l : Line) (y : Byte) : List Request := if y.getLsbD 0 then l.queue else []

/-- The queue that it leaves (R28). -/
def Line.unflushed (l : Line) (y : Byte) : List Request := if y.getLsbD 0 then [] else l.queue

/-- What a LINE_ABORT tells: the records `rs` of the transaction, those of the requests flushed, the response with the report `d`;
the counters `ks` of the transaction, `cs` of the unsolicited frame; what stands (R26 to R28). -/
def AbortTold (m : MgmtRequest) (i : Fin 12) (y : Byte) (cs : List CtrId) (rs : List Record) (d : List Byte)
    (ks : List CtrId) (s t : State) : Prop :=
  t.results = s.results ++ rs ++ refusals i .flushed ((s.line i).flushed y) s ++
    [t.stamp (.response m.tag m.code .done (d ++ [natByte ((s.line i).flushed y).length])) true 1] ∧
  CountedTimes ((s.line i).flushed y).length (.line i .requestsRefused) (ks ++ cs) s t ∧ Dispatched m.size s t ∧
  SameLink s t ∧ SameSettings s t ∧ t.pool.waitList = [] ∧ ∀ j, j ≠ i → t.line j = s.line j

/-- The blocks from the state `a` in which the transaction has been acted on to the end `t` of the step: the unsolicited frame's
`back`, `filled` of them held, and the spare ones of the requests flushed go back to the pool. -/
def AbortFreed (back filled : Nat) (flushed : List Request) (a t : State) : Prop :=
  filled ≤ back → back - filled ≤ a.pool.reserved → filled + spareBlocks flushed ≤ a.pool.held →
  t.pool.free = a.pool.free + back + spareBlocks flushed ∧ t.pool.reserved = a.pool.reserved - (back - filled) ∧
  t.pool.held + filled + spareBlocks flushed = a.pool.held

/-- The blocks over the whole step: `n` of a reservation, `data` of them filled, and `payload` go back with the frame's; `kept` of
them stay held. -/
def AbortBooks (back filled : Nat) (flushed : List Request) (data payload n kept : Nat) (s t : State) : Prop :=
  data ≤ n → filled ≤ back → n + back - (data + filled) ≤ s.pool.reserved →
  data + filled + payload + queueBlocks flushed ≤ s.pool.held →
  t.pool.free + kept + 1 = s.pool.free + n + back + payload + spareBlocks flushed ∧
  t.pool.reserved = s.pool.reserved - (n + back - (data + filled)) ∧
  t.pool.held + data + filled + payload + spareBlocks flushed = s.pool.held + kept + 1

/-- What the transaction gives back before the frame makes up the books of the step. -/
theorem AbortFreed.books {back filled data payload n kept : Nat} {flushed : List Request} {s x a t : State} (b : Begun s x)
    (freed : AbortFreed back filled flushed a t)
    (acted : data ≤ n → n - data ≤ x.pool.reserved → data + payload ≤ x.pool.held →
      a.pool.free + kept = x.pool.free + n + payload ∧ a.pool.reserved = x.pool.reserved - (n - data) ∧
      a.pool.held + data + payload = x.pool.held + kept) :
    AbortBooks back filled flushed data payload n kept s t := by
  intro within within' reserved held
  have spare := spare_le flushed
  have free0 := b.free
  have held0 := b.held
  have reserved0 := b.reserved
  obtain ⟨free1, reserved1, held1⟩ := acted within (by omega) (by omega)
  obtain ⟨free2, reserved2, held2⟩ := freed within' (by omega) (by omega)
  omega

section
variable {c : Instr} {m : MgmtRequest} {i : Fin 12} {y : Byte} {s x a : State} {cs ks : List CtrId}
  {back filled slots : Nat} {o : Option Unsolicited} {k : AbortCase} {rs : List Record} {hand : Option Txn}

/-- LINE_ABORT on a line whose transaction is acted on as `abortCase` says: nothing of the line but its hand, its queue and its
unsolicited frame has changed as it moves (R26 to R28). -/
theorem Aborting.told (ab : Aborting c m i y s x) (frame : FrameDiscarded i cs back filled slots o s)
    (row : (s.line i).abortCase = k) (three : (workReport k.txn).length = 3) (acts : x.abortTxn i k = a)
    (gone : Gone i 0 ks rs x a) (own : ks ⊆ [.line i .aborted]) (line : a.line i = { s.line i with hand := hand })
    (moves : ∀ z : State, z.line i = { s.line i with hand := hand, queue := (s.line i).unflushed y, unsolicited := o } →
      State.OnlyLine i z (z.abortMove i k)) :
    Completes c s (fun t => AbortTold m i y cs rs (workReport k.txn) ks s t ∧
      (∃ z : State, z.line i = { s.line i with hand := hand, queue := (s.line i).unflushed y, unsolicited := o } ∧
        z.clock = s.clock ∧ t.line i = (z.abortMove i k).line i) ∧
      t.polls = a.polls ∧ t.pool.slotsUsed = a.pool.slotsUsed - slots ∧
      AbortFreed back filled ((s.line i).flushed y) a t) := by
  have done := aborts ab.begun ab.run ab.code ab.params frame row rfl three acts gone own
    (by rw [line]; exact ⟨rfl, rfl, rfl⟩) (fun z moved _ => moves z (by rw [moved, line]; rfl))
  rw [line] at done
  exact done

/-- A completion of the transaction in hand, and the row of R26 by which it is one. -/
structure AbortCompletes (i : Fin 12) (y : Byte) (o : Option Unsolicited) (k : AbortCase) (T : Txn) (s x : State) : Prop where
  row : (s.line i).abortCase = k
  txn : k.txn = some T
  acts : x.abortTxn i k = x.complete i T .aborted
  moves : ∀ z : State, z.line i = { s.line i with hand := none, queue := (s.line i).unflushed y, unsolicited := o } →
    State.OnlyLine i z (z.abortMove i k)

/-- The line after such a completion, before it moves. -/
def AbortMoved (i : Fin 12) (y : Byte) (o : Option Unsolicited) (k : AbortCase) (s t : State) : Prop :=
  ∃ z : State, z.line i = { s.line i with hand := none, queue := (s.line i).unflushed y, unsolicited := o } ∧
    z.clock = s.clock ∧ t.line i = (z.abortMove i k).line i

/-- A request completed ABORTED from its reservation (R17, R26). -/
theorem Aborting.request {T : Txn} {r : Request} (ab : Aborting c m i y s x) (nobody : x.pool.waitList = [])
    (frame : FrameDiscarded i cs back filled slots o s) (ends : AbortCompletes i y o k T s x) (work : T.work = .request r) :
    Completes c s (fun t =>
      (AbortTold m i y cs [s.stamp (.reply r.tag (lineByte i) .aborted T.attempts none []) r.urgent 1]
        ([1] ++ halfBytes r.tag) [.line i .aborted] s t ∧ t.polls = s.polls ∧
        t.pool.slotsUsed = s.pool.slotsUsed + 1 - slots ∧ ∀ n, T.reservation = some n → 1 ≤ n →
          AbortBooks back filled ((s.line i).flushed y) (filledBlocks 10 T.reply.kept.length) (payloadBlocks r.payload) n 1
            s t) ∧
      AbortMoved i y o k s t) := by
  have report : workReport k.txn = [1] ++ halfBytes r.tag := by rw [ends.txn, workReport, work]; rfl
  obtain ⟨line, gone, polls, used, books⟩ := complete_aborted (i := i) (x := T) work nobody
  rw [ab.begun.lines] at line
  obtain ⟨t, run, told, moved, polls', slots', freed⟩ := ab.told frame ends.row (by rw [report]; rfl) ends.acts gone
    (List.Subset.refl _) line ends.moves
  rw [report, State.stamp_congr x s ab.begun.clock ab.begun.cfg] at told
  refine ⟨t, run, ⟨told, polls'.trans (polls.trans ab.begun.polls), ?_, fun n reservation some => ?_⟩, moved⟩
  · rw [slots', used, ab.begun.slots]
  · refine freed.books ab.begun fun within reserved held => ?_
    obtain ⟨free', reserved', held'⟩ := books n reservation some within reserved held
    omega

/-- A poll completed ABORTED from its reservation: reported by an entry that stays, discarded by a RETIRING one (R26, R82,
R87). -/
theorem Aborting.poll {T : Txn} {id : Fin 128} {q : Nat} {p : Poll} (ab : Aborting c m i y s x)
    (nobody : x.pool.waitList = []) (frame : FrameDiscarded i cs back filled slots o s)
    (ends : AbortCompletes i y o k T s x) (work : T.work = .poll id q) (entry : s.poll id = some p) (own : p.defn.line = i) :
    Completes c s (fun t =>
      ((∀ q, q ≠ id → t.poll q = s.poll q) ∧
        (p.state ≠ .retiring →
          AbortTold m i y cs [s.stamp (.pollResult id i p.pollSeq .aborted p.missed false none []) false 1]
            [2, 0, natByte id.val] [.line i .aborted] s t ∧
          t.poll id = some { p with state := .waiting, lastOutcome := some .aborted, missed := 0, suppressed := 0 } ∧
          t.pool.slotsUsed = s.pool.slotsUsed + 1 - slots ∧ ∀ n, T.reservation = some n → 1 ≤ n →
            AbortBooks back filled ((s.line i).flushed y) (filledBlocks 11 T.reply.kept.length) 0 n 1 s t) ∧
        (p.state = .retiring →
          AbortTold m i y cs [] [2, 0, natByte id.val] [.line i .aborted] s t ∧ t.poll id = none ∧
          t.pool.slotsUsed = s.pool.slotsUsed - slots ∧ ∀ n, T.reservation = some n → 1 ≤ n →
            AbortBooks back filled ((s.line i).flushed y) (filledBlocks 11 T.reply.kept.length) 0 n 0 s t)) ∧
      AbortMoved i y o k s t) := by
  have report : workReport k.txn = [2, 0, natByte id.val] := by rw [ends.txn, workReport, work]
  have table : ∀ d, x.poll d = s.poll d := fun d => congrArg (Vector.get · d) ab.begun.polls
  have stamps := State.stamp_congr x s ab.begun.clock ab.begun.cfg
  obtain ⟨line, stays, leaves⟩ := complete_poll (i := i) (x := T) work ((table id).trans entry) own nobody ab.begun.granted
  rw [ab.begun.lines] at line
  by_cases retires : p.state = .retiring
  · obtain ⟨gone, polls, used, books⟩ := leaves retires
    obtain ⟨t, run, told, moved, polls', slots', freed⟩ := ab.told frame ends.row (by rw [report]; rfl) ends.acts gone
      (List.Subset.refl _) line ends.moves
    have polls'' : ∀ d, t.poll d = _ := fun d => (congrArg (Vector.get · d) polls').trans (polls d)
    rw [report] at told
    refine ⟨t, run, ⟨fun d other => ?_, fun stays => absurd retires stays, fun _ => ⟨told, ?_, ?_, fun n reservation _ => ?_⟩⟩,
      moved⟩
    · rw [polls'', if_neg other, table]
    · rw [polls'', if_pos rfl]
    · rw [slots', used, ab.begun.slots, Nat.add_sub_cancel]
    · refine freed.books ab.begun fun within reserved held => ?_
      obtain ⟨free', reserved', held'⟩ := books n reservation within reserved held
      omega
  · obtain ⟨gone, polls, used, books⟩ := stays retires
    obtain ⟨t, run, told, moved, polls', slots', freed⟩ := ab.told frame ends.row (by rw [report]; rfl) ends.acts gone
      (List.Subset.refl _) line ends.moves
    have polls'' : ∀ d, t.poll d = _ := fun d => (congrArg (Vector.get · d) polls').trans (polls d)
    rw [report, stamps] at told
    refine ⟨t, run, ⟨fun d other => ?_, fun _ => ⟨told, ?_, ?_, fun n reservation some => ?_⟩, fun leaves => absurd leaves retires⟩,
      moved⟩
    · rw [polls'', if_neg other, table]
    · rw [polls'', if_pos rfl]
    · rw [slots', used, ab.begun.slots]
    · refine freed.books ab.begun fun within reserved held => ?_
      obtain ⟨free', reserved', held'⟩ := books n reservation some within reserved held
      omega

end


/-- A LINE_ABORT whose response space is granted as it is dispatched (R129). -/
theorem RequestReady.aborting {m : MgmtRequest} {i : Fin 12} {y : Byte} {s : State} (ready : RequestReady m s)
    (code : m.code = 0x12) (params : m.params = [lineByte i, y]) :
    Aborting .lineAbort m i y s (s.take m.need .held) ∧ (s.take m.need .held).pool.waitList = [] := by
  have kind : commandOf m.code = some .lineAbort := commandOf_of_code .lineAbort code
  have one : m.blocks = 1 := by simp [MgmtRequest.blocks, kind]
  obtain ⟨free, held, reserved, slots, wait, _, results, late⟩ := State.take_need s m ready
  obtain ⟨head, _, enough, _, between⟩ := id ready
  rw [one] at free held enough
  refine ⟨⟨?_, State.exec_granted s m (some .lineAbort) ready kind (by simp), code, params⟩, wait⟩
  exact {
    lines := by simp
    polls := by simp
    cfg := by simp
    pollRun := by simp
    clock := by simp
    pending := by simp
    calm := by simp
    frames := by simp
    stall := by simpa using State.headRecord_stall head
    results := results
    late := late
    granted := by simpa using between.2
    free := by omega
    held := held
    reserved := reserved
    slots := slots
    ctrs := Counted.quiet fun d straight => State.take_quiet s _ _ d straight }

section
variable {l : Line} {T : Txn}

/-- The rows of R26 that complete a transaction from its reservation and enter GUARD. -/
theorem Line.abortCase_toGuard (hand : l.hand = some T)
    (row : l.txn = .ready ∨ l.txn = .turnaround ∨ l.txn = .awaiting ∨ l.txn = .receiving ∨
      (l.txn = .sending ∧ l.charOut = none ∧ ∀ x, l.hand = some x → x.abortPending = false ∧ x.echoFailed = false)) :
    l.abortCase = .toGuard T := by
  rcases row with txn | txn | txn | txn | ⟨txn, idle, calm⟩
  · simp [Line.abortCase, hand, txn]
  · simp [Line.abortCase, hand, txn]
  · simp [Line.abortCase, hand, txn]
  · simp [Line.abortCase, hand, txn]
  · obtain ⟨pending, failed⟩ := calm T hand
    simp [Line.abortCase, hand, txn, idle, pending, failed]

theorem Line.abortCase_inGuard (hand : l.hand = some T) (txn : l.txn = .guard) : l.abortCase = .inGuard T := by
  simp [Line.abortCase, hand, txn]

theorem Line.abortCase_nothing (hand : l.hand = none) : l.abortCase = .nothing := by
  simp [Line.abortCase, hand]

theorem Line.abortCase_pend {c : Byte} (hand : l.hand = some T) (txn : l.txn = .sending) (out : l.charOut = some c)
    (pending : T.abortPending = false) (failed : T.echoFailed = false) : l.abortCase = .pend T := by
  simp [Line.abortCase, hand, txn, out, pending, failed]

theorem Line.abortCase_waiting (hand : l.hand = some T) (txn : l.txn = .waitSpace) (ungranted : T.reservation = none) :
    l.abortCase = .waiting T := by
  simp [Line.abortCase, hand, txn, ungranted]

end

section
variable {i : Fin 12} {y : Byte} {o : Option Unsolicited} {T : Txn} {s x t : State}

/-- A completion that enters GUARD for its GuardTime (R26). -/
theorem abortCompletes_toGuard (row : (s.line i).abortCase = .toGuard T) (guards : (s.line i).applied.guardTime ≠ 0) :
    AbortCompletes i y o (.toGuard T) T s x :=
  ⟨row, rfl, rfl, fun z line => State.onlyLine_enterGuard z i T.lateMark (by rw [line]; exact guards)⟩

/-- A completion in GUARD, which goes on (R26). -/
theorem abortCompletes_inGuard (row : (s.line i).abortCase = .inGuard T) : AbortCompletes i y o (.inGuard T) T s x :=
  ⟨row, rfl, rfl, fun z _ => State.onlyLine_rfl i z⟩

/-- A line that does not own its receiver keeps its listen state as it enters GUARD (R20). -/
theorem Line.fixListen_not {l : Line} (free : l.txn.ownsReceiver = false) : l.fixListen = l := by
  simp [Line.fixListen, free]

/-- The line in GUARD (R20, R24, R26). -/
theorem AbortMoved.guarded (moved : AbortMoved i y o (.toGuard T) s t) (guards : (s.line i).applied.guardTime ≠ 0) :
    (t.line i).txn = .guard ∧ (t.line i).lde = false ∧ (t.line i).hand = none ∧ (t.line i).charOut = none ∧
    (t.line i).window = none ∧ (t.line i).guardEnd = some (s.clock + (s.line i).applied.guardTime) ∧
    (t.line i).lateMark = (if T.noReplyLast then some T.work.lateTag else none) ∧
    (t.line i).queue = (s.line i).unflushed y ∧ (t.line i).due = (s.line i).due ∧
    ((s.line i).txn = .ready → (t.line i).listen = (s.line i).listen ∧ (t.line i).unsolicited = o) := by
  obtain ⟨z, line, clock, becomes⟩ := moved
  have entered : t.line i = _ := becomes.trans (State.enterGuard_line z i T.lateMark (by rw [line]; exact guards))
  obtain ⟨_, _, hand, queue, due, _⟩ := State.fixListen_frame (z.line i)
  rw [entered]
  refine ⟨rfl, rfl, ?_, rfl, rfl, ?_, rfl, ?_, ?_, fun ready => ?_⟩
  · exact hand.trans (by rw [line])
  · simp only [clock, line]
  · exact queue.trans (by rw [line])
  · exact due.trans (by rw [line])
  · have stays : (z.line i).fixListen = z.line i := Line.fixListen_not (by rw [line]; simp [ready, TxnState.ownsReceiver])
    rw [stays, line]
    exact ⟨rfl, rfl⟩

/-- The line that stays in GUARD (R26). -/
theorem AbortMoved.stays (moved : AbortMoved i y o (.inGuard T) s t) :
    t.line i = { s.line i with hand := none, queue := (s.line i).unflushed y, unsolicited := o } := by
  obtain ⟨z, line, _, becomes⟩ := moved
  exact becomes.trans line

end

section
variable {c : Instr} {m : MgmtRequest} {i : Fin 12} {y : Byte} {s x a : State} {cs : List CtrId}
  {back filled slots : Nat} {o : Option Unsolicited} {k : AbortCase} {hand : Option Txn}

/-- LINE_ABORT that completes no transaction (R26). -/
theorem Aborting.kept (ab : Aborting c m i y s x) (nobody : x.pool.waitList = [])
    (frame : FrameDiscarded i cs back filled slots o s) (row : (s.line i).abortCase = k)
    (three : (workReport k.txn).length = 3) (acts : x.abortTxn i k = a) (only : State.OnlyLine i x a)
    (line : a.line i = { s.line i with hand := hand }) (moves : ∀ z : State, z.abortMove i k = z) :
    Completes c s (fun t => AbortTold m i y cs [] (workReport k.txn) [] s t ∧
      t.line i = { s.line i with hand := hand, queue := (s.line i).unflushed y, unsolicited := o } ∧ t.polls = s.polls ∧
      t.pool.slotsUsed = s.pool.slotsUsed + 1 - slots ∧ AbortBooks back filled ((s.line i).flushed y) 0 0 0 0 s t) := by
  obtain ⟨t, run, told, ⟨z, before, _, becomes⟩, polls, used, freed⟩ := ab.told frame row three acts
    ((Gone.rfl' i x nobody).only only) (List.nil_subset _) line (fun z _ => by rw [moves]; exact State.onlyLine_rfl i z)
  refine ⟨t, run, told, ?_, polls.trans (only.polls.trans ab.begun.polls), ?_, freed.books ab.begun fun _ _ _ => ?_⟩
  · rw [becomes, moves, before]
  · rw [used, only.pool, ab.begun.slots]
  · rw [only.pool]
    omega

end


/-- The state in which the intake unit, at the head of the wait list, takes its allocation; `ws` wait behind it (R97). -/
def State.intakeServed (s : State) (ws : List Waiter) : State :=
  (s.setPool { s.pool with waitList := ws }).setGranted [.intake]

section
variable {s : State} {n : Need} {w : Waiter} {ws : List Waiter}

/-- The intake unit at the head is granted alone where the next waiter fails behind its grant (R97). -/
theorem State.grantAll_intakeServed (head : s.pool.waitList = { who := .intake, need := n } :: w :: ws)
    (passes : s.pool.passes n = true) (granted : s.granted = [])
    (fails : Pool.passes { s.pool with
      free := s.pool.free - n.blocks, slotsUsed := s.pool.slotsUsed + if n.slot then 1 else 0 } w.need = false) :
    s.grantAll = (s.intakeServed (w :: ws)).take n .held := by
  have one : s.grantOne { who := .intake, need := n } (w :: ws) = (s.intakeServed (w :: ws)).take n .held := by
    rw [grantOne, granted]
    rfl
  obtain ⟨_, wait, free, slots, _⟩ := s.grantOne_books { who := .intake, need := n } (w :: ws)
  have fits : min n.blocks s.pool.free = n.blocks := Nat.min_eq_left (passes_free passes)
  rw [grantAll_one head passes, one]
  intro v vs next
  rw [wait] at next
  obtain ⟨rfl, rfl⟩ := List.cons.inj next
  rw [← fails]
  exact Pool.passes_congr _ (free.trans (congrArg _ fits)) slots

end

/-- A stalled LINE_ABORT granted its space, and nobody else, acts as at a dispatch; the waiters behind it still wait (R98,
R129). -/
theorem aborting_granted {m : MgmtRequest} {i : Fin 12} {y : Byte} {s : State} {w : Waiter} {ws : List Waiter}
    (code : m.code = 0x12) (params : m.params = [lineByte i, y]) (between : s.between)
    (stall : s.intake.stall = some (.command m))
    (head : s.pool.waitList = { who := .intake, need := { blocks := 1, slot := true, cls := .response } } :: w :: ws)
    (free : 1 ≤ s.pool.free) (slots : s.pool.slotsUsed + 1 ≤ 256)
    (fails : Pool.passes { s.pool with free := s.pool.free - 1, slotsUsed := s.pool.slotsUsed + 1 } w.need = false) :
    Aborting .waitListGrant m i y s s.grantAll.acting ∧ s.grantAll.acting.pool.waitList = w :: ws := by
  obtain ⟨n, need⟩ : ∃ n : Need, n = { blocks := 1, slot := true, cls := .response } := ⟨_, rfl⟩
  have passes : s.pool.passes n = true := by
    rw [need, State.passes_iff]
    exact ⟨free, fun _ => slots⟩
  rw [← need] at head
  have grant : s.grantAll = (s.intakeServed (w :: ws)).take n .held :=
    State.grantAll_intakeServed head passes between.2 (by rw [need]; exact fails)
  obtain ⟨free', reserved', held', _⟩ := State.take_granted (s.intakeServed (w :: ws)) n .held
    ((State.passes_iff _ _).mpr ((State.passes_iff _ _).mp passes))
  rw [← grant] at free' reserved' held'
  obtain ⟨clock, cfg, intake, polls, run, pending, _, _, calm, _⟩ := s.grantAll_frame
  have lines : ∀ j, s.grantAll.line j = s.line j := fun j => by rw [grant]; simp [State.intakeServed]
  have acts : (s.grantAll.setGranted []).intakeGranted = s.grantAll.acting.performCommand m := by
    have stalled : (s.grantAll.setGranted []).intake.stall = some (.command m) := by
      show s.grantAll.intake.stall = _
      rw [intake, stall]
    rw [State.intakeGranted, stalled]
    rfl
  refine ⟨⟨?_, ?_, code, params⟩, ?_⟩
  · exact {
      lines := lines
      polls := polls
      cfg := cfg
      pollRun := run
      clock := clock
      pending := pending
      calm := calm
      frames := by show s.grantAll.intake.frames = _; rw [intake]
      stall := rfl
      results := by show s.grantAll.results = _; rw [grant]; simp [State.intakeServed]; rfl
      late := by show s.grantAll.lateResults = _; rw [grant]; simp [State.intakeServed]; exact between.late
      granted := rfl
      free := by
        show s.grantAll.pool.free + 1 = _
        rw [free', need]
        exact Nat.sub_add_cancel free
      held := by
        show s.grantAll.pool.held = _
        rw [held', need]
        rfl
      reserved := reserved'
      slots := by
        show s.grantAll.pool.slotsUsed = _
        rw [grant]
        simp [State.intakeServed, need]
      ctrs := Counted.quiet fun d straight => by
        show s.grantAll.ctrs.read d = _
        rw [grant]
        exact State.take_quiet _ _ _ d straight }
  · show finished s.grantAll = _
    have granted : s.grantAll.granted = [.intake] := by rw [grant]; simp [State.intakeServed]
    exact congrArg Host.Outcome.next (State.finish_intake granted acts
      (State.performCommand_stall s.grantAll.acting m))
  · show s.grantAll.pool.waitList = _
    rw [grant]
    simp [State.intakeServed]


/-- What the abort of a transaction in WAIT_SPACE does from `x` to `a`, with the entries of the poll table as `table` gives them:
`taken` blocks and slots taken for its record, `freed` blocks of its payload freed (R27, R98). -/
structure Withdrawn (i : Fin 12) (rs : List Record) (table : Fin 128 → Option Poll) (taken freed : Nat) (x a : State) :
    Prop where
  gone : Gone i 0 [.line i .aborted] rs x a
  line : a.line i = { x.line i with hand := none }
  polls : ∀ d, a.poll d = table d
  slots : a.pool.slotsUsed = x.pool.slotsUsed + taken
  reserved : a.pool.reserved = x.pool.reserved
  books : freed ≤ x.pool.held →
    a.pool.free + taken = x.pool.free + freed ∧ a.pool.held + freed = x.pool.held + taken

/-- The line leaves the wait list before its transaction completes (R98). -/
theorem Withdrawn.behind {i : Fin 12} {rs : List Record} {table : Fin 128 → Option Poll} {taken freed : Nat} {x a : State}
    (h : Withdrawn i rs table taken freed (x.leaveWait (.line i)) a) : Withdrawn i rs table taken freed x a := by
  obtain ⟨⟨cfg, run, clock, pending, intake, calm, lines, late, granted, wait, results, ctrs⟩, line, polls, slots, reserved,
    books⟩ := h
  simp only [State.leaveWait_frame, State.leaveWait_results] at cfg run clock pending intake calm lines late
  simp only [State.leaveWait_frame, State.leaveWait_results] at granted results line slots reserved books
  refine ⟨⟨cfg, run, clock, pending, intake, calm, lines, late, granted, wait, results, fun d straight => ?_⟩, line, polls,
    slots, reserved, books⟩
  rw [ctrs d straight]
  simp

/-- The state in which the table acts on an aborted poll, its ABORTED counted and its hand empty, with what it reads as in `v`. -/
structure Counting (i : Fin 12) (taken : Nat) (v u : State) : Prop where
  granted : u.granted = v.granted
  wait : u.pool.waitList = v.pool.waitList
  results : u.results = v.results
  line : u.line i = { v.line i with hand := none }
  polls : u.polls = v.polls
  clock : u.clock = v.clock
  cfg : u.cfg = v.cfg
  slots : u.pool.slotsUsed = v.pool.slotsUsed + taken
  free : u.pool.free + taken = v.pool.free
  held : u.pool.held = v.pool.held + taken
  reserved : u.pool.reserved = v.pool.reserved
  counted : Counted [.line i .aborted] v u

namespace State

/-- An aborted transaction's ABORTED is counted (R17). -/
theorem countOutcome_aborted (v : State) (i : Fin 12) : v.countOutcome i .aborted = v.bump (.line i .aborted) := rfl

variable {i : Fin 12} {v u : State} {id : Fin 128} {p : Poll}

/-- The counted state. -/
theorem counting (v : State) (i : Fin 12) :
    Counting i 0 v ((v.modLine i (fun l => { l with hand := none })).countOutcome i .aborted) := by
  rw [countOutcome_aborted]
  exact {
    granted := by simp
    wait := by simp
    results := by simp
    line := by simp
    polls := by simp
    clock := by simp
    cfg := by simp
    slots := by simp
    free := by simp
    held := by simp
    reserved := by simp
    counted := fun d straight => by
      rw [Counted.bump (v.modLine i _) (.line i .aborted) d straight, ctrs_modLine] }

end State


section
variable {i : Fin 12} {v u a : State} {T : Txn} {r : Request} {id : Fin 128} {q : Nat} {p : Poll}

/-- A request aborted in WAIT_SPACE completes in the first block of its payload (R27). -/
theorem State.abortWaiting_request (work : T.work = .request r) (nobody : v.pool.waitList = []) (granted : v.granted = []) :
    Withdrawn i [v.stamp (.reply r.tag (lineByte i) .aborted 0 none []) r.urgent 1] v.poll 0 (payloadBlocks r.payload - 1) v
      (v.abortWaiting i T) := by
  have acts : v.abortWaiting i T = (((v.modLine i (fun l => { l with hand := none })).release 0
      (payloadBlocks r.payload - 1)).join (.reply r.tag (lineByte i) .aborted 0 none []) r.urgent 1).bump (.line i .aborted) := by
    rw [abortWaiting, work]
    rfl
  have fact : Fact ((fun j => j = i) i) := ⟨rfl⟩
  have touch : Touch (fun j => j = i) v (v.abortWaiting i T) := touch_abortWaiting (Touch.rfl' v) i T
  refine ⟨Gone.of_touch touch nobody granted ?_ ?_ ?_ (fun d straight => ?_) (by simp), ?_, fun d => ?_, ?_, ?_, fun held => ?_⟩
  · simp [acts]
  · simp [acts]
  · simp [acts, stamp]
    rfl
  · obtain ⟨missed, low, _⟩ := sideways_ne straight
    by_cases own : d = .line i .aborted
    · simp [acts, own]
    · simp [acts, own, missed, low]
  · simp [acts]
  · simp [acts]
  · simp [acts]
  · simp [acts]
  · simp [acts, held]

/-- The poll table's answer to an aborted poll for whose record `asked` blocks and slots, one or none, have been taken: `kept` of
them the record keeps (R27, R82, R87). -/
theorem Counting.withdrawn {e : Option Poll} {rs : List Record} {kept gone asked : Nat} (c : Counting i asked v u)
    (touch : Touch (fun j => j = i) v a) (nobody : v.pool.waitList = []) (granted : v.granted = [])
    (h : Handed i id e rs gone [] asked asked kept u a) (all : kept + gone = asked) :
    Withdrawn i rs (fun d => if d = id then e else v.poll d) kept 0 v a := by
  have counted : Counted [.line i .aborted] v a := fun d straight => by
    rw [h.ctrs d straight, if_neg (by simp), c.counted d straight]
  have before := c.free
  have before' := c.held
  obtain ⟨free, reserved, held⟩ := h.books (Nat.le_refl _) (by omega) (by omega) (by omega)
  refine ⟨Gone.of_touch touch nobody granted (h.granted.trans c.granted) (h.wait.trans c.wait) (by rw [h.results, c.results])
    counted (by simp), ?_, fun d => ?_, ?_, ?_, fun _ => by omega⟩
  · exact (congrArg (Vector.get · i) h.lines).trans c.line
  · rw [h.polls, State.poll, State.poll, c.polls]
  · rw [h.slots, c.slots]
    omega
  · rw [reserved, Nat.sub_self, Nat.sub_zero, c.reserved]

/-- The state in which an aborted poll's record has its block and slot (R27). -/
theorem Counting.taking (c : Counting i 0 v u) (space : u.mayTake abortNeed = true) :
    Counting i 1 v (u.take abortNeed .held) := by
  obtain ⟨free, reserved, held, _⟩ := State.take_granted u abortNeed .held space
  have fits := State.passes_free space
  have one : abortNeed.blocks = 1 := rfl
  rw [one] at free held fits
  exact {
    granted := by simp [c.granted]
    wait := by simp [c.wait]
    results := by simp [c.results]
    line := by simp [c.line]
    polls := by simp [c.polls]
    clock := by simp [c.clock]
    cfg := by simp [c.cfg]
    slots := by simp [c.slots, abortNeed]
    free := by have := c.free; omega
    held := by rw [held, c.held]; rfl
    reserved := reserved.trans c.reserved
    counted := fun d straight => (State.take_quiet u abortNeed .held d straight).trans (c.counted d straight) }

namespace State

/-- A poll aborted in WAIT_SPACE, in the state in which it is counted (R27). -/
theorem abortWaiting_poll (work : T.work = .poll id q) : ∃ u, Counting i 0 v u ∧ v.abortWaiting i T =
    if u.mayTake abortNeed then (u.take abortNeed .held).pollDone id .aborted Assembly.empty (some (1, 1))
    else u.pollDone id .aborted Assembly.empty none := by
  refine ⟨_, counting v i, ?_⟩
  rw [abortWaiting, work]

/-- Without space for its record an aborted run is lost (R27, R83); a RETIRING entry discards it (R87). -/
theorem pollDone_lost {e : Option Poll} (entry : u.poll id = some p)
    (becomes : e = if p.state = .retiring then none else some p.lostRun) :
    Handed i id e [] 0 [] 0 0 0 u (u.pollDone id .aborted Assembly.empty none) := by
  have acts : u.pollDone id .aborted Assembly.empty none = u.setPoll id e := by
    rw [pollDone, entry, becomes]
    by_cases retires : p.state = .retiring
    · simp [retires, dropReservation]
    · simp [retires, pollRunDone]
  rw [acts]
  exact {
    lines := by simp
    polls := fun d => by by_cases same : d = id <;> simp [same]
    results := by simp
    late := by simp
    granted := by simp
    slots := by simp
    wait := by simp
    clock := by simp
    ctrs := fun d _ => by simp
    books := by simp }

end State

end


section
variable {i : Fin 12} {v : State} {T : Txn} {id : Fin 128} {q : Nat} {p : Poll}

/-- A poll aborted in WAIT_SPACE with space for its record reports (R27, R82). -/
theorem State.abortWaiting_reported (work : T.work = .poll id q) (entry : v.poll id = some p) (own : p.defn.line = i)
    (stays : p.state ≠ .retiring) (nobody : v.pool.waitList = []) (granted : v.granted = []) (free : 1 ≤ v.pool.free)
    (slots : v.pool.slotsUsed + 1 ≤ 256) :
    Withdrawn i [v.stamp (.pollResult id i p.pollSeq .aborted p.missed false none []) false 1]
      (fun d => if d = id then some { p with state := .waiting, lastOutcome := some .aborted, missed := 0, suppressed := 0 }
        else v.poll d) 1 0 v (v.abortWaiting i T) := by
  subst own
  have fact : Fact ((fun j => j = p.defn.line) p.defn.line) := ⟨rfl⟩
  have touch : Touch (fun j => j = p.defn.line) v (v.abortWaiting p.defn.line T) := touch_abortWaiting (Touch.rfl' v) _ T
  obtain ⟨u, c, acts⟩ := abortWaiting_poll (i := p.defn.line) (v := v) work
  have free0 := c.free
  have space : u.mayTake abortNeed = true := (passes_iff _ _).mpr ⟨by
    show 1 ≤ u.pool.free
    omega, fun _ => by rw [c.slots]; exact slots⟩
  rw [if_pos space] at acts
  have c' := c.taking space
  have found : (u.take abortNeed .held).poll id = some p := by rw [State.poll, c'.polls]; exact entry
  have reports : p.reports .aborted [] = true := by simp [Poll.reports, Poll.mustReport]
  have plain : p.forcedFlag .aborted [] = false := by simp [Poll.forcedFlag, Poll.mustReport]
  have handed := (pollDone_handed _ id p .aborted Assembly.empty 1 1 found stays [] none rfl
    (unserved_nobody (c'.wait.trans nobody) _ _)).1 reports
  rw [← acts, plain, stamp_congr _ v c'.clock c'.cfg] at handed
  exact c'.withdrawn touch nobody granted handed rfl

/-- Without it the run is lost (R27, R83). -/
theorem State.abortWaiting_lost (work : T.work = .poll id q) (entry : v.poll id = some p) (stays : p.state ≠ .retiring)
    (nobody : v.pool.waitList = []) (granted : v.granted = []) (full : v.pool.free = 0 ∨ v.pool.slotsUsed = 256) :
    Withdrawn i [] (fun d => if d = id then some p.lostRun else v.poll d) 0 0 v (v.abortWaiting i T) := by
  have fact : Fact ((fun j => j = i) i) := ⟨rfl⟩
  have touch : Touch (fun j => j = i) v (v.abortWaiting i T) := touch_abortWaiting (Touch.rfl' v) i T
  obtain ⟨u, c, acts⟩ := abortWaiting_poll (i := i) (v := v) work
  have free0 := c.free
  have slots0 := c.slots
  have space : ¬ u.mayTake abortNeed = true := fun passes => by
    obtain ⟨blocks, slots⟩ := (passes_iff _ _).mp passes
    have blocks : 1 ≤ u.pool.free := blocks
    have slots : u.pool.slotsUsed + 1 ≤ 256 := slots rfl
    omega
  rw [if_neg space] at acts
  have handed := pollDone_lost (i := i) (e := some p.lostRun) (by rw [State.poll, c.polls]; exact entry) (by rw [if_neg stays])
  rw [← acts] at handed
  exact c.withdrawn touch nobody granted handed rfl

/-- A RETIRING entry discards it, with space or without (R87). -/
theorem State.abortWaiting_retired (work : T.work = .poll id q) (entry : v.poll id = some p) (own : p.defn.line = i)
    (retires : p.state = .retiring) (nobody : v.pool.waitList = []) (granted : v.granted = []) :
    Withdrawn i [] (fun d => if d = id then none else v.poll d) 0 0 v (v.abortWaiting i T) := by
  subst own
  have fact : Fact ((fun j => j = p.defn.line) p.defn.line) := ⟨rfl⟩
  have touch : Touch (fun j => j = p.defn.line) v (v.abortWaiting p.defn.line T) := touch_abortWaiting (Touch.rfl' v) _ T
  obtain ⟨u, c, acts⟩ := abortWaiting_poll (i := p.defn.line) (v := v) work
  by_cases space : u.mayTake abortNeed = true
  · rw [if_pos space] at acts
    have c' := c.taking space
    have found : (u.take abortNeed .held).poll id = some p := by rw [State.poll, c'.polls]; exact entry
    have handed := pollDone_retiring _ id p .aborted Assembly.empty 1 1 found retires
      (unserved_nobody (c'.wait.trans nobody) _ _)
    rw [← acts] at handed
    exact c'.withdrawn touch nobody granted handed rfl
  · rw [if_neg space] at acts
    have handed := pollDone_lost (i := p.defn.line) (e := none) (by rw [State.poll, c.polls]; exact entry) (by rw [if_pos retires])
    rw [← acts] at handed
    exact c.withdrawn touch nobody granted handed rfl

end

/-- A line without work waiting enters IDLE with nothing staged that can be put in place (R20, R30, R57). -/
theorem State.enterIdle_empty {z : State} {i : Fin 12} (queue : (z.line i).queue = []) (due : (z.line i).due = [])
    (calm : (z.line i).listen ≠ .quiet ∨ (z.line i).staged = none) :
    z.enterIdle i = z.modLine i (fun l => l.goto .idle) := by
  have select : (z.modLine i (fun l => l.goto .idle)).selectIfIdle i = z.modLine i (fun l => l.goto .idle) :=
    selectIfIdle_empty (by rw [line_modLine_same]; exact queue) (by rw [line_modLine_same]; exact due)
  rw [enterIdle]
  by_cases quiet : (z.line i).listen = .quiet
  · have none : (z.line i).staged = none := calm.resolve_left fun other => other quiet
    have unstaged : (z.modLine i (fun l => l.goto .idle)).applyStaged i = z.modLine i (fun l => l.goto .idle) := by
      rw [applyStaged, line_modLine_same, show ((z.line i).goto .idle).staged = Option.none from none]
    rw [if_pos quiet, unstaged, select]
  · rw [if_neg quiet, select]

section
variable {c : Instr} {m : MgmtRequest} {i : Fin 12} {y : Byte} {s x : State} {cs : List CtrId} {back filled slots : Nat}
  {o : Option Unsolicited} {T : Txn} {rs : List Record} {table : Fin 128 → Option Poll} {taken freed payload n : Nat}

/-- LINE_ABORT in WAIT_SPACE: the transaction leaves the wait list and completes, and the line enters IDLE; `n` counts what goes
back to the pool by it, the response's block and its record's apart (R26, R27, R98). -/
theorem Aborting.waiting (ab : Aborting c m i y s x) (frame : FrameDiscarded i cs back filled slots o s)
    (row : (s.line i).abortCase = .waiting T) (three : (workReport (some T)).length = 3)
    (withdrawn : Withdrawn i rs table taken freed (x.leaveWait (.line i)) ((x.leaveWait (.line i)).abortWaiting i T))
    (queue : (s.line i).unflushed y = []) (due : (s.line i).due = [])
    (calm : (s.line i).listen ≠ .quiet ∨ (s.line i).staged = none) (most : freed ≤ payload) (all : freed + 1 = n + taken) :
    Completes c s (fun t => AbortTold m i y cs rs (workReport (some T)) [.line i .aborted] s t ∧
      t.line i = { s.line i with txn := .idle, lde := false, hand := none, queue := [], unsolicited := o } ∧
      (∀ d, t.poll d = table d) ∧ t.pool.slotsUsed = s.pool.slotsUsed + 1 + taken - slots ∧
      (filled ≤ back → back - filled ≤ s.pool.reserved → filled + payload + queueBlocks ((s.line i).flushed y) ≤ s.pool.held →
        t.pool.free + 2 = s.pool.free + n + back + spareBlocks ((s.line i).flushed y) ∧
        t.pool.reserved = s.pool.reserved - (back - filled))) := by
  have acts : x.abortTxn i (.waiting T) = (x.leaveWait (.line i)).abortWaiting i T :=
    State.grantAll_nobody withdrawn.gone.wait
  have w := withdrawn.behind
  have line := w.line
  rw [ab.begun.lines] at line
  have enters : ∀ z : State, z.line i =
      { s.line i with hand := none, queue := (s.line i).unflushed y, unsolicited := o } →
      z.abortMove i (.waiting T) = z.modLine i (fun l => l.goto .idle) := fun z before =>
    State.enterIdle_empty (by rw [before]; exact queue) (by rw [before]; exact due) (by rw [before]; exact calm)
  obtain ⟨t, run, told, ⟨z, before, _, becomes⟩, polls, used, freed'⟩ := ab.told frame row three acts w.gone
    (List.Subset.refl _) line (fun z before => by rw [enters z before]; exact State.onlyLine_modLine z i _)
  refine ⟨t, run, told, ?_, fun d => ?_, ?_, fun within reserved held => ?_⟩
  · rw [becomes, enters z before, State.line_modLine_same, before, queue]
    rfl
  · exact (congrArg (Vector.get · d) polls).trans (w.polls d)
  · rw [used, w.slots, ab.begun.slots]
  · have spare := spare_le ((s.line i).flushed y)
    have free0 := ab.begun.free
    have held0 := ab.begun.held
    have reserved0 := ab.begun.reserved
    have reserved1 := w.reserved
    obtain ⟨free1, held1⟩ := w.books (by omega)
    obtain ⟨free2, reserved2, _⟩ := freed' within (by omega) (by omega)
    omega

end


section
variable {m : MgmtRequest} {i : Fin 12} {y : Byte} {s : State} {cs : List CtrId} {back filled slots : Nat}
  {o : Option Unsolicited} {T : Txn} {k : Need}

/-- The state in which a transaction that waited completes: its line has left the wait list, on which it was alone (R98). -/
theorem Aborting.left {c : Instr} {x : State} (ab : Aborting c m i y s x)
    (alone : x.pool.waitList = [{ who := .line i, need := k }]) :
    (x.leaveWait (.line i)).pool.waitList = [] ∧ (x.leaveWait (.line i)).granted = [] ∧
    (∀ d, (x.leaveWait (.line i)).poll d = s.poll d) ∧ (x.leaveWait (.line i)).pool.free + 1 = s.pool.free ∧
    (x.leaveWait (.line i)).pool.slotsUsed = s.pool.slotsUsed + 1 ∧
    ∀ b u n, (x.leaveWait (.line i)).stamp b u n = s.stamp b u n := by
  refine ⟨?_, ?_, fun d => ?_, ?_, ?_, fun b u n => ?_⟩
  · simp [State.leaveWait, alone]
  · simp [ab.begun.granted]
  · simp only [State.leaveWait_frame, State.poll, ab.begun.polls]
  · simp only [State.leaveWait_frame, ab.begun.free]
  · simp only [State.leaveWait_frame, ab.begun.slots]
  · exact State.stamp_congr _ _ (by simp [ab.begun.clock]) (by simp [ab.begun.cfg]) b u n

end

/-- Poll tables that agree on every entry are the same. -/
theorem polls_ext {s t : State} (same : ∀ d, t.poll d = s.poll d) : t.polls = s.polls :=
  Vector.ext fun d within => same ⟨d, within⟩

/-- With a character in progress the abort is pending (R26). -/
theorem State.abortTxn_pend (v : State) (i : Fin 12) (T : Txn) :
    v.abortTxn i (.pend T) = v.modLine i (fun l => { l with hand := some { T with abortPending := true } }) := rfl

/-- Settles O41: at a dispatch (`RequestReady.aborting`) the rows of R26 are `Aborting.kept`, `Aborting.request` and
`Aborting.poll`; at a grant (`aborting_granted`) the row of WAIT_SPACE is `Aborting.waiting`. -/
theorem lineAbortActs : Obligations.LineAbortActs := by
  intro m i y cs back filled slots frame s code params discarded
  refine ⟨fun ready => ?_, fun k x between stall waits free used fails waiting hand ungranted queue due calm => ?_⟩
  · obtain ⟨ab, nobody⟩ := ready.aborting code params
    refine ⟨fun idle => ?_, fun x c hand sending out calm sound => ?_, fun x r hand work => ⟨?_, ?_⟩,
      fun x id k p hand work entry own => ⟨?_, ?_⟩⟩
    · obtain ⟨t, run, told, line, polls, used, books⟩ := ab.kept (hand := (s.line i).hand) nobody discarded
        (Line.abortCase_nothing idle) rfl rfl (State.onlyLine_rfl i _) (ab.begun.lines i) (fun _ => rfl)
      exact ⟨t, run, told, line, polls, used, books⟩
    · obtain ⟨t, run, told, line, polls, used, books⟩ := ab.kept (hand := some { x with abortPending := true }) nobody
        discarded (Line.abortCase_pend hand sending out calm sound) (workReport_length _) (State.abortTxn_pend _ i x)
        (State.onlyLine_modLine _ i _) (by rw [State.line_modLine_same, ab.begun.lines]) (fun _ => rfl)
      exact ⟨t, run, told, polls, used, books, line⟩
    · rintro ⟨guards, row⟩
      obtain ⟨t, run, told, moved⟩ := ab.request nobody discarded
        (abortCompletes_toGuard (Line.abortCase_toGuard hand row) guards) work
      exact ⟨t, run, told, moved.guarded guards⟩
    · intro inGuard
      obtain ⟨t, run, told, moved⟩ := ab.request nobody discarded
        (abortCompletes_inGuard (Line.abortCase_inGuard hand inGuard)) work
      exact ⟨t, run, told, moved.stays⟩
    · rintro ⟨guards, row⟩
      obtain ⟨t, run, told, moved⟩ := ab.poll nobody discarded
        (abortCompletes_toGuard (Line.abortCase_toGuard hand row) guards) work entry own
      exact ⟨t, run, told, moved.guarded guards⟩
    · intro inGuard
      obtain ⟨t, run, told, moved⟩ := ab.poll nobody discarded
        (abortCompletes_inGuard (Line.abortCase_inGuard hand inGuard)) work entry own
      exact ⟨t, run, told, moved.stays⟩
  · obtain ⟨ab, alone⟩ := aborting_granted code params between stall waits free used fails
    obtain ⟨nobody, granted, table, left, taken, stamps⟩ := ab.left alone
    have row := Line.abortCase_waiting hand waiting ungranted
    have three := workReport_length (some x)
    refine ⟨fun r work some => ?_, fun id q p work entry own => ?_⟩
    · have positive : 1 ≤ payloadBlocks r.payload := by rw [payloadBlocks_eq]; omega
      obtain ⟨t, run, told, line, polls, used, books⟩ := ab.waiting discarded row three
        (State.abortWaiting_request work nobody granted) queue due calm (Nat.sub_le _ 1) (Nat.sub_add_cancel positive)
      rw [stamps, show workReport (.some x) = [1] ++ halfBytes r.tag by rw [workReport, work]; rfl] at told
      exact ⟨t, run, told, line, polls_ext fun d => (polls d).trans (table d), used, books⟩
    · have report : workReport (some x) = [2, 0, natByte id.val] := by rw [workReport, work]
      have entry' := (table id).trans entry
      refine ⟨fun stays enough room => ?_, fun stays full => ?_, fun retires => ?_⟩
      · obtain ⟨t, run, told, line, polls, used, books⟩ := ab.waiting discarded row three
          (State.abortWaiting_reported work entry' own stays nobody granted (by omega) (by omega)) queue due calm
          (Nat.le_refl 0) rfl
        rw [stamps, report] at told
        refine ⟨t, run, ⟨told, line, fun d other => ?_⟩, ?_, used, books⟩
        · rw [polls, if_neg other, table]
        · rw [polls, if_pos rfl]
      · obtain ⟨t, run, told, line, polls, used, books⟩ := ab.waiting discarded row three
          (State.abortWaiting_lost work entry' stays nobody granted (by omega)) queue due calm (Nat.le_refl 0) rfl
        rw [report] at told
        refine ⟨t, run, ⟨told, line, fun d other => ?_⟩, ?_, used, books⟩
        · rw [polls, if_neg other, table]
        · rw [polls, if_pos rfl]
          rfl
      · obtain ⟨t, run, told, line, polls, used, books⟩ := ab.waiting discarded row three
          (State.abortWaiting_retired work entry' own retires nobody granted) queue due calm (Nat.le_refl 0) rfl
        rw [report] at told
        refine ⟨t, run, ⟨told, line, fun d other => ?_⟩, ?_, used, books⟩
        · rw [polls, if_neg other, table]
        · rw [polls, if_pos rfl]

end Sys2Proof.Machine
end
